-- ==== Sys2Proof/Word.lean ====
section
/-! DEFINITION. The words and indexes of the SB-224: bytes, addresses and the numbered things of each block. -/

namespace Sys2Proof

/-- One byte of a packet, a record, a buffer or the peripheral data bus. -/
abbrev Byte := BitVec 8

/-- An address of the 24-bit upstream address space. -/
abbrev UpAddr := BitVec 24

/-- An address of the 16-bit target address space, as driven on PA[15:0]. -/
abbrev TargetAddr := BitVec 16

/-- An agent on the upstream link, 0–3. -/
abbrev Initiator := Fin 4

/-- A peripheral selected by one of SEL[15:0], 0–15. -/
abbrev TargetId := Fin 16

/-- A place of the Transaction Tracker, 0–15. -/
abbrev Slot := Fin 16

/-- An index of the Window Table, 0–31. -/
abbrev WindowIx := Fin 32

/-- A notice source, 0–11. -/
abbrev Source := Fin 12

/-- A line of IRQ[7:0]. -/
abbrev IrqLine := Fin 8

/-- A tag chosen by an initiator, 0–31. -/
abbrev Tag := Fin 32

end Sys2Proof
end

