-- ==== Sys2Proof/Config.lean ====
section
/-! DEFINITION. The constants the spec fixes for the SB-224. Every count of bus clocks is of the 40 MHz clock
REFCLK (25 ns). The spec leaves no value of a result open, so this file holds no free value. -/

namespace Sys2Proof.Config

/-- Bus clocks in one microsecond (40 MHz, section 10.4). -/
abbrev clocksPerMicrosecond : Nat := 40

/-- Bus clocks in one recovery tick of 100 ns (R103). -/
abbrev clocksPerTick : Nat := 4

/-- Bus clocks in one millisecond (R33, R157). -/
abbrev clocksPerMillisecond : Nat := 40000

/-- The least time, in ns, for which PORST# is held asserted to be a power-on reset (R188). -/
abbrev porstMinimumNs : Nat := 1000

/-- REFCLK cycles of table initialization (R188). -/
abbrev initializationCycles : Nat := 2000

/-- The quiet time of the link in DOWN, 10 µs, in bus clocks (R114). -/
abbrev quietClocks : Nat := 400

/-- Consecutive samples at which a level of IRQ[7:0] or EXTREQ is taken (R187). -/
abbrev samplesToTake : Nat := 2

/-- The first byte of management space (R147). -/
abbrev managementBase : Nat := 0xFFF000

/-- The last address a window may reach (R2). -/
abbrev lastWindowAddress : Nat := 0xFFEFFF

/-- Tracker entries in all, and of one initiator (R42). -/
abbrev trackerEntries : Nat := 16
/-- Tracker entries of one initiator (R42). -/
abbrev entriesPerInitiator : Nat := 8
/-- Entryless places of the answer list (R56). -/
abbrev entrylessPlaces : Nat := 8
/-- REQUEST packets the receive queue holds (R122). -/
abbrev receivePlaces : Nat := 8
/-- Packets the transmit queue holds (R126). -/
abbrev transmitPlaces : Nat := 4
/-- Answers the MGB holds (R148). -/
abbrev heldAnswers : Nat := 4
/-- Notices outstanding at one initiator (R134). -/
abbrev outstandingNotices : Nat := 4
/-- Bytes of the request buffer and of the result buffer (R147). -/
abbrev bufferBytes : Nat := 512

end Sys2Proof.Config
end

