-- ==== Sys2Proof/Syntax.lean ====
section
/-! DEFINITION. The commands of the SB-224: one constructor of `Instr` for each row of spec/opcode_table.json.
A command is one indivisible step of the device (spec/95_what_each_step_holds.md): what reaches a pin, a packet that
arrives, a timer that expires, or the taking by one block of what another handed to it. An operand is what the step does
not find in the device: bytes on the link, a data bus value, the line or target meant, or which handed item is taken. -/

namespace Sys2Proof

/-- An event of one of the notice sources 8 to 11, with the initiator the event names where it names one (R131). -/
inductive NoticeEvent where
  /-- Source 8, POSTED_FAULT, of the initiator whose posted write failed. -/
  | postedFault (i : Initiator)
  /-- Source 9, TARGET_DOWN. -/
  | targetDown
  /-- Source 10, LEND_OVERRUN. -/
  | lendOverrun
  /-- Source 11, MAILBOX_RESULT, of the initiator that owns the mailbox. -/
  | mailboxResult (i : Initiator)
deriving DecidableEq, Repr

/-- At how many consecutive edges EXTREQ was sampled withdrawn, and at how many it was then sampled asserted again before
the evaluation of the arbiter that follows the return of the bus; 0 where it was not (R112, R187). -/
structure ExtreqSamples where
  withdrawn : Nat
  again : Nat
deriving DecidableEq, Repr

/-- The commands, in the order of the table. -/
inductive Instr where
  /-- PORST# was held asserted for `heldNs` nanoseconds (R188). -/
  | porstAsserted (heldNs : Nat)
  /-- PORST# is released (R188). -/
  | porstReleased
  /-- The 2000 cycles of table initialization have passed (R188). -/
  | tableInitializationComplete
  /-- The quiet time in DOWN ends (R114). -/
  | quietTimeEnd
  /-- Training completes (R115). -/
  | trainingComplete
  /-- Training fails, or the partner is lost (R114). -/
  | trainingFailed
  /-- The link is lost while UP (R116). -/
  | linkLost
  /-- The TRK takes a link reset (R66). -/
  | trkLinkReset
  /-- The IRL takes a link reset (R144). -/
  | irlLinkReset
  /-- The MGB takes a link reset (R159). -/
  | mgbLinkReset
  /-- A packet of the given bytes arrives, its integrity check passed or not (R121). -/
  | packetArrival (integrityOk : Bool) (bytes : List Byte)
  /-- The TRK takes the READ at the head of the receive queue (R47). -/
  | read
  /-- The TRK takes the WRITE at the head of the receive queue (R47). -/
  | write
  /-- The TRK takes the POSTED request at the head of the receive queue (R52). -/
  | posted
  /-- The TRK takes the FLUSH at the head of the receive queue (R60). -/
  | flush
  /-- The TRK takes the DETACH at the head of the receive queue (R62). -/
  | detach
  /-- The TRK takes the request of unknown kind at the head of the receive queue (R48). -/
  | unknownKind
  /-- The MGB takes the CLAIM read at the head of the receive queue (R152). -/
  | claim
  /-- The MGB takes the SUBMIT write at the head of the receive queue (R154). -/
  | submit
  /-- The MGB takes the RELEASE write at the head of the receive queue (R156). -/
  | release
  /-- The MGB takes the NOTICE ACK write at the head of the receive queue (R136). -/
  | noticeAck
  /-- The MGB takes the request-buffer WRITE at the head of the receive queue (R153). -/
  | requestBufferWrite
  /-- The MGB refuses the POSTED request at the head of the receive queue (R124). -/
  | managementPostedWrite
  /-- The MGB refuses the unmapped or malformed WRITE at the head of the receive queue (R148). -/
  | managementWrite
  /-- The TRK hands the answer at the head of its answer list (R56). -/
  | answerHanded
  /-- The MGB hands its oldest held answer (R148). -/
  | mgbAnswerHanded
  /-- The IRL hands a notice (R135). -/
  | noticeHanding
  /-- The transmission of the packet at the head of the transmit queue ends (R126). -/
  | packetTransmissionEnd
  /-- PRDY is low at the end of the last strobe clock of the ready timeout (R100). -/
  | readyTimeout
  /-- The hold of the byte cycle ends (R101). -/
  | byteCycleEnd
  /-- The TGT takes the oldest outcome handed for target `t`, a completed cycle (R30). -/
  | cycleCompletion (t : TargetId)
  /-- The TGT takes the oldest outcome handed for target `t`, a timed-out cycle (R31). -/
  | cycleTimeout (t : TargetId)
  /-- The TRK takes the oldest OFFLINE announcement of target `t` (R65). -/
  | offlineAnnouncement (t : TargetId)
  /-- The TRK takes the segment end report (R106). -/
  | segmentEndReport
  /-- The recovery timer of target `t` expires (R103). -/
  | recoveryTimerExpiry (t : TargetId)
  /-- The 1 ms tick (R33). -/
  | ageTick
  /-- EXTREQ has been sampled asserted at `samples` consecutive edges (R93, R187). -/
  | extreqAsserted (samples : Nat)
  /-- EXTREQ has been sampled withdrawn, and perhaps asserted again before the evaluation (R112, R187). -/
  | extreqWithdrawn (samples : ExtreqSamples)
  /-- The lend timer reaches the lend limit (R110). -/
  | lendLimitReached
  /-- IRQ line `n` has been sampled asserted at `samples` consecutive edges (R132, R187). -/
  | irqAsserted (n : IrqLine) (samples : Nat)
  /-- IRQ line `n` has been sampled withdrawn at `samples` consecutive edges (R132, R187). -/
  | irqWithdrawn (n : IrqLine) (samples : Nat)
  /-- The IRL takes the event `e` (R133). -/
  | eventSource (e : NoticeEvent)
  /-- The IRL takes the clearing of initiator `i`'s posted-fault record by a FLUSH (R143). -/
  | flushWithdrawal (i : Initiator)
  /-- The IRL takes the detach of initiator `i` (R145). -/
  | irlDetach (i : Initiator)
  /-- The MGB takes the detach of initiator `i` (R159). -/
  | mgbDetach (i : Initiator)
  /-- The lease timer expires (R158). -/
  | leaseExpiry
  /-- The CFX examines the next record of the walk (R166). -/
  | structureCheck
  /-- The CFX forms the shadow (R169). -/
  | shadowFormation
  /-- The CFX stages a SET WINDOW record (R10, R16). -/
  | setWindow
  /-- The CFX stages an ENABLE WINDOW record (R11, R16). -/
  | enableWindow
  /-- The CFX stages a DISABLE WINDOW record (R12, R16). -/
  | disableWindow
  /-- The CFX stages a CLEAR WINDOW record (R13, R16). -/
  | clearWindow
  /-- The CFX stages a GET WINDOW record (R23). -/
  | getWindow
  /-- The CFX stages a SET TARGET record (R34, R37). -/
  | setTarget
  /-- The CFX stages a CLEAR TARGET record (R35, R37). -/
  | clearTarget
  /-- The CFX stages a REVIVE TARGET record (R36, R37). -/
  | reviveTarget
  /-- The CFX stages a GET TARGET record (R38). -/
  | getTarget
  /-- The CFX stages a SET ROUTE record (R138). -/
  | setRoute
  /-- The CFX stages a SET THRESHOLD record (R138). -/
  | setThreshold
  /-- The CFX stages a SET LIMITS record (R172). -/
  | setLimits
  /-- The CFX stages a QUIESCE record (R45, R171). -/
  | quiesce
  /-- The CFX stages a RESUME record (R45, R171). -/
  | resume
  /-- The CFX stages a GET STATUS record (R173). -/
  | getStatus
  /-- The CFX stages an END record (R171). -/
  | endRecord
  /-- The commit step (R175). -/
  | commit
  /-- The CFX hands the execution end and the MGB takes it (R155, R180). -/
  | executionEnd
  /-- The MGB takes the READ, other than CLAIM, at the head of the receive queue (R148). -/
  | managementRead
  /-- PRDY is sampled high at the end of strobe clock `clock`, with `data` on PD[7:0] (R99). -/
  | prdySampledHigh (clock : Nat) (data : Byte)
deriving DecidableEq, Repr

end Sys2Proof
end

