-- ==== Sys2Proof/WellFormed.lean ====
section
/-! DEFINITION. Which commands are well formed: the operands that something on a pin or on the link can have.
The meanings are total: they answer for a command that is not well formed too, though nothing outside the device can
cause one. -/

namespace Sys2Proof

/-- A strobe clock is numbered from 1 (R99), a level is sampled at one edge or more (R187), a packet has its first
byte (R182). Every other command is well formed with any operand. -/
def Instr.wellFormed : Instr → Bool
  | .prdySampledHigh clock _ => decide (1 ≤ clock)
  | .extreqAsserted samples => decide (1 ≤ samples)
  | .extreqWithdrawn samples => decide (1 ≤ samples.withdrawn)
  | .irqAsserted _ samples => decide (1 ≤ samples)
  | .irqWithdrawn _ samples => decide (1 ≤ samples)
  | .packetArrival _ bytes => !bytes.isEmpty
  | .porstAsserted _ | .porstReleased | .tableInitializationComplete | .quietTimeEnd | .trainingComplete
  | .trainingFailed | .linkLost | .trkLinkReset | .irlLinkReset | .mgbLinkReset | .read | .write | .posted | .flush
  | .detach | .unknownKind | .claim | .submit | .release | .noticeAck | .requestBufferWrite
  | .managementPostedWrite | .managementWrite | .answerHanded | .mgbAnswerHanded | .noticeHanding
  | .packetTransmissionEnd | .readyTimeout | .byteCycleEnd | .cycleCompletion _ | .cycleTimeout _
  | .offlineAnnouncement _ | .segmentEndReport | .recoveryTimerExpiry _ | .ageTick | .lendLimitReached
  | .eventSource _ | .flushWithdrawal _ | .irlDetach _ | .mgbDetach _ | .leaseExpiry | .structureCheck
  | .shadowFormation | .setWindow | .enableWindow | .disableWindow | .clearWindow | .getWindow | .setTarget
  | .clearTarget | .reviveTarget | .getTarget | .setRoute | .setThreshold | .setLimits | .quiesce | .resume
  | .getStatus | .endRecord | .commit | .executionEnd | .managementRead => true

end Sys2Proof
end

