-- ==== Sys2Proof/Decode.lean ====
section
/-! DEFINITION. The command that a word spells. spec/opcode_table.json gives no bits for any of its 68 rows (the
rows are steps of the device, named by the rule that gives them), so no word spells a command. -/

namespace Sys2Proof

/-- No row of the table gives bits: every word is answered `none`. -/
def decodeTableWord (_nbits _w : Nat) : Option Instr := none

end Sys2Proof
end

