-- ==== Sys2Proof/Machine/State.lean ====
section
/-! DEFINITION. The state of the SB-224, block by block, as plain data, and its value right after power-on reset.
A block's record holds what spec/00_scope.md ("Blocks") and the block's own chapter say the block holds. What one block
has handed to another and the other has not yet taken is in `Handed`. -/

namespace Sys2Proof.Machine

/-! ## Codes and names -/

/-- The fifteen response statuses (R125). -/
inductive Status where
  | ok | retry | format | tagBusy | miss | span | denied | align | offline | timeout | postedFault | detached
  | notOwner | mbxState | notOutstanding
deriving DecidableEq, Repr

/-- A named set of 1, 2 or 4: the unit of a window, in bytes (R5). -/
inductive UnitSize where
  | one | two | four
deriving DecidableEq, Repr

/-- The mode of a window (section 1.2). -/
inductive WindowMode where
  | linear | port | splitPort
deriving DecidableEq, Repr

/-- The lane order of a window (R5). -/
inductive LaneOrder where
  | ascending | descending
deriving DecidableEq, Repr

/-- The atomic boundary of a window: none, or 4, 8, 16, 32 or 64 bytes (R7). -/
inductive AtomicBoundary where
  | none | b4 | b8 | b16 | b32 | b64
deriving DecidableEq, Repr

/-- The health state of a target (R29). -/
inductive TargetState where
  | absent | online | suspect | offline
deriving DecidableEq, Repr

/-- The admission gate (R45): OPEN, QUIESCING, QUIESCED. -/
inductive Gate where
  | opened | quiescing | quiesced
deriving DecidableEq, Repr

/-- The state of a delivery pair (R130). -/
inductive PairState where
  | idle | pending | notified
deriving DecidableEq, Repr

/-- The sixteen record kinds (R164). -/
inductive RecordKind where
  | setWindow | enableWindow | disableWindow | clearWindow | getWindow
  | setTarget | clearTarget | reviveTarget | getTarget
  | setRoute | setThreshold | setLimits | quiesce | resume | getStatus | endRecord
deriving DecidableEq, Repr

/-- The status with which a record stages or is answered (R178). -/
inductive RecordStatus where
  | done | badField | overlap | indexBusy | targetInUse | notRun
deriving DecidableEq, Repr

/-- The reason of a rejection in phase STRUCTURE (R166, R167). -/
inductive StructureReason where
  | badChecksum | badLength | badType | badSequence | noEnd | resultTooLarge
deriving DecidableEq, Repr

/-! ## Window Decoder (chapter 1) -/

/-- The profile of a window (section 1.2). -/
structure Profile where
  base : UpAddr
  size : Nat
  target : TargetId
  mode : WindowMode
  targetBase : TargetAddr
  readPort : TargetAddr
  writePort : TargetAddr
  unit : UnitSize
  lane : LaneOrder
  rse : Bool
  ab : AtomicBoundary
  readMask : BitVec 4
  writeMask : BitVec 4
deriving DecidableEq, Repr

/-- The state of a window that holds a profile (section 1.3). -/
inductive LoadedStatus where
  | disabled | active | draining
deriving DecidableEq, Repr

/-- An entry of the Window Table: EMPTY with no profile and count 0, or loaded with a state, a reference count and a
profile (R1). -/
inductive Window where
  | empty
  | loaded (status : LoadedStatus) (count : Nat) (profile : Profile)
deriving DecidableEq, Repr

/-! ## Target Table (chapter 2) -/

/-- A target record (R25). Recovery is in ticks of 100 ns, ready timeout in µs, strobe width in bus clocks, age in ms. -/
structure TargetRecord where
  state : TargetState
  recovery : Nat
  readyTimeout : Nat
  strobeWidth : Nat
  threshold : Nat
  consecutive : Nat
  errors : Nat
  age : Nat
deriving DecidableEq, Repr

/-- The power-on value of a target record (R40), which is also what CLEAR TARGET leaves (R35). -/
def TargetRecord.powerOn : TargetRecord where
  state := .absent
  recovery := 0
  readyTimeout := 16
  strobeWidth := 3
  threshold := 3
  consecutive := 0
  errors := 0
  age := 255

/-! ## Host Link Port (chapter 6) -/

/-- The link state (R114). -/
inductive LinkState where
  | down | training | up
deriving DecidableEq, Repr

/-- The request kind of a REQUEST packet (R118). -/
inductive RequestKind where
  | read | write | posted | flush | detach | unknown
deriving DecidableEq, Repr

/-- The fields of a REQUEST packet (R118). -/
structure Request where
  initiator : Initiator
  kind : RequestKind
  tag : Tag
  address : UpAddr
  length : Nat
  payload : List Byte
deriving DecidableEq, Repr

/-- A valid posted-fault record: its first fault and its count (R58). -/
structure FaultRecord where
  status : Status
  address : UpAddr
  done : Nat
  count : Nat
deriving DecidableEq, Repr

/-- What a response carries after its header (R119, R183). -/
inductive Carried where
  | nothing
  | data (bytes : List Byte)
  | fault (record : FaultRecord)
  | dropped (count : Nat)
deriving DecidableEq, Repr

/-- The fields of a RESPONSE packet (R119). -/
structure Response where
  initiator : Initiator
  tag : Tag
  status : Status
  done : Nat
  carried : Carried
deriving DecidableEq, Repr

/-- The fields of a NOTICE packet (R120). -/
structure Notice where
  initiator : Initiator
  source : Source
  vector : Byte
  priority : Fin 16
deriving DecidableEq, Repr

/-- A packet of the transmit queue (R126). -/
inductive OutPacket where
  | response (r : Response)
  | notice (n : Notice)
deriving DecidableEq, Repr

/-- The three blocks that hand packets to the transmit queue (R126). -/
inductive OutBlock where
  | trk | mgb | irl
deriving DecidableEq, Repr

/-- The Host Link Port: link state, the quiet time of DOWN (bus clocks left), the receive and transmit queues (heads
first), the dropped-packet count and the outbound pointer. `contended` is the model's own: the free place of the
transmit queue opened while the queue was full and a block waited for it, so R126's rotation gives it. -/
structure LinkPort where
  link : LinkState
  quiet : Option Nat
  receive : List Request
  transmit : List OutPacket
  dropped : Nat
  pointer : OutBlock
  contended : Bool
deriving DecidableEq, Repr

/-! ## Transaction Tracker (chapter 3) -/

/-- The kind of an entry that has a window (R42). -/
inductive TransferKind where
  | read | write | posted
deriving DecidableEq, Repr

/-- What a READ, WRITE or POSTED entry holds (R42): kind, address, length, window index, snapshot, progress, data. -/
structure Transfer where
  kind : TransferKind
  address : UpAddr
  length : Nat
  window : WindowIx
  snapshot : Profile
  progress : Nat
  data : List Byte
deriving DecidableEq, Repr

/-- What an entry holds by its kind. A FLUSH holds no address, window, snapshot or target; once it is DONE it holds the
posted-fault record its response carries, if any (R61). -/
inductive EntryBody where
  | transfer (x : Transfer)
  | flush (report : Option FaultRecord)
deriving DecidableEq, Repr

/-- The outcome of a DONE entry (R42). -/
inductive EntryOutcome where
  | ok | timeout | offline
deriving DecidableEq, Repr

/-- The state of an entry (R43). The disposition DROPPED exists IN_SEGMENT only, the outcome when DONE only. -/
inductive EntryState where
  | waiting
  | inSegment (dropped : Bool)
  | done (outcome : EntryOutcome)
deriving DecidableEq, Repr

/-- A tracker entry (R42). `serial` is the model's own: the number of entries admitted before this one since power-on
reset, by which an OFFLINE announcement names the entries admitted before the passage (R32). -/
structure Entry where
  slot : Slot
  serial : Nat
  initiator : Initiator
  tag : Tag
  body : EntryBody
  state : EntryState
deriving DecidableEq, Repr

/-- A place of the answer list that is ready (R56): the answer of a DONE entry, a refusal, or the answer of the detach
of an initiator. -/
inductive Answer where
  | entry (slot : Slot)
  | refusal (r : Response)
  | detached (i : Initiator)
deriving DecidableEq, Repr

/-- A detach in progress (R62): the DETACH's tag and the dropped count set at its arrival. -/
structure DetachRecord where
  tag : Tag
  dropped : Nat
deriving DecidableEq, Repr

/-- The Transaction Tracker: the entries in age order (oldest first, R44), the gate, the four posted-fault records, the
ready answers in their order (R56), the detaches in progress and the next serial number. -/
structure Tracker where
  entries : List Entry
  gate : Gate
  faults : Vector (Option FaultRecord) 4
  answers : List Answer
  detaches : Vector (Option DetachRecord) 4
  nextSerial : Nat
deriving DecidableEq, Repr

/-! ## Peripheral Bus Engine (chapters 4 and 5) -/

/-- What the byte of a cycle is for (R72, R74, R75): the requested byte at a position of the transfer, a byte read and
discarded, or the byte of a merge at an upstream address that the request does not supply. -/
inductive ByteUse where
  | request (position : Nat)
  | discard
  | merge (address : Nat)
deriving DecidableEq, Repr

/-- One byte cycle of a cycle list (R97). `unitEnd` marks the last cycle of a unit with the unit's requested bytes. -/
structure CycleSpec where
  write : Bool
  addr : TargetAddr
  use : ByteUse
  unitEnd : Option Nat
deriving DecidableEq, Repr

/-- How the strobe of a cycle ended (R99, R100): completed, with the value a read took, or timed out. -/
inductive CycleResult where
  | completed (taken : Option Byte)
  | timedOut
deriving DecidableEq, Repr

/-- The phase of a byte cycle (section 5.5); a strobe counts the strobe clocks that have ended. -/
inductive CyclePhase where
  | setup
  | strobe (ended : Nat)
  | hold (result : CycleResult)
deriving DecidableEq, Repr

/-- The byte cycle in progress: the cycle, the strobe width and ready timeout read at its setup (R98), the value driven
on PD[7:0] where it writes, and its phase. -/
structure CycleRun where
  spec : CycleSpec
  strobeWidth : Nat
  readyTimeout : Nat
  driven : Option Byte
  phase : CyclePhase
deriving DecidableEq, Repr

/-- The segment end report (R85, R86). -/
structure SegmentReport where
  slot : Slot
  units : Nat
  bytes : Nat
  values : List Byte
  timedOut : Bool
deriving DecidableEq, Repr

/-- The segment context (R97). `start` is the progress at the choice; `unitsDone` and `bytesDone` count the units whose
cycles have all completed and their requested bytes; `held` is the values of a READ by position, `merged` the values of
the running merge by upstream address; `run` is the byte cycle in progress; `report` is the report handed at the
segment's end and not yet taken (R106). -/
structure SegmentContext where
  slot : Slot
  target : TargetId
  write : Bool
  mode : WindowMode
  readPort : TargetAddr
  writePort : TargetAddr
  cycles : List CycleSpec
  next : Nat
  start : Nat
  unitsDone : Nat
  bytesDone : Nat
  held : List (Nat × Byte)
  merged : List (Nat × Byte)
  timedOut : Bool
  run : Option CycleRun
  report : Option SegmentReport
deriving DecidableEq, Repr

/-- The bus state; SEGMENT holds the segment context (R90, R91). -/
inductive BusState where
  | idle
  | segment (context : SegmentContext)
  | lent
deriving DecidableEq, Repr

/-- The Peripheral Bus Engine (R90). A recovery timer holds the bus clocks left, 0 when expired; the lend timer holds the
bus clocks since the grant while it runs. The outcome marks are the untaken outcomes of `Handed.outcomes`. -/
structure BusEngine where
  bus : BusState
  recovery : Vector Nat 16
  pointer : Initiator
  lendTimer : Option Nat
  overrunMark : Bool
  segmentLimit : Nat
  lendLimit : Nat
  lendOverrun : Bool
deriving DecidableEq, Repr

/-! ## Interrupt Relay (chapter 7) -/

/-- The route of a source (R130). -/
structure Route where
  priority : Fin 16
  destination : Initiator
  vector : Byte
deriving DecidableEq, Repr

/-- The Interrupt Relay (R130): routes, thresholds, the delivery table by source and initiator, the notice pointer and
the link view (set: UP). -/
structure Relay where
  routes : Vector Route 12
  thresholds : Vector (Fin 16) 4
  pairs : Vector (Vector PairState 4) 12
  pointer : Initiator
  linkUp : Bool
deriving DecidableEq, Repr

/-! ## Management Block (chapter 8) -/

/-- The mailbox with its owner and, when BUSY, its release-pending mark (R151). -/
inductive Mailbox where
  | free
  | claimed (owner : Initiator)
  | busy (owner : Initiator) (releasePending : Bool)
  | result (owner : Initiator)
deriving DecidableEq, Repr

/-- The Management Block (R147, R160): mailbox, lease timer (bus clocks left while it runs), lease in ms, claim mask, the
two buffers by offset from their first byte, the lease-lost record, the commit count, CONFIG_LOADED, and the held
answers, oldest first. -/
structure Management where
  mailbox : Mailbox
  leaseTimer : Option Nat
  lease : Nat
  claimMask : BitVec 4
  requestBuffer : List Host.Cell
  resultBuffer : List Host.Cell
  lostLast : Option Initiator
  lostCount : Nat
  commitCount : Nat
  configLoaded : Bool
  answers : List Response
deriving DecidableEq, Repr

/-! ## Configuration Executor (chapter 9) -/

/-- The phase of an executing chain (R161). -/
inductive ChainPhase where
  | structural | staging | committing
deriving DecidableEq, Repr

/-- A record of the record list: its offset in the request buffer, kind and sequence (R161). -/
structure RecordRef where
  offset : Nat
  kind : RecordKind
  sequence : Nat
deriving DecidableEq, Repr

/-- The result of a staged record: its status and its report (R178). -/
structure RecordResult where
  status : RecordStatus
  payload : List Byte
deriving DecidableEq, Repr

/-- The shadow (R169). -/
structure Shadow where
  windows : Vector Window 32
  targets : Vector TargetRecord 16
  routes : Vector Route 12
  thresholds : Vector (Fin 16) 4
  gate : Gate
  occupancy : Nat
  segmentLimit : Nat
  lendLimit : Nat
  lease : Nat
  claimMask : BitVec 4
deriving DecidableEq, Repr

/-- The CFX while EXECUTING (R161): phase, chain length, walk position, record list, shadow, the results so far by
sequence. `finished` is the model's own: the result buffer is complete and the execution end is to be handed. -/
structure Executor where
  phase : ChainPhase
  chainLength : Nat
  walk : Nat
  records : List RecordRef
  shadow : Option Shadow
  results : List RecordResult
  finished : Bool
deriving DecidableEq, Repr

/-! ## Power, pins and what is handed between blocks -/

/-- Start-up (R188): PORST# asserted, table initialization with the REFCLK cycles left, or running. -/
inductive Boot where
  | held
  | initializing (left : Nat)
  | running
deriving DecidableEq, Repr

/-- Start-up and the bus clocks counted of the present millisecond of the 1 ms timebase (R33). -/
structure Power where
  boot : Boot
  msClock : Nat
deriving DecidableEq, Repr

/-- The levels of the sampled input pins (set: asserted). -/
structure Pins where
  irq : Vector Bool 8
  extreq : Bool
deriving DecidableEq, Repr

/-- An OFFLINE announcement handed to the TRK: the target and the serial number the next entry had at the passage, so that
it reaches the entries admitted before it (R32). -/
structure Announcement where
  target : TargetId
  before : Nat
deriving DecidableEq, Repr

/-- The clearing of an initiator's posted-fault record by a FLUSH response, told to the IRL (R143). `older` is the number
of events of source 8 of the initiator that were handed before it and are not yet taken. -/
structure Clearing where
  initiator : Initiator
  older : Nat
deriving DecidableEq, Repr

/-- News of the HLP to the IRL (R115, R116). -/
inductive LinkNews where
  | reset | up
deriving DecidableEq, Repr

/-- What one block has handed to another and the other has not taken, oldest first: cycle outcomes to the TGT (set:
completed, R101), OFFLINE announcements to the TRK (R32), events, FLUSH withdrawals and detaches to the IRL, detaches to
the MGB, and link resets to the TRK, the MGB and the IRL, the IRL's with the news that the link is UP. -/
structure Handed where
  outcomes : List (TargetId × Bool)
  announcements : List Announcement
  events : List NoticeEvent
  withdrawals : List Clearing
  irlDetaches : List Initiator
  mgbDetaches : List Initiator
  trkResets : Nat
  mgbResets : Nat
  irlNews : List LinkNews
deriving DecidableEq, Repr

/-- The whole device, with the queue of the commands that are waiting. -/
structure State where
  power : Power
  pins : Pins
  hlp : LinkPort
  wdc : Vector Window 32
  tgt : Vector TargetRecord 16
  trk : Tracker
  pbe : BusEngine
  irl : Relay
  mgb : Management
  cfx : Option Executor
  handed : Handed
  pending : List Instr
deriving DecidableEq, Repr

/-! ## Stops -/

/-- The faults. The spec gives the device no fault that stops it: what goes wrong in traffic or in a chain is answered,
recorded or noticed, and the device goes on. No command raises a fault, so there is no constructor (safe). -/
inductive Fault where
deriving DecidableEq, Repr

/-- The refusals. -/
inductive Refusal where
  /-- Raised by `exec` for a command without a meaning; no arm of this model raises it. Safe: the model stops. -/
  | notModelled (mnemonic : String)
deriving DecidableEq, Repr

/-! ## Power-on values -/

/-- R129. -/
def LinkPort.powerOn : LinkPort where
  link := .down
  quiet := none
  receive := []
  transmit := []
  dropped := 0
  pointer := .trk
  contended := false

/-- R68. -/
def Tracker.powerOn : Tracker where
  entries := []
  gate := .opened
  faults := Vector.replicate 4 none
  answers := []
  detaches := Vector.replicate 4 none
  nextSerial := 0

/-- R90, R113. -/
def BusEngine.powerOn : BusEngine where
  bus := .idle
  recovery := Vector.replicate 16 0
  pointer := 0
  lendTimer := none
  overrunMark := false
  segmentLimit := 16
  lendLimit := 0
  lendOverrun := false

/-- R130, R146. -/
def Relay.powerOn : Relay where
  routes := Vector.replicate 12 ⟨0, 0, 0⟩
  thresholds := Vector.replicate 4 0
  pairs := Vector.replicate 12 (Vector.replicate 4 .idle)
  pointer := 0
  linkUp := false

/-- R160. -/
def Management.powerOn : Management where
  mailbox := .free
  leaseTimer := none
  lease := 20
  claimMask := 0b1111
  requestBuffer := []
  resultBuffer := []
  lostLast := none
  lostCount := 0
  commitCount := 0
  configLoaded := false
  answers := []

/-- Nothing handed and not taken. -/
def Handed.nothing : Handed where
  outcomes := []
  announcements := []
  events := []
  withdrawals := []
  irlDetaches := []
  mgbDetaches := []
  trkResets := 0
  mgbResets := 0
  irlNews := []

/-- Every block at its power-on value, with the given start-up stage and pin levels and the queue of the waiting commands
(R24, R40, R68, R113, R129, R146, R160, R181, R188). -/
def State.powerOn (boot : Boot) (pins : Pins) (pending : List Instr) : State where
  power := ⟨boot, 0⟩
  pins := pins
  hlp := LinkPort.powerOn
  wdc := Vector.replicate 32 .empty
  tgt := Vector.replicate 16 TargetRecord.powerOn
  trk := Tracker.powerOn
  pbe := BusEngine.powerOn
  irl := Relay.powerOn
  mgb := Management.powerOn
  cfx := none
  handed := Handed.nothing
  pending := pending

/-- The device right after power-on reset: PORST# has just been released and table initialization begins (R188). The
levels of the input pins are the board's: the model takes every line withdrawn (DESIGN CHOICE, log entry 3). -/
def State.reset : State :=
  State.powerOn (.initializing Config.initializationCycles) ⟨Vector.replicate 8 false, false⟩ []

end Sys2Proof.Machine
end

