-- ==== Sys2Proof/Machine/Ops.lean ====
section
/-! DEFINITION. The named operations that every block shares: tables, buffers, little-endian bytes, checksums, the
rotation of initiators, and the steps that reach more than one block (a departure from the tracker, a posted fault, an
overrun). -/

namespace Sys2Proof.Machine

/-! ## Tables -/

/-- The table whose entry `i` is `f i`. -/
def tabulate {α : Type} {n : Nat} (f : Fin n → α) : Vector α n :=
  ⟨⟨(List.finRange n).map f⟩, by simp⟩

/-- The initiators in turn, beginning with `p` and wrapping from 3 to 0 (R95, R135). -/
def rotation (p : Initiator) : List Initiator := [p, p + 1, p + 2, p + 3]

/-! ## Buffers: lists of (offset, byte) in canonical form -/

/-- What a byte that is not listed reads as: both buffers are all zero after power-on reset (R160). -/
def unlistedByte : Byte := 0

/-- The byte of a buffer at offset `a`. -/
def readByte : List Host.Cell → Nat → Byte
  | [], _ => unlistedByte
  | (k, v) :: rest, a => if k = a then v else readByte rest a

/-- The buffer with the byte at offset `a` replaced; the canonical form is kept. -/
def writeByte : List Host.Cell → Nat → Byte → List Host.Cell
  | [], a, v => if v = unlistedByte then [] else [(a, v)]
  | (k, w) :: rest, a, v =>
    if k < a then (k, w) :: writeByte rest a v
    else if k = a then (if v = unlistedByte then rest else (a, v) :: rest)
    else if v = unlistedByte then (k, w) :: rest else (a, v) :: (k, w) :: rest

/-- The buffer with the bytes from offset `a` on replaced by `bs`. -/
def writeBytes : List Host.Cell → Nat → List Byte → List Host.Cell
  | m, _, [] => m
  | m, a, b :: bs => writeBytes (writeByte m a b) (a + 1) bs

/-- The `n` bytes of a buffer from offset `a` on. -/
def readBytes (m : List Host.Cell) (a n : Nat) : List Byte :=
  (List.range n).map fun k => readByte m (a + k)

/-- The canonical form from offset `lo` on: offsets strictly rising and below `hi`, no byte listed that reads the same
unlisted. -/
def bufferWfFrom (lo hi : Nat) : List Host.Cell → Bool
  | [] => true
  | (k, v) :: rest => decide (lo ≤ k) && decide (k < hi) && decide (v ≠ unlistedByte) && bufferWfFrom (k + 1) hi rest

/-- A buffer of 512 bytes in canonical form. -/
def Memory.wf (m : List Host.Cell) : Bool := bufferWfFrom 0 Config.bufferBytes m

/-! ## Bytes -/

/-- `n` bytes of `x`, least significant first (section 10, "Bytes and ordering"). -/
def leBytes : Nat → Nat → List Byte
  | 0, _ => []
  | n + 1, x => BitVec.ofNat 8 x :: leBytes n (x / 256)

/-- The number that little-endian bytes spell. -/
def leNat : List Byte → Nat
  | [] => 0
  | b :: bs => b.toNat + 256 * leNat bs

/-- Byte `k` of a list, 0 past its end. -/
def byteAt (bs : List Byte) (k : Nat) : Byte := bs.getD k 0

/-- The sum of bytes modulo 256. -/
def byteSum (bs : List Byte) : Byte := bs.foldl (· + ·) 0

/-- The byte that makes bytes and it sum to 0 modulo 256 (R163, R178, R149). -/
def checksum (bs : List Byte) : Byte := 0 - byteSum bs

/-- Bytes closed by their checksum. -/
def withChecksum (bs : List Byte) : List Byte := bs ++ [checksum bs]

/-- One more, staying at 255 (R31, R58, R123, R158). -/
def saturate255 (n : Nat) : Nat := if n < 255 then n + 1 else n

/-! ## Windows and their reference counts -/

/-- The address after the last of a profile's range (R2). -/
def Profile.limit (p : Profile) : Nat := p.base.toNat + 256 * p.size

/-- An upstream address lies in a profile's range (R2). -/
def Profile.contains (p : Profile) (a : Nat) : Bool := decide (p.base.toNat ≤ a) && decide (a < p.limit)

/-- Two ranges share at least one address (R15). -/
def Profile.overlaps (p q : Profile) : Bool :=
  decide (p.base.toNat < q.limit) && decide (q.base.toNat < p.limit)

/-- A window with one more entry decoded to it (R17). -/
def Window.addReference : Window → Window
  | .loaded st n p => .loaded st (n + 1) p
  | .empty => .empty

/-- A window with one entry fewer decoded to it; a DRAINING window whose count falls to 0 passes to DISABLED (R14, R18). -/
def Window.dropReference : Window → Window
  | .loaded .draining 1 p => .loaded .disabled 0 p
  | .loaded st n p => .loaded st (n - 1) p
  | .empty => .empty

/-- The reference count of a window; 0 when EMPTY (R1). -/
def Window.count : Window → Nat
  | .loaded _ n _ => n
  | .empty => 0

/-- The profile of a window that reserves its range, ACTIVE or DRAINING (R15). -/
def Window.reserved : Window → Option Profile
  | .loaded .active _ p => some p
  | .loaded .draining _ p => some p
  | .loaded .disabled _ _ => none
  | .empty => none

/-- The profile of an ACTIVE window, the only one that decodes (R9). -/
def Window.decodes : Window → Option Profile
  | .loaded .active _ p => some p
  | .loaded .draining _ _ => none
  | .loaded .disabled _ _ => none
  | .empty => none

/-- The profile a window holds. -/
def Window.profile : Window → Option Profile
  | .loaded _ _ p => some p
  | .empty => none

/-! ## Entries and departures -/

/-- What a READ, WRITE or POSTED entry holds; none for a FLUSH. -/
def Entry.transfer (e : Entry) : Option Transfer :=
  match e.body with
  | .transfer x => some x
  | .flush _ => none

/-- The target of an entry: the target field of its snapshot (R42). -/
def Entry.target (e : Entry) : Option TargetId := e.transfer.map (·.snapshot.target)

/-- A POSTED entry. -/
def Entry.isPosted (e : Entry) : Bool :=
  match e.body with
  | .transfer x => decide (x.kind = .posted)
  | .flush _ => false

/-- A FLUSH entry. -/
def Entry.isFlush (e : Entry) : Bool :=
  match e.body with
  | .transfer _ => false
  | .flush _ => true

/-- A DONE entry. -/
def Entry.isDone (e : Entry) : Bool :=
  match e.state with
  | .done _ => true
  | .waiting => false
  | .inSegment _ => false

/-- An IN_SEGMENT entry. -/
def Entry.isInSegment (e : Entry) : Bool :=
  match e.state with
  | .inSegment _ => true
  | .waiting => false
  | .done _ => false

/-- The entries of an initiator, oldest first. -/
def Tracker.entriesOf (t : Tracker) (i : Initiator) : List Entry := t.entries.filter fun e => decide (e.initiator = i)

/-- The entries older than the one at a slot (R44). -/
def olderThan (es : List Entry) (slot : Slot) : List Entry := es.takeWhile fun e => decide (e.slot ≠ slot)

/-- A READ or WRITE entry whose response is still to come: it is neither DONE nor DROPPED (R54, R56). -/
def Entry.owesAnswer (e : Entry) : Bool :=
  match e.body, e.state with
  | .transfer x, .waiting => decide (x.kind ≠ .posted)
  | .transfer x, .inSegment dropped => decide (x.kind ≠ .posted) && !dropped
  | .transfer _, .done _ => false
  | .flush _, _ => false

/-- The answer of an entry is not ready while an older entry of the same initiator and target owes its own, so that the
responses of a pair leave in the order of admission (R53, R127; DESIGN CHOICE, log entry 37). -/
def Tracker.answerHeld (t : Tracker) (e : Entry) : Bool :=
  (olderThan t.entries e.slot).any fun f =>
    decide (f.initiator = e.initiator) && decide (f.target = e.target) && f.owesAnswer

/-- The window table after an entry left the tracker: its window, if it has one, loses a reference (R18). -/
def releaseWindow (ws : Vector Window 32) (e : Entry) : Vector Window 32 :=
  match e.transfer with
  | some x => ws.set x.window ws[x.window].dropReference
  | none => ws

/-- The gate after a departure: QUIESCING passes to QUIESCED when no entry is left (R46). -/
def Gate.afterDeparture (g : Gate) (entries : List Entry) : Gate :=
  match g with
  | .quiescing => if entries.isEmpty then .quiesced else .quiescing
  | .opened => .opened
  | .quiesced => .quiesced

/-- An entry leaves the tracker: its slot is free, it is out of the age order, its window's count falls and the gate may
pass to QUIESCED, all in one step (R18, R43, R46). -/
def State.depart (s : State) (e : Entry) : State :=
  let entries := s.trk.entries.filter fun f => decide (f.slot ≠ e.slot)
  { s with
    wdc := releaseWindow s.wdc e
    trk := { s.trk with entries := entries, gate := s.trk.gate.afterDeparture entries } }

/-- The entries with the one at a slot changed by `f`. -/
def changeEntry (es : List Entry) (slot : Slot) (f : Entry → Entry) : List Entry :=
  es.map fun e => if e.slot = slot then f e else e

/-- The answer list holds an answer for the entry at a slot. -/
def answersEntry (as : List Answer) (slot : Slot) : Bool := as.contains (.entry slot)

/-- The answer of every DONE entry that is not held and not in the answer list joins it, in age order (R56, R127). -/
def Tracker.joinAnswers (t : Tracker) : Tracker :=
  { t with
    answers := t.answers ++
      (t.entries.filter fun e => e.isDone && !t.answerHeld e && !answersEntry t.answers e.slot).map
        fun e => Answer.entry e.slot }

/-- The detach of `i` is in progress, none of `i`'s entries is left, and its answer is not yet ready (R64). -/
def Tracker.detachReady (t : Tracker) (i : Initiator) : Bool :=
  t.detaches[i].isSome && (t.entriesOf i).isEmpty && !t.answers.contains (.detached i)

/-- Every DETACH answer that has become ready joins the answer list, after the answers of entries (R56, R64). -/
def Tracker.joinDetaches (t : Tracker) : Tracker :=
  { t with answers := t.answers ++ ((List.finRange 4).filter t.detachReady).map Answer.detached }

/-- The answers that one event made ready join the list (R56). -/
def State.joinReady (s : State) : State := { s with trk := s.trk.joinAnswers.joinDetaches }

/-! ## Posted faults and the events handed to the IRL -/

/-- An event is handed to the IRL. -/
def State.handEvent (s : State) (e : NoticeEvent) : State :=
  { s with handed := { s.handed with events := s.handed.events ++ [e] } }

/-- A posted-fault record after a fault: the first fault is kept and the count rises, staying at 255 (R58). -/
def takeFault (record : Option FaultRecord) (st : Status) (address : UpAddr) (done : Nat) : FaultRecord :=
  match record with
  | none => ⟨st, address, done, 1⟩
  | some f => { f with count := saturate255 f.count }

/-- A fault reaches the posted-fault record of `i`, and an event of source 8 for `i` is handed (R58). -/
def State.recordFault (s : State) (i : Initiator) (st : Status) (address : UpAddr) (done : Nat) : State :=
  { s with trk := { s.trk with faults := s.trk.faults.set i (some (takeFault s.trk.faults[i] st address done)) } }.handEvent
    (.postedFault i)

/-! ## Lending -/

/-- The lend timer in µs; it stays at 255 once it has reached it (R109). -/
def BusEngine.lendMicroseconds (p : BusEngine) : Nat :=
  match p.lendTimer with
  | some clocks => min (clocks / Config.clocksPerMicrosecond) 255
  | none => 0

/-- A lending in progress has become overrun: its mark is clear, the limit is not 0 and the timer has reached it (R110). -/
def BusEngine.overrunDue (p : BusEngine) : Bool :=
  decide (p.bus = .lent) && !p.overrunMark && decide (p.lendLimit ≠ 0) && decide (p.lendLimit ≤ p.lendMicroseconds)

/-- The lending is reported overrun: mark, LEND_OVERRUN, and an event of source 10 (R110). -/
def State.reportOverrun (s : State) : State :=
  { s with pbe := { s.pbe with overrunMark := true, lendOverrun := true } }.handEvent .lendOverrun

end Sys2Proof.Machine
end

