-- ==== Sys2Proof/Machine/Relay.lean ====
section
/-! DEFINITION. The Interrupt Relay (chapter 7): level and event sources, the choice of a notice, acknowledgement,
changes by configuration, withdrawal by FLUSH, link reset and detach; and which blocks wait for a place of the transmit
queue (R126), of which the IRL with its offer is one. -/

namespace Sys2Proof.Machine

/-! ## Pairs -/

/-- The state of the delivery pair of a source and an initiator (R130). -/
def Relay.pair (r : Relay) (src : Source) (i : Initiator) : PairState := r.pairs[src][i]

/-- The delivery table with one pair replaced. -/
def Relay.setPair (r : Relay) (src : Source) (i : Initiator) (p : PairState) : Relay :=
  { r with pairs := r.pairs.set src (r.pairs[src].set i p) }

/-- A level source, 0–7 (R131). -/
def isLevel (src : Source) : Bool := decide (src.val < 8)

/-- A source whose pair is fixed by its route's destination: the level sources, 9 and 10 (R131). -/
def isRouted (src : Source) : Bool := decide (src.val < 8) || decide (src.val = 9) || decide (src.val = 10)

/-- The line of a level source is asserted; clear for the other sources. -/
def lineOf (pins : Pins) (src : Source) : Bool :=
  if h : src.val < 8 then pins.irq[src.val]'h else false

/-- The source of an IRQ line. -/
def sourceOfLine (n : IrqLine) : Source := ⟨n.val, by omega⟩

/-- The destination of a source's route. -/
def Relay.destination (r : Relay) (src : Source) : Initiator := r.routes[src].destination

/-- The priority of a source; 0 disables it (R130). -/
def Relay.priority (r : Relay) (src : Source) : Fin 16 := r.routes[src].priority

/-- A level pair returns to PENDING: it is the routed pair, its line is asserted and the priority is not 0 (R132, R144,
R145). -/
def Relay.repends (r : Relay) (pins : Pins) (src : Source) (i : Initiator) : Bool :=
  isLevel src && decide (r.destination src = i) && lineOf pins src && decide (r.priority src ≠ 0)

/-- What an IDLE pair becomes when its line is looked at again. -/
def Relay.idleOrPending (r : Relay) (pins : Pins) (src : Source) (i : Initiator) : PairState :=
  if r.repends pins src i then .pending else .idle

/-! ## Lines and events -/

/-- IRQ line asserted: the routed pair, if IDLE and the priority is not 0, becomes PENDING (R132). -/
def Relay.lineAsserted (r : Relay) (src : Source) : Relay :=
  let d := r.destination src
  if r.pair src d = .idle ∧ r.priority src ≠ 0 then r.setPair src d .pending else r

/-- IRQ line withdrawn: the routed pair, if PENDING, becomes IDLE (R132). -/
def Relay.lineWithdrawn (r : Relay) (src : Source) : Relay :=
  let d := r.destination src
  if r.pair src d = .pending then r.setPair src d .idle else r

/-- The source of an event. -/
def eventSourceOf : NoticeEvent → Source
  | .postedFault _ => 8
  | .targetDown => 9
  | .lendOverrun => 10
  | .mailboxResult _ => 11

/-- The initiator whose pair an event reaches (R131). -/
def Relay.reached (r : Relay) : NoticeEvent → Initiator
  | .postedFault i => i
  | .targetDown => r.destination 9
  | .lendOverrun => r.destination 10
  | .mailboxResult i => i

/-- An event is taken: discarded at priority 0, makes an IDLE pair PENDING, is absorbed otherwise (R133). -/
def Relay.takeEvent (r : Relay) (e : NoticeEvent) : Relay :=
  let src := eventSourceOf e
  let i := r.reached e
  if r.priority src ≠ 0 ∧ r.pair src i = .idle then r.setPair src i .pending else r

/-- The clearing of a posted-fault record by FLUSH: a PENDING source 8 pair returns to IDLE (R143). -/
def Relay.withdrawFault (r : Relay) (i : Initiator) : Relay :=
  if r.pair 8 i = .pending then r.setPair 8 i .idle else r

/-- A clearing of which `n` more of the older events have been taken: those of source 8 of its initiator. -/
def Clearing.taken (e : NoticeEvent) (n : Nat) (c : Clearing) : Clearing :=
  if e = .postedFault c.initiator then { c with older := c.older - n } else c

/-- The `n` oldest events equal to `e` taken from a list. -/
def eraseOldest (e : NoticeEvent) : Nat → List NoticeEvent → List NoticeEvent
  | 0, l => l
  | n + 1, l => eraseOldest e n (l.erase e)

/-- What is handed to the IRL with the oldest event equal to `e` taken. -/
def Handed.takeEvent (h : Handed) (e : NoticeEvent) : Handed :=
  { h with events := h.events.erase e, withdrawals := h.withdrawals.map (Clearing.taken e 1) }

/-- What is handed to the IRL with a clearing taken, and with it the events of source 8 of its initiator that were handed
before it (R143). -/
def Handed.takeClearing (h : Handed) (c : Clearing) : Handed :=
  { h with
    events := eraseOldest (.postedFault c.initiator) c.older h.events
    withdrawals := (h.withdrawals.erase c).map (Clearing.taken (.postedFault c.initiator) c.older) }

/-- The IRL takes the oldest event equal to `e` that was handed to it (R133). -/
def State.takeEvent (s : State) (e : NoticeEvent) : State :=
  { s with irl := s.irl.takeEvent e, handed := s.handed.takeEvent e }

/-- An event that a COMMIT finds untaken and takes before it changes a route: one of source 11, which the routes in force
at its chain's end judge (R189), and one whose source has priority 0, which is discarded (R133, R146; DEDUCED, log entry
39). -/
def Relay.dueAtCommit (r : Relay) (e : NoticeEvent) : Bool :=
  decide (eventSourceOf e = 11) || decide (r.priority (eventSourceOf e) = 0)

/-- The events that a COMMIT finds untaken and due are taken, oldest first, by the routes as they stand. -/
def State.takeDueEvents (s : State) : State := (s.handed.events.filter s.irl.dueAtCommit).foldl State.takeEvent s

/-- An acknowledgement by an initiator of a source: none where the pair is not NOTIFIED; else the pair goes IDLE, and
PENDING in the same step where it is a routed level pair with its line asserted and its priority not 0 (R132, R133, R136).
-/
def Relay.acknowledge (r : Relay) (pins : Pins) (i : Initiator) (src : Source) : Option Relay :=
  if r.pair src i = .notified then some (r.setPair src i (r.idleOrPending pins src i)) else none

/-! ## Sending -/

/-- The notices outstanding at an initiator (R134). -/
def Relay.outstanding (r : Relay) (i : Initiator) : Nat :=
  ((List.finRange 12).filter fun src => decide (r.pair src i = .notified)).length

/-- A pair is sendable (R134). -/
def Relay.sendable (r : Relay) (src : Source) (i : Initiator) : Bool :=
  decide (r.pair src i = .pending) && decide (r.thresholds[i] < r.priority src) &&
    decide (r.outstanding i < Config.outstandingNotices) && r.linkUp

/-- The source of higher priority of two, the first where they are equal. -/
def Relay.better (r : Relay) (best : Option Source) (src : Source) : Option Source :=
  match best with
  | none => some src
  | some b => if r.priority b < r.priority src then some src else some b

/-- An initiator's sendable source of highest priority, the lowest-numbered among equals (R135). -/
def Relay.bestSource (r : Relay) (i : Initiator) : Option Source :=
  ((List.finRange 12).filter fun src => r.sendable src i).foldl r.better none

/-- The pair whose notice is offered: the first initiator in turn that has a sendable pair (R135). -/
def Relay.offer (r : Relay) : Option (Initiator × Source) :=
  (rotation r.pointer).findSome? fun i => (r.bestSource i).map fun src => (i, src)

/-- The notice of a pair, with the vector and priority of the source's route as they stand (R135). -/
def Relay.noticeOf (r : Relay) (i : Initiator) (src : Source) : Notice :=
  ⟨i, src, r.routes[src].vector, r.routes[src].priority⟩

/-- The handing of a pair's notice: the pair is NOTIFIED and the pointer moves on (R135). -/
def Relay.handed (r : Relay) (i : Initiator) (src : Source) : Relay :=
  { r.setPair src i .notified with pointer := i + 1 }

/-! ## Configuration (R138 to R142) -/

/-- The pair at the new destination becomes PENDING because the line is asserted (R140): level source, priority (of the
new route) not 0, pair IDLE. -/
def Relay.pendAtNew (r : Relay) (pins : Pins) (src : Source) (route : Route) : Relay :=
  if isLevel src ∧ lineOf pins src = true ∧ route.priority ≠ 0 ∧ r.pair src route.destination = .idle then
    r.setPair src route.destination .pending
  else r

/-- A PENDING state moves from the old destination to the new, absorbed where the pair there is not IDLE (R140). -/
def Relay.movePending (r : Relay) (src : Source) (d e : Initiator) : Relay :=
  let r1 := r.setPair src d .idle
  if r1.pair src e = .idle then r1.setPair src e .pending else r1

/-- A change of destination of a level source or of source 9 or 10 (R140). -/
def Relay.changeDestination (r : Relay) (pins : Pins) (src : Source) (route : Route) : Relay :=
  let d := r.destination src
  if isRouted src ∧ d ≠ route.destination then
    match r.pair src d with
    | .idle => r.pendAtNew pins src route
    | .pending => r.movePending src d route.destination
    | .notified => r.pendAtNew pins src route
  else r

/-- Every PENDING pair of a source returns to IDLE (R139). -/
def Relay.cancelPending (r : Relay) (src : Source) : Relay :=
  { r with pairs := r.pairs.set src (tabulate fun i => if r.pair src i = .pending then .idle else r.pair src i) }

/-- A change of priority from `old`: to 0 every PENDING pair of the source returns to IDLE; from 0, a level source's routed
pair with its line asserted becomes PENDING if IDLE (R139). -/
def Relay.changePriority (r : Relay) (pins : Pins) (src : Source) (route : Route) (old : Fin 16) : Relay :=
  if route.priority = old then r
  else if route.priority = 0 then r.cancelPending src
  else if old = 0 then r.pendAtNew pins src route
  else r

/-- The commit of a route: the destination moves first, then the priority is treated, and the route is written (R138 to
R141). -/
def Relay.commitRoute (r : Relay) (pins : Pins) (src : Source) (route : Route) : Relay :=
  let old := r.priority src
  let r1 := (r.changeDestination pins src route).changePriority pins src route old
  { r1 with routes := r1.routes.set src route }

/-- The commit of a threshold: no pair changes state (R142). -/
def Relay.commitThreshold (r : Relay) (i : Initiator) (threshold : Fin 16) : Relay :=
  { r with thresholds := r.thresholds.set i threshold }

/-! ## Resets -/

/-- Link reset: link view not UP, every pair IDLE, and PENDING again for a routed level pair with its line asserted
(R144). -/
def Relay.linkReset (r : Relay) (pins : Pins) : Relay :=
  { r with linkUp := false, pairs := tabulate fun src => tabulate fun i => r.idleOrPending pins src i }

/-- Detach of an initiator: the same for its own pairs (R145). -/
def Relay.detach (r : Relay) (pins : Pins) (i : Initiator) : Relay :=
  { r with pairs := tabulate fun src => r.pairs[src].set i (r.idleOrPending pins src i) }

/-- The news that the link is UP reaches the IRL (R144). -/
def Relay.linkUpNews (r : Relay) : Relay := { r with linkUp := true }

/-! ## Who waits for a place of the transmit queue (R126) -/

/-- A block holds a ready packet: the TRK an answer, the MGB a held answer, the IRL a sendable pair while the link is UP. A
pair offered before the IRL has taken a link reset that was handed to it stays PENDING until it takes it (R117). -/
def State.ready (s : State) : OutBlock → Bool
  | .trk => !s.trk.answers.isEmpty
  | .mgb => !s.mgb.answers.isEmpty
  | .irl => decide (s.hlp.link = .up) && !s.handed.irlNews.contains .reset && s.irl.offer.isSome

/-- The block after a block in the order TRK, MGB, IRL, wrapping. -/
def OutBlock.next : OutBlock → OutBlock
  | .trk => .mgb
  | .mgb => .irl
  | .irl => .trk

/-- The block to which the rotation gives a place: the first from the pointer on that holds a ready packet. -/
def State.placeWinner (s : State) : Option OutBlock :=
  [s.hlp.pointer, s.hlp.pointer.next, s.hlp.pointer.next.next].find? s.ready

/-- Where no block waits any more for the place that the rotation was to give, the place stays free and the pointer is
unchanged (R126). Every command that may take a ready packet from a block ends with it. -/
def State.settlePlace (s : State) : State :=
  { s with hlp := { s.hlp with contended := s.hlp.contended && s.placeWinner.isSome } }

/-! ## The commands of the IRL -/

/-- IRQ_ASSERTED: a level sampled at two consecutive edges is taken (R132, R187). -/
def execIrqAsserted (n : IrqLine) (samples : Nat) (s : State) : Host.Outcome State Fault Refusal :=
  if Config.samplesToTake ≤ samples ∧ s.pins.irq[n] = false then
    .next
      { s with
        pins := { s.pins with irq := s.pins.irq.set n true }
        irl := s.irl.lineAsserted (sourceOfLine n) }
  else .next s

/-- IRQ_WITHDRAWN (R132, R187). -/
def execIrqWithdrawn (n : IrqLine) (samples : Nat) (s : State) : Host.Outcome State Fault Refusal :=
  if Config.samplesToTake ≤ samples ∧ s.pins.irq[n] = true then
    .next
      (State.settlePlace
        { s with
          pins := { s.pins with irq := s.pins.irq.set n false }
          irl := s.irl.lineWithdrawn (sourceOfLine n) })
  else .next s

/-- EVENT_SOURCE: the IRL takes the oldest event of its kind handed to it (R133). It is judged by the routes as they stand
now. An event of source 11, and one whose source has priority 0, is taken at the latest by the COMMIT of the next chain,
before that COMMIT changes a route (R146, R189; log entry 39). Another event of sources 8 to 10 keeps no order with a
COMMIT, and a route that a COMMIT has changed since it was handed judges it (DESIGN CHOICE, log entry 40). -/
def execEventSource (e : NoticeEvent) (s : State) : Host.Outcome State Fault Refusal :=
  if e ∈ s.handed.events then .next (s.takeEvent e) else .next s

/-- FLUSH_WITHDRAWAL: the IRL takes the oldest clearing of an initiator. The events of source 8 of the initiator that were
handed before it are taken with it: their faults stood in the record that the FLUSH response reported, and what they make
of the pair, PENDING where it was IDLE, is withdrawn in the same step, so that no notice follows for them. An event handed
after the clearing is taken before it or after it (R143; DEDUCED, log entry 27). A NOTICE_HANDING between the building of
the FLUSH response and this command sends a notice that was PENDING then, as R143 has it (DESIGN CHOICE against R127, log
entry 33). -/
def execFlushWithdrawal (i : Initiator) (s : State) : Host.Outcome State Fault Refusal :=
  match s.handed.withdrawals.find? fun c => decide (c.initiator = i) with
  | some c => .next (State.settlePlace { s with irl := s.irl.withdrawFault i, handed := s.handed.takeClearing c })
  | none => .next s

/-- IRL_DETACH (R145). A detach and the events of its initiator are taken in either order, an event handed before the
detach included, for which R145 gives no order: taken after the detach it makes the pair PENDING (DESIGN CHOICE, log entry
28). Nor is there an order among detaches, link resets and FLUSH clearings that are handed and not taken: an older detach
may be taken after a later link reset and the link's return (DESIGN CHOICE, log entry 35). -/
def execIrlDetach (i : Initiator) (s : State) : Host.Outcome State Fault Refusal :=
  if i ∈ s.handed.irlDetaches then
    .next
      (State.settlePlace
        { s with
          irl := s.irl.detach s.pins i
          handed := { s.handed with irlDetaches := s.handed.irlDetaches.erase i } })
  else .next s

/-- IRL_LINK_RESET: the IRL takes the oldest link reset; the news that the link is UP, where it was handed behind it, is
taken in the same step (R144). It may be taken before or after a detach handed before it (DESIGN CHOICE, log entry 35).
-/
def execIrlLinkReset (s : State) : Host.Outcome State Fault Refusal :=
  match s.handed.irlNews with
  | .reset :: .up :: rest =>
    .next
      (State.settlePlace
        { s with irl := (s.irl.linkReset s.pins).linkUpNews, handed := { s.handed with irlNews := rest } })
  | .reset :: rest =>
    .next
      (State.settlePlace { s with irl := s.irl.linkReset s.pins, handed := { s.handed with irlNews := rest } })
  | .up :: rest => .next { s with irl := s.irl.linkUpNews, handed := { s.handed with irlNews := rest } }
  | [] => .next s

end Sys2Proof.Machine
end

