-- ==== Sys2Proof/Machine/Operands.lean ====
section
/-! DEFINITION. The operand forms: link packets (section 10.1), accesses to management space (R147, R148), which block and
which command a request at the head of the receive queue is for (R124), and the records of a chain (section 10.2). -/

namespace Sys2Proof.Machine

/-! ## Request packets (R182) -/

/-- The request kind of a code 0h–Fh. -/
def requestKind (code : Nat) : RequestKind :=
  match code with
  | 0 => .read
  | 1 => .write
  | 2 => .posted
  | 3 => .flush
  | 4 => .detach
  | _ => .unknown

/-- The fields of a packet that passed its integrity check; none where it is dropped: its kind code is not REQUEST, or
its size is not 6–133 B (R182). -/
def requestOf (bytes : List Byte) : Option Request :=
  let b0 := (byteAt bytes 0).toNat
  if b0 / 64 = 1 ∧ 6 ≤ bytes.length ∧ bytes.length ≤ 133 then
    some
      { initiator := Fin.ofNat 4 (b0 / 16)
        kind := requestKind (b0 % 16)
        tag := Fin.ofNat 32 (byteAt bytes 1).toNat
        address := BitVec.ofNat 24 (leNat [byteAt bytes 2, byteAt bytes 3, byteAt bytes 4])
        length := (byteAt bytes 5).toNat % 128
        payload := bytes.drop 6 }
  else none

/-- The length field and the payload of a request agree with its kind (R48, R148). -/
def Request.consistent (r : Request) : Bool :=
  match r.kind with
  | .read => decide (1 ≤ r.length) && decide (r.length ≤ 64) && r.payload.isEmpty
  | .write => decide (1 ≤ r.length) && decide (r.length ≤ 64) && decide (r.payload.length = r.length)
  | .posted => decide (1 ≤ r.length) && decide (r.length ≤ 64) && decide (r.payload.length = r.length)
  | .flush => r.payload.isEmpty
  | .detach => r.payload.isEmpty
  | .unknown => false

/-! ## Response and notice packets (R183) -/

/-- The code of a response status. -/
def statusCode : Status → Nat
  | .ok => 0x00
  | .retry => 0x01
  | .format => 0x02
  | .tagBusy => 0x03
  | .miss => 0x04
  | .span => 0x05
  | .denied => 0x06
  | .align => 0x07
  | .offline => 0x08
  | .timeout => 0x09
  | .postedFault => 0x0A
  | .detached => 0x0B
  | .notOwner => 0x0C
  | .mbxState => 0x0D
  | .notOutstanding => 0x0E

/-- The bytes of what a response carries after its header. -/
def carriedBytes : Carried → List Byte
  | .nothing => []
  | .data bytes => bytes
  | .fault f =>
    leBytes 1 (statusCode f.status) ++ leBytes 3 f.address.toNat ++ leBytes 1 f.done ++ leBytes 1 f.count
  | .dropped n => leBytes 1 n

/-- The bytes of a packet the device sends. -/
def packetBytes : OutPacket → List Byte
  | .response r =>
    [BitVec.ofNat 8 (2 * 64 + r.initiator.val * 16), BitVec.ofNat 8 r.tag.val, BitVec.ofNat 8 (statusCode r.status),
      BitVec.ofNat 8 r.done] ++ carriedBytes r.carried
  | .notice n =>
    [BitVec.ofNat 8 (3 * 64 + n.initiator.val * 16), BitVec.ofNat 8 n.source.val, n.vector, BitVec.ofNat 8 n.priority.val]

/-! ## Management space (R147, R148) -/

/-- A location of management space. -/
inductive Place where
  | statusRegion | claim | submit | release | mailboxState | noticeAck | requestBuffer | resultBuffer
deriving DecidableEq, Repr

/-- The location that holds an offset; none where it is not mapped. -/
def placeAt (offset : Nat) : Option Place :=
  if offset < 0x040 then some .statusRegion
  else if offset < 0x044 then some .claim
  else if offset < 0x048 then some .submit
  else if offset < 0x04C then some .release
  else if offset < 0x050 then some .mailboxState
  else if offset < 0x054 then some .noticeAck
  else if offset < 0x100 then none
  else if offset < 0x300 then some .requestBuffer
  else if offset < 0x500 then some .resultBuffer
  else none

/-- A READ (set) or WRITE of `length` bytes at an offset has the form its location accepts (the table of R147). -/
def acceptedForm (place : Place) (isRead : Bool) (offset length : Nat) : Bool :=
  match place with
  | .statusRegion => isRead && decide (offset + length ≤ 0x040)
  | .claim => isRead && decide (offset = 0x040) && decide (length = 4)
  | .submit => !isRead && decide (offset = 0x044) && decide (length = 4)
  | .release => !isRead && decide (offset = 0x048) && decide (length = 4)
  | .mailboxState => isRead && decide (offset = 0x04C) && decide (length = 4)
  | .noticeAck => !isRead && decide (offset = 0x050) && decide (length = 4)
  | .requestBuffer => decide (offset + length ≤ 0x300)
  | .resultBuffer => isRead && decide (offset + length ≤ 0x500)

/-- The judgement of an access's form (R148). -/
inductive AccessForm where
  | miss | format
  | accepted (place : Place)
deriving DecidableEq, Repr

/-- The offset of a request's first byte from FFF000h: the low 12 bits of its address (R147). -/
def Request.offset (r : Request) : Nat := r.address.toNat % 0x1000

/-- R148: an offset that is not mapped, then inconsistent fields, then the form of the location. -/
def accessForm (r : Request) : AccessForm :=
  match placeAt r.offset with
  | none => .miss
  | some place =>
    if !r.consistent then .format
    else if acceptedForm place (decide (r.kind = .read)) r.offset r.length then .accepted place
    else .format

/-! ## Which command takes a request (R124) -/

/-- The commands that take a request from the head of the receive queue. -/
inductive HeadClass where
  | read | write | posted | flush | detach | unknownKind
  | claim | submit | release | noticeAck | requestBufferWrite | managementPostedWrite | managementWrite | managementRead
deriving DecidableEq, Repr

/-- A READ, WRITE or POSTED request whose first byte lies in management space (R124). -/
def Request.inManagement (r : Request) : Bool := decide (Config.managementBase ≤ r.address.toNat)

/-- The command that takes a READ of management space. -/
def managementReadClass (form : AccessForm) : HeadClass :=
  match form with
  | .accepted .claim => .claim
  | _ => .managementRead

/-- The command that takes a WRITE of management space. -/
def managementWriteClass (form : AccessForm) : HeadClass :=
  match form with
  | .accepted .submit => .submit
  | .accepted .release => .release
  | .accepted .noticeAck => .noticeAck
  | .accepted .requestBuffer => .requestBufferWrite
  | _ => .managementWrite

/-- The command that takes a request: the block is chosen by request kind and address of the first byte (R124), a
management access further by the form and location of R147 and R148. -/
def headClass (r : Request) : HeadClass :=
  match r.kind with
  | .read => if r.inManagement then managementReadClass (accessForm r) else .read
  | .write => if r.inManagement then managementWriteClass (accessForm r) else .write
  | .posted => if r.inManagement then .managementPostedWrite else .posted
  | .flush => .flush
  | .detach => .detach
  | .unknown => .unknownKind

/-- The command is one of the TRK's; the others are the MGB's. -/
def HeadClass.isTracker : HeadClass → Bool
  | .read | .write | .posted | .flush | .detach | .unknownKind => true
  | .claim | .submit | .release | .noticeAck | .requestBufferWrite | .managementPostedWrite | .managementWrite
  | .managementRead => false

/-! ## Records (R163, R164, R184, R185) -/

/-- The kind of a type byte; none where it is none of the sixteen codes. -/
def recordKind (code : Nat) : Option RecordKind :=
  match code with
  | 0x10 => some .setWindow
  | 0x11 => some .enableWindow
  | 0x12 => some .disableWindow
  | 0x13 => some .clearWindow
  | 0x14 => some .getWindow
  | 0x20 => some .setTarget
  | 0x21 => some .clearTarget
  | 0x22 => some .reviveTarget
  | 0x23 => some .getTarget
  | 0x30 => some .setRoute
  | 0x31 => some .setThreshold
  | 0x40 => some .setLimits
  | 0x41 => some .quiesce
  | 0x42 => some .resume
  | 0x50 => some .getStatus
  | 0x0F => some .endRecord
  | _ => none

/-- The fixed payload length of a kind (R164). -/
def RecordKind.payloadLength : RecordKind → Nat
  | .setWindow => 21
  | .enableWindow | .disableWindow | .clearWindow | .getWindow => 1
  | .setTarget => 5
  | .clearTarget | .reviveTarget | .getTarget => 1
  | .setRoute => 4
  | .setThreshold => 2
  | .setLimits => 4
  | .quiesce | .resume | .getStatus | .endRecord => 0

/-- The fixed result payload length of a kind (R164). -/
def RecordKind.resultLength : RecordKind → Nat
  | .getWindow => 21
  | .getTarget => 8
  | .getStatus => 11
  | .setWindow | .enableWindow | .disableWindow | .clearWindow | .setTarget | .clearTarget | .reviveTarget
  | .setRoute | .setThreshold | .setLimits | .quiesce | .resume | .endRecord => 0

/-- The index of a one-byte window payload; none outside 0–31 (R16 check 1). -/
def windowIndex (bs : List Byte) : Option WindowIx :=
  if h : (byteAt bs 0).toNat < 32 then some ⟨(byteAt bs 0).toNat, h⟩ else none

/-- The target number of a target payload; none outside 0–15 (R37 check 1). -/
def targetNumber (b : Byte) : Option TargetId :=
  if h : b.toNat < 16 then some ⟨b.toNat, h⟩ else none

/-- The enable flag of a SET WINDOW payload: bit 0 of byte 1 (R185). -/
def enableFlag (bs : List Byte) : Bool := decide ((byteAt bs 1).toNat % 2 = 1)

/-- The base field of a SET WINDOW payload. -/
def payloadBase (bs : List Byte) : Nat := leNat [byteAt bs 2, byteAt bs 3, byteAt bs 4]

/-- The size field of a SET WINDOW payload, in pages. -/
def payloadSize (bs : List Byte) : Nat := leNat [byteAt bs 5, byteAt bs 6]

/-- R16 check 4, the conditions of R2. -/
def rangeLegal (base size : Nat) : Bool :=
  decide (base % 256 = 0) && decide (1 ≤ size) && decide (size ≤ 4096) &&
    decide (base + 256 * size - 1 ≤ Config.lastWindowAddress)

/-- The mode of a code. -/
def modeOf (b : Byte) : Option WindowMode :=
  match b.toNat with
  | 0 => some .linear
  | 1 => some .port
  | 2 => some .splitPort
  | _ => none

/-- The unit of a code. -/
def unitOf (b : Byte) : Option UnitSize :=
  match b.toNat with
  | 1 => some .one
  | 2 => some .two
  | 4 => some .four
  | _ => none

/-- The lane order of a code. -/
def laneOf (b : Byte) : Option LaneOrder :=
  match b.toNat with
  | 0 => some .ascending
  | 1 => some .descending
  | _ => none

/-- RSE of a code. -/
def rseOf (b : Byte) : Option Bool :=
  match b.toNat with
  | 0 => some false
  | 1 => some true
  | _ => none

/-- The atomic boundary of a code. -/
def abOf (b : Byte) : Option AtomicBoundary :=
  match b.toNat with
  | 0x00 => some .none
  | 0x04 => some .b4
  | 0x08 => some .b8
  | 0x10 => some .b16
  | 0x20 => some .b32
  | 0x40 => some .b64
  | _ => none

/-- A mask; none where a bit above bit 3 is set (R8). -/
def maskOf (b : Byte) : Option (BitVec 4) := if b.toNat < 16 then some (BitVec.ofNat 4 b.toNat) else none

/-- Unit, lane order and RSE of a SET WINDOW payload: judged in LINEAR mode, forced in the port modes (R4, R185). -/
def shapeOf (mode : WindowMode) (bs : List Byte) : Option (UnitSize × LaneOrder × Bool) :=
  match mode with
  | .linear => do return (← unitOf (byteAt bs 15), ← laneOf (byteAt bs 16), ← rseOf (byteAt bs 17))
  | .port => some (.one, .ascending, true)
  | .splitPort => some (.one, .ascending, true)

/-- The profile that a SET WINDOW payload carries; none where a field fails R16 check 5. -/
def profileOf (bs : List Byte) : Option Profile := do
  let target ← targetNumber (byteAt bs 7)
  let mode ← modeOf (byteAt bs 8)
  let (unit, lane, rse) ← shapeOf mode bs
  let ab ← abOf (byteAt bs 18)
  let readMask ← maskOf (byteAt bs 19)
  let writeMask ← maskOf (byteAt bs 20)
  return { base := BitVec.ofNat 24 (payloadBase bs), size := payloadSize bs, target, mode,
           targetBase := BitVec.ofNat 16 (leNat [byteAt bs 9, byteAt bs 10]),
           readPort := BitVec.ofNat 16 (leNat [byteAt bs 11, byteAt bs 12]),
           writePort := BitVec.ofNat 16 (leNat [byteAt bs 13, byteAt bs 14]),
           unit, lane, rse, ab, readMask, writeMask }

/-- The timing parameters of a SET TARGET payload in range (R37 check 3). -/
def timingLegal (bs : List Byte) : Bool :=
  decide (1 ≤ (byteAt bs 2).toNat) && decide (2 ≤ (byteAt bs 3).toNat) && decide ((byteAt bs 3).toNat ≤ 15) &&
    decide (1 ≤ (byteAt bs 4).toNat) && decide ((byteAt bs 4).toNat ≤ 15)

/-- A record with the four timing parameters of a SET TARGET payload (R34). -/
def TargetRecord.withTiming (t : TargetRecord) (bs : List Byte) : TargetRecord :=
  { t with
    recovery := (byteAt bs 1).toNat
    readyTimeout := (byteAt bs 2).toNat
    strobeWidth := (byteAt bs 3).toNat
    threshold := (byteAt bs 4).toNat }

/-- The source and route of a SET ROUTE payload; none where one is out of range (R138). -/
def routeOf (bs : List Byte) : Option (Source × Route) :=
  if h : (byteAt bs 0).toNat < 12 ∧ (byteAt bs 1).toNat < 16 ∧ (byteAt bs 2).toNat < 4 then
    some (⟨(byteAt bs 0).toNat, h.1⟩, ⟨⟨(byteAt bs 1).toNat, h.2.1⟩, ⟨(byteAt bs 2).toNat, h.2.2⟩, byteAt bs 3⟩)
  else none

/-- The initiator and threshold of a SET THRESHOLD payload; none where one is out of range (R138). -/
def thresholdOf (bs : List Byte) : Option (Initiator × Fin 16) :=
  if h : (byteAt bs 0).toNat < 4 ∧ (byteAt bs 1).toNat < 16 then
    some (⟨(byteAt bs 0).toNat, h.1⟩, ⟨(byteAt bs 1).toNat, h.2⟩)
  else none

/-- The four limits of a SET LIMITS payload in range (R172). -/
def limitsLegal (bs : List Byte) : Bool :=
  decide (4 ≤ (byteAt bs 0).toNat) && decide ((byteAt bs 0).toNat ≤ 64) && decide ((byteAt bs 0).toNat % 4 = 0) &&
    decide (1 ≤ (byteAt bs 1).toNat) && decide (1 ≤ (byteAt bs 3).toNat) && decide ((byteAt bs 3).toNat < 16)

end Sys2Proof.Machine
end

