-- ==== Sys2Proof/Machine/Flags.lean ====
section
/-! DEFINITION. What the device reports: the flags and fields of the status region (R149, R150, R186), the CLAIM and
MAILBOX STATE values (R151, R152), the reports of GET records (R23, R38, R173), and the result records (R178, R179). -/

namespace Sys2Proof.Machine

/-! ## Codes -/

/-- The code of a target state. -/
def targetStateCode : TargetState → Nat
  | .absent => 0
  | .online => 1
  | .suspect => 2
  | .offline => 3

/-- The code of a gate state. -/
def gateCode : Gate → Nat
  | .opened => 0
  | .quiescing => 1
  | .quiesced => 2

/-- The code of a mailbox state. -/
def mailboxCode : Mailbox → Nat
  | .free => 0
  | .claimed _ => 1
  | .busy _ _ => 2
  | .result _ => 3

/-- The owner of the mailbox (R151). -/
def Mailbox.owner : Mailbox → Option Initiator
  | .free => none
  | .claimed i => some i
  | .busy i _ => some i
  | .result i => some i

/-- The release-pending mark, clear except in BUSY (R151). -/
def Mailbox.releasePending : Mailbox → Bool
  | .busy _ mark => mark
  | .free => false
  | .claimed _ => false
  | .result _ => false

/-- An initiator or none, FFh. -/
def initiatorCode : Option Initiator → Nat
  | some i => i.val
  | none => 0xFF

/-- The code of a record status. -/
def recordStatusCode : RecordStatus → Nat
  | .done => 0x00
  | .badField => 0x01
  | .overlap => 0x02
  | .indexBusy => 0x03
  | .targetInUse => 0x04
  | .notRun => 0x05

/-- The code of a structure reason. -/
def structureReasonCode : StructureReason → Nat
  | .badChecksum => 0x20
  | .badLength => 0x21
  | .badType => 0x22
  | .badSequence => 0x23
  | .noEnd => 0x24
  | .resultTooLarge => 0x25

/-- The code of a mode. -/
def modeCode : WindowMode → Nat
  | .linear => 0
  | .port => 1
  | .splitPort => 2

/-- The bytes of a unit. -/
def UnitSize.bytes : UnitSize → Nat
  | .one => 1
  | .two => 2
  | .four => 4

/-- The code of a lane order. -/
def laneCode : LaneOrder → Nat
  | .ascending => 0
  | .descending => 1

/-- The bytes of an atomic boundary, 0 for none. -/
def AtomicBoundary.bytes : AtomicBoundary → Nat
  | .none => 0
  | .b4 => 4
  | .b8 => 8
  | .b16 => 16
  | .b32 => 32
  | .b64 => 64

/-- A flag as a bit. -/
def bit (b : Bool) : Nat := if b then 1 else 0

/-! ## The status region -/

/-- A target that counts against TARGETS_HEALTHY (R39). -/
def TargetState.unhealthy : TargetState → Bool
  | .suspect => true
  | .offline => true
  | .absent => false
  | .online => false

/-- TARGETS_HEALTHY: no target is SUSPECT or OFFLINE (R39). -/
def State.targetsHealthy (s : State) : Bool := (List.finRange 16).all fun t => !s.tgt[t].state.unhealthy

/-- BUS_LENT (R90). -/
def State.busLent (s : State) : Bool := decide (s.pbe.bus = .lent)

/-- The flags byte of the status region. -/
def State.flagsByte (s : State) : Nat :=
  bit s.mgb.configLoaded + 2 * bit s.targetsHealthy + 4 * bit s.busLent + 8 * bit s.pbe.lendOverrun

/-- Byte `k` of the target states of the status region: four targets, two bits each. -/
def State.targetStatesByte (s : State) (k : Fin 4) : Nat :=
  (List.finRange 4).foldl (fun acc j =>
    acc + targetStateCode s.tgt[(⟨4 * k.val + j.val, by omega⟩ : Fin 16)].state * 4 ^ j.val) 0

/-- Bytes 00h–3Eh of the status region (R186). -/
def State.statusFields (s : State) : List Byte :=
  leBytes 1 0x01 ++ leBytes 1 s.flagsByte ++ leBytes 1 (gateCode s.trk.gate) ++ leBytes 1 (mailboxCode s.mgb.mailbox) ++
    leBytes 1 (initiatorCode s.mgb.mailbox.owner) ++ leBytes 1 (initiatorCode s.mgb.lostLast) ++
    leBytes 1 s.mgb.lostCount ++ leBytes 1 s.hlp.dropped ++ leBytes 2 s.mgb.commitCount ++
    (List.finRange 4).map (fun k => BitVec.ofNat 8 (s.targetStatesByte k)) ++
    (List.finRange 4).map (fun i => BitVec.ofNat 8 (s.trk.entriesOf i).length) ++ List.replicate 45 0

/-- The 64 bytes of the status region, closed by the checksum (R149). -/
def State.statusRegion (s : State) : List Byte := withChecksum s.statusFields

/-- The value of a CLAIM read answered OK (R152, R186); `granted` is set for GRANTED and clear for HELD. -/
def claimValue (granted : Bool) (m : Mailbox) : List Byte :=
  leBytes 1 (if granted then 1 else 2) ++ leBytes 1 (initiatorCode m.owner) ++ leBytes 1 (mailboxCode m) ++ leBytes 1 0

/-- The value of a MAILBOX STATE read (R151, R186). -/
def mailboxValue (m : Mailbox) : List Byte :=
  leBytes 1 (mailboxCode m) ++ leBytes 1 (initiatorCode m.owner) ++ leBytes 1 (bit m.releasePending) ++ leBytes 1 0

/-! ## Reports of GET records -/

/-- The code of a window's state. -/
def windowStateCode : Window → Nat
  | .empty => 0
  | .loaded .disabled _ _ => 1
  | .loaded .active _ _ => 2
  | .loaded .draining _ _ => 3

/-- The GET WINDOW report: 21 bytes, all zero for an EMPTY entry (R23, section 10.2). -/
def windowReport (w : Window) : List Byte :=
  match w with
  | .empty => List.replicate 21 0
  | .loaded _ n p =>
    leBytes 1 (windowStateCode w) ++ leBytes 1 n ++ leBytes 3 p.base.toNat ++ leBytes 2 p.size ++ leBytes 1 p.target.val ++
      leBytes 1 (modeCode p.mode) ++ leBytes 2 p.targetBase.toNat ++ leBytes 2 p.readPort.toNat ++
      leBytes 2 p.writePort.toNat ++ leBytes 1 p.unit.bytes ++ leBytes 1 (laneCode p.lane) ++ leBytes 1 (bit p.rse) ++
      leBytes 1 p.ab.bytes ++ leBytes 1 p.readMask.toNat ++ leBytes 1 p.writeMask.toNat

/-- The GET TARGET report: 8 bytes (R38, section 10.2). -/
def targetReport (t : TargetRecord) : List Byte :=
  leBytes 1 (targetStateCode t.state) ++ leBytes 1 t.recovery ++ leBytes 1 t.readyTimeout ++ leBytes 1 t.strobeWidth ++
    leBytes 1 t.threshold ++ leBytes 1 t.consecutive ++ leBytes 1 t.errors ++ leBytes 1 t.age

/-- The GET STATUS report: 11 bytes, the gate and the limits from the shadow, the rest live (R173). -/
def statusReport (s : State) (sh : Shadow) : List Byte :=
  leBytes 1 (bit s.mgb.configLoaded + 2 * bit s.pbe.lendOverrun) ++ leBytes 1 (gateCode sh.gate) ++
    leBytes 2 s.mgb.commitCount ++ leBytes 1 sh.segmentLimit ++ leBytes 1 sh.lease ++ leBytes 1 sh.lendLimit ++
    leBytes 1 sh.claimMask.toNat ++ leBytes 1 s.hlp.dropped ++ leBytes 1 (initiatorCode s.mgb.lostLast) ++
    leBytes 1 s.mgb.lostCount

/-! ## Result records -/

/-- The payload that a result record of a kind is written with: the report of a DONE record, zeros of the kind's fixed
result length otherwise (R178, R184). -/
def resultPayload (k : RecordKind) (r : RecordResult) : List Byte :=
  if r.status = .done then r.payload else List.replicate k.resultLength 0

/-- One result record (R178). -/
def resultRecord (ref : RecordRef) (r : RecordResult) : List Byte :=
  withChecksum
    (leBytes 1 ref.sequence ++ leBytes 1 (recordStatusCode r.status) ++ leBytes 1 ref.kind.resultLength ++
      resultPayload ref.kind r)

/-- How a chain ended: committed, or rejected in a phase at a position with a reason (R179). -/
inductive ChainOutcome where
  | committed
  | rejectedStructure (position : Nat) (reason : StructureReason)
  | rejectedStaging (position : Nat) (reason : RecordStatus)
  | rejectedCommit (position : Nat) (reason : RecordStatus)
deriving DecidableEq, Repr

/-- Status, phase, failing position and reason of the chain-outcome record (R179). -/
def outcomeFields : ChainOutcome → Nat × Nat × Nat × Nat
  | .committed => (0x10, 0, 0xFF, 0x00)
  | .rejectedStructure p r => (0x11, 1, p, structureReasonCode r)
  | .rejectedStaging p r => (0x11, 2, p, recordStatusCode r)
  | .rejectedCommit p r => (0x11, 3, p, recordStatusCode r)

/-- The chain-outcome record (R179). -/
def outcomeRecord (o : ChainOutcome) (recordCount : Nat) : List Byte :=
  let (status, phase, position, reason) := outcomeFields o
  withChecksum
    (leBytes 1 0xFF ++ leBytes 1 status ++ leBytes 1 4 ++ leBytes 1 phase ++ leBytes 1 position ++ leBytes 1 reason ++
      leBytes 1 recordCount)

/-! ## The pins the device drives -/

/-- What the device puts on a driven pin group: a value, a value with no meaning, or nothing (released or not driven). -/
inductive Drive (α : Type) where
  | value (x : α)
  | notSignificant
  | released
deriving DecidableEq, Repr

/-- The output pins of the peripheral bus (R91, section 10.4); `prd` and `pwr` are set when the strobe is asserted. -/
structure BusPins where
  sel : Drive (Option TargetId)
  pa : Drive TargetAddr
  pd : Drive Byte
  prd : Drive Bool
  pwr : Drive Bool
  extgnt : Bool
deriving DecidableEq, Repr

/-- The strobe of a byte cycle is asserted. -/
def CycleRun.strobing (r : CycleRun) : Bool :=
  match r.phase with
  | .strobe _ => true
  | .setup => false
  | .hold _ => false

/-- The pins with all selects and strobes withdrawn and no byte cycle running (R91). -/
def quietPins : BusPins := ⟨.value none, .notSignificant, .released, .value false, .value false, false⟩

/-- The output pins of the peripheral bus by bus state (the table of R91). -/
def State.busPins (s : State) : BusPins :=
  match s.pbe.bus with
  | .idle => quietPins
  | .lent => ⟨.released, .released, .released, .released, .released, true⟩
  | .segment c =>
    match c.run with
    | none => quietPins
    | some r =>
      { sel := .value (some c.target)
        pa := .value r.spec.addr
        pd := match r.driven with
          | some b => .value b
          | none => .released
        prd := .value (r.strobing && !r.spec.write)
        pwr := .value (r.strobing && r.spec.write)
        extgnt := false }

/-- The packet being sent on the link: the head of the transmit queue, while the link is UP (R126). -/
def State.linkOut (s : State) : Option (List Byte) :=
  match s.hlp.link with
  | .up => s.hlp.transmit.head?.map packetBytes
  | .training => none
  | .down => none

end Sys2Proof.Machine
end

