-- ==== Sys2Proof/Machine/Windows.lean ====
section
/-! DEFINITION. The Window Decoder (chapter 1): decode at admission, and what each window record does to a table of
windows, at staging (to the shadow's) and at commit (to the live one). -/

namespace Sys2Proof.Machine

/-! ## Decode -/

/-- The ACTIVE window that contains an address; at most one does (R15, R20). -/
def decodeAddress (ws : Vector Window 32) (a : Nat) : Option (WindowIx × Profile) :=
  (List.finRange 32).findSome? fun i =>
    match ws[i].decodes with
    | some p => if p.contains a then some (i, p) else none
    | none => none

/-- The range of `p` overlaps that of a window other than `i` that is ACTIVE or DRAINING (R15). -/
def overlapsOther (ws : Vector Window 32) (i : WindowIx) (p : Profile) : Bool :=
  (List.finRange 32).any fun j =>
    decide (j ≠ i) &&
      match ws[j].reserved with
      | some q => p.overlaps q
      | none => false

/-- A window that SET WINDOW and CLEAR WINDOW find INDEX_BUSY (R10, R13). -/
def Window.isReserved (w : Window) : Bool := w.reserved.isSome

/-! ## What the records do -/

/-- The window that SET WINDOW leaves: count 0, the whole profile carried, ACTIVE with the enable flag (R10). -/
def loadedWindow (enable : Bool) (p : Profile) : Window := .loaded (if enable then .active else .disabled) 0 p

/-- ENABLE WINDOW: DISABLED or DRAINING becomes ACTIVE, profile and count kept (R11). -/
def Window.enabled : Window → Window
  | .loaded _ n p => .loaded .active n p
  | .empty => .empty

/-- DISABLE WINDOW: ACTIVE becomes DRAINING where the count is not 0 and DISABLED where it is (R12). -/
def Window.disabled : Window → Window
  | .loaded .active 0 p => .loaded .disabled 0 p
  | .loaded .active (n + 1) p => .loaded .draining (n + 1) p
  | .loaded .disabled n p => .loaded .disabled n p
  | .loaded .draining n p => .loaded .draining n p
  | .empty => .empty

/-- A window that ENABLE WINDOW makes ACTIVE: DISABLED or DRAINING, with its profile (R11, R16 check 7). -/
def Window.enabling : Window → Option Profile
  | .loaded .disabled _ p => some p
  | .loaded .draining _ p => some p
  | .loaded .active _ _ => none
  | .empty => none

/-! ## Staging (R16) -/

/-- SET WINDOW against a table of windows and target records, checks 1, 2, 4, 5, 6 and 7 of R16 in order. -/
def stageSetWindow (ws : Vector Window 32) (ts : Vector TargetRecord 16) (bs : List Byte) :
    Except RecordStatus (Vector Window 32) :=
  match windowIndex bs with
  | none => .error .badField
  | some i =>
    if ws[i].isReserved then .error .indexBusy
    else if !rangeLegal (payloadBase bs) (payloadSize bs) then .error .badField
    else
      match profileOf bs with
      | none => .error .badField
      | some p =>
        if ts[p.target].state = .absent then .error .badField
        else if enableFlag bs && overlapsOther ws i p then .error .overlap
        else .ok (ws.set i (loadedWindow (enableFlag bs) p))

/-- ENABLE WINDOW, checks 1, 3 and 7 of R16. -/
def stageEnableWindow (ws : Vector Window 32) (bs : List Byte) : Except RecordStatus (Vector Window 32) :=
  match windowIndex bs with
  | none => .error .badField
  | some i =>
    if ws[i] = .empty then .error .badField
    else
      match ws[i].enabling with
      | none => .ok ws
      | some p => if overlapsOther ws i p then .error .overlap else .ok (ws.set i ws[i].enabled)

/-- DISABLE WINDOW, checks 1 and 3 of R16. -/
def stageDisableWindow (ws : Vector Window 32) (bs : List Byte) : Except RecordStatus (Vector Window 32) :=
  match windowIndex bs with
  | none => .error .badField
  | some i => if ws[i] = .empty then .error .badField else .ok (ws.set i ws[i].disabled)

/-- CLEAR WINDOW, checks 1 and 2 of R16. -/
def stageClearWindow (ws : Vector Window 32) (bs : List Byte) : Except RecordStatus (Vector Window 32) :=
  match windowIndex bs with
  | none => .error .badField
  | some i => if ws[i].isReserved then .error .indexBusy else .ok (ws.set i .empty)

/-! ## Commit (R175, R176): the recheck of INDEX_BUSY and OVERLAP against the states the pass has reached -/

/-- The index and profile of a SET WINDOW payload that staging accepts by checks 1, 4 and 5 of R16. -/
def windowPayload (bs : List Byte) : Option (WindowIx × Profile) :=
  match windowIndex bs, profileOf bs with
  | some i, some p => if rangeLegal (payloadBase bs) (payloadSize bs) then some (i, p) else none
  | none, _ => none
  | some _, none => none

/-- SET WINDOW in the commit pass. -/
def commitSetWindow (ws : Vector Window 32) (bs : List Byte) : Except RecordStatus (Vector Window 32) :=
  match windowPayload bs with
  | none => .ok ws
  | some (i, p) =>
    if ws[i].isReserved then .error .indexBusy
    else if enableFlag bs && overlapsOther ws i p then .error .overlap
    else .ok (ws.set i (loadedWindow (enableFlag bs) p))

/-- ENABLE WINDOW in the commit pass. -/
def commitEnableWindow (ws : Vector Window 32) (bs : List Byte) : Except RecordStatus (Vector Window 32) :=
  match windowIndex bs with
  | none => .ok ws
  | some i =>
    match ws[i].enabling with
    | none => .ok ws
    | some p => if overlapsOther ws i p then .error .overlap else .ok (ws.set i ws[i].enabled)

/-- DISABLE WINDOW in the commit pass, by the live count (R12). -/
def commitDisableWindow (ws : Vector Window 32) (bs : List Byte) : Vector Window 32 :=
  match windowIndex bs with
  | none => ws
  | some i => ws.set i ws[i].disabled

/-- CLEAR WINDOW in the commit pass. -/
def commitClearWindow (ws : Vector Window 32) (bs : List Byte) : Except RecordStatus (Vector Window 32) :=
  match windowIndex bs with
  | none => .ok ws
  | some i => if ws[i].isReserved then .error .indexBusy else .ok (ws.set i .empty)

/-- A window that is not EMPTY names the target (R35). -/
def targetInUse (ws : Vector Window 32) (t : TargetId) : Bool :=
  (List.finRange 32).any fun i =>
    match ws[i].profile with
    | some p => decide (p.target = t)
    | none => false

end Sys2Proof.Machine
end

