-- ==== Sys2Proof/Machine/Segments.lean ====
section
/-! DEFINITION. Units, merges and segments (chapter 4): how a transfer is partitioned into units, where a segment is
cut, and the byte cycles of each unit in their order. -/

namespace Sys2Proof.Machine

/-! ## The transfer and its units (R69). A unit is named by its index, its first address divided by its size. -/

/-- The first requested address. -/
def Transfer.first (x : Transfer) : Nat := x.address.toNat

/-- The last requested address, computed without wrapping (R20). -/
def Transfer.last (x : Transfer) : Nat := x.address.toNat + x.length - 1

/-- The size of the transfer's units: the snapshot's unit, which is 1 in the port modes (R4). -/
def Transfer.unit (x : Transfer) : Nat := x.snapshot.unit.bytes

/-- An upstream address is a requested byte. -/
def Transfer.requests (x : Transfer) (a : Nat) : Bool := decide (x.first ≤ a) && decide (a < x.first + x.length)

/-- The position of the last requested byte of unit `k`. -/
def Transfer.lastPosition (x : Transfer) (k : Nat) : Nat := min (k * x.unit + x.unit - 1) x.last - x.first

/-- The units not yet run, in ascending order: from the one that holds the byte at the progress to the last. -/
def Transfer.unitsLeft (x : Transfer) : List Nat :=
  let k := (x.first + x.progress) / x.unit
  List.range' k (x.last / x.unit + 1 - k)

/-! ## Cutting a segment -/

/-- The least multiple of `m` greater than the progress, or the length where that is smaller (R78, R80). -/
def Transfer.cutPoint (x : Transfer) (m : Nat) : Nat := min ((x.progress / m + 1) * m) x.length

/-- Units for as long as each ends below the cut point, and never fewer than one (R78). -/
def Transfer.unitsToCut (x : Transfer) (m : Nat) : List Nat :=
  match x.unitsLeft.takeWhile fun k => decide (x.lastPosition k < x.cutPoint m) with
  | [] => x.unitsLeft.take 1
  | k :: ks => k :: ks

/-- Units for as long as they lie in the atomic block, of `ab` addresses, of the first one (R79). -/
def Transfer.unitsInBlock (x : Transfer) (ab : Nat) : List Nat :=
  let block := (x.unitsLeft.headD 0) * x.unit / ab
  x.unitsLeft.takeWhile fun k => decide (k * x.unit / ab = block)

/-- The units of the next segment of a transfer, with the segment limit in force (the table of R77). -/
def Transfer.segmentUnits (x : Transfer) (limit : Nat) : List Nat :=
  match x.snapshot.ab, x.snapshot.mode with
  | .none, _ => x.unitsToCut limit
  | ab, .linear => x.unitsInBlock ab.bytes
  | ab, .port => x.unitsToCut ab.bytes
  | ab, .splitPort => x.unitsToCut ab.bytes

/-! ## The byte cycles of a unit -/

/-- The addresses of unit `k` in lane order (R71). -/
def Transfer.unitAddresses (x : Transfer) (k : Nat) : List Nat :=
  match x.snapshot.lane with
  | .ascending => List.range' (k * x.unit) x.unit
  | .descending => (List.range' (k * x.unit) x.unit).reverse

/-- The target address of a byte for a read or write cycle (R3, R70). -/
def Profile.targetAddress (p : Profile) (isWrite : Bool) (a : Nat) : TargetAddr :=
  match p.mode with
  | .linear => p.targetBase + BitVec.ofNat 16 (a - p.base.toNat)
  | .port => p.readPort
  | .splitPort => if isWrite then p.writePort else p.readPort

/-- One cycle of a transfer at an upstream address. -/
def Transfer.cycle (x : Transfer) (isWrite : Bool) (use : ByteUse) (a : Nat) : CycleSpec :=
  ⟨isWrite, x.snapshot.targetAddress isWrite a, use, none⟩

/-- The read cycles of a unit of a READ: every byte, requested or not (R72). -/
def Transfer.readCycles (x : Transfer) (k : Nat) : List CycleSpec :=
  (x.unitAddresses k).map fun a => x.cycle false (if x.requests a then .request (a - x.first) else .discard) a

/-- The read phase of a merge: the bytes the request does not supply (R75). A whole unit has none (R74). -/
def Transfer.mergeReads (x : Transfer) (k : Nat) : List CycleSpec :=
  ((x.unitAddresses k).filter fun a => !x.requests a).map fun a => x.cycle false (.merge a) a

/-- The write cycles of a unit of a WRITE or POSTED transfer: every byte (R74, R75). -/
def Transfer.writeCycles (x : Transfer) (k : Nat) : List CycleSpec :=
  (x.unitAddresses k).map fun a => x.cycle true (if x.requests a then .request (a - x.first) else .merge a) a

/-- The requested bytes of unit `k`. -/
def Transfer.requestedBytes (x : Transfer) (k : Nat) : Nat := ((x.unitAddresses k).filter x.requests).length

/-- The last cycle of a unit marked with the unit's requested bytes. -/
def markUnitEnd (bytes : Nat) : List CycleSpec → List CycleSpec
  | [] => []
  | [c] => [{ c with unitEnd := some bytes }]
  | c :: d :: cs => c :: markUnitEnd bytes (d :: cs)

/-- The byte cycles of unit `k` in the order they run (R72, R74, R75). -/
def Transfer.unitCycles (x : Transfer) (k : Nat) : List CycleSpec :=
  markUnitEnd (x.requestedBytes k)
    (match x.kind with
     | .read => x.readCycles k
     | .write => x.mergeReads k ++ x.writeCycles k
     | .posted => x.mergeReads k ++ x.writeCycles k)

/-- The cycle list of the next segment (R77, R97). -/
def Transfer.segmentCycles (x : Transfer) (limit : Nat) : List CycleSpec :=
  (x.segmentUnits limit).flatMap x.unitCycles

end Sys2Proof.Machine
end

