-- ==== Sys2Proof/Machine/Bus.lean ====
section
/-! DEFINITION. The Peripheral Bus Engine (chapter 5): arbitration, the byte cycle, the recovery timers, the segment's
end and lending. -/

namespace Sys2Proof.Machine

/-! ## Eligibility and choice -/

/-- The outcome mark of a target is outstanding: an outcome handed for it is not yet taken (R101). -/
def State.outcomeMark (s : State) (t : TargetId) : Bool := s.handed.outcomes.any fun o => decide (o.1 = t)

/-- An entry of the same initiator with the same target, admitted before this one, is in the tracker (R53). -/
def Tracker.heldBack (t : Tracker) (e : Entry) : Bool :=
  (olderThan t.entries e.slot).any fun f => decide (f.initiator = e.initiator) && decide (f.target = e.target)

/-- A target's entries may be chosen: ONLINE or SUSPECT, not recovering, outcome mark clear (R94). -/
def State.targetReady (s : State) (t : TargetId) : Bool :=
  (decide (s.tgt[t].state = .online) || decide (s.tgt[t].state = .suspect)) &&
    decide (s.pbe.recovery[t] = 0) && !s.outcomeMark t

/-- An entry is eligible for a segment: the five conditions of R94 and no other. An entry admitted before a passage to
OFFLINE whose announcement is not yet taken is therefore eligible once a REVIVE has made its target ONLINE (DESIGN CHOICE,
log entry 29). -/
def State.eligible (s : State) (e : Entry) : Bool :=
  match e.target with
  | none => false
  | some t => decide (e.state = .waiting) && !s.trk.heldBack e && s.targetReady t

/-- The entry the arbiter chooses: the oldest eligible entry of the first initiator in turn that has one (R95). -/
def State.chosen (s : State) : Option Entry :=
  (rotation s.pbe.pointer).findSome? fun i =>
    s.trk.entries.find? fun e => decide (e.initiator = i) && s.eligible e

/-! ## The byte cycle (section 5.5) -/

/-- The value of a write cycle: the byte at its position in the entry's data, or the value the merge's read phase
returned (R98). -/
def cycleValue (data : List Byte) (merged : List (Nat × Byte)) : ByteUse → Byte
  | .request p => byteAt data p
  | .merge a => (merged.lookup a).getD 0
  | .discard => 0

/-- The data of the entry at a slot. -/
def Tracker.dataAt (t : Tracker) (slot : Slot) : List Byte :=
  match t.entries.find? fun e => decide (e.slot = slot) with
  | some e =>
    match e.transfer with
    | some x => x.data
    | none => []
  | none => []

/-- The setup of the next cycle of the list begins: the strobe width and ready timeout are read from the live record, and
the value of a write cycle is driven (R98). Nothing begins where the list holds no further cycle. -/
def beginCycle (record : TargetRecord) (data : List Byte) (c : SegmentContext) : SegmentContext :=
  match c.cycles[c.next]? with
  | none => c
  | some spec =>
    { c with
      run := some
        { spec := spec
          strobeWidth := record.strobeWidth
          readyTimeout := record.readyTimeout
          driven := if spec.write then some (cycleValue data c.merged spec.use) else none
          phase := .setup } }

/-- The segment context formed at the choice of an entry (R97). -/
def contextOf (e : Entry) (x : Transfer) (limit : Nat) : SegmentContext where
  slot := e.slot
  target := x.snapshot.target
  write := decide (x.kind ≠ .read)
  mode := x.snapshot.mode
  readPort := x.snapshot.readPort
  writePort := x.snapshot.writePort
  cycles := x.segmentCycles limit
  next := 0
  start := x.progress
  unitsDone := 0
  bytesDone := 0
  held := []
  merged := []
  timedOut := false
  run := none
  report := none

/-- The choice of an entry: the pointer moves on, the entry goes IN_SEGMENT, the segment is cut, the context formed, the
bus goes SEGMENT and the first cycle's setup begins (R54, R95, R98). -/
def State.beginSegment (s : State) (e : Entry) : State :=
  match e.transfer with
  | none => s
  | some x =>
    { s with
      trk := { s.trk with entries := changeEntry s.trk.entries e.slot fun f => { f with state := .inSegment false } }
      pbe :=
        { s.pbe with
          pointer := e.initiator + 1
          bus := .segment (beginCycle s.tgt[x.snapshot.target] x.data (contextOf e x s.pbe.segmentLimit)) } }

/-- The grant of the bus to the external master (R107). -/
def State.grantBus (s : State) : State :=
  { s with pbe := { s.pbe with bus := .lent, lendTimer := some 0, overrunMark := false } }

/-- One evaluation of the arbiter (R92, R93): with the bus IDLE and table initialization complete, EXTREQ is granted, else
an eligible entry is chosen, else nothing changes. -/
def State.arbitrate (s : State) : State :=
  if s.power.boot = .running ∧ s.pbe.bus = .idle then
    if s.pins.extreq then s.grantBus
    else
      match s.chosen with
      | some e => s.beginSegment e
      | none => s
  else s

/-! ## Strobe, hold and cycle end -/

/-- PRDY sampled high at the end of strobe clock `clock`: at or beyond the strobe width, at or before the timeout clock,
and not before the clock that ended last, the cycle is completed and passes to hold (R99, R100). -/
def CycleRun.sampleHigh (r : CycleRun) (clock : Nat) (data : Byte) : Option CycleRun :=
  let ended := match r.phase with
    | .setup => some 0
    | .strobe k => some k
    | .hold _ => none
  match ended with
  | none => none
  | some k =>
    if k ≤ clock ∧ r.strobeWidth ≤ clock ∧ clock ≤ Config.clocksPerMicrosecond * r.readyTimeout then
      some { r with phase := .hold (.completed (if r.spec.write then none else some data)) }
    else none

/-- PRDY low at the end of the timeout clock: the strobe is withdrawn and the cycle is timed out (R100). -/
def CycleRun.timeOut (r : CycleRun) : Option CycleRun :=
  match r.phase with
  | .setup => some { r with phase := .hold .timedOut }
  | .strobe _ => some { r with phase := .hold .timedOut }
  | .hold _ => none

/-- The result of a cycle whose hold is running. -/
def CycleRun.result (r : CycleRun) : Option CycleResult :=
  match r.phase with
  | .hold result => some result
  | .setup => none
  | .strobe _ => none

/-- The segment context with its byte cycle replaced. -/
def SegmentContext.withRun (c : SegmentContext) (r : Option CycleRun) : SegmentContext := { c with run := r }

/-- The state with the segment context replaced. -/
def State.withContext (s : State) (c : SegmentContext) : State := { s with pbe := { s.pbe with bus := .segment c } }

/-- A completed cycle advances the context: the value taken is held where its byte is requested or belongs to a merge, and
at a unit's last cycle the unit is counted and the merge's values are discarded (R72, R75, R101). -/
def SegmentContext.advance (c : SegmentContext) (spec : CycleSpec) (taken : Option Byte) : SegmentContext :=
  let held := match taken, spec.use with
    | some b, .request p => c.held ++ [(p, b)]
    | _, _ => c.held
  let merged := match taken, spec.use with
    | some b, .merge a => c.merged ++ [(a, b)]
    | _, _ => c.merged
  match spec.unitEnd with
  | some bytes =>
    { c with
      next := c.next + 1, run := none, held := held, merged := []
      unitsDone := c.unitsDone + 1, bytesDone := c.bytesDone + bytes }
  | none => { c with next := c.next + 1, run := none, held := held, merged := merged }

/-- The segment end report: slot, completed units and their requested bytes, the values of a READ in their places, and
whether a cycle timed out (R85, R86). -/
def SegmentContext.endReport (c : SegmentContext) : SegmentReport where
  slot := c.slot
  units := c.unitsDone
  bytes := c.bytesDone
  values := if c.write then [] else (List.range c.bytesDone).map fun k => (c.held.lookup (c.start + k)).getD 0
  timedOut := c.timedOut

/-- After a cycle's end: the report is handed where the list is done or the cycle timed out; otherwise the next setup
begins at once where the recovery is 0, and waits for the timer where it is not (R86, R104, R106). It does not wait for the
TGT to take the outcome of the cycle that ended, a merge's last read included (R101; DEDUCED, log entry 30). -/
def SegmentContext.proceed (c : SegmentContext) (record : TargetRecord) (data : List Byte) : SegmentContext :=
  if c.timedOut ∨ c.cycles.length ≤ c.next then { c with report := some c.endReport }
  else if record.recovery = 0 then beginCycle record data c
  else c

/-- The context at the end of a cycle with a result (R101 item 4). -/
def SegmentContext.endCycle (c : SegmentContext) (r : CycleRun) (result : CycleResult) : SegmentContext :=
  match result with
  | .completed taken => c.advance r.spec taken
  | .timedOut => { c with timedOut := true, run := none }

/-- The end of a byte cycle: the recovery timer starts, the outcome is handed with its mark outstanding, the context
advances or the segment ends (R101, R103, R106). -/
def State.endCycle (s : State) (c : SegmentContext) (r : CycleRun) (result : CycleResult) : State :=
  let record := s.tgt[c.target]
  { s with
    pbe :=
      { s.pbe with
        recovery := s.pbe.recovery.set c.target (Config.clocksPerTick * record.recovery)
        bus := .segment ((c.endCycle r result).proceed record (s.trk.dataAt c.slot)) }
    handed := { s.handed with outcomes := s.handed.outcomes ++ [(c.target, decide (result ≠ .timedOut))] } }

/-! ## The commands of the PBE -/

/-- READY_TIMEOUT (R100). -/
def execReadyTimeout (s : State) : Host.Outcome State Fault Refusal :=
  match s.pbe.bus with
  | .segment c =>
    match c.run.bind CycleRun.timeOut with
    | some r => .next (s.withContext (c.withRun (some r)))
    | none => .next s
  | .idle => .next s
  | .lent => .next s

/-- PRDY_SAMPLED_HIGH (R99, R100). -/
def execPrdySampledHigh (clock : Nat) (data : Byte) (s : State) : Host.Outcome State Fault Refusal :=
  match s.pbe.bus with
  | .segment c =>
    match c.run.bind fun r => r.sampleHigh clock data with
    | some r => .next (s.withContext (c.withRun (some r)))
    | none => .next s
  | .idle => .next s
  | .lent => .next s

/-- BYTE_CYCLE_END (R101). -/
def execByteCycleEnd (s : State) : Host.Outcome State Fault Refusal :=
  match s.pbe.bus with
  | .segment c =>
    match c.run with
    | some r =>
      match r.result with
      | some result => .next (s.endCycle c r result)
      | none => .next s
    | none => .next s
  | .idle => .next s
  | .lent => .next s

/-- The running segment waits for the recovery timer of its target to begin its next cycle (R104). -/
def SegmentContext.waitsFor (c : SegmentContext) (t : TargetId) : Bool :=
  decide (c.target = t) && c.run.isNone && c.report.isNone

/-- RECOVERY_TIMER_EXPIRY: in a segment to the target it lets the next cycle begin; with the bus IDLE it causes an
evaluation (R103, R104). -/
def execRecoveryTimerExpiry (t : TargetId) (s : State) : Host.Outcome State Fault Refusal :=
  if s.pbe.recovery[t] = 0 then .next s
  else
    let s1 : State := { s with pbe := { s.pbe with recovery := s.pbe.recovery.set t 0 } }
    match s.pbe.bus with
    | .segment c =>
      if c.waitsFor t then .next (s1.withContext (beginCycle s.tgt[t] (s.trk.dataAt c.slot) c)) else .next s1
    | .idle => .next s1.arbitrate
    | .lent => .next s1

/-- The state with the level of EXTREQ taken. -/
def State.withExtreq (s : State) (level : Bool) : State := { s with pins := { s.pins with extreq := level } }

/-- A level of EXTREQ is taken when sampled at two consecutive edges (R187); with the bus IDLE an assertion causes an
evaluation, which grants the bus (R92, R93). -/
def execExtreqAsserted (samples : Nat) (s : State) : Host.Outcome State Fault Refusal :=
  if Config.samplesToTake ≤ samples ∧ s.pins.extreq = false then
    .next (s.withExtreq true).arbitrate
  else .next s

/-- The return of the bus from a lending: EXTGNT withdrawn, the lend timer stopped, every recovery timer restarted with
the recovery in force (R112). -/
def State.returnBus (s : State) : State :=
  { s with
    pbe :=
      { s.pbe with
        bus := .idle, lendTimer := none, overrunMark := false
        recovery := tabulate fun t => Config.clocksPerTick * s.tgt[t].recovery } }

/-- EXTREQ_WITHDRAWN: while LENT the bus is taken back and the arbiter evaluated; where EXTREQ was asserted again before
the evaluation, the evaluation finds it and grants the bus again (R112). -/
def execExtreqWithdrawn (samples : ExtreqSamples) (s : State) : Host.Outcome State Fault Refusal :=
  if Config.samplesToTake ≤ samples.withdrawn ∧ s.pins.extreq = true then
    let s1 := s.withExtreq false
    match s.pbe.bus with
    | .lent => .next (s1.returnBus.withExtreq (decide (Config.samplesToTake ≤ samples.again))).arbitrate
    | .idle => .next s1
    | .segment _ => .next s1
  else .next s

/-- LEND_LIMIT_REACHED: judged against the lend limit in force at this moment, a lending not yet reported whose timer stands
at the limit or past it is reported overrun; where a commit taken first has raised the limit above the timer or set it to
0, nothing is reported (R110). -/
def execLendLimitReached (s : State) : Host.Outcome State Fault Refusal :=
  if s.pbe.overrunDue then .next s.reportOverrun else .next s

end Sys2Proof.Machine
end

