-- ==== Sys2Proof/Machine/Targets.lean ====
section
/-! DEFINITION. The Target Table (chapter 2): health by cycle outcomes, ages, and what each target record does to a
target record, at staging and at commit. -/

namespace Sys2Proof.Machine

/-! ## Health -/

/-- A completed cycle: consecutive and age 0, SUSPECT becomes ONLINE; an ABSENT record is not changed (R30, R35). -/
def TargetRecord.completed (t : TargetRecord) : TargetRecord :=
  match t.state with
  | .absent => t
  | .online => { t with consecutive := 0, age := 0 }
  | .suspect => { t with state := .online, consecutive := 0, age := 0 }
  | .offline => { t with consecutive := 0, age := 0 }

/-- The state after a timed-out cycle, with the new consecutive count against the threshold (R31). -/
def TargetRecord.stateAfterTimeout (t : TargetRecord) (consecutive : Nat) : TargetState :=
  match t.state with
  | .absent => .absent
  | .offline => .offline
  | .online => if t.threshold ≤ consecutive then .offline else .suspect
  | .suspect => if t.threshold ≤ consecutive then .offline else .suspect

/-- A timed-out cycle: error count and consecutive count rise, the state follows; an ABSENT record is not changed. The
consecutive count cannot pass 15 (R31, R35). -/
def TargetRecord.timedOut (t : TargetRecord) : TargetRecord :=
  if t.state = .absent then t
  else
    let n := min 15 (t.consecutive + 1)
    { t with errors := saturate255 t.errors, consecutive := n, state := t.stateAfterTimeout n }

/-- The 1 ms tick of one record: an age of 0–253 rises, 254 and 255 stay (R33). -/
def TargetRecord.aged (t : TargetRecord) : TargetRecord := if t.age ≤ 253 then { t with age := t.age + 1 } else t

/-- The oldest untaken outcome of a target, and the outcomes without it (R101). -/
def takeOutcome (t : TargetId) : List (TargetId × Bool) → Option (Bool × List (TargetId × Bool))
  | [] => none
  | o :: os =>
    if o.1 = t then some (o.2, os)
    else (takeOutcome t os).map fun r => (r.1, o :: r.2)

/-- A target passes to OFFLINE: the announcement is handed to the TRK and, as an event of source 9, to the IRL (R32). -/
def State.announceOffline (s : State) (t : TargetId) : State :=
  let announcement : Announcement := ⟨t, s.trk.nextSerial⟩
  State.handEvent { s with handed := { s.handed with announcements := s.handed.announcements ++ [announcement] } }
    .targetDown

/-- The state with a target record replaced and the outcomes that are left. -/
def State.withOutcomeTaken (s : State) (t : TargetId) (r : TargetRecord) (left : List (TargetId × Bool)) : State :=
  { s with tgt := s.tgt.set t r, handed := { s.handed with outcomes := left } }

/-- CYCLE_COMPLETION: the oldest outcome of the target is a completion and is taken (R30, R101); the mark may clear and
the state may change, so the arbiter is evaluated (R92). It counts in the record as it stands now, one that CLEAR TARGET and
SET TARGET have made anew since the cycle included (DESIGN CHOICE, log entry 38). -/
def execCycleCompletion (t : TargetId) (s : State) : Host.Outcome State Fault Refusal :=
  match takeOutcome t s.handed.outcomes with
  | some (true, left) => .next (s.withOutcomeTaken t s.tgt[t].completed left).arbitrate
  | some (false, _) => .next s
  | none => .next s

/-- CYCLE_TIMEOUT: the oldest outcome of the target is a timeout and is taken; a passage to OFFLINE is announced in the
same step (R31, R32), and the arbiter is evaluated (R92). It counts in the record as it stands now, one that CLEAR TARGET
and SET TARGET have made anew since the cycle included (DESIGN CHOICE, log entry 38). -/
def execCycleTimeout (t : TargetId) (s : State) : Host.Outcome State Fault Refusal :=
  match takeOutcome t s.handed.outcomes with
  | some (false, left) =>
    let r := s.tgt[t].timedOut
    let s1 := s.withOutcomeTaken t r left
    if r.state = .offline ∧ s.tgt[t].state ≠ .offline then .next (s1.announceOffline t).arbitrate
    else .next s1.arbitrate
  | some (true, _) => .next s
  | none => .next s

/-- AGE_TICK: the ages of all sixteen records, from the release of PORST# on (R33). -/
def execAgeTick (s : State) : Host.Outcome State Fault Refusal :=
  if s.power.boot = .held then .next s else .next { s with tgt := tabulate fun t => s.tgt[t].aged }

/-! ## What the target records do -/

/-- SET TARGET: the four parameters; ABSENT becomes ONLINE with health 0, 0, 255; otherwise state and health are kept
(R34). -/
def TargetRecord.configured (t : TargetRecord) (bs : List Byte) : TargetRecord :=
  if t.state = .absent then { TargetRecord.powerOn.withTiming bs with state := .online } else t.withTiming bs

/-- REVIVE TARGET: ONLINE with consecutive 0, the rest kept (R36). -/
def TargetRecord.revived (t : TargetRecord) : TargetRecord := { t with state := .online, consecutive := 0 }

/-- SET TARGET staged, checks 1 and 3 of R37. -/
def stageSetTarget (ts : Vector TargetRecord 16) (bs : List Byte) : Except RecordStatus (Vector TargetRecord 16) :=
  match targetNumber (byteAt bs 0) with
  | none => .error .badField
  | some t => if timingLegal bs then .ok (ts.set t (ts[t].configured bs)) else .error .badField

/-- CLEAR TARGET staged, checks 1 and 4 of R37. -/
def stageClearTarget (ws : Vector Window 32) (ts : Vector TargetRecord 16) (bs : List Byte) :
    Except RecordStatus (Vector TargetRecord 16) :=
  match targetNumber (byteAt bs 0) with
  | none => .error .badField
  | some t => if targetInUse ws t then .error .targetInUse else .ok (ts.set t TargetRecord.powerOn)

/-- REVIVE TARGET staged, checks 1 and 2 of R37. -/
def stageReviveTarget (ts : Vector TargetRecord 16) (bs : List Byte) : Except RecordStatus (Vector TargetRecord 16) :=
  match targetNumber (byteAt bs 0) with
  | none => .error .badField
  | some t => if ts[t].state = .absent then .error .badField else .ok (ts.set t ts[t].revived)

/-- SET TARGET at commit, on the live record (R34). -/
def commitSetTarget (ts : Vector TargetRecord 16) (bs : List Byte) : Vector TargetRecord 16 :=
  match targetNumber (byteAt bs 0) with
  | none => ts
  | some t => if timingLegal bs then ts.set t (ts[t].configured bs) else ts

/-- CLEAR TARGET at commit (R35). -/
def commitClearTarget (ts : Vector TargetRecord 16) (bs : List Byte) : Vector TargetRecord 16 :=
  match targetNumber (byteAt bs 0) with
  | none => ts
  | some t => ts.set t TargetRecord.powerOn

/-- REVIVE TARGET at commit, on the live record (R36). -/
def commitReviveTarget (ts : Vector TargetRecord 16) (bs : List Byte) : Vector TargetRecord 16 :=
  match targetNumber (byteAt bs 0) with
  | none => ts
  | some t => ts.set t ts[t].revived

end Sys2Proof.Machine
end

