-- ==== Sys2Proof/Machine/Tracker.lean ====
section
/-! DEFINITION. The Transaction Tracker (chapter 3): admission, refusals, the segment end report, FLUSH, DETACH, the
OFFLINE announcement and link reset. -/

namespace Sys2Proof.Machine

/-! ## Taking the head of the receive queue (R56, R122, R124) -/

/-- An entryless place: a ready refusal. The detaches in progress are the others (R56). -/
def Answer.isRefusal : Answer → Bool
  | .refusal _ => true
  | .entry _ => false
  | .detached _ => false

/-- The entryless places taken: refusals, and detaches in progress, ready or not (R56). -/
def Tracker.entryless (t : Tracker) : Nat :=
  (t.answers.filter Answer.isRefusal).length + ((List.finRange 4).filter fun i => t.detaches[i].isSome).length

/-- The block that takes a command's request can take it: the TRK with an entryless place free, the MGB holding fewer
than 4 answers (R122). -/
def State.canTake (s : State) (c : HeadClass) : Bool :=
  if c.isTracker then decide (s.trk.entryless < Config.entrylessPlaces)
  else decide (s.mgb.answers.length < Config.heldAnswers)

/-- The request at the head of the receive queue, where it is one for command `c` and its block can take it. -/
def State.headFor (s : State) (c : HeadClass) : Option Request :=
  match s.hlp.receive with
  | [] => none
  | r :: _ => if headClass r = c ∧ s.canTake c = true then some r else none

/-- The place of the head frees in the step in which it is handed (R122). -/
def State.popHead (s : State) : State := { s with hlp := { s.hlp with receive := s.hlp.receive.tail } }

/-! ## The admission checks (R47) -/

/-- A READ, WRITE or POSTED request. -/
def RequestKind.transferKind : RequestKind → Option TransferKind
  | .read => some .read
  | .write => some .write
  | .posted => some .posted
  | .flush => none
  | .detach => none
  | .unknown => none

/-- Check 2, RETRY: gate, capacity, per-initiator limit, detach in progress (R49). -/
def Tracker.retry (t : Tracker) (r : Request) : Bool :=
  (r.kind.transferKind.isSome && decide (t.gate ≠ .opened)) ||
    (decide (r.kind ≠ .detach) &&
      (decide (Config.trackerEntries ≤ t.entries.length) ||
        decide (Config.entriesPerInitiator ≤ (t.entriesOf r.initiator).length))) ||
    t.detaches[r.initiator].isSome

/-- Check 3, TAG_BUSY: a READ, WRITE or FLUSH whose tag a READ, WRITE or FLUSH entry of its initiator carries (R50). -/
def Tracker.tagBusy (t : Tracker) (r : Request) : Bool :=
  (decide (r.kind = .read) || decide (r.kind = .write) || decide (r.kind = .flush)) &&
    t.entries.any fun e => decide (e.initiator = r.initiator) && decide (e.tag = r.tag) && !e.isPosted

/-- Checks 1 to 3, which every kind meets (R47). -/
def Tracker.refusal (t : Tracker) (r : Request) : Option Status :=
  if !r.consistent then some .format
  else if t.retry r then some .retry
  else if t.tagBusy r then some .tagBusy
  else none

/-- A profile's mask admits the initiator: the read mask for a READ, the write mask otherwise (R8). -/
def Profile.admits (p : Profile) (isRead : Bool) (i : Initiator) : Bool :=
  if isRead then p.readMask.getLsbD i.val else p.writeMask.getLsbD i.val

/-- The request covers whole units of the window (R6). -/
def Profile.wholeUnits (p : Profile) (a length : Nat) : Bool :=
  decide (a % p.unit.bytes = 0) && decide ((a + length) % p.unit.bytes = 0)

/-- Checks 4 to 8 for a READ, WRITE or POSTED request: decode, and the checks that read its result (R20, R51). -/
def decodeRequest (ws : Vector Window 32) (ts : Vector TargetRecord 16) (r : Request) :
    Except Status (WindowIx × Profile) :=
  match decodeAddress ws r.address.toNat with
  | none => .error .miss
  | some (i, p) =>
    if !p.contains (r.address.toNat + r.length - 1) then .error .span
    else if !p.admits (decide (r.kind = .read)) r.initiator then .error .denied
    else if p.rse && !p.wholeUnits r.address.toNat r.length then .error .align
    else if ts[p.target].state = .offline then .error .offline
    else .ok (i, p)

/-! ## Refusal and admission -/

/-- The response of a refusal: the status, the request's tag, done count 0 (R52). -/
def Request.refusedWith (r : Request) (st : Status) : Response := ⟨r.initiator, r.tag, st, 0, .nothing⟩

/-- A refusal response joins the answer list as an entryless answer (R52). -/
def State.answerRefusal (s : State) (r : Request) (st : Status) : State :=
  { s with trk := { s.trk with answers := s.trk.answers ++ [.refusal (r.refusedWith st)] } }

/-- A refused POSTED request: answered where the status is RETRY, recorded as a posted fault otherwise (R52). -/
def State.refusePosted (s : State) (r : Request) (st : Status) : State :=
  if st = .retry then s.answerRefusal r st else s.recordFault r.initiator st r.address 0

/-- The lowest-numbered free slot (R42). -/
def Tracker.freeSlot (t : Tracker) : Slot :=
  ((List.finRange 16).find? fun k => !t.entries.any fun e => decide (e.slot = k)).getD 0

/-- An entry is admitted: WAITING in the lowest free slot, at the young end of the age order (R42, R44). -/
def State.addEntry (s : State) (r : Request) (body : EntryBody) : State :=
  let e : Entry := ⟨s.trk.freeSlot, s.trk.nextSerial, r.initiator, r.tag, body, .waiting⟩
  { s with trk := { s.trk with entries := s.trk.entries ++ [e], nextSerial := s.trk.nextSerial + 1 } }

/-- The transfer of an admitted request: progress 0, the payload as data, the window's profile as it stands (R21, R42). -/
def Request.transferOf (r : Request) (k : TransferKind) (i : WindowIx) (p : Profile) : Transfer :=
  ⟨k, r.address, r.length, i, p, 0, r.payload⟩

/-- A READ, WRITE or POSTED request is admitted: the window's count rises and the arbiter is evaluated, an entry having
become WAITING (R17, R47, R92). -/
def State.admitTransfer (s : State) (r : Request) (k : TransferKind) (i : WindowIx) (p : Profile) : State :=
  ({ s with wdc := s.wdc.set i s.wdc[i].addReference }.addEntry r (.transfer (r.transferOf k i p))).arbitrate

/-- The admission of a READ or WRITE at the head of the receive queue (R47, R52). -/
def State.admission (s : State) (r : Request) (k : TransferKind) : State :=
  match s.trk.refusal r with
  | some st => s.popHead.answerRefusal r st
  | none =>
    match decodeRequest s.wdc s.tgt r with
    | .error st => s.popHead.answerRefusal r st
    | .ok (i, p) => s.popHead.admitTransfer r k i p

/-- The admission of a POSTED request (R47, R52). -/
def State.admissionPosted (s : State) (r : Request) : State :=
  match s.trk.refusal r with
  | some st => s.popHead.refusePosted r st
  | none =>
    match decodeRequest s.wdc s.tgt r with
    | .error st => s.popHead.refusePosted r st
    | .ok (i, p) => s.popHead.admitTransfer r .posted i p

/-- READ (R47). -/
def execRead (s : State) : Host.Outcome State Fault Refusal :=
  match s.headFor .read with
  | some r => .next (s.admission r .read)
  | none => .next s

/-- WRITE (R47). -/
def execWrite (s : State) : Host.Outcome State Fault Refusal :=
  match s.headFor .write with
  | some r => .next (s.admission r .write)
  | none => .next s

/-- POSTED (R52). -/
def execPosted (s : State) : Host.Outcome State Fault Refusal :=
  match s.headFor .posted with
  | some r => .next (s.admissionPosted r)
  | none => .next s

/-- UNKNOWN_KIND: answered FORMAT with its tag (R48, R52). -/
def execUnknownKind (s : State) : Host.Outcome State Fault Refusal :=
  match s.headFor .unknownKind with
  | some r => .next (s.popHead.answerRefusal r .format)
  | none => .next s

/-! ## FLUSH (section 3.7) -/

/-- No POSTED entry of the FLUSH entry's initiator older than it is in the tracker (R60). -/
def Tracker.flushReady (t : Tracker) (e : Entry) : Bool :=
  e.isFlush && decide (e.state = .waiting) &&
    !(olderThan t.entries e.slot).any fun f => decide (f.initiator = e.initiator) && f.isPosted

/-- A FLUSH entry becomes DONE and its response is built from the record as it stands; a valid record is carried, cleared,
and its clearing told to the IRL, behind the events of source 8 already handed for the initiator (R61, R143). -/
def State.completeFlush (s : State) (e : Entry) : State :=
  let record := s.trk.faults[e.initiator]
  { s with
    trk :=
      { s.trk with
        entries := changeEntry s.trk.entries e.slot fun f => { f with body := .flush record, state := .done .ok }
        faults := s.trk.faults.set e.initiator none }
    handed :=
      { s.handed with withdrawals :=
          s.handed.withdrawals ++
            (if record.isSome then [⟨e.initiator, s.handed.events.count (.postedFault e.initiator)⟩] else []) } }

/-- The waiting FLUSH entries of an initiator whose condition holds become DONE, oldest first (R60, R61). -/
def State.judgeFlushes (s : State) (i : Initiator) : State :=
  (s.trk.entries.filter fun e => decide (e.initiator = i) && s.trk.flushReady e).foldl State.completeFlush s

/-- FLUSH: checks 1 to 3, then an entry, whose condition is judged at once (R60). -/
def execFlush (s : State) : Host.Outcome State Fault Refusal :=
  match s.headFor .flush with
  | some r =>
    match s.trk.refusal r with
    | some st => .next (s.popHead.answerRefusal r st)
    | none => .next ((s.popHead.addEntry r (.flush none)).judgeFlushes r.initiator).joinReady
  | none => .next s

/-! ## Departures with their consequences -/

/-- A POSTED entry has become DONE with an outcome: its failure is recorded, it leaves in the same step, and the waiting
FLUSH entries of its initiator are judged (R57, R60). -/
def State.finishPosted (s : State) (e : Entry) (x : Transfer) (o : EntryOutcome) : State :=
  let s1 := match o with
    | .ok => s
    | .timeout => s.recordFault e.initiator .timeout x.address x.progress
    | .offline => s.recordFault e.initiator .offline x.address x.progress
  (s1.depart e).judgeFlushes e.initiator

/-- A transfer with the requested bytes of a segment's completed units added: the progress rises, and a READ stores the
values (R54, R55). -/
def Transfer.progressed (x : Transfer) (bytes : Nat) (values : List Byte) : Transfer :=
  { x with progress := x.progress + bytes, data := if x.kind = .read then x.data ++ values else x.data }

/-- The state of an entry after a segment end report (R54). -/
def stateAfterSegment (x : Transfer) (timedOut : Bool) : EntryState :=
  if timedOut then .done .timeout else if x.progress < x.length then .waiting else .done .ok

/-- The TRK takes the report for an entry that is not dropped (R54, R57). -/
def State.takeReport (s : State) (e : Entry) (x : Transfer) (report : SegmentReport) : State :=
  let x1 := x.progressed report.bytes report.values
  let st := stateAfterSegment x1 report.timedOut
  let e1 : Entry := { e with body := .transfer x1, state := st }
  match x.kind, st with
  | .posted, .done o => s.finishPosted e1 x1 o
  | _, _ => { s with trk := { s.trk with entries := changeEntry s.trk.entries e.slot fun _ => e1 } }

/-- A dropped entry leaves at its segment's end, storing nothing and making no fault; as a POSTED departure it is judged
against waiting FLUSH entries (R54, R60, R63, R66). -/
def State.removeDropped (s : State) (e : Entry) : State :=
  if e.isPosted then (s.depart e).judgeFlushes e.initiator else s.depart e

/-- What the TRK does with the report for the entry at its slot. -/
def State.endSegmentOf (s : State) (report : SegmentReport) (e : Entry) : State :=
  match e.state, e.transfer with
  | .inSegment true, _ => s.removeDropped e
  | .inSegment false, some x => s.takeReport e x report
  | .inSegment false, none => s
  | .waiting, _ => s
  | .done _, _ => s

/-- SEGMENT_END_REPORT: the TRK takes the report, the context is discarded, the bus goes IDLE and the arbiter is evaluated
(R54, R106). -/
def execSegmentEndReport (s : State) : Host.Outcome State Fault Refusal :=
  match s.pbe.bus with
  | .segment c =>
    match c.report with
    | none => .next s
    | some report =>
      let idle : State := { s with pbe := { s.pbe with bus := .idle } }
      match s.trk.entries.find? fun e => decide (e.slot = report.slot) with
      | none => .next idle.arbitrate
      | some e => .next ((idle.endSegmentOf report e).joinReady).arbitrate
  | .idle => .next s
  | .lent => .next s

/-! ## The OFFLINE announcement (R65) -/

/-- The oldest untaken announcement of a target, and the announcements without it. -/
def takeAnnouncement (t : TargetId) : List Announcement → Option (Announcement × List Announcement)
  | [] => none
  | a :: as =>
    if a.target = t then some (a, as)
    else (takeAnnouncement t as).map fun r => (r.1, a :: r.2)

/-- The announcement reaches an entry: WAITING, to the target, admitted before the passage (R65). An entry that the arbiter
chose after a REVIVE and before the announcement is IN_SEGMENT and is not reached (DESIGN CHOICE, log entry 29). -/
def Announcement.reaches (a : Announcement) (e : Entry) : Bool :=
  decide (e.target = some a.target) && decide (e.state = .waiting) && decide (e.serial < a.before)

/-- One entry is failed: DONE with outcome OFFLINE, its progress and data kept; a POSTED entry leaves with its fault
recorded, and waiting FLUSH entries are judged (R57, R65). -/
def State.failOffline (s : State) (e : Entry) : State :=
  match e.transfer with
  | none => s
  | some x =>
    match x.kind with
    | .posted => s.finishPosted e x .offline
    | .read | .write =>
      { s with trk := { s.trk with entries := changeEntry s.trk.entries e.slot fun f => { f with state := .done .offline } } }

/-- OFFLINE_ANNOUNCEMENT: the entries reached are failed in age order, the answers join in age order, and the arbiter is
evaluated (R65). Where the announcement is taken before the segment end of the entry that timed out (R32), the answers of
the younger entries of its initiator join behind its TIMEOUT answer, at SEGMENT_END_REPORT (R53, R127; DESIGN CHOICE, log
entry 37). -/
def execOfflineAnnouncement (t : TargetId) (s : State) : Host.Outcome State Fault Refusal :=
  match takeAnnouncement t s.handed.announcements with
  | none => .next s
  | some (a, left) =>
    let s1 : State := { s with handed := { s.handed with announcements := left } }
    .next (((s1.trk.entries.filter a.reaches).foldl State.failOffline s1).joinReady).arbitrate

/-! ## DETACH and link reset -/

/-- Several entries leave at once, with no response, no fault and no judging of FLUSH entries; their answers are removed
from the answer list (R63, R66). -/
def State.discard (s : State) (es : List Entry) : State :=
  let s1 := es.foldl State.depart s
  { s1 with
    trk :=
      { s1.trk with
        answers := s1.trk.answers.filter fun a => !es.any fun e => decide (a = .entry e.slot) } }

/-- The entries that satisfy `p` are disposed of: those IN_SEGMENT become DROPPED, the others leave (R63, R66). -/
def State.dispose (s : State) (p : Entry → Bool) : State :=
  let dropped := s.trk.entries.map fun e => if p e && e.isInSegment then { e with state := .inSegment true } else e
  { s with trk := { s.trk with entries := dropped } }.discard (dropped.filter fun e => p e && !e.isInSegment)

/-- A detach of an initiator begins (R62): the detach in progress is set with its tag and dropped count, the record is
cleared, the detach is handed to the IRL and the MGB, and the entries are disposed of. -/
def State.beginDetach (s : State) (i : Initiator) (tag : Tag) : State :=
  let s1 : State :=
    { s with
      trk :=
        { s.trk with
          detaches := s.trk.detaches.set i (some ⟨tag, (s.trk.entriesOf i).length⟩)
          faults := s.trk.faults.set i none }
      handed :=
        { s.handed with
          irlDetaches := s.handed.irlDetaches ++ [i]
          mgbDetaches := s.handed.mgbDetaches ++ [i] } }
  s1.dispose fun e => decide (e.initiator = i)

/-- DETACH (R62). The arbiter is evaluated, an entry leaving the tracker (R92); answers may have left the answer list
(R126). -/
def execDetach (s : State) : Host.Outcome State Fault Refusal :=
  match s.headFor .detach with
  | some r =>
    match s.trk.refusal r with
    | some st => .next (s.popHead.answerRefusal r st)
    | none => .next ((s.popHead.beginDetach r.initiator r.tag).joinReady.settlePlace).arbitrate
  | none => .next s

/-- TRK_LINK_RESET: every WAITING and DONE entry leaves, every IN_SEGMENT entry is DROPPED, all posted-fault records are
cleared; the entryless answers and the detaches in progress are kept (R66). Entries admitted after the link's return and
before this command are among them (DESIGN CHOICE, log entry 36). -/
def execTrkLinkReset (s : State) : Host.Outcome State Fault Refusal :=
  if s.handed.trkResets = 0 then .next s
  else
    let s1 : State :=
      { s with
        trk := { s.trk with faults := Vector.replicate 4 none }
        handed := { s.handed with trkResets := s.handed.trkResets - 1 } }
    .next ((s1.dispose fun _ => true).joinReady.settlePlace).arbitrate

end Sys2Proof.Machine
end

