-- ==== Sys2Proof/Machine/Link.lean ====
section
/-! DEFINITION. The Host Link Port (chapter 6): link state, reception, the transmit queue with the place its rotation
gives, and the handing of answers and notices. -/

namespace Sys2Proof.Machine

/-! ## The transmit queue (R126) -/

/-- A block may hand its packet now: the queue has a free place and, where the place opened while the queue was full and
blocks waited for it, the rotation gives it to the block (R126). The link state is not asked: the TRK and the MGB hand in
any link state (R115, R126, R128), though R66 says of the answers kept across a link reset that they are handed once the
link is UP again (DEDUCED, log entry 26). -/
def State.mayHand (s : State) (b : OutBlock) : Bool :=
  decide (s.hlp.transmit.length < Config.transmitPlaces) && s.ready b &&
    (!s.hlp.contended || decide (s.placeWinner = some b))

/-- A packet joins the transmit queue; where the rotation gave its place, the pointer names the block after it (R126). -/
def LinkPort.hand (h : LinkPort) (b : OutBlock) (p : OutPacket) : LinkPort :=
  { h with
    transmit := h.transmit ++ [p]
    pointer := if h.contended then b.next else h.pointer
    contended := false }

/-- The transmit queue is replaced by what is left of it. A place that opens in a full queue while a block holds a ready
packet is given by rotation; where none holds one it stays free (R126). Of several places that open, one is given by
rotation, the first that is taken; the others are free to any block (DESIGN CHOICE, log entry 34). -/
def State.leaveTransmit (s : State) (left : List OutPacket) : State :=
  let wasFull := decide (Config.transmitPlaces ≤ s.hlp.transmit.length)
  let opened := decide (left.length < Config.transmitPlaces)
  { s with
    hlp :=
      { s.hlp with
        transmit := left
        contended := (s.hlp.contended || (wasFull && opened)) && s.placeWinner.isSome } }

/-! ## Link state (R114 to R117) -/

/-- TABLE_INITIALIZATION_COMPLETE: DOWN passes to TRAINING and the arbiter is evaluated once (R114, R188). -/
def execTableInitializationComplete (s : State) : Host.Outcome State Fault Refusal :=
  match s.power.boot with
  | .initializing _ =>
    .next ({ s with power := { s.power with boot := .running }, hlp := { s.hlp with link := .training } } : State).arbitrate
  | .held => .next s
  | .running => .next s

/-- QUIET_TIME_END (R114). -/
def execQuietTimeEnd (s : State) : Host.Outcome State Fault Refusal :=
  if s.hlp.link = .down ∧ s.hlp.quiet.isSome then
    .next { s with hlp := { s.hlp with link := .training, quiet := none } }
  else .next s

/-- TRAINING_COMPLETE: the link is UP and the IRL is told; where the IRL has not yet taken an earlier link reset, the news
stands behind it (R115, R144). -/
def execTrainingComplete (s : State) : Host.Outcome State Fault Refusal :=
  if s.hlp.link = .training then
    let up : State := { s with hlp := { s.hlp with link := .up } }
    if s.handed.irlNews = [] then .next { up with irl := s.irl.linkUpNews }
    else .next { up with handed := { s.handed with irlNews := s.handed.irlNews ++ [.up] } }
  else .next s

/-- TRAINING_FAILED: DOWN with the quiet time started; nothing above the HLP is told (R114). -/
def execTrainingFailed (s : State) : Host.Outcome State Fault Refusal :=
  if s.hlp.link = .training then
    .next { s with hlp := { s.hlp with link := .down, quiet := some Config.quietClocks } }
  else .next s

/-- A response packet; notices are the others. -/
def OutPacket.isResponse : OutPacket → Bool
  | .response _ => true
  | .notice _ => false

/-- LINK_LOST: DOWN with the quiet time started, the receive queue discarded, the notices removed from the transmit queue,
and the link reset event handed to the TRK, the IRL and the MGB (R116, R117). -/
def execLinkLost (s : State) : Host.Outcome State Fault Refusal :=
  if s.hlp.link = .up then
    let down : State :=
      { s with
        hlp := { s.hlp with link := .down, quiet := some Config.quietClocks, receive := [] }
        handed :=
          { s.handed with
            trkResets := s.handed.trkResets + 1
            mgbResets := s.handed.mgbResets + 1
            irlNews := s.handed.irlNews ++ [.reset] } }
    .next (down.leaveTransmit (s.hlp.transmit.filter OutPacket.isResponse))
  else .next s

/-! ## Receiving (R121 to R123) -/

/-- PACKET_ARRIVAL: while UP with a place in the receive queue, the packet is dropped and counted, or its request joins the
queue. While the queue is full the link holds packets back, so none arrives (R121, R122, R182). -/
def execPacketArrival (integrityOk : Bool) (bytes : List Byte) (s : State) : Host.Outcome State Fault Refusal :=
  if s.hlp.link = .up ∧ s.hlp.receive.length < Config.receivePlaces then
    match if integrityOk then requestOf bytes else none with
    | some r => .next { s with hlp := { s.hlp with receive := s.hlp.receive ++ [r] } }
    | none => .next { s with hlp := { s.hlp with dropped := saturate255 s.hlp.dropped } }
  else .next s

/-! ## Sending (R126, R183) -/

/-- PACKET_TRANSMISSION_END: the packet at the head has been sent and its place frees (R126). -/
def execPacketTransmissionEnd (s : State) : Host.Outcome State Fault Refusal :=
  if s.hlp.link = .up ∧ s.hlp.transmit ≠ [] then .next (s.leaveTransmit s.hlp.transmit.tail) else .next s

/-- The status of an outcome. -/
def outcomeStatus : EntryOutcome → Status
  | .ok => .ok
  | .timeout => .timeout
  | .offline => .offline

/-- The response of a DONE entry: status by outcome, done count the progress, and for a READ the done-count bytes read; a
FLUSH carries the record it was built from (R55, R56, R61, R183). -/
def Entry.response (e : Entry) (o : EntryOutcome) : Response :=
  match e.body with
  | .transfer x =>
    ⟨e.initiator, e.tag, outcomeStatus o, x.progress, if x.kind = .read then .data (x.data.take x.progress) else .nothing⟩
  | .flush none => ⟨e.initiator, e.tag, .ok, 0, .nothing⟩
  | .flush (some f) => ⟨e.initiator, e.tag, .postedFault, 0, .fault f⟩

/-- A TRK answer has been handed: it leaves the head of the answer list and its packet joins the transmit queue (R56). -/
def State.handAnswer (s : State) (r : Response) : State :=
  { s with
    hlp := s.hlp.hand .trk (.response r)
    trk := { s.trk with answers := s.trk.answers.tail } }

/-- ANSWER_HANDED: the answer at the head is handed. A READ, WRITE or FLUSH entry leaves in the same step and the arbiter
is evaluated; the answer of a DETACH ends its detach in progress (R56, R64, R92). -/
def execAnswerHanded (s : State) : Host.Outcome State Fault Refusal :=
  if s.mayHand .trk then
    match s.trk.answers with
    | [] => .next s
    | .refusal r :: _ => .next (s.handAnswer r)
    | .detached i :: _ =>
      match s.trk.detaches[i] with
      | some d =>
        let s1 := s.handAnswer ⟨i, d.tag, .detached, 0, .dropped d.dropped⟩
        .next { s1 with trk := { s1.trk with detaches := s1.trk.detaches.set i none } }
      | none => .next (State.settlePlace { s with trk := { s.trk with answers := s.trk.answers.tail } })
    | .entry slot :: _ =>
      match s.trk.entries.find? fun e => decide (e.slot = slot) with
      | some e =>
        match e.state with
        | .done o => .next ((s.handAnswer (e.response o)).depart e).joinReady.arbitrate
        | .waiting => .next s
        | .inSegment _ => .next s
      | none => .next (State.settlePlace { s with trk := { s.trk with answers := s.trk.answers.tail } })
  else .next s

/-- MGB_ANSWER_HANDED: the MGB's oldest held answer is handed (R148). -/
def execMgbAnswerHanded (s : State) : Host.Outcome State Fault Refusal :=
  if s.mayHand .mgb then
    match s.mgb.answers with
    | [] => .next s
    | r :: rest =>
      .next { s with hlp := s.hlp.hand .mgb (.response r), mgb := { s.mgb with answers := rest } }
  else .next s

/-- NOTICE_HANDING: the pair the IRL offers is chosen in the step, its notice handed, and it becomes NOTIFIED (R135). -/
def execNoticeHanding (s : State) : Host.Outcome State Fault Refusal :=
  if s.mayHand .irl then
    match s.irl.offer with
    | some (i, src) =>
      .next { s with hlp := s.hlp.hand .irl (.notice (s.irl.noticeOf i src)), irl := s.irl.handed i src }
    | none => .next s
  else .next s

end Sys2Proof.Machine
end

