-- ==== Sys2Proof/Machine/Mailbox.lean ====
section
/-! DEFINITION. The Management Block (chapter 8): accesses to management space, the mailbox protocol, the lease, and the
taking of link resets, detaches and the execution end. -/

namespace Sys2Proof.Machine

/-! ## Answers (R148) -/

/-- The answer OK to a WRITE: done count the length, no data. -/
def Request.writeOk (r : Request) : Response := ⟨r.initiator, r.tag, .ok, r.length, .nothing⟩

/-- The answer OK to a READ with the bytes read: done count the length. -/
def Request.readOk (r : Request) (bytes : List Byte) : Response := ⟨r.initiator, r.tag, .ok, r.length, .data bytes⟩

/-- The MGB takes the head of the receive queue and holds its answer (R148). -/
def State.answerAccess (s : State) (a : Response) : State :=
  { s.popHead with mgb := { s.mgb with answers := s.mgb.answers ++ [a] } }

/-- The same with the MGB's own state changed in the step. -/
def State.answerWith (s : State) (m : Management) (a : Response) : State :=
  { s.popHead with mgb := { m with answers := m.answers ++ [a] } }

/-! ## The mailbox (R151) -/

/-- The lease timer started with the lease in force (R157). -/
def Management.startLease (m : Management) : Option Nat := some (Config.clocksPerMillisecond * m.lease)

/-- The mailbox passes to FREE with the owner cleared and the lease timer stopped. -/
def Management.freed (m : Management) : Management := { m with mailbox := .free, leaseTimer := none }

/-- The mailbox is taken from its owner by a link reset or a detach (R159). -/
def Management.released (m : Management) : Management :=
  match m.mailbox with
  | .free => m
  | .claimed _ => m.freed
  | .result _ => m.freed
  | .busy i _ => { m with mailbox := .busy i true }

/-! ## Commands that take an access -/

/-- CLAIM (R152). -/
def execClaim (s : State) : Host.Outcome State Fault Refusal :=
  match s.headFor .claim with
  | none => .next s
  | some r =>
    if !s.mgb.claimMask.getLsbD r.initiator.val then .next (s.answerAccess (r.refusedWith .denied))
    else if s.mgb.mailbox = .free then
      let m : Management := { s.mgb with mailbox := .claimed r.initiator, leaseTimer := s.mgb.startLease }
      .next (s.answerWith m (r.readOk (claimValue true m.mailbox)))
    else .next (s.answerAccess (r.readOk (claimValue false s.mgb.mailbox)))

/-- The start of the CFX: EXECUTING in phase STRUCTURE with walk position 0 and an empty record list (R161). -/
def Executor.started (chainLength : Nat) : Executor := ⟨.structural, chainLength, 0, [], none, [], false⟩

/-- SUBMIT (R154). -/
def execSubmit (s : State) : Host.Outcome State Fault Refusal :=
  match s.headFor .submit with
  | none => .next s
  | some r =>
    match s.mgb.mailbox with
    | .free => .next (s.answerAccess (r.refusedWith .notOwner))
    | .claimed i =>
      if i ≠ r.initiator then .next (s.answerAccess (r.refusedWith .notOwner))
      else
        let chainLength := leNat r.payload
        if chainLength < 4 ∨ Config.bufferBytes < chainLength then .next (s.answerAccess (r.refusedWith .format))
        else
          let m : Management := { s.mgb with mailbox := .busy i false, leaseTimer := none, resultBuffer := [] }
          .next { s.answerWith m r.writeOk with cfx := some (Executor.started chainLength) }
    | .busy i _ => .next (s.answerAccess (r.refusedWith (if i = r.initiator then .mbxState else .notOwner)))
    | .result i => .next (s.answerAccess (r.refusedWith (if i = r.initiator then .mbxState else .notOwner)))

/-- RELEASE (R156). -/
def execRelease (s : State) : Host.Outcome State Fault Refusal :=
  match s.headFor .release with
  | none => .next s
  | some r =>
    match s.mgb.mailbox with
    | .free => .next (s.answerAccess (r.refusedWith .notOwner))
    | .claimed i =>
      if i = r.initiator then .next (s.answerWith s.mgb.freed r.writeOk)
      else .next (s.answerAccess (r.refusedWith .notOwner))
    | .result i =>
      if i = r.initiator then .next (s.answerWith s.mgb.freed r.writeOk)
      else .next (s.answerAccess (r.refusedWith .notOwner))
    | .busy i _ => .next (s.answerAccess (r.refusedWith (if i = r.initiator then .mbxState else .notOwner)))

/-- The source a NOTICE ACK value names: its lowest byte; 12–255 name none (R136). -/
def noticeSource (r : Request) : Option Source :=
  if h : (byteAt r.payload 0).toNat < 12 then some ⟨(byteAt r.payload 0).toNat, h⟩ else none

/-- NOTICE_ACK: the IRL's decision and the MGB's answer are one event (R136, R147). -/
def execNoticeAck (s : State) : Host.Outcome State Fault Refusal :=
  match s.headFor .noticeAck with
  | none => .next s
  | some r =>
    match (noticeSource r).bind fun src => s.irl.acknowledge s.pins r.initiator src with
    | some irl => .next { s.answerAccess r.writeOk with irl := irl }
    | none => .next (s.answerAccess (r.refusedWith .notOutstanding))

/-- REQUEST_BUFFER_WRITE (R153). -/
def execRequestBufferWrite (s : State) : Host.Outcome State Fault Refusal :=
  match s.headFor .requestBufferWrite with
  | none => .next s
  | some r =>
    match s.mgb.mailbox with
    | .free => .next (s.answerAccess (r.refusedWith .notOwner))
    | .claimed i =>
      if i = r.initiator then
        .next
          (s.answerWith
            { s.mgb with requestBuffer := writeBytes s.mgb.requestBuffer (r.offset - 0x100) r.payload } r.writeOk)
      else .next (s.answerAccess (r.refusedWith .notOwner))
    | .busy i _ => .next (s.answerAccess (r.refusedWith (if i = r.initiator then .mbxState else .notOwner)))
    | .result i => .next (s.answerAccess (r.refusedWith (if i = r.initiator then .mbxState else .notOwner)))

/-- MANAGEMENT_POSTED_WRITE: refused FORMAT without a response, recorded as a posted fault, source 8 raised (R124). -/
def execManagementPostedWrite (s : State) : Host.Outcome State Fault Refusal :=
  match s.headFor .managementPostedWrite with
  | none => .next s
  | some r => .next (s.popHead.recordFault r.initiator .format r.address 0)

/-- The refusal that an access of an unaccepted form is answered with (R148). -/
def formRefusal : AccessForm → Status
  | .miss => .miss
  | .format => .format
  | .accepted _ => .format

/-- MANAGEMENT_WRITE: a WRITE at an unmapped offset or of an unaccepted form (R148). -/
def execManagementWrite (s : State) : Host.Outcome State Fault Refusal :=
  match s.headFor .managementWrite with
  | none => .next s
  | some r => .next (s.answerAccess (r.refusedWith (formRefusal (accessForm r))))

/-- The answer to a READ of the request buffer (R153). -/
def requestBufferAnswer (m : Management) (r : Request) : Response :=
  if m.mailbox.owner = some r.initiator then r.readOk (readBytes m.requestBuffer (r.offset - 0x100) r.length)
  else r.refusedWith .notOwner

/-- The answer to a READ of the result buffer (R153). -/
def resultBufferAnswer (m : Management) (r : Request) : Response :=
  match m.mailbox with
  | .result i =>
    if i = r.initiator then r.readOk (readBytes m.resultBuffer (r.offset - 0x300) r.length) else r.refusedWith .notOwner
  | .free => r.refusedWith .notOwner
  | .claimed i => r.refusedWith (if i = r.initiator then .mbxState else .notOwner)
  | .busy i _ => r.refusedWith (if i = r.initiator then .mbxState else .notOwner)

/-- The answer to a READ of management space other than CLAIM (R148, R149, R151, R153). -/
def State.readAnswer (s : State) (r : Request) : Response :=
  match accessForm r with
  | .miss => r.refusedWith .miss
  | .format => r.refusedWith .format
  | .accepted .statusRegion => r.readOk ((s.statusRegion.drop r.offset).take r.length)
  | .accepted .mailboxState => r.readOk (mailboxValue s.mgb.mailbox)
  | .accepted .requestBuffer => requestBufferAnswer s.mgb r
  | .accepted .resultBuffer => resultBufferAnswer s.mgb r
  | .accepted .claim => r.refusedWith .format
  | .accepted .submit => r.refusedWith .format
  | .accepted .release => r.refusedWith .format
  | .accepted .noticeAck => r.refusedWith .format

/-- MANAGEMENT_READ (R148): answered from the state at the moment of the taking, and nothing else changes. -/
def execManagementRead (s : State) : Host.Outcome State Fault Refusal :=
  match s.headFor .managementRead with
  | none => .next s
  | some r => .next (s.answerAccess (s.readAnswer r))

/-! ## Lease, link reset, detach, execution end -/

/-- LEASE_EXPIRY: in CLAIMED or RESULT the mailbox is freed and the lease loss recorded (R158). -/
def execLeaseExpiry (s : State) : Host.Outcome State Fault Refusal :=
  if s.mgb.leaseTimer = none then .next s
  else
    match s.mgb.mailbox with
    | .claimed i =>
      .next { s with mgb := { s.mgb.freed with lostLast := some i, lostCount := saturate255 s.mgb.lostCount } }
    | .result i =>
      .next { s with mgb := { s.mgb.freed with lostLast := some i, lostCount := saturate255 s.mgb.lostCount } }
    | .free => .next s
    | .busy _ _ => .next s

/-- MGB_LINK_RESET, by the mailbox state at this moment, a claim made after the link's return included (R159; DESIGN
CHOICE, log entry 36). -/
def execMgbLinkReset (s : State) : Host.Outcome State Fault Refusal :=
  if s.handed.mgbResets = 0 then .next s
  else .next { s with mgb := s.mgb.released, handed := { s.handed with mgbResets := s.handed.mgbResets - 1 } }

/-- MGB_DETACH: the detach of the owner; the detach of another initiator changes nothing (R159). Detaches and link resets
that are handed and not taken have no order among them, for which R159 gives none: an older detach may be taken after a
later link reset, and after a claim that followed it (DESIGN CHOICE, log entry 31). -/
def execMgbDetach (i : Initiator) (s : State) : Host.Outcome State Fault Refusal :=
  if i ∈ s.handed.mgbDetaches then
    .next
      { s with
        mgb := if s.mgb.mailbox.owner = some i then s.mgb.released else s.mgb
        handed := { s.handed with mgbDetaches := s.handed.mgbDetaches.erase i } }
  else .next s

/-- EXECUTION_END: the CFX passes to IDLE and hands the end; the mailbox goes to RESULT with its lease and an event of
source 11, or to FREE where release is pending (R155, R161). -/
def execExecutionEnd (s : State) : Host.Outcome State Fault Refusal :=
  match s.cfx with
  | none => .next s
  | some x =>
    if x.finished then
      match s.mgb.mailbox with
      | .busy i false =>
        .next
          (State.handEvent
            { s with cfx := none, mgb := { s.mgb with mailbox := .result i, leaseTimer := s.mgb.startLease } }
            (.mailboxResult i))
      | .busy _ true => .next { s with cfx := none, mgb := { s.mgb with mailbox := .free } }
      | .free => .next { s with cfx := none }
      | .claimed _ => .next { s with cfx := none }
      | .result _ => .next { s with cfx := none }
    else .next s

end Sys2Proof.Machine
end

