-- ==== Sys2Proof/Machine/Executor.lean ====
section
/-! DEFINITION. The Configuration Executor (chapter 9): the structure phase, staging against the shadow, the commit step
and the results. -/

namespace Sys2Proof.Machine

/-! ## Results and the end of work (R168, R178, R179) -/

/-- The result records of a chain, in sequence order. -/
def resultRecords (refs : List RecordRef) (results : List RecordResult) : List Byte :=
  (refs.zip results).flatMap fun p => resultRecord p.1 p.2

/-- The CFX writes the result records and the chain-outcome record into the result buffer, and has only its end to hand
(R178, R179). The buffer holds 512 bytes, which no chain that passes R167 exceeds. -/
def State.finishChain (s : State) (x : Executor) (results : List RecordResult) (o : ChainOutcome) : State :=
  let bytes := (resultRecords x.records results ++ outcomeRecord o x.records.length).take Config.bufferBytes
  { s with
    mgb := { s.mgb with resultBuffer := writeBytes s.mgb.resultBuffer 0 bytes }
    cfx := some { x with results := results, finished := true } }

/-! ## The structure phase (R166, R167) -/

/-- The eight checks on the record at the walk position, in order: the reason of the first that fails, or the record's
kind and size (R166). -/
def checkRecord (buffer : List Host.Cell) (chainLength walk expected : Nat) : Except StructureReason (RecordKind × Nat) :=
  let left := chainLength - walk
  let length := (readByte buffer (walk + 1)).toNat
  if left = 0 then .error .noEnd
  else if left < 3 then .error .badLength
  else if 60 < length then .error .badLength
  else if left < 4 + length then .error .badLength
  else if byteSum (readBytes buffer walk (4 + length)) ≠ 0 then .error .badChecksum
  else
    match recordKind (readByte buffer walk).toNat with
    | none => .error .badType
    | some k =>
      if length ≠ k.payloadLength then .error .badLength
      else if (readByte buffer (walk + 2)).toNat ≠ expected then .error .badSequence
      else .ok (k, 4 + length)

/-- The sequence of the first record at which the running total of result sizes exceeds 512 (R167). -/
def resultOverflow : Nat → List RecordRef → Option Nat
  | _, [] => none
  | total, ref :: refs =>
    if Config.bufferBytes < total + 4 + ref.kind.resultLength then some ref.sequence
    else resultOverflow (total + 4 + ref.kind.resultLength) refs

/-- The size of the chain-outcome record (R179). -/
def outcomeRecordBytes : Nat := 8

/-- STRUCTURE_CHECK: the next record is examined. A failed check rejects the chain; END ends the walk and the result size
is checked; any other record joins the list and the walk goes on (R166 to R168). -/
def execStructureCheck (s : State) : Host.Outcome State Fault Refusal :=
  match s.cfx with
  | none => .next s
  | some x =>
    if x.phase = .structural ∧ x.finished = false then
      match checkRecord s.mgb.requestBuffer x.chainLength x.walk x.records.length with
      | .error reason => .next (s.finishChain x [] (.rejectedStructure x.records.length reason))
      | .ok (k, size) =>
        let x1 : Executor := { x with records := x.records ++ [⟨x.walk, k, x.records.length⟩] }
        if k = .endRecord then
          match resultOverflow outcomeRecordBytes x1.records with
          | some position => .next (s.finishChain x1 [] (.rejectedStructure position .resultTooLarge))
          | none => .next { s with cfx := some { x1 with phase := .staging } }
        else .next { s with cfx := some { x1 with walk := x.walk + size } }
    else .next s

/-! ## Staging (R169 to R173) -/

/-- The shadow: the live configuration copied in one step (R169). -/
def State.shadow (s : State) : Shadow where
  windows := s.wdc
  targets := s.tgt
  routes := s.irl.routes
  thresholds := s.irl.thresholds
  gate := s.trk.gate
  occupancy := s.trk.entries.length
  segmentLimit := s.pbe.segmentLimit
  lendLimit := s.pbe.lendLimit
  lease := s.mgb.lease
  claimMask := s.mgb.claimMask

/-- SHADOW_FORMATION, the first step of phase STAGING (R169). -/
def execShadowFormation (s : State) : Host.Outcome State Fault Refusal :=
  match s.cfx with
  | none => .next s
  | some x =>
    if x.phase = .staging ∧ x.finished = false ∧ x.shadow = none then
      .next { s with cfx := some { x with shadow := some s.shadow } }
    else .next s

/-- The payload of a record, read from the request buffer (R162, R163). -/
def State.payloadOf (s : State) (ref : RecordRef) : List Byte :=
  readBytes s.mgb.requestBuffer (ref.offset + 3) ref.kind.payloadLength

/-- The record that stages next, where it is of kind `k`, with the executor and the shadow (R170). -/
def State.staging (s : State) (k : RecordKind) : Option (Executor × Shadow × RecordRef) :=
  match s.cfx with
  | none => none
  | some x =>
    match x.shadow, x.records[x.results.length]? with
    | some sh, some ref =>
      if x.phase = .staging ∧ x.finished = false ∧ ref.kind = k then some (x, sh, ref) else none
    | _, _ => none

/-- A record staged with DONE: the shadow holds its change, its report is in its result (R170). -/
def Executor.staged (x : Executor) (sh : Shadow) (report : List Byte) : Executor :=
  { x with shadow := some sh, results := x.results ++ [⟨.done, report⟩] }

/-- The results of a chain whose record after `before` failed with `st`: every later record NOT_RUN (R170, R178). -/
def failedResults (before : List RecordResult) (st : RecordStatus) (records : Nat) : List RecordResult :=
  before ++ ⟨st, []⟩ :: List.replicate (records - before.length - 1) ⟨.notRun, []⟩

/-- A record that failed in staging rejects the chain (R170). -/
def State.stagingFailed (s : State) (x : Executor) (ref : RecordRef) (st : RecordStatus) : State :=
  s.finishChain x (failedResults x.results st x.records.length) (.rejectedStaging ref.sequence st)

/-- One record of kind `k` staged by its rule, which gives a status that failed, or the shadow and the report it leaves. -/
def State.stage (s : State) (k : RecordKind)
    (rule : Shadow → List Byte → Except RecordStatus (Shadow × List Byte)) : State :=
  match s.staging k with
  | none => s
  | some (x, sh, ref) =>
    match rule sh (s.payloadOf ref) with
    | .error st => s.stagingFailed x ref st
    | .ok (sh1, report) => { s with cfx := some (x.staged sh1 report) }

/-- A rule that changes the shadow's windows and reports nothing. -/
def onWindows (rule : Vector Window 32 → List Byte → Except RecordStatus (Vector Window 32)) (sh : Shadow)
    (bs : List Byte) : Except RecordStatus (Shadow × List Byte) :=
  (rule sh.windows bs).map fun ws => ({ sh with windows := ws }, [])

/-- A rule that changes the shadow's target records and reports nothing. -/
def onTargets (rule : Vector TargetRecord 16 → List Byte → Except RecordStatus (Vector TargetRecord 16)) (sh : Shadow)
    (bs : List Byte) : Except RecordStatus (Shadow × List Byte) :=
  (rule sh.targets bs).map fun ts => ({ sh with targets := ts }, [])

/-- GET WINDOW reports the shadow's entry (R23). -/
def stageGetWindow (sh : Shadow) (bs : List Byte) : Except RecordStatus (Shadow × List Byte) :=
  match windowIndex bs with
  | none => .error .badField
  | some i => .ok (sh, windowReport sh.windows[i])

/-- GET TARGET reports the shadow's record (R38). -/
def stageGetTarget (sh : Shadow) (bs : List Byte) : Except RecordStatus (Shadow × List Byte) :=
  match targetNumber (byteAt bs 0) with
  | none => .error .badField
  | some t => .ok (sh, targetReport sh.targets[t])

/-- SET ROUTE (R138). -/
def stageSetRoute (sh : Shadow) (bs : List Byte) : Except RecordStatus (Shadow × List Byte) :=
  match routeOf bs with
  | none => .error .badField
  | some (src, route) => .ok ({ sh with routes := sh.routes.set src route }, [])

/-- SET THRESHOLD (R138). -/
def stageSetThreshold (sh : Shadow) (bs : List Byte) : Except RecordStatus (Shadow × List Byte) :=
  match thresholdOf bs with
  | none => .error .badField
  | some (i, threshold) => .ok ({ sh with thresholds := sh.thresholds.set i threshold }, [])

/-- SET LIMITS (R172). -/
def stageSetLimits (sh : Shadow) (bs : List Byte) : Except RecordStatus (Shadow × List Byte) :=
  if limitsLegal bs then
    .ok
      ({ sh with
         segmentLimit := (byteAt bs 0).toNat
         lease := (byteAt bs 1).toNat
         lendLimit := (byteAt bs 2).toNat
         claimMask := BitVec.ofNat 4 (byteAt bs 3).toNat }, [])
  else .error .badField

/-- The gate that QUIESCE leaves: from OPEN by the occupancy, otherwise as it stands (R45). -/
def Gate.quiescedBy (g : Gate) (occupancy : Nat) : Gate :=
  match g with
  | .opened => if occupancy = 0 then .quiesced else .quiescing
  | .quiescing => .quiescing
  | .quiesced => .quiesced

/-- QUIESCE (R45, R171). -/
def stageQuiesce (sh : Shadow) (_ : List Byte) : Except RecordStatus (Shadow × List Byte) :=
  .ok ({ sh with gate := sh.gate.quiescedBy sh.occupancy }, [])

/-- RESUME (R45, R171). -/
def stageResume (sh : Shadow) (_ : List Byte) : Except RecordStatus (Shadow × List Byte) :=
  .ok ({ sh with gate := .opened }, [])

/-- SET_WINDOW (R10, R16). -/
def execSetWindow (s : State) : Host.Outcome State Fault Refusal :=
  .next (s.stage .setWindow fun sh => onWindows (fun ws => stageSetWindow ws sh.targets) sh)

/-- ENABLE_WINDOW (R11, R16). -/
def execEnableWindow (s : State) : Host.Outcome State Fault Refusal :=
  .next (s.stage .enableWindow (onWindows stageEnableWindow))

/-- DISABLE_WINDOW (R12, R16). -/
def execDisableWindow (s : State) : Host.Outcome State Fault Refusal :=
  .next (s.stage .disableWindow (onWindows stageDisableWindow))

/-- CLEAR_WINDOW (R13, R16). -/
def execClearWindow (s : State) : Host.Outcome State Fault Refusal :=
  .next (s.stage .clearWindow (onWindows stageClearWindow))

/-- GET_WINDOW (R23). -/
def execGetWindow (s : State) : Host.Outcome State Fault Refusal := .next (s.stage .getWindow stageGetWindow)

/-- SET_TARGET (R34, R37). -/
def execSetTarget (s : State) : Host.Outcome State Fault Refusal := .next (s.stage .setTarget (onTargets stageSetTarget))

/-- CLEAR_TARGET (R35, R37). -/
def execClearTarget (s : State) : Host.Outcome State Fault Refusal :=
  .next (s.stage .clearTarget fun sh => onTargets (stageClearTarget sh.windows) sh)

/-- REVIVE_TARGET (R36, R37). -/
def execReviveTarget (s : State) : Host.Outcome State Fault Refusal :=
  .next (s.stage .reviveTarget (onTargets stageReviveTarget))

/-- GET_TARGET (R38). -/
def execGetTarget (s : State) : Host.Outcome State Fault Refusal := .next (s.stage .getTarget stageGetTarget)

/-- SET_ROUTE (R138). -/
def execSetRoute (s : State) : Host.Outcome State Fault Refusal := .next (s.stage .setRoute stageSetRoute)

/-- SET_THRESHOLD (R138). -/
def execSetThreshold (s : State) : Host.Outcome State Fault Refusal := .next (s.stage .setThreshold stageSetThreshold)

/-- SET_LIMITS (R172). -/
def execSetLimits (s : State) : Host.Outcome State Fault Refusal := .next (s.stage .setLimits stageSetLimits)

/-- QUIESCE (R45, R171). -/
def execQuiesce (s : State) : Host.Outcome State Fault Refusal := .next (s.stage .quiesce stageQuiesce)

/-- RESUME (R45, R171). -/
def execResume (s : State) : Host.Outcome State Fault Refusal := .next (s.stage .resume stageResume)

/-- LEND_OVERRUN, the dropped-packet count and the lease-lost record cleared (R111, R123, R158, R173). -/
def State.clearCounters (s : State) : State :=
  { s with
    pbe := { s.pbe with lendOverrun := false }
    hlp := { s.hlp with dropped := 0 }
    mgb := { s.mgb with lostLast := none, lostCount := 0 } }

/-- GET_STATUS: reports, and clears what it reports of the live counters, in the step (R173). -/
def execGetStatus (s : State) : Host.Outcome State Fault Refusal :=
  match s.staging .getStatus with
  | none => .next s
  | some (x, sh, _) => .next { s.clearCounters with cfx := some (x.staged sh (statusReport s sh)) }

/-- END: stages with DONE as the last step of staging, and the chain passes to phase COMMIT (R170, R171). -/
def execEndRecord (s : State) : Host.Outcome State Fault Refusal :=
  match s.staging .endRecord with
  | none => .next s
  | some (x, sh, _) => .next { s with cfx := some { x.staged sh [] with phase := .committing } }

/-! ## Commit (R175 to R177) -/

/-- A later record of the chain replaces this one at commit: SET ROUTE of the same source, SET THRESHOLD of the same
initiator, or SET LIMITS (R175). -/
def superseded (k : RecordKind) (bs : List Byte) (later : List (RecordRef × List Byte)) : Bool :=
  later.any fun r =>
    decide (r.1.kind = k) &&
      match k with
      | .setRoute => decide (byteAt r.2 0 = byteAt bs 0)
      | .setThreshold => decide (byteAt r.2 0 = byteAt bs 0)
      | .setLimits => true
      | _ => false

/-- The four limits written; a lending not yet reported that the new lend limit makes overrun is reported in the commit's
step (R81, R110, R157). -/
def State.applyLimits (s : State) (bs : List Byte) : State :=
  let s1 : State :=
    { s with
      pbe := { s.pbe with segmentLimit := (byteAt bs 0).toNat, lendLimit := (byteAt bs 2).toNat }
      mgb := { s.mgb with lease := (byteAt bs 1).toNat, claimMask := BitVec.ofNat 4 (byteAt bs 3).toNat } }
  if s1.pbe.overrunDue then s1.reportOverrun else s1

/-- The live windows replaced by what a window record leaves of them. -/
def State.withWindows (s : State) (ws : Except RecordStatus (Vector Window 32)) : Except RecordStatus State :=
  ws.map fun w => { s with wdc := w }

/-- The effect of one record on the live configuration as the pass has left it, or its recheck status (R175, R176). A
payload that staging refuses has no effect: no such record reaches a commit (R170). -/
def State.applyRecord (s : State) (k : RecordKind) (bs : List Byte) (later : List (RecordRef × List Byte)) :
    Except RecordStatus State :=
  match k with
  | .setWindow => s.withWindows (commitSetWindow s.wdc bs)
  | .enableWindow => s.withWindows (commitEnableWindow s.wdc bs)
  | .disableWindow => .ok { s with wdc := commitDisableWindow s.wdc bs }
  | .clearWindow => s.withWindows (commitClearWindow s.wdc bs)
  | .setTarget => .ok { s with tgt := commitSetTarget s.tgt bs }
  | .clearTarget => .ok { s with tgt := commitClearTarget s.tgt bs }
  | .reviveTarget => .ok { s with tgt := commitReviveTarget s.tgt bs }
  | .setRoute =>
    match routeOf bs with
    | some (src, route) =>
      .ok (if superseded k bs later then s else { s with irl := s.irl.commitRoute s.pins src route })
    | none => .ok s
  | .setThreshold =>
    match thresholdOf bs with
    | some (i, threshold) =>
      .ok (if superseded k bs later then s else { s with irl := s.irl.commitThreshold i threshold })
    | none => .ok s
  | .setLimits => .ok (if superseded k bs later || !limitsLegal bs then s else s.applyLimits bs)
  | .quiesce => .ok { s with trk := { s.trk with gate := s.trk.gate.quiescedBy s.trk.entries.length } }
  | .resume => .ok { s with trk := { s.trk with gate := .opened } }
  | .getWindow => .ok s
  | .getTarget => .ok s
  | .getStatus => .ok s
  | .endRecord => .ok s

/-- The commit pass over the records in sequence order: the live configuration they leave, or the sequence and status of
the first record that the recheck rejects (R175, R176). -/
def State.commitPass (s : State) : List (RecordRef × List Byte) → Except (Nat × RecordStatus) State
  | [] => .ok s
  | (ref, bs) :: rest =>
    match s.applyRecord ref.kind bs rest with
    | .error st => .error (ref.sequence, st)
    | .ok s1 => s1.commitPass rest

/-- The commit count and CONFIG_LOADED after a commit (R150, R175). -/
def State.countCommit (s : State) : State :=
  { s with mgb := { s.mgb with commitCount := (s.mgb.commitCount + 1) % 65536, configLoaded := true } }

/-- COMMIT: every staged record applied at once, or the chain rejected with nothing of it live (R175 to R178); the
arbiter is evaluated, a target's state having perhaps changed (R92), and a notice may no longer be sendable (R126). The
events of source 11 and those of a source of priority 0 that the IRL has not taken yet are taken first, by the routes as
they stood before: no later chain decides the event of a chain's end (R189), and an event raised at priority 0 is
discarded and not recovered (R133, R146; DEDUCED, log entry 39). -/
def execCommit (s : State) : Host.Outcome State Fault Refusal :=
  match s.cfx with
  | none => .next s
  | some x =>
    if x.phase = .committing ∧ x.finished = false then
      match s.takeDueEvents.commitPass (x.records.map fun ref => (ref, s.payloadOf ref)) with
      | .ok s1 => .next (s1.countCommit.finishChain x x.results .committed).settlePlace.arbitrate
      | .error (position, st) =>
        .next
          (s.finishChain x (failedResults (x.results.take position) st x.records.length) (.rejectedCommit position st))
    else .next s

end Sys2Proof.Machine
end

