-- ==== Sys2Proof/Machine/Power.lean ====
section
/-! DEFINITION. Power-on reset and the release of PORST# (R188). -/

namespace Sys2Proof.Machine

/-- PORST_ASSERTED: held for at least 1 µs it is power-on reset: whatever runs is abandoned and every block is held at its
power-on value; a shorter pulse is not taken (R188). The levels of the input pins and the waiting commands are not the
device's to change. -/
def execPorstAsserted (heldNs : Nat) (s : State) : Host.Outcome State Fault Refusal :=
  if Config.porstMinimumNs ≤ heldNs then .next (State.powerOn .held s.pins s.pending) else .next s

/-- PORST_RELEASED: table initialization begins, writing the power-on values, and the 1 ms timebase starts (R33, R188). -/
def execPorstReleased (s : State) : Host.Outcome State Fault Refusal :=
  if s.power.boot = .held then
    .next (State.powerOn (.initializing Config.initializationCycles) s.pins s.pending)
  else .next s

end Sys2Proof.Machine
end

