-- ==== Sys2Proof/Machine/Clock.lean ====
section
/-! DEFINITION. The passage of one bus clock, which is what the device does when no command waits (DESIGN CHOICE, log
entry 2): every timer counts, and the commands of the timers that end at this clock are queued. -/

namespace Sys2Proof.Machine

/-! ## What ends at this clock. A timer with one clock left ends; it stays so until its command is taken. -/

/-- A count of clocks left ends at this clock. -/
def endsNow (left : Nat) : Bool := decide (left ≤ 1)

/-- A count of clocks left after this clock. -/
def countDown (left : Nat) : Nat := if left ≤ 1 then left else left - 1

/-- A command where a condition holds. -/
def dueIf (b : Bool) (c : Instr) : List Instr := if b then [c] else []

/-- The start-up count ends (R188). -/
def Boot.due : Boot → List Instr
  | .initializing n => dueIf (endsNow n) .tableInitializationComplete
  | .held => []
  | .running => []

/-- The start-up count after one REFCLK cycle (R188). -/
def Boot.counted : Boot → Boot
  | .initializing n => .initializing (countDown n)
  | .held => .held
  | .running => .running

/-- The clock at which a running byte cycle's phase ends by itself: the last strobe clock of the ready timeout with PRDY
low, and the hold (R100, R101). -/
def CycleRun.due (r : CycleRun) : List Instr :=
  match r.phase with
  | .setup => []
  | .strobe ended =>
    dueIf (decide (Config.clocksPerMicrosecond * r.readyTimeout ≤ ended + 1)) .readyTimeout
  | .hold _ => [.byteCycleEnd]

/-- The byte cycle after one bus clock: setup passes to the strobe, and a strobe clock has ended (R98, R99). -/
def CycleRun.clocked (r : CycleRun) : CycleRun :=
  match r.phase with
  | .setup => { r with phase := .strobe 0 }
  | .strobe ended => { r with phase := .strobe (min (ended + 1) (Config.clocksPerMicrosecond * r.readyTimeout)) }
  | .hold _ => r

/-- The bus state after one bus clock. -/
def BusState.clocked : BusState → BusState
  | .segment c => .segment (c.withRun (c.run.map CycleRun.clocked))
  | .idle => .idle
  | .lent => .lent

/-- The commands that the running byte cycle makes due. -/
def BusState.due : BusState → List Instr
  | .segment c =>
    match c.run with
    | some r => r.due
    | none => []
  | .idle => []
  | .lent => []

/-- The lend timer after one bus clock; it stays at 255 µs (R109). -/
def lendClocked (clocks : Nat) : Nat := min (clocks + 1) (Config.clocksPerMicrosecond * 255)

/-- The PBE after one bus clock. -/
def BusEngine.clocked (p : BusEngine) : BusEngine :=
  { p with
    bus := p.bus.clocked
    recovery := tabulate fun t => countDown p.recovery[t]
    lendTimer := p.lendTimer.map lendClocked }

/-- The bus clock ends the present millisecond (R33). -/
def Power.msEnds (p : Power) : Bool := decide (Config.clocksPerMillisecond ≤ p.msClock + 1)

/-- The commands due at this bus clock, in a fixed order: start-up, link, 1 ms tick, recovery timers by target, byte
cycle, lending, lease. -/
def State.dueCommands (s : State) : List Instr :=
  s.power.boot.due ++
    dueIf (s.hlp.quiet.any endsNow) .quietTimeEnd ++
    dueIf s.power.msEnds .ageTick ++
    ((List.finRange 16).filter fun t => decide (s.pbe.recovery[t] = 1)).map Instr.recoveryTimerExpiry ++
    s.pbe.bus.due ++
    dueIf s.pbe.clocked.overrunDue .lendLimitReached ++
    dueIf (s.mgb.leaseTimer.any endsNow) .leaseExpiry

/-- Every counter after one bus clock. -/
def State.counted (s : State) : State :=
  { s with
    power := ⟨s.power.boot.counted, if s.power.msEnds then 0 else s.power.msClock + 1⟩
    hlp := { s.hlp with quiet := s.hlp.quiet.map countDown }
    pbe := s.pbe.clocked
    mgb := { s.mgb with leaseTimer := s.mgb.leaseTimer.map countDown } }

/-- One bus clock passes with no command waiting. While PORST# is asserted nothing counts (R188). -/
def State.clockTick (s : State) : State :=
  match s.power.boot with
  | .held => s
  | .initializing _ => { s.counted with pending := s.dueCommands }
  | .running => { s.counted with pending := s.dueCommands }

end Sys2Proof.Machine
end

