-- ==== Sys2Proof/Machine/Dispatch.lean ====
section
/-! DEFINITION. The dispatch of a command to its meaning: one arm per constructor of Instr, in the table's order. -/

namespace Sys2Proof.Machine

def exec (i : Instr) (s : State) : Host.Outcome State Fault Refusal :=
  match i with
  | .porstAsserted heldNs => Sys2Proof.Machine.execPorstAsserted heldNs s
  | .porstReleased => Sys2Proof.Machine.execPorstReleased s
  | .tableInitializationComplete => Sys2Proof.Machine.execTableInitializationComplete s
  | .quietTimeEnd => Sys2Proof.Machine.execQuietTimeEnd s
  | .trainingComplete => Sys2Proof.Machine.execTrainingComplete s
  | .trainingFailed => Sys2Proof.Machine.execTrainingFailed s
  | .linkLost => Sys2Proof.Machine.execLinkLost s
  | .trkLinkReset => Sys2Proof.Machine.execTrkLinkReset s
  | .irlLinkReset => Sys2Proof.Machine.execIrlLinkReset s
  | .mgbLinkReset => Sys2Proof.Machine.execMgbLinkReset s
  | .packetArrival integrityOk bytes => Sys2Proof.Machine.execPacketArrival integrityOk bytes s
  | .read => Sys2Proof.Machine.execRead s
  | .write => Sys2Proof.Machine.execWrite s
  | .posted => Sys2Proof.Machine.execPosted s
  | .flush => Sys2Proof.Machine.execFlush s
  | .detach => Sys2Proof.Machine.execDetach s
  | .unknownKind => Sys2Proof.Machine.execUnknownKind s
  | .claim => Sys2Proof.Machine.execClaim s
  | .submit => Sys2Proof.Machine.execSubmit s
  | .release => Sys2Proof.Machine.execRelease s
  | .noticeAck => Sys2Proof.Machine.execNoticeAck s
  | .requestBufferWrite => Sys2Proof.Machine.execRequestBufferWrite s
  | .managementPostedWrite => Sys2Proof.Machine.execManagementPostedWrite s
  | .managementWrite => Sys2Proof.Machine.execManagementWrite s
  | .answerHanded => Sys2Proof.Machine.execAnswerHanded s
  | .mgbAnswerHanded => Sys2Proof.Machine.execMgbAnswerHanded s
  | .noticeHanding => Sys2Proof.Machine.execNoticeHanding s
  | .packetTransmissionEnd => Sys2Proof.Machine.execPacketTransmissionEnd s
  | .readyTimeout => Sys2Proof.Machine.execReadyTimeout s
  | .byteCycleEnd => Sys2Proof.Machine.execByteCycleEnd s
  | .cycleCompletion t => Sys2Proof.Machine.execCycleCompletion t s
  | .cycleTimeout t => Sys2Proof.Machine.execCycleTimeout t s
  | .offlineAnnouncement t => Sys2Proof.Machine.execOfflineAnnouncement t s
  | .segmentEndReport => Sys2Proof.Machine.execSegmentEndReport s
  | .recoveryTimerExpiry t => Sys2Proof.Machine.execRecoveryTimerExpiry t s
  | .ageTick => Sys2Proof.Machine.execAgeTick s
  | .extreqAsserted samples => Sys2Proof.Machine.execExtreqAsserted samples s
  | .extreqWithdrawn samples => Sys2Proof.Machine.execExtreqWithdrawn samples s
  | .lendLimitReached => Sys2Proof.Machine.execLendLimitReached s
  | .irqAsserted n samples => Sys2Proof.Machine.execIrqAsserted n samples s
  | .irqWithdrawn n samples => Sys2Proof.Machine.execIrqWithdrawn n samples s
  | .eventSource e => Sys2Proof.Machine.execEventSource e s
  | .flushWithdrawal k => Sys2Proof.Machine.execFlushWithdrawal k s
  | .irlDetach k => Sys2Proof.Machine.execIrlDetach k s
  | .mgbDetach k => Sys2Proof.Machine.execMgbDetach k s
  | .leaseExpiry => Sys2Proof.Machine.execLeaseExpiry s
  | .structureCheck => Sys2Proof.Machine.execStructureCheck s
  | .shadowFormation => Sys2Proof.Machine.execShadowFormation s
  | .setWindow => Sys2Proof.Machine.execSetWindow s
  | .enableWindow => Sys2Proof.Machine.execEnableWindow s
  | .disableWindow => Sys2Proof.Machine.execDisableWindow s
  | .clearWindow => Sys2Proof.Machine.execClearWindow s
  | .getWindow => Sys2Proof.Machine.execGetWindow s
  | .setTarget => Sys2Proof.Machine.execSetTarget s
  | .clearTarget => Sys2Proof.Machine.execClearTarget s
  | .reviveTarget => Sys2Proof.Machine.execReviveTarget s
  | .getTarget => Sys2Proof.Machine.execGetTarget s
  | .setRoute => Sys2Proof.Machine.execSetRoute s
  | .setThreshold => Sys2Proof.Machine.execSetThreshold s
  | .setLimits => Sys2Proof.Machine.execSetLimits s
  | .quiesce => Sys2Proof.Machine.execQuiesce s
  | .resume => Sys2Proof.Machine.execResume s
  | .getStatus => Sys2Proof.Machine.execGetStatus s
  | .endRecord => Sys2Proof.Machine.execEndRecord s
  | .commit => Sys2Proof.Machine.execCommit s
  | .executionEnd => Sys2Proof.Machine.execExecutionEnd s
  | .managementRead => Sys2Proof.Machine.execManagementRead s
  | .prdySampledHigh clock data => Sys2Proof.Machine.execPrdySampledHigh clock data s

end Sys2Proof.Machine
end

