-- ==== Sys2Proof/Machine/Step.lean ====
section
/-! DEFINITION. One step: the command at the front of the queue of waiting commands is taken; with none waiting, one bus
clock passes (DESIGN CHOICE, log entry 2). -/

namespace Sys2Proof.Machine

/-- Take the command at the front, with the queue's rest in the state; on an empty queue one bus clock passes. -/
def step (s : State) : Host.Outcome State Fault Refusal :=
  match s.pending with
  | [] => .next s.clockTick
  | c :: rest => exec c { s with pending := rest }

/-- The command that a word spells, put at the front of the queue; `s` where the word spells none. -/
def State.withFetchWord (s : State) (nbits w : Nat) : State :=
  match Sys2Proof.decodeTableWord nbits w with
  | some c => { s with pending := c :: s.pending }
  | none => s

end Sys2Proof.Machine
end

