-- ==== Sys2Proof/Safety.lean ====
section
/-! DEFINITION. What counts as a sound state of the device: the laws that the spec states of every moment. Each is a
decidable proposition over `State`; statements say that every step keeps it and that the state after reset meets it. -/

namespace Sys2Proof.Machine

/-! ## Windows (R2, R4, R15) -/

/-- The range conditions of R2 on a profile. -/
abbrev Profile.RangeLegal (p : Profile) : Prop :=
  p.base.toNat % 256 = 0 ∧ 1 ≤ p.size ∧ p.size ≤ 4096 ∧ p.limit ≤ Config.managementBase

/-- The forced fields of a port window (R4). -/
abbrev Profile.PortForced (p : Profile) : Prop :=
  p.mode ≠ .linear → p.unit = .one ∧ p.lane = .ascending ∧ p.rse = true

/-- Every profile held is legal, and no two windows that are ACTIVE or DRAINING have overlapping ranges (R2, R4, R15). -/
abbrev WindowLaw (s : State) : Prop :=
  (∀ i : WindowIx, ∀ p ∈ s.wdc[i].profile, p.RangeLegal ∧ p.PortForced) ∧
    ∀ i j : WindowIx, i ≠ j → ∀ p ∈ s.wdc[i].reserved, ∀ q ∈ s.wdc[j].reserved, p.overlaps q = false

/-! ## Tracker (R42, R50) -/

/-- The initiator and tag under which an entry's tag is in use: those of a READ, WRITE or FLUSH entry (R50). -/
def Entry.usedTag (e : Entry) : Option (Initiator × Tag) := if e.isPosted then none else some (e.initiator, e.tag)

/-- The limits of R42 on the number of entries, one entry to a slot, and no tag used twice by an initiator. -/
abbrev TrackerLaw (s : State) : Prop :=
  s.trk.entries.length ≤ Config.trackerEntries ∧
    (∀ i : Initiator, (s.trk.entriesOf i).length ≤ Config.entriesPerInitiator) ∧
    (s.trk.entries.map Entry.slot).Nodup ∧ (s.trk.entries.filterMap Entry.usedTag).Nodup

/-! ## Reference counts (R1, R19) -/

/-- An entry is decoded to a window. -/
def Entry.refersTo (e : Entry) (i : WindowIx) : Bool :=
  match e.transfer with
  | some x => decide (x.window = i)
  | none => false

/-- What R19 says of a window's state and its count: a DISABLED window's is 0, a DRAINING window's is not. -/
def Window.countAgrees : Window → Bool
  | .empty => true
  | .loaded .disabled n _ => decide (n = 0)
  | .loaded .active _ _ => true
  | .loaded .draining n _ => decide (n ≠ 0)

/-- Every window's count is the number of entries decoded to it, and agrees with its state (R19). -/
abbrev CountLaw (s : State) : Prop :=
  ∀ i : WindowIx,
    s.wdc[i].count = (s.trk.entries.filter fun e => e.refersTo i).length ∧ s.wdc[i].countAgrees = true

/-! ## Answers (R56, R60, R64) -/

/-- The places of the answer list that an entry or a detach holds, each at most once (R56). -/
def Answer.isPlace : Answer → Bool
  | .entry _ => true
  | .refusal _ => false
  | .detached _ => true

/-- A DONE entry of the initiator and target of another, which is answered before the other where it is the older (R53). -/
def Entry.answersBefore (f e : Entry) : Bool :=
  f.isDone && !f.isFlush && decide (f.initiator = e.initiator) && decide (f.target = e.target)

/-- No answer appears twice; an entry's answer is in the list exactly while the entry is DONE and no older entry of its
initiator and target owes its answer, and it stands behind the answers of those older entries, so that they leave in the
order of admission; the answer of a detach is in the list exactly while the detach is in progress with no entry of its
initiator left; a FLUSH waits only behind an older POSTED entry of its initiator; no POSTED entry is DONE (R53, R56, R57,
R60, R64, R127). -/
abbrev AnswerLaw (s : State) : Prop :=
  (s.trk.answers.filter Answer.isPlace).Nodup ∧
    (∀ slot : Slot, Answer.entry slot ∈ s.trk.answers ↔
      ∃ e ∈ s.trk.entries, e.slot = slot ∧ e.isDone = true ∧ s.trk.answerHeld e = false) ∧
    (∀ e ∈ s.trk.entries, ∀ f ∈ olderThan s.trk.entries e.slot, f.answersBefore e = true →
      Answer.entry e.slot ∈ s.trk.answers → [Answer.entry f.slot, Answer.entry e.slot].Sublist s.trk.answers) ∧
    (∀ i : Initiator, Answer.detached i ∈ s.trk.answers ↔ s.trk.detaches[i].isSome = true ∧ s.trk.entriesOf i = []) ∧
    (∀ e ∈ s.trk.entries, e.isFlush = true → e.state = .waiting →
      ∃ f ∈ olderThan s.trk.entries e.slot, f.initiator = e.initiator ∧ f.isPosted = true) ∧
    ∀ e ∈ s.trk.entries, e.isPosted = true → e.isDone = false

/-! ## Bus (R90, R91) -/

/-- The slots of the entries that the bus serves: one in SEGMENT, none in IDLE and LENT (R91). -/
def BusState.served : BusState → List Slot
  | .idle => []
  | .segment c => [c.slot]
  | .lent => []

/-- The slot named by a report that has been handed and not taken (R106). -/
def BusState.reported : BusState → List Slot
  | .idle => []
  | .segment c => (c.report.map SegmentReport.slot).toList
  | .lent => []

/-- In SEGMENT exactly one entry is IN_SEGMENT, a READ, WRITE or POSTED one, which the context and its report name; in
IDLE and LENT none is; no older entry of the initiator and target of an IN_SEGMENT entry is in the tracker; the lend timer
runs exactly in LENT (R53, R91, R107, R112). -/
abbrev BusLaw (s : State) : Prop :=
  (s.trk.entries.filter Entry.isInSegment).map Entry.slot = s.pbe.bus.served ∧
    (∀ slot ∈ s.pbe.bus.reported, slot ∈ s.pbe.bus.served) ∧
    (∀ e ∈ s.trk.entries, e.isInSegment = true → e.isFlush = false ∧ s.trk.heldBack e = false) ∧
    (s.pbe.lendTimer.isSome = true ↔ s.pbe.bus = .lent)

/-! ## Mailbox (R151, R157, R161) -/

/-- The mailbox is BUSY. -/
def Mailbox.isBusy : Mailbox → Bool
  | .busy _ _ => true
  | .free => false
  | .claimed _ => false
  | .result _ => false

/-- The mailbox is in a state in which the lease runs, CLAIMED or RESULT (section 8.3). -/
def Mailbox.leased : Mailbox → Bool
  | .claimed _ => true
  | .result _ => true
  | .free => false
  | .busy _ _ => false

/-- The CFX is EXECUTING exactly while the mailbox is BUSY, and the lease timer runs exactly in CLAIMED and RESULT (R154,
R155, R157, R161). -/
abbrev MailboxLaw (s : State) : Prop :=
  s.cfx.isSome = s.mgb.mailbox.isBusy ∧ s.mgb.leaseTimer.isSome = s.mgb.mailbox.leased

/-! ## Notices (R134) -/

/-- No initiator has more than four notices outstanding (R134). -/
abbrev NoticeLaw (s : State) : Prop :=
  ∀ i : Initiator, s.irl.outstanding i ≤ Config.outstandingNotices

/-! ## Queues and buffers (R56, R122, R126, R148, R147) -/

/-- The capacities of the receive queue, the transmit queue, the MGB's held answers and the entryless places. -/
abbrev QueueLaw (s : State) : Prop :=
  s.hlp.receive.length ≤ Config.receivePlaces ∧ s.hlp.transmit.length ≤ Config.transmitPlaces ∧
    s.mgb.answers.length ≤ Config.heldAnswers ∧ s.trk.entryless ≤ Config.entrylessPlaces

/-- Both buffers of 512 bytes are in canonical form. -/
abbrev BufferLaw (s : State) : Prop :=
  Memory.wf s.mgb.requestBuffer = true ∧ Memory.wf s.mgb.resultBuffer = true

/-! ## Ranges of the values (R25, R29, R58, R90, R109, R123, R147, R157, R158) -/

/-- The ranges of R25, and the power-on values that an ABSENT record has (R29, R35). -/
abbrev TargetRecord.Legal (t : TargetRecord) : Prop :=
  t.recovery ≤ 255 ∧ 1 ≤ t.readyTimeout ∧ t.readyTimeout ≤ 255 ∧ 2 ≤ t.strobeWidth ∧ t.strobeWidth ≤ 15 ∧
    1 ≤ t.threshold ∧ t.threshold ≤ 15 ∧ t.consecutive ≤ 15 ∧ t.errors ≤ 255 ∧ t.age ≤ 255 ∧
    (t.state = .absent → t = TargetRecord.powerOn)

/-- The target records, the recovery timers, the limits, the counts of the device and the lend timer are in the ranges the
spec gives them. (What the entries hold and the windows' counts are not of this law.) -/
abbrev RangeLaw (s : State) : Prop :=
  (∀ t : TargetId, s.tgt[t].Legal) ∧
    (∀ t : TargetId, s.pbe.recovery[t] ≤ Config.clocksPerTick * 255) ∧
    (4 ≤ s.pbe.segmentLimit ∧ s.pbe.segmentLimit ≤ 64 ∧ s.pbe.segmentLimit % 4 = 0) ∧ s.pbe.lendLimit ≤ 255 ∧
    (1 ≤ s.mgb.lease ∧ s.mgb.lease ≤ 255) ∧ s.mgb.claimMask ≠ 0 ∧ s.mgb.lostCount ≤ 255 ∧
    s.mgb.commitCount < 65536 ∧ s.hlp.dropped ≤ 255 ∧ (∀ i : Initiator, ∀ f ∈ s.trk.faults[i], f.count ≤ 255) ∧
    ∀ n ∈ s.pbe.lendTimer, n ≤ Config.clocksPerMicrosecond * 255

/-! ## The values at power-on (R24, R40, R68, R113, R129, R146, R160, R181) -/

/-- Every block holds its power-on value, and nothing has been handed between blocks. -/
structure AtPowerOn (s : State) : Prop where
  windows : ∀ i : WindowIx, s.wdc[i] = .empty
  targets : ∀ t : TargetId, s.tgt[t] = ⟨.absent, 0, 16, 3, 3, 0, 0, 255⟩
  tracker : s.trk.entries = [] ∧ s.trk.answers = [] ∧ s.trk.gate = .opened ∧
    ∀ i : Initiator, s.trk.faults[i] = none ∧ s.trk.detaches[i] = none
  bus : s.pbe.bus = .idle ∧ s.pbe.pointer = 0 ∧ s.pbe.lendTimer = none ∧ s.pbe.overrunMark = false ∧
    s.pbe.segmentLimit = 16 ∧ s.pbe.lendLimit = 0 ∧ s.pbe.lendOverrun = false ∧
    ∀ t : TargetId, s.pbe.recovery[t] = 0 ∧ s.outcomeMark t = false
  link : s.hlp.link = .down ∧ s.hlp.receive = [] ∧ s.hlp.transmit = [] ∧ s.hlp.dropped = 0 ∧ s.hlp.pointer = .trk
  relay : s.irl.pointer = 0 ∧ s.irl.linkUp = false ∧ (∀ i : Initiator, s.irl.thresholds[i] = 0) ∧
    ∀ src : Source, s.irl.routes[src] = ⟨0, 0, 0⟩ ∧ ∀ i : Initiator, s.irl.pair src i = .idle
  management : s.mgb.mailbox = .free ∧ s.mgb.leaseTimer = none ∧ s.mgb.lease = 20 ∧ s.mgb.claimMask = 0b1111 ∧
    (∀ a : Nat, readByte s.mgb.requestBuffer a = 0 ∧ readByte s.mgb.resultBuffer a = 0) ∧ s.mgb.lostLast = none ∧
    s.mgb.lostCount = 0 ∧ s.mgb.commitCount = 0 ∧ s.mgb.configLoaded = false ∧ s.mgb.answers = []
  executor : s.cfx = none
  handed : s.handed = Handed.nothing

/-! ## What a statement says a command is given -/

/-- The head of the receive queue is `r`, with `rest` behind it, and the TRK can take it (R122). -/
abbrev HeadForTracker (s : State) (r : Request) (rest : List Request) : Prop :=
  s.hlp.receive = r :: rest ∧ s.trk.entryless < 8

/-- The head of the receive queue is `r`, with `rest` behind it, and the MGB can take it (R122). -/
abbrev HeadForManagement (s : State) (r : Request) (rest : List Request) : Prop :=
  s.hlp.receive = r :: rest ∧ s.mgb.answers.length < 4

/-- A WRITE of the four bytes `payload` at an offset of management space (R147). -/
abbrev Request.IsManagementWrite (r : Request) (offset : Nat) (n : Nat) : Prop :=
  r.kind = .write ∧ r.address.toNat = 0xFFF000 + offset ∧ r.length = n ∧ r.payload.length = n

/-- A READ of `n` bytes at an offset of management space (R147). -/
abbrev Request.IsManagementRead (r : Request) (offset : Nat) (n : Nat) : Prop :=
  r.kind = .read ∧ r.address.toNat = 0xFFF000 + offset ∧ r.length = n ∧ r.payload = []

/-- The state with the head of the receive queue taken by the MGB and the answer `a` held (R122, R148). -/
def State.managementAnswered (s : State) (rest : List Request) (a : Response) : State :=
  { s with hlp := { s.hlp with receive := rest }, mgb := { s.mgb with answers := s.mgb.answers ++ [a] } }

/-- A block holds a packet ready for the transmit queue: the TRK an answer, the MGB a held answer, the IRL, while the link
is UP and it has no link reset to take, a sendable pair (R117, R126). -/
abbrev State.PacketWaits (s : State) : Prop :=
  s.trk.answers ≠ [] ∨ s.mgb.answers ≠ [] ∨
    (s.hlp.link = .up ∧ LinkNews.reset ∉ s.handed.irlNews ∧ s.irl.offer.isSome = true)

/-- A place that the rotation is to give stays so while a block waits for it (R126; log entry 8). -/
abbrev State.PlaceSettled (s t : State) : Prop := t.hlp.contended = true ↔ s.hlp.contended = true ∧ t.PacketWaits

/-- The link port with a response of the TRK at the tail of its transmit queue; where the rotation gave the place, the
outbound pointer names the MGB (R126). -/
def State.trackerSends (s : State) (p : Response) : LinkPort :=
  { s.hlp with
    transmit := s.hlp.transmit ++ [.response p]
    pointer := if s.hlp.contended then .mgb else s.hlp.pointer
    contended := false }

/-- A window that `m` entries leave: its count falls by `m`, and where it is DRAINING with a count above 0 that falls to 0
it is DISABLED (R14, R18). -/
def Window.losing (m : Nat) : Window → Window
  | .empty => .empty
  | .loaded st n p => .loaded (if st = .draining ∧ 0 < n ∧ n ≤ m then .disabled else st) (n - m) p

/-- The FLUSH entries that wait for the departure of `e` alone: every POSTED entry of their initiator that is older than
they are is `e` (R60). Oldest first. -/
def Tracker.flushesBehind (t : Tracker) (e : Entry) : List Entry :=
  t.entries.filter fun f =>
    f.isFlush && decide (f.state = .waiting) && decide (f.initiator = e.initiator) &&
      (olderThan t.entries f.slot).all fun h => !(decide (h.initiator = e.initiator) && h.isPosted && decide (h.slot ≠ e.slot))

/-- A FLUSH entry of `due`, oldest first, that becomes DONE: the oldest carries the posted-fault record `report`, which is
cleared with it, the others none (R61). Any other entry is as it was. -/
def Entry.flushDone (due : List Entry) (report : Option FaultRecord) (f : Entry) : Entry :=
  if f ∈ due then { f with body := .flush (if due.head? = some f then report else none), state := .done .ok } else f

/-- A posted-fault record after `m` faults, at least one, of which the first has the status, address and done count given:
the first fault recorded is kept, and the count stays at 255 (R58). -/
def faultsRecorded (old : Option FaultRecord) (st : Status) (address : UpAddr) (done m : Nat) : FaultRecord :=
  match old with
  | none => ⟨st, address, done, min 255 m⟩
  | some f => { f with count := if f.count < 255 then min 255 (f.count + m) else f.count }

/-- The value that a cycle beginning its setup drives on PD[7:0]: nothing in a read cycle; in a write cycle the byte at its
position in the entry's data, or the value that the merge's read phase returned for it (R98). -/
structure State.Drives (s : State) (slot : Slot) (merged : List (Nat × Byte)) (spec : CycleSpec) (driven : Option Byte) :
    Prop where
  read : spec.write = false → driven = none
  request : ∀ p e x, spec.write = true → spec.use = .request p → (s.trk.entries.map Entry.slot).Nodup →
    e ∈ s.trk.entries → e.slot = slot → e.body = .transfer x → driven = some (byteAt x.data p)
  merge : ∀ a b, spec.write = true → spec.use = .merge a → merged.lookup a = some b → driven = some b

/-- An offset of management space that is mapped (R147). -/
abbrev MappedOffset (o : Nat) : Prop := o < 0x054 ∨ (0x100 ≤ o ∧ o < 0x500)

/-- A READ of `n` bytes from an offset has the form its location accepts (R147). -/
abbrev ReadAccepted (o n : Nat) : Prop :=
  o + n ≤ 0x040 ∨ (o = 0x040 ∧ n = 4) ∨ (o = 0x04C ∧ n = 4) ∨ (0x100 ≤ o ∧ o + n ≤ 0x300) ∨ (0x300 ≤ o ∧ o + n ≤ 0x500)

/-- A WRITE of `n` bytes from an offset has the form its location accepts (R147). -/
abbrev WriteAccepted (o n : Nat) : Prop :=
  (o = 0x044 ∧ n = 4) ∨ (o = 0x048 ∧ n = 4) ∨ (o = 0x050 ∧ n = 4) ∨ (0x100 ≤ o ∧ o + n ≤ 0x300)

/-- The answer to a request: initiator and tag of the request (R119). -/
def Request.answer (r : Request) (st : Status) (done : Nat) (carried : Carried) : Response :=
  ⟨r.initiator, r.tag, st, done, carried⟩

/-- The state with the head of the receive queue taken by the TRK and refused with an answer (R52). -/
def State.refused (s : State) (rest : List Request) (r : Request) (st : Status) : State :=
  { s with
    hlp := { s.hlp with receive := rest }
    trk := { s.trk with answers := s.trk.answers ++ [.refusal (r.answer st 0 .nothing)] } }

/-- The unit of a profile divides the ends of a request: it covers whole units (R6). -/
def Profile.coversWhole (p : Profile) (a length : Nat) : Bool :=
  decide (a % p.unit.bytes = 0) && decide ((a + length) % p.unit.bytes = 0)

/-- The mask of a profile that the kind of a request meets (R8). -/
def Profile.maskFor (p : Profile) (k : RequestKind) : BitVec 4 := if k = .read then p.readMask else p.writeMask

/-- A request's fields agree (R48). -/
def Request.fieldsAgree (r : Request) : Bool :=
  match r.kind with
  | .read => decide (1 ≤ r.length ∧ r.length ≤ 64 ∧ r.payload.length = 0)
  | .write | .posted => decide (1 ≤ r.length ∧ r.length ≤ 64 ∧ r.payload.length = r.length)
  | .flush | .detach => decide (r.payload.length = 0)
  | .unknown => false

/-- The tracker or the initiator holds all the entries it may, or the initiator is detaching (R49, without the gate). -/
def State.full (s : State) (i : Initiator) : Bool :=
  decide (16 ≤ s.trk.entries.length) || decide (8 ≤ (s.trk.entriesOf i).length) || s.trk.detaches[i].isSome

/-- A READ, WRITE or FLUSH entry of an initiator carries a tag (R50). -/
def State.tagInUse (s : State) (i : Initiator) (tag : Tag) : Bool :=
  s.trk.entries.any fun e => decide (e.usedTag = some (i, tag))

/-- The table of R47 for a READ, WRITE or POSTED request and the profile, if any, of the ACTIVE window that contains its
first byte: for each check in order, whether the request fails it, and the status of the refusal. -/
def State.admissionChecks (s : State) (r : Request) (w : Option Profile) : List (Bool × Status) :=
  [(!r.fieldsAgree, .format),
    (decide (s.trk.gate ≠ .opened) || s.full r.initiator, .retry),
    (decide (r.kind ≠ .posted) && s.tagInUse r.initiator r.tag, .tagBusy),
    (w.isNone, .miss)] ++
  match w with
  | none => []
  | some p =>
    [(decide (p.limit < r.address.toNat + r.length), .span),
      (!(p.maskFor r.kind).getLsbD r.initiator.val, .denied),
      (p.rse && !p.coversWhole r.address.toNat r.length, .align),
      (decide (s.tgt[p.target].state = .offline), .offline)]

/-- The first check of a table that fails decides the status (R16, R37, R47, R166). -/
def firstFailing {α : Type} (checks : List (Bool × α)) : Option α := (checks.find? fun c => c.1).map fun c => c.2

/-- `w` is the index, count and profile of the ACTIVE window that contains an address; none where there is none (R20). -/
def State.DecodesTo (s : State) (a : Nat) : Option (WindowIx × Nat × Profile) → Prop
  | some (i, n, p) => s.wdc[i] = .loaded .active n p ∧ p.base.toNat ≤ a ∧ a < p.limit
  | none => ∀ (i : WindowIx) (n : Nat) (p : Profile), s.wdc[i] = .loaded .active n p → ¬(p.base.toNat ≤ a ∧ a < p.limit)

/-- `slot` is the lowest-numbered slot that no entry holds (R42). -/
def State.LowestFree (s : State) (slot : Slot) : Prop :=
  (∀ e ∈ s.trk.entries, e.slot ≠ slot) ∧ ∀ k : Slot, k < slot → ∃ e ∈ s.trk.entries, e.slot = k

/-- The mode codes of section 10.2. -/
def modeCodes : List (WindowMode × Byte) := [(.linear, 0), (.port, 1), (.splitPort, 2)]

/-- The unit codes of section 10.2. -/
def unitCodes : List (UnitSize × Byte) := [(.one, 1), (.two, 2), (.four, 4)]

/-- The lane order codes of section 10.2. -/
def laneCodes : List (LaneOrder × Byte) := [(.ascending, 0), (.descending, 1)]

/-- The codes of the atomic boundary of section 10.2. -/
def abCodes : List (AtomicBoundary × Byte) :=
  [(.none, 0), (.b4, 4), (.b8, 8), (.b16, 16), (.b32, 32), (.b64, 64)]

/-- The profile that the bytes of a SET WINDOW payload spell: each field from its bytes, unit, lane order and RSE forced
in the port modes (R4, R185). -/
structure Profile.SpelledBy (p : Profile) (bs : List Byte) : Prop where
  base : p.base.toNat = (byteAt bs 2).toNat + 256 * (byteAt bs 3).toNat + 65536 * (byteAt bs 4).toNat
  size : p.size = (byteAt bs 5).toNat + 256 * (byteAt bs 6).toNat
  target : p.target.val = (byteAt bs 7).toNat
  mode : (p.mode, byteAt bs 8) ∈ modeCodes
  targetBase : p.targetBase.toNat = (byteAt bs 9).toNat + 256 * (byteAt bs 10).toNat
  readPort : p.readPort.toNat = (byteAt bs 11).toNat + 256 * (byteAt bs 12).toNat
  writePort : p.writePort.toNat = (byteAt bs 13).toNat + 256 * (byteAt bs 14).toNat
  linear : p.mode = .linear →
    (p.unit, byteAt bs 15) ∈ unitCodes ∧ (p.lane, byteAt bs 16) ∈ laneCodes ∧ byteAt bs 17 = if p.rse then 1 else 0
  ports : p.PortForced
  ab : (p.ab, byteAt bs 18) ∈ abCodes
  readMask : p.readMask.toNat = (byteAt bs 19).toNat
  writeMask : p.writeMask.toNat = (byteAt bs 20).toNat

/-- Entry `b` of a shadow's Window Table; EMPTY past its end. -/
def Shadow.windowAt (sh : Shadow) (b : Byte) : Window := if h : b.toNat < 32 then sh.windows[b.toNat] else .empty

/-- The state of target `b` in a shadow; ABSENT past its end. -/
def Shadow.targetState (sh : Shadow) (b : Byte) : TargetState :=
  if h : b.toNat < 16 then sh.targets[b.toNat].state else .absent

/-- A range overlaps that of a window of a shadow, other than entry `b`, that is ACTIVE or DRAINING (R15). -/
def Shadow.meetsOther (sh : Shadow) (b : Byte) (p : Profile) : Bool :=
  (List.finRange 32).any fun j => decide (j.val ≠ b.toNat) && (sh.windows[j].reserved.any fun q => p.overlaps q)

/-- The staging checks of a record kind in their order, with the status of each: the tables of R16 and R37, the index check
of R23, the number check of R38, and the ranges of R138 and R172. -/
def Shadow.stagingChecks (sh : Shadow) (k : RecordKind) (bs : List Byte) : List (Bool × RecordStatus) :=
  let b := byteAt bs 0
  match k with
  | .setWindow =>
    [(decide (31 < b.toNat), .badField), ((sh.windowAt b).reserved.isSome, .indexBusy),
      (!(decide (payloadBase bs % 256 = 0 ∧ 1 ≤ payloadSize bs ∧ payloadSize bs ≤ 4096 ∧
        payloadBase bs + 256 * payloadSize bs ≤ 0xFFF000)), .badField),
      (decide (15 < (byteAt bs 7).toNat ∨ 2 < (byteAt bs 8).toNat ∨
        ((byteAt bs 8).toNat = 0 ∧
          ((byteAt bs 15).toNat ∉ [1, 2, 4] ∨ 1 < (byteAt bs 16).toNat ∨ 1 < (byteAt bs 17).toNat)) ∨
        (byteAt bs 18).toNat ∉ [0, 4, 8, 16, 32, 64] ∨ 15 < (byteAt bs 19).toNat ∨ 15 < (byteAt bs 20).toNat), .badField),
      (decide (sh.targetState (byteAt bs 7) = .absent), .badField),
      (enableFlag bs && (profileOf bs).any fun p => sh.meetsOther b p, .overlap)]
  | .enableWindow =>
    [(decide (31 < b.toNat), .badField), (decide (sh.windowAt b = .empty), .badField),
      ((sh.windowAt b).enabling.any fun p => sh.meetsOther b p, .overlap)]
  | .disableWindow => [(decide (31 < b.toNat), .badField), (decide (sh.windowAt b = .empty), .badField)]
  | .clearWindow => [(decide (31 < b.toNat), .badField), ((sh.windowAt b).reserved.isSome, .indexBusy)]
  | .getWindow => [(decide (31 < b.toNat), .badField)]
  | .setTarget =>
    [(decide (15 < b.toNat), .badField),
      (!(decide (1 ≤ (byteAt bs 2).toNat ∧ 2 ≤ (byteAt bs 3).toNat ∧ (byteAt bs 3).toNat ≤ 15 ∧
        1 ≤ (byteAt bs 4).toNat ∧ (byteAt bs 4).toNat ≤ 15)), .badField)]
  | .clearTarget =>
    [(decide (15 < b.toNat), .badField),
      ((List.finRange 32).any fun j => sh.windows[j].profile.any fun p => decide (p.target.val = b.toNat), .targetInUse)]
  | .reviveTarget => [(decide (15 < b.toNat), .badField), (decide (sh.targetState b = .absent), .badField)]
  | .getTarget => [(decide (15 < b.toNat), .badField)]
  | .setRoute =>
    [(decide (11 < b.toNat ∨ 15 < (byteAt bs 1).toNat ∨ 3 < (byteAt bs 2).toNat), .badField)]
  | .setThreshold => [(decide (3 < b.toNat ∨ 15 < (byteAt bs 1).toNat), .badField)]
  | .setLimits =>
    [(decide (b.toNat < 4 ∨ 64 < b.toNat ∨ b.toNat % 4 ≠ 0 ∨ (byteAt bs 1).toNat = 0 ∨ (byteAt bs 3).toNat = 0 ∨
      15 < (byteAt bs 3).toNat), .badField)]
  | .quiesce | .resume | .getStatus | .endRecord => []

/-- The CFX is in phase STAGING with shadow `sh`, and the record that stages next is `ref`, of kind `k` with payload `bs`
(R170). -/
structure State.StagesNext (s : State) (k : RecordKind) (x : Executor) (sh : Shadow) (ref : RecordRef) (bs : List Byte) :
    Prop where
  executing : s.cfx = some x
  phase : x.phase = .staging
  unfinished : x.finished = false
  shadow : x.shadow = some sh
  record : x.records[x.results.length]? = some ref
  kind : ref.kind = k
  payload : bs = readBytes s.mgb.requestBuffer (ref.offset + 3) k.payloadLength

/-- A record staged with DONE, leaving the shadow `sh` and the report `bs` (R170). -/
def State.recordDone (s : State) (x : Executor) (sh : Shadow) (bs : List Byte) : State :=
  { s with cfx := some { x with shadow := some sh, results := x.results ++ [⟨.done, bs⟩] } }

/-- The result buffer holds the result records of a chain and its chain-outcome record, and what it held behind them (R178,
R179). -/
def State.ResultsWritten (s t : State) (x : Executor) (results : List RecordResult) (o : ChainOutcome) : Prop :=
  ∀ a : Nat,
    readByte t.mgb.resultBuffer a =
      if a < min 512 (resultRecords x.records results ++ outcomeRecord o x.records.length).length
      then byteAt (resultRecords x.records results ++ outcomeRecord o x.records.length) a
      else readByte s.mgb.resultBuffer a

/-- A chain rejected at a record: the results before it stand, its own is its status, those after it NOT_RUN; the result
buffer holds the result records and the chain-outcome record, and nothing else of the device changes (R170, R178, R179). -/
def State.RejectedAt (s t : State) (x : Executor) (results : List RecordResult) (o : ChainOutcome) : Prop :=
  t = { s with
        mgb := { s.mgb with resultBuffer := t.mgb.resultBuffer }
        cfx := some { x with results := results, finished := true } } ∧
    s.ResultsWritten t x results o

/-- What an entry keeps from its admission until it leaves (R21, R42). -/
def Entry.identity (e : Entry) :
    Slot × Nat × Initiator × Tag × Option (TransferKind × UpAddr × Nat × WindowIx × Profile) :=
  (e.slot, e.serial, e.initiator, e.tag, e.transfer.map fun x => (x.kind, x.address, x.length, x.window, x.snapshot))

/-! ## What a statement says a committed record does (R139, R140, R176) -/

/-- The range of a profile overlaps that of a live window other than `i` that is ACTIVE or DRAINING (R15). -/
abbrev State.MeetsOther (s : State) (i : WindowIx) (p : Profile) : Prop :=
  ∃ j : WindowIx, j ≠ i ∧ ∃ q ∈ s.wdc[j].reserved, p.base.toNat < q.limit ∧ q.base.toNat < p.limit

/-- The pair of a source at `j` after the change of destination that a route brings about, the table of R140: nothing moves
where the destination is kept or the source is 8 or 11. -/
def Relay.movedPair (r : Relay) (pins : Pins) (src : Source) (new : Route) (j : Initiator) : PairState :=
  let d := r.routes[src].destination
  if d = new.destination ∨ src = 8 ∨ src = 11 then r.pair src j
  else if j = d then (if r.pair src d = .pending then .idle else r.pair src d)
  else if j = new.destination ∧ r.pair src j = .idle ∧
      (r.pair src d = .pending ∨ (lineOf pins src = true ∧ new.priority ≠ 0)) then .pending
  else r.pair src j

/-- The pair of a source at `j` after the commit of a route: the destination moves first (R140), then the change of priority
takes effect, the table of R139. -/
def Relay.pairAfterRoute (r : Relay) (pins : Pins) (src : Source) (new : Route) (j : Initiator) : PairState :=
  let p := r.movedPair pins src new j
  if r.routes[src].priority ≠ 0 ∧ new.priority = 0 then (if p = .pending then .idle else p)
  else if r.routes[src].priority = 0 ∧ new.priority ≠ 0 ∧ j = new.destination ∧ lineOf pins src = true ∧ p = .idle
  then .pending
  else p

/-! ## All of them -/

/-- A sound state: every law of this file. -/
structure Sound (s : State) : Prop where
  windows : WindowLaw s
  tracker : TrackerLaw s
  counts : CountLaw s
  answers : AnswerLaw s
  bus : BusLaw s
  mailbox : MailboxLaw s
  notices : NoticeLaw s
  queues : QueueLaw s
  buffers : BufferLaw s
  ranges : RangeLaw s

end Sys2Proof.Machine
end

