-- ==== Sys2Proof/Certificates/Slice0/Obligations.lean ====
section
/-! DEFINITION. The statements for the provers, chapter by chapter. `exec c s = .next t` says that command `c` completes in
state `s` with state `t`; where `t` is written as `s` with fields replaced, every other field is unchanged. -/

open Sys2Proof Sys2Proof.Machine

/-! ## The queue of commands and start-up -/

/-- A step takes the command at the front of the queue and runs it on the state with the queue's rest. -/
def Obligations.StepTakesFrontCommand : Prop :=
  ∀ (c : Instr) (rest : List Instr) (s : State), s.pending = c :: rest → step s = exec c { s with pending := rest }

/-- The model's choice (log entry 2): with no command waiting a step is one bus clock; while PORST# is held nothing moves.
Table initialization, the quiet time, the recovery timers and the lease count down by one clock, the millisecond and the
lend timer, up to 255 µs, count up; in a running byte cycle setup passes to the strobe and a strobe clock ends. The
commands of what ends at this clock are queued in the order written here, and nothing else moves. -/
def Obligations.EmptyQueueStepIsOneBusClock : Prop :=
  ∀ (s : State) (down : Nat → Nat), (∀ n, down n = if n ≤ 1 then n else n - 1) → s.pending = [] →
    (s.power.boot = .held → step s = .next s) ∧
    (s.power.boot ≠ .held →
      ∃ (boot : Boot) (bus : BusState) (recovery : Vector Nat 16),
        (s.power.boot = .running → boot = .running) ∧
        (∀ n, s.power.boot = .initializing n → boot = .initializing (down n)) ∧
        (s.pbe.bus = .idle → bus = .idle) ∧ (s.pbe.bus = .lent → bus = .lent) ∧
        (∀ c, s.pbe.bus = .segment c → c.run = none → bus = .segment c) ∧
        (∀ c r, s.pbe.bus = .segment c → c.run = some r →
          bus =
            .segment
              { c with
                run := some
                  { r with
                    phase :=
                      match r.phase with
                      | .setup => .strobe 0
                      | .strobe k => .strobe (min (k + 1) (40 * r.readyTimeout))
                      | .hold result => .hold result } }) ∧
        (∀ k : TargetId, recovery[k] = down s.pbe.recovery[k]) ∧
        step s =
          .next
            { s with
              power := ⟨boot, if s.power.msClock < 39999 then s.power.msClock + 1 else 0⟩
              hlp := { s.hlp with quiet := s.hlp.quiet.map down }
              pbe :=
                { s.pbe with
                  bus := bus, recovery := recovery, lendTimer := s.pbe.lendTimer.map fun n => min (n + 1) (40 * 255) }
              mgb := { s.mgb with leaseTimer := s.mgb.leaseTimer.map down }
              pending :=
                (match s.power.boot with
                 | .initializing n => if n ≤ 1 then [Instr.tableInitializationComplete] else []
                 | .running => []
                 | .held => []) ++
                (match s.hlp.quiet with
                 | some n => if n ≤ 1 then [Instr.quietTimeEnd] else []
                 | none => []) ++
                (if s.power.msClock < 39999 then [] else [.ageTick]) ++
                ((List.finRange 16).filter fun k => decide (s.pbe.recovery[k] = 1)).map Instr.recoveryTimerExpiry ++
                (match s.pbe.bus with
                 | .segment c =>
                   match c.run.map CycleRun.phase, c.run.map CycleRun.readyTimeout with
                   | some (.strobe k), some timeout => if 40 * timeout ≤ k + 1 then [Instr.readyTimeout] else []
                   | some (.hold _), _ => [.byteCycleEnd]
                   | _, _ => []
                 | .idle => []
                 | .lent => []) ++
                (match s.pbe.lendTimer with
                 | some n =>
                   if s.pbe.bus = .lent ∧ s.pbe.overrunMark = false ∧ s.pbe.lendLimit ≠ 0 ∧
                       s.pbe.lendLimit ≤ min ((n + 1) / 40) 255 then [Instr.lendLimitReached] else []
                 | none => []) ++
                (match s.mgb.leaseTimer with
                 | some n => if n ≤ 1 then [Instr.leaseExpiry] else []
                 | none => []) })

/-- The state after reset holds every block at its power-on value and meets every law. PORST_ASSERTED held for 1 µs or
more, and PORST_RELEASED, put every block at its power-on value; a shorter pulse changes nothing; at the release table
initialization begins with 2000 cycles left. The model's choices in it: the queue of commands is empty at reset and kept
by power-on reset, and the pins' levels are kept (log entries 1, 3 and 6). -/
def Obligations.PowerOnReset : Prop :=
  AtPowerOn State.reset ∧ State.reset.pending = [] ∧ Sound State.reset ∧
  ∀ (s : State) (ns : Nat),
    (1000 ≤ ns → ∃ t : State, exec (.porstAsserted ns) s = .next t ∧ AtPowerOn t ∧ t.power.boot = .held ∧ t.pins = s.pins ∧
      t.pending = s.pending) ∧
    (ns < 1000 → exec (.porstAsserted ns) s = .next s) ∧
    (s.power.boot = .held → ∃ t : State, exec .porstReleased s = .next t ∧ AtPowerOn t ∧
      t.power = ⟨.initializing 2000, 0⟩ ∧ t.pins = s.pins ∧ t.pending = s.pending)

/-- TABLE_INITIALIZATION_COMPLETE takes the link to TRAINING and evaluates the arbiter; EXTREQ_ASSERTED, sampled at two
edges or more, takes the level and evaluates the arbiter; EXTREQ sampled at one edge is not taken. -/
def Obligations.EvaluationsAtStartUpAndExtreq : Prop :=
  ∀ (s : State) (n samples again : Nat),
    (s.power.boot = .initializing n →
      exec .tableInitializationComplete s =
        .next (State.arbitrate
          { s with power := { s.power with boot := .running }, hlp := { s.hlp with link := .training } })) ∧
    (2 ≤ samples → s.pins.extreq = false →
      exec (.extreqAsserted samples) s = .next (State.arbitrate { s with pins := { s.pins with extreq := true } })) ∧
    (samples < 2 → exec (.extreqAsserted samples) s = .next s ∧ exec (.extreqWithdrawn ⟨samples, again⟩) s = .next s)

/-! ## The host link (chapter 6) -/

/-- The passages of the link state: QUIET_TIME_END, TRAINING_COMPLETE, TRAINING_FAILED and LINK_LOST, with what the HLP
does to its queues and what it hands to the IRL, the TRK and the MGB. That the news of TRAINING_COMPLETE stands behind a
link reset the IRL has not taken is the model's reading (log entry 9); that LINK_LOST leaves a place to the rotation, and
one place only, log entries 8 and 34. -/
def Obligations.LinkStatePassages : Prop :=
  ∀ s : State,
    (∀ n, s.hlp.link = .down → s.hlp.quiet = some n →
      exec .quietTimeEnd s = .next { s with hlp := { s.hlp with link := .training, quiet := none } }) ∧
    (s.hlp.link = .training → s.handed.irlNews = [] →
      exec .trainingComplete s =
        .next { s with hlp := { s.hlp with link := .up }, irl := { s.irl with linkUp := true } }) ∧
    (s.hlp.link = .training → s.handed.irlNews ≠ [] →
      exec .trainingComplete s =
        .next
          { s with hlp := { s.hlp with link := .up }, handed := { s.handed with irlNews := s.handed.irlNews ++ [.up] } }) ∧
    (s.hlp.link = .training →
      exec .trainingFailed s = .next { s with hlp := { s.hlp with link := .down, quiet := some 400 } }) ∧
    (s.hlp.link = .up →
      ∃ t : State, exec .linkLost s = .next t ∧
        t = { s with
              hlp :=
                { s.hlp with
                  link := .down, quiet := some 400, receive := []
                  transmit := s.hlp.transmit.filter OutPacket.isResponse
                  contended := t.hlp.contended }
              handed :=
                { s.handed with
                  trkResets := s.handed.trkResets + 1
                  mgbResets := s.handed.mgbResets + 1
                  irlNews := s.handed.irlNews ++ [.reset] } } ∧
        (t.hlp.contended = true ↔
          (s.hlp.contended = true ∨
            (4 ≤ s.hlp.transmit.length ∧ (s.hlp.transmit.filter OutPacket.isResponse).length < 4)) ∧ t.PacketWaits))

/-- PACKET_ARRIVAL while UP with a place in the receive queue: a packet that fails its integrity check, is of another kind
than REQUEST, or is of fewer than 6 or more than 133 bytes is dropped and counted; any other joins the tail of the
receive queue with its fields, the request kind by its code. -/
def Obligations.PacketArrives : Prop :=
  ∀ (s : State) (ok : Bool) (b0 : Byte) (bytes : List Byte),
    s.hlp.link = .up → s.hlp.receive.length < 8 →
      ((ok = false ∨ b0.toNat / 64 ≠ 1 ∨ bytes.length + 1 < 6 ∨ 133 < bytes.length + 1) →
        exec (.packetArrival ok (b0 :: bytes)) s =
          .next
            { s with
              hlp := { s.hlp with dropped := if s.hlp.dropped < 255 then s.hlp.dropped + 1 else s.hlp.dropped } }) ∧
      (ok = true → b0.toNat / 64 = 1 → 6 ≤ bytes.length + 1 → bytes.length + 1 ≤ 133 →
        ∃ r, exec (.packetArrival ok (b0 :: bytes)) s =
            .next { s with hlp := { s.hlp with receive := s.hlp.receive ++ [r] } } ∧
          r.initiator.val = b0.toNat / 16 % 4 ∧
          (∀ k, (b0.toNat % 16, k) ∈ [(0, RequestKind.read), (1, .write), (2, .posted), (3, .flush), (4, .detach)] →
            r.kind = k) ∧
          (5 ≤ b0.toNat % 16 → r.kind = .unknown) ∧
          r.tag.val = (byteAt bytes 0).toNat % 32 ∧
          r.address.toNat = (byteAt bytes 1).toNat + 256 * (byteAt bytes 2).toNat + 65536 * (byteAt bytes 3).toNat ∧
          r.length = (byteAt bytes 4).toNat % 128 ∧ r.payload = bytes.drop 5)

/-- MGB_ANSWER_HANDED with a free place and no contention: the oldest held answer joins the transmit queue.
PACKET_TRANSMISSION_END while UP: the packet at the head leaves and its place frees; where the queue was full and a block
waits, the next place goes by rotation. A place so given goes to the first block from the pointer on that holds a packet
ready, and the pointer then names the block after it. When a place counts as given by the rotation of R126 (`contended`),
and that the pointer moves for such a place only, is the model's reading (log entry 8). -/
def Obligations.PacketsAreHandedAndSent : Prop :=
  ∀ (s : State) (a : Response) (as : List Response) (p : OutPacket) (ps : List OutPacket),
    (s.mgb.answers = a :: as → s.hlp.transmit.length < 4 → s.hlp.contended = false →
      exec .mgbAnswerHanded s =
        .next
          { s with
            hlp := { s.hlp with transmit := s.hlp.transmit ++ [.response a] }
            mgb := { s.mgb with answers := as } }) ∧
    (s.mgb.answers = a :: as → s.hlp.transmit.length < 4 → s.hlp.contended = true →
      (s.hlp.pointer = .trk → s.trk.answers = []) →
      (s.hlp.pointer = .irl → s.ready .irl = false ∧ s.trk.answers = []) →
      exec .mgbAnswerHanded s =
        .next
          { s with
            hlp := { s.hlp with transmit := s.hlp.transmit ++ [.response a], pointer := .irl, contended := false }
            mgb := { s.mgb with answers := as } }) ∧
    (s.hlp.link = .up → s.hlp.transmit = p :: ps →
      ∃ t : State, exec .packetTransmissionEnd s = .next t ∧
        t = { s with hlp := { s.hlp with transmit := ps, contended := t.hlp.contended } } ∧
        (t.hlp.contended = true ↔
          (s.hlp.contended = true ∨ (4 ≤ s.hlp.transmit.length ∧ ps.length < 4)) ∧ s.PacketWaits))

/-! ## Admission and the tracker (chapter 3) -/

/-- READ, WRITE and POSTED requests that fail a check of R47: the first check that fails decides the status. A READ, a WRITE
and a POSTED refused RETRY are answered; a POSTED refused otherwise is recorded as a posted fault, with an event of source
8; nothing else changes. -/
def Obligations.AdmissionRefuses : Prop :=
  ∀ (s : State) (r : Request) (rest : List Request) (w : Option (WindowIx × Nat × Profile)) (st : Status),
    WindowLaw s → HeadForTracker s r rest → r.address.toNat < 0xFFF000 → s.DecodesTo r.address.toNat w →
    firstFailing (s.admissionChecks r (w.map fun x => x.2.2)) = some st →
      (r.kind = .read → exec .read s = .next (s.refused rest r st)) ∧
      (r.kind = .write → exec .write s = .next (s.refused rest r st)) ∧
      (r.kind = .posted → st = .retry → exec .posted s = .next (s.refused rest r st)) ∧
      (r.kind = .posted → st ≠ .retry →
        ∃ f, exec .posted s =
            .next
              { s with
                hlp := { s.hlp with receive := rest }
                trk := { s.trk with faults := s.trk.faults.set r.initiator (some f) }
                handed := { s.handed with events := s.handed.events ++ [.postedFault r.initiator] } } ∧
          (s.trk.faults[r.initiator] = none → f = ⟨st, r.address, 0, 1⟩) ∧
          ∀ g, s.trk.faults[r.initiator] = some g →
            f = { g with count := if g.count < 255 then g.count + 1 else g.count })

/-- READ, WRITE and POSTED requests that pass every check of R47: an entry in the lowest free slot, WAITING, with progress
0, the payload and the window's profile, at the young end of the age order; the window's count rises; then the arbiter is
evaluated. -/
def Obligations.AdmissionAdmits : Prop :=
  ∀ (s : State) (r : Request) (rest : List Request) (i : WindowIx) (n : Nat) (p : Profile) (slot : Slot)
    (c : Instr) (k : TransferKind),
    WindowLaw s → HeadForTracker s r rest → s.DecodesTo r.address.toNat (some (i, n, p)) →
    firstFailing (s.admissionChecks r (some p)) = none → s.LowestFree slot →
    (r.kind, c, k) ∈
      [(RequestKind.read, Instr.read, TransferKind.read), (.write, .write, .write), (.posted, .posted, .posted)] →
      exec c s =
        .next (State.arbitrate
          { s with
            hlp := { s.hlp with receive := rest }
            wdc := s.wdc.set i (.loaded .active (n + 1) p)
            trk :=
              { s.trk with
                entries :=
                  s.trk.entries ++
                    [{ slot := slot, serial := s.trk.nextSerial, initiator := r.initiator, tag := r.tag
                       body := .transfer ⟨k, r.address, r.length, i, p, 0, r.payload⟩, state := .waiting }]
                nextSerial := s.trk.nextSerial + 1 } })

/-- FLUSH, DETACH and requests of unknown kind that are refused: FORMAT, then RETRY, then for a FLUSH TAG_BUSY. -/
def Obligations.OtherRequestsRefused : Prop :=
  ∀ (s : State) (r : Request) (rest : List Request), HeadForTracker s r rest →
    (r.kind = .unknown → exec .unknownKind s = .next (s.refused rest r .format)) ∧
    (r.kind = .flush → r.payload ≠ [] → exec .flush s = .next (s.refused rest r .format)) ∧
    (r.kind = .flush → r.payload = [] → s.full r.initiator = true →
      exec .flush s = .next (s.refused rest r .retry)) ∧
    (r.kind = .flush → r.payload = [] → s.full r.initiator = false → s.tagInUse r.initiator r.tag = true →
      exec .flush s = .next (s.refused rest r .tagBusy)) ∧
    (r.kind = .detach → r.payload ≠ [] → exec .detach s = .next (s.refused rest r .format)) ∧
    (r.kind = .detach → r.payload = [] → s.trk.detaches[r.initiator].isSome = true →
      exec .detach s = .next (s.refused rest r .retry))

/-- A FLUSH that passes its checks takes an entry, whatever the gate. With no POSTED entry of its initiator in the tracker
it is DONE at once: its response carries the posted-fault record as it stands, which is cleared and, where it was valid,
told to the IRL behind the events of source 8 of its initiator not yet taken. Otherwise it waits. -/
def Obligations.FlushAdmitted : Prop :=
  ∀ (s : State) (r : Request) (rest : List Request) (slot : Slot),
    TrackerLaw s → AnswerLaw s → HeadForTracker s r rest → r.kind = .flush → r.payload = [] →
    s.full r.initiator = false → s.tagInUse r.initiator r.tag = false → s.LowestFree slot →
      ((∀ e ∈ s.trk.entries, e.initiator = r.initiator → e.isPosted = false) →
        exec .flush s =
          .next
            { s with
              hlp := { s.hlp with receive := rest }
              trk :=
                { s.trk with
                  entries :=
                    s.trk.entries ++
                      [⟨slot, s.trk.nextSerial, r.initiator, r.tag, .flush s.trk.faults[r.initiator], .done .ok⟩]
                  faults := s.trk.faults.set r.initiator none
                  answers := s.trk.answers ++ [.entry slot]
                  nextSerial := s.trk.nextSerial + 1 }
              handed :=
                { s.handed with
                  withdrawals :=
                    s.handed.withdrawals ++
                      if s.trk.faults[r.initiator].isSome then
                        [⟨r.initiator, s.handed.events.count (.postedFault r.initiator)⟩]
                      else [] } }) ∧
      ((∃ e ∈ s.trk.entries, e.initiator = r.initiator ∧ e.isPosted = true) →
        exec .flush s =
          .next
            { s with
              hlp := { s.hlp with receive := rest }
              trk :=
                { s.trk with
                  entries :=
                    s.trk.entries ++ [⟨slot, s.trk.nextSerial, r.initiator, r.tag, .flush none, .waiting⟩]
                  nextSerial := s.trk.nextSerial + 1 } })

/-- DETACH begins a detach: the dropped count and tag are kept, the initiator's posted-fault record is cleared, the detach
is handed to the IRL and the MGB, its entries IN_SEGMENT are DROPPED and its other entries leave with their answers and
their window counts; where none was IN_SEGMENT its answer is ready. Then the arbiter is evaluated. A place that the rotation
of R126 was to give is free where no block waits any more (log entry 8). -/
def Obligations.DetachBegins : Prop :=
  ∀ (s : State) (r : Request) (rest : List Request),
    TrackerLaw s → AnswerLaw s → HeadForTracker s r rest → r.kind = .detach → r.payload = [] →
    s.trk.detaches[r.initiator] = none →
      ∃ u : State, exec .detach s = .next u.arbitrate ∧
        u.trk.entries =
          (s.trk.entries.filter fun e => decide (e.initiator ≠ r.initiator) || e.isInSegment).map
            (fun e => if e.initiator = r.initiator then { e with state := .inSegment true } else e) ∧
        u.trk.detaches = s.trk.detaches.set r.initiator (some ⟨r.tag, (s.trk.entriesOf r.initiator).length⟩) ∧
        u.trk.faults = s.trk.faults.set r.initiator none ∧
        u.trk.answers =
          (s.trk.answers.filter fun a =>
              !s.trk.entries.any fun e => decide (e.initiator = r.initiator) && decide (a = .entry e.slot)) ++
            (if (s.trk.entriesOf r.initiator).any Entry.isInSegment then [] else [.detached r.initiator]) ∧
        (∀ w : WindowIx,
          u.wdc[w] =
            s.wdc[w].losing ((s.trk.entriesOf r.initiator).filter fun e => e.refersTo w && !e.isInSegment).length) ∧
        (u.trk.gate = if s.trk.gate = .quiescing ∧ u.trk.entries = [] ∧ s.trk.entries ≠ [] then .quiesced else s.trk.gate) ∧
        s.PlaceSettled u ∧
        u = { s with
              hlp := { s.hlp with receive := rest, contended := u.hlp.contended }
              wdc := u.wdc
              trk := { u.trk with nextSerial := s.trk.nextSerial }
              handed :=
                { s.handed with
                  irlDetaches := s.handed.irlDetaches ++ [r.initiator]
                  mgbDetaches := s.handed.mgbDetaches ++ [r.initiator] } }

/-- TRK_LINK_RESET: WAITING and DONE entries leave with their answers, IN_SEGMENT entries are DROPPED, every posted-fault
record is cleared, refusals and detaches in progress are kept; the gate passes from QUIESCING to QUIESCED where the last
entry leaves; then the arbiter is evaluated. A place that the rotation of R126 was to give is free where no block waits any
more (log entry 8). -/
def Obligations.LinkResetReachesTracker : Prop :=
  ∀ s : State, TrackerLaw s → AnswerLaw s → s.handed.trkResets ≠ 0 →
    ∃ u : State, exec .trkLinkReset s = .next u.arbitrate ∧
      u.trk.entries =
        (s.trk.entries.filter Entry.isInSegment).map (fun e => { e with state := .inSegment true }) ∧
      (∀ i : Initiator, u.trk.faults[i] = none) ∧ u.trk.detaches = s.trk.detaches ∧
      u.trk.answers.filter (fun a => !a.isPlace) = s.trk.answers.filter (fun a => !a.isPlace) ∧
      (∀ slot : Slot, Answer.entry slot ∉ u.trk.answers) ∧
      (∀ w : WindowIx,
        u.wdc[w] = s.wdc[w].losing (s.trk.entries.filter fun e => e.refersTo w && !e.isInSegment).length) ∧
      (u.trk.gate = if s.trk.gate = .quiescing ∧ u.trk.entries = [] ∧ s.trk.entries ≠ [] then .quiesced else s.trk.gate) ∧
      s.PlaceSettled u ∧
      u = { s with
            hlp := { s.hlp with contended := u.hlp.contended }
            wdc := u.wdc
            trk := { u.trk with nextSerial := s.trk.nextSerial }
            handed := { s.handed with trkResets := s.handed.trkResets - 1 } }

/-- OFFLINE_ANNOUNCEMENT: every WAITING entry to the target admitted before the passage is reached and failed with its
progress kept. A READ or WRITE is DONE with outcome OFFLINE and its answer joins the list in age order, except behind
an older READ or WRITE of its initiator and target that is neither DONE nor DROPPED, whose answer it then follows (the
model's choice, log entry 37). A POSTED leaves, with an event of source 8 and its fault, of status OFFLINE, its
address and its done count, in its initiator's posted-fault record; windows lose its count and the gate may pass to
QUIESCED. Where an initiator has one POSTED entry reached, the FLUSH entries that wait for it alone become DONE and
the oldest carries the record, which is cleared; where it has several, the record is given for an initiator with no
FLUSH waiting. Initiators with none reached keep their record and their FLUSH entries. Serial numbers name the entries
admitted before the passage (log entry 10); the entries fail one by one in age order (log entry 11). -/
def Obligations.OfflineAnnouncementFails : Prop :=
  (∀ (t : Tracker) (e : Entry),
    t.answerHeld e = true ↔
      ∃ f ∈ olderThan t.entries e.slot, f.initiator = e.initiator ∧ f.target = e.target ∧
        (f.state = .waiting ∨ f.state = .inSegment false) ∧ ∃ x, f.body = .transfer x ∧ x.kind ≠ .posted) ∧
  ∀ (s : State) (t : TargetId) (n : Nat) (rest : List Announcement) (reached posted : List Entry),
    TrackerLaw s → AnswerLaw s → s.handed.announcements = ⟨t, n⟩ :: rest →
    reached =
      s.trk.entries.filter (fun e => decide (e.target = some t) && decide (e.state = .waiting) && decide (e.serial < n)) →
    posted = reached.filter Entry.isPosted →
      ∃ u : State, exec (.offlineAnnouncement t) s = .next u.arbitrate ∧
        (u.trk.entries.filter fun e => !e.isFlush) =
          (s.trk.entries.filter fun e => !e.isFlush && !decide (e ∈ posted)).map
            (fun e => if e ∈ reached then { e with state := .done .offline } else e) ∧
        u.handed.events = s.handed.events ++ posted.map (fun e => .postedFault e.initiator) ∧
        (∀ w : WindowIx, u.wdc[w] = s.wdc[w].losing (posted.filter fun e => e.refersTo w).length) ∧
        (u.trk.gate =
          if s.trk.gate = .quiescing ∧ u.trk.entries = [] ∧ s.trk.entries ≠ [] then .quiesced else s.trk.gate) ∧
        u.trk.answers =
          s.trk.answers ++
            ((u.trk.entries.filter fun e =>
              e.isDone && !u.trk.answerHeld e && !decide (Answer.entry e.slot ∈ s.trk.answers)).map
              fun e => .entry e.slot) ++
            (((List.finRange 4).filter fun i =>
              s.trk.detaches[i].isSome && decide (u.trk.entriesOf i = []) && !decide (s.trk.entriesOf i = [])).map
              Answer.detached) ∧
        (∀ i : Initiator, (posted.filter fun e => decide (e.initiator = i)) = [] →
          u.trk.faults[i] = s.trk.faults[i] ∧
            (u.trk.entriesOf i).filter Entry.isFlush = (s.trk.entriesOf i).filter Entry.isFlush ∧
            u.handed.withdrawals.filter (fun c => decide (c.initiator = i)) =
              s.handed.withdrawals.filter (fun c => decide (c.initiator = i))) ∧
        (∀ (i : Initiator) (e : Entry) (es : List Entry) (x : Transfer),
          (posted.filter fun f => decide (f.initiator = i)) = e :: es → e.body = .transfer x →
          (∀ f ∈ s.trk.entries, f.initiator = i → f.isFlush = true → f.state ≠ .waiting) →
            u.trk.faults[i] = some (faultsRecorded s.trk.faults[i] .offline x.address x.progress (es.length + 1)) ∧
            (u.trk.entriesOf i).filter Entry.isFlush = (s.trk.entriesOf i).filter Entry.isFlush ∧
            u.handed.withdrawals.filter (fun c => decide (c.initiator = i)) =
              s.handed.withdrawals.filter (fun c => decide (c.initiator = i))) ∧
        (∀ (i : Initiator) (e : Entry) (x : Transfer) (report : Option FaultRecord) (due : List Entry),
          (posted.filter fun f => decide (f.initiator = i)) = [e] → e.body = .transfer x →
          report = some (faultsRecorded s.trk.faults[i] .offline x.address x.progress 1) →
          due = s.trk.flushesBehind e →
            u.trk.faults[i] = (if due = [] then report else none) ∧
            (u.trk.entriesOf i).filter Entry.isFlush =
              ((s.trk.entriesOf i).filter Entry.isFlush).map (Entry.flushDone due report) ∧
            u.handed.withdrawals.filter (fun c => decide (c.initiator = i)) =
              s.handed.withdrawals.filter (fun c => decide (c.initiator = i)) ++
                if due = [] then [] else [⟨i, s.handed.events.count (.postedFault i) + 1⟩]) ∧
        u = { s with
              wdc := u.wdc
              trk := { u.trk with detaches := s.trk.detaches, nextSerial := s.trk.nextSerial }
              handed :=
                { s.handed with
                  announcements := rest, events := u.handed.events, withdrawals := u.handed.withdrawals } }

/-- SEGMENT_END_REPORT for a READ or WRITE entry that is not dropped: the progress rises by the bytes reported and a READ
stores their values; the entry is WAITING where bytes remain, DONE with outcome OK where none do, DONE with outcome TIMEOUT
where a cycle timed out, its answer then joining the list, and behind it the answers of the younger entries of its
initiator and target that waited for it alone (the model's choice, log entry 37). The bus goes IDLE and the arbiter is
evaluated. -/
def Obligations.SegmentEndAdvancesEntry : Prop :=
  ∀ (s : State) (c : SegmentContext) (rep : SegmentReport) (e : Entry) (x : Transfer),
    TrackerLaw s → AnswerLaw s → s.pbe.bus = .segment c → c.report = some rep → e ∈ s.trk.entries → e.slot = rep.slot →
    e.state = .inSegment false → e.body = .transfer x → x.kind ≠ .posted →
      ∃ y st entries answers,
        y = { x with
              progress := x.progress + rep.bytes
              data := if x.kind = .read then x.data ++ rep.values else x.data } ∧
        (rep.timedOut = true → st = .done .timeout) ∧
        (rep.timedOut = false → y.progress < y.length → st = .waiting) ∧
        (rep.timedOut = false → y.length ≤ y.progress → st = .done .ok) ∧
        entries =
          (s.trk.entries.map fun f => if f.slot = rep.slot then { e with body := .transfer y, state := st } else f) ∧
        answers =
          ((entries.filter fun f =>
            f.isDone && !({ s.trk with entries := entries } : Tracker).answerHeld f &&
              !decide (Answer.entry f.slot ∈ s.trk.answers)).map fun f => .entry f.slot) ∧
        (st = .waiting → answers = []) ∧
        (st ≠ .waiting → s.trk.heldBack e = false → ∃ later, answers = .entry rep.slot :: later) ∧
        exec .segmentEndReport s =
          .next (State.arbitrate
            { s with
              trk := { s.trk with entries := entries, answers := s.trk.answers ++ answers }
              pbe := { s.pbe with bus := .idle } })

/-- SEGMENT_END_REPORT for a POSTED entry, or a dropped entry of any kind. A POSTED entry that is not dropped and has
bytes to run returns to WAITING. Otherwise the entry leaves: its window loses its count and the gate may pass to QUIESCED;
a POSTED entry that timed out leaves with an event of source 8 and its fault, of status TIMEOUT, its address and its done
count, in its initiator's posted-fault record, which, where it is valid already, keeps its first fault and counts one
more; a dropped entry leaves without a fault, an event or an answer of its own. The FLUSH entries that wait for the entry
alone become DONE in the step, the oldest carrying the posted-fault record, which is cleared and, where it was valid, told
to the IRL. Where the entry was the last of a detaching initiator the answer of the detach is ready. -/
def Obligations.SegmentEndRemovesEntry : Prop :=
  ∀ (s : State) (c : SegmentContext) (rep : SegmentReport) (e : Entry) (x : Transfer) (due : List Entry)
    (report : Option FaultRecord),
    TrackerLaw s → AnswerLaw s → s.pbe.bus = .segment c → c.report = some rep → e ∈ s.trk.entries → e.slot = rep.slot →
    e.body = .transfer x → due = s.trk.flushesBehind e →
    report =
      (if e.state = .inSegment false ∧ rep.timedOut = true then
        some (faultsRecorded s.trk.faults[e.initiator] .timeout x.address (x.progress + rep.bytes) 1)
      else s.trk.faults[e.initiator]) →
      (e.state = .inSegment false → x.kind = .posted → rep.timedOut = false → x.progress + rep.bytes < x.length →
        exec .segmentEndReport s =
          .next (State.arbitrate
            { s with
              trk :=
                { s.trk with
                  entries :=
                    s.trk.entries.map fun f =>
                      if f.slot = rep.slot then
                        { e with body := .transfer { x with progress := x.progress + rep.bytes }, state := .waiting }
                      else f }
              pbe := { s.pbe with bus := .idle } })) ∧
      ((e.state = .inSegment true ∨
          (e.state = .inSegment false ∧ x.kind = .posted ∧ (rep.timedOut = true ∨ x.length ≤ x.progress + rep.bytes))) →
        ∃ gate : Gate,
          exec .segmentEndReport s =
            .next (State.arbitrate
              { s with
                wdc := s.wdc.set x.window (s.wdc[x.window].losing 1)
                trk :=
                  { s.trk with
                    entries :=
                      (s.trk.entries.filter fun f => decide (f.slot ≠ rep.slot)).map (Entry.flushDone due report)
                    gate := gate
                    faults := s.trk.faults.set e.initiator (if due = [] then report else none)
                    answers :=
                      s.trk.answers ++ due.map (fun f => .entry f.slot) ++
                        if s.trk.detaches[e.initiator].isSome ∧ s.trk.entriesOf e.initiator = [e] then
                          [.detached e.initiator]
                        else [] }
                pbe := { s.pbe with bus := .idle }
                handed :=
                  { s.handed with
                    events :=
                      s.handed.events ++
                        if e.state = .inSegment false ∧ rep.timedOut = true then [.postedFault e.initiator] else []
                    withdrawals :=
                      s.handed.withdrawals ++
                        if due ≠ [] ∧ report.isSome = true then
                          [⟨e.initiator,
                            s.handed.events.count (.postedFault e.initiator) +
                              if e.state = .inSegment false ∧ rep.timedOut = true then 1 else 0⟩]
                        else [] } }) ∧
          gate = if s.trk.gate = .quiescing ∧ s.trk.entries = [e] then .quiesced else s.trk.gate)

/-- ANSWER_HANDED with a free place, which the rotation of R126 gives to the TRK where it gives it: a refusal, the answer
of a DONE entry, which leaves the tracker with its window count, or the answer of a detach, which ends; where the last
entry of a detaching initiator leaves, the answer of its detach joins. A READ's response carries its done-count bytes, a
FLUSH's the record it was built from, a DETACH's the dropped count. That the TRK hands in any link state is the model's
reading (log entry 26); when the rotation gives a place and moves the outbound pointer, log entry 8. -/
def Obligations.AnswersAreHanded : Prop :=
  ∀ (s : State) (rest : List Answer),
    TrackerLaw s → AnswerLaw s → s.hlp.transmit.length < 4 →
    (s.hlp.contended = true →
      (s.hlp.pointer = .mgb → s.mgb.answers = []) ∧ (s.hlp.pointer ≠ .trk → s.ready .irl = false)) →
      (∀ r, s.trk.answers = .refusal r :: rest →
        exec .answerHanded s =
          .next
            { s with
              hlp := s.trackerSends r
              trk := { s.trk with answers := rest } }) ∧
      (∀ i d, s.trk.answers = .detached i :: rest → s.trk.detaches[i] = some d →
        exec .answerHanded s =
          .next
            { s with
              hlp := s.trackerSends ⟨i, d.tag, .detached, 0, .dropped d.dropped⟩
              trk := { s.trk with answers := rest, detaches := s.trk.detaches.set i none } }) ∧
      (∀ slot e o, s.trk.answers = .entry slot :: rest → e ∈ s.trk.entries → e.slot = slot → e.state = .done o →
        ∃ (u : State) (p : Response), exec .answerHanded s = .next u.arbitrate ∧
          u = { s with
                hlp := s.trackerSends p
                wdc := u.wdc
                trk :=
                  { s.trk with
                    entries := s.trk.entries.filter fun f => decide (f.slot ≠ slot)
                    gate := u.trk.gate
                    answers :=
                      rest ++
                        if s.trk.detaches[e.initiator].isSome ∧ s.trk.entriesOf e.initiator = [e] then
                          [.detached e.initiator]
                        else [] } } ∧
          (u.trk.gate = if s.trk.gate = .quiescing ∧ u.trk.entries = [] then .quiesced else s.trk.gate) ∧
          (∀ x, e.body = .transfer x →
            p = ⟨e.initiator, e.tag, outcomeStatus o, x.progress,
              if x.kind = .read then .data (x.data.take x.progress) else .nothing⟩ ∧
            u.wdc[x.window].count = s.wdc[x.window].count - 1 ∧ ∀ w, w ≠ x.window → u.wdc[w] = s.wdc[w]) ∧
          (e.body = .flush none → p = ⟨e.initiator, e.tag, .ok, 0, .nothing⟩ ∧ u.wdc = s.wdc) ∧
          (∀ f, e.body = .flush (some f) → p = ⟨e.initiator, e.tag, .postedFault, 0, .fault f⟩ ∧ u.wdc = s.wdc))

/-! ## Targets (chapter 2) -/

/-- CYCLE_COMPLETION and CYCLE_TIMEOUT take the oldest outcome of their target, whatever outcomes of other targets stand
before it. The target's health follows; where a timeout takes it OFFLINE the announcement is handed to the TRK and, as an
event, to the IRL; an ABSENT target's record is not changed; the arbiter is evaluated. The record is the one that stands
when the outcome is taken (log entry 38). -/
def Obligations.OutcomesMoveHealth : Prop :=
  ∀ (s : State) (t : TargetId) (before rest : List (TargetId × Bool)), (∀ o ∈ before, o.1 ≠ t) →
    (s.handed.outcomes = before ++ (t, true) :: rest → s.tgt[t].state ≠ .absent →
      exec (.cycleCompletion t) s =
        .next (State.arbitrate
          { s with
            tgt :=
              s.tgt.set t
                { s.tgt[t] with
                  consecutive := 0, age := 0
                  state := if s.tgt[t].state = .suspect then .online else s.tgt[t].state }
            handed := { s.handed with outcomes := before ++ rest } })) ∧
    (s.handed.outcomes = before ++ (t, false) :: rest → s.tgt[t].state = .online ∨ s.tgt[t].state = .suspect →
      s.tgt[t].consecutive < 15 → s.tgt[t].consecutive + 1 < s.tgt[t].threshold →
      exec (.cycleTimeout t) s =
        .next (State.arbitrate
          { s with
            tgt :=
              s.tgt.set t
                { s.tgt[t] with
                  state := .suspect
                  consecutive := s.tgt[t].consecutive + 1
                  errors := if s.tgt[t].errors < 255 then s.tgt[t].errors + 1 else s.tgt[t].errors }
            handed := { s.handed with outcomes := before ++ rest } })) ∧
    (s.handed.outcomes = before ++ (t, false) :: rest → s.tgt[t].state = .online ∨ s.tgt[t].state = .suspect →
      s.tgt[t].consecutive < 15 → s.tgt[t].threshold ≤ s.tgt[t].consecutive + 1 →
      exec (.cycleTimeout t) s =
        .next (State.arbitrate
          { s with
            tgt :=
              s.tgt.set t
                { s.tgt[t] with
                  state := .offline
                  consecutive := s.tgt[t].consecutive + 1
                  errors := if s.tgt[t].errors < 255 then s.tgt[t].errors + 1 else s.tgt[t].errors }
            handed :=
              { s.handed with
                outcomes := before ++ rest
                announcements := s.handed.announcements ++ [⟨t, s.trk.nextSerial⟩]
                events := s.handed.events ++ [.targetDown] } })) ∧
    ∀ ok : Bool, s.handed.outcomes = before ++ (t, ok) :: rest → s.tgt[t].state = .absent →
      exec (if ok then .cycleCompletion t else .cycleTimeout t) s =
        .next (State.arbitrate { s with handed := { s.handed with outcomes := before ++ rest } })

/-- AGE_TICK: an age of 0 to 253 rises by 1, 254 and 255 stay; nothing else changes. -/
def Obligations.AgeTickRaisesAges : Prop :=
  ∀ s : State, s.power.boot ≠ .held →
    ∃ t : State, exec .ageTick s = .next t ∧ t = { s with tgt := t.tgt } ∧
      ∀ k : TargetId, t.tgt[k] = { s.tgt[k] with age := if s.tgt[k].age ≤ 253 then s.tgt[k].age + 1 else s.tgt[k].age }

/-! ## Units and segments (chapter 4) -/

/-- Where a segment is cut, with the progress `p`, the unit `u` and the first unit not yet run `k`: AB 0 by the segment
limit (R78), LINEAR with AB by the atomic block (R79), the port modes with AB by bytes of the transfer (R80). -/
def Obligations.SegmentIsCut : Prop :=
  ∀ (x : Transfer) (limit : Nat),
    1 ≤ limit → x.snapshot.PortForced → x.progress < x.length →
      (x.snapshot.ab = .none →
        x.segmentUnits limit =
          x.unitsLeft.filter fun k =>
            decide (min (k * x.unit + x.unit - 1) x.last < x.first + min ((x.progress / limit + 1) * limit) x.length) ||
              decide (k = (x.first + x.progress) / x.unit)) ∧
      (x.snapshot.ab ≠ .none → x.snapshot.mode = .linear →
        x.segmentUnits limit =
          x.unitsLeft.filter fun k =>
            decide (k * x.unit / x.snapshot.ab.bytes =
              (x.first + x.progress) / x.unit * x.unit / x.snapshot.ab.bytes)) ∧
      (x.snapshot.ab ≠ .none → x.snapshot.mode ≠ .linear →
        x.segmentUnits limit =
          List.range' (x.first + x.progress)
            (min ((x.progress / x.snapshot.ab.bytes + 1) * x.snapshot.ab.bytes) x.length - x.progress))

/-- The byte cycles of unit `k`, of `u` addresses from `k * u` on in lane order (R71), at the target addresses of R3 and
R70, each with the byte it carries: a READ runs `u` reads, of which the requested bytes are kept by position and the
others are discarded (R72); a WRITE or POSTED first reads, for its merge, the bytes the request does not supply (R75), so
for a whole unit none (R74), and then writes all `u`, each requested byte from its position in the data and each other
byte from the merge. The last cycle of the unit is marked with the number of requested bytes. -/
def Obligations.UnitRunsItsCycles : Prop :=
  ∀ (x : Transfer) (k u : Nat) (addresses : List Nat) (target : Bool → Nat → Nat) (use : ByteUse → Nat → ByteUse),
    (x.snapshot.unit, u) ∈ [(UnitSize.one, 1), (.two, 2), (.four, 4)] →
    (x.snapshot.lane = .ascending → addresses = (List.range u).map fun j => k * u + j) →
    (x.snapshot.lane = .descending → addresses = (List.range u).map fun j => k * u + (u - 1 - j)) →
    (∀ isWrite a,
      (x.snapshot.mode = .linear →
        target isWrite a = (x.snapshot.targetBase.toNat + (a - x.snapshot.base.toNat)) % 65536) ∧
      (x.snapshot.mode = .port → target isWrite a = x.snapshot.readPort.toNat) ∧
      (x.snapshot.mode = .splitPort →
        target isWrite a = if isWrite then x.snapshot.writePort.toNat else x.snapshot.readPort.toNat)) →
    (∀ other a,
      use other a =
        if x.address.toNat ≤ a ∧ a < x.address.toNat + x.length then .request (a - x.address.toNat) else other) →
      (x.kind = .read →
        (x.unitCycles k).map (fun c => (c.write, c.addr.toNat, c.use)) =
          addresses.map fun a => (false, target false a, use .discard a)) ∧
      (x.kind ≠ .read →
        (x.unitCycles k).map (fun c => (c.write, c.addr.toNat, c.use)) =
          (addresses.filter fun a => decide (a < x.address.toNat ∨ x.address.toNat + x.length ≤ a)).map
              (fun a => (false, target false a, .merge a)) ++
            addresses.map fun a => (true, target true a, use (.merge a) a)) ∧
      (x.unitCycles k).map (fun c => c.unitEnd) =
        List.replicate ((x.unitCycles k).length - 1) none ++
          [some (addresses.filter fun a => decide (x.address.toNat ≤ a ∧ a < x.address.toNat + x.length)).length]

/-- The segments of a transfer cover it without gap or overlap: from a progress at a unit's start, a segment holds at least
one unit, its units are the next ones in order, and the progress after it is again at a unit's start or at the end. -/
def Obligations.SegmentsCoverTransfer : Prop :=
  ∀ (x : Transfer) (limit : Nat),
    1 ≤ limit → x.progress < x.length → (x.progress = 0 ∨ (x.first + x.progress) % x.unit = 0) →
      ∃ units later, x.segmentUnits limit = units ∧ x.unitsLeft = units ++ later ∧ units ≠ [] ∧
        x.progress + (units.map x.requestedBytes).sum ≤ x.length ∧
        (later = [] → x.progress + (units.map x.requestedBytes).sum = x.length) ∧
        (later ≠ [] →
          (x.first + (x.progress + (units.map x.requestedBytes).sum)) % x.unit = 0 ∧
            { x with progress := x.progress + (units.map x.requestedBytes).sum }.unitsLeft = later)

/-! ## The peripheral bus (chapter 5) -/

/-- Which entries are eligible, and one evaluation of the arbiter: EXTREQ first; else the oldest eligible entry of the
first initiator from the pointer on that has one, whose segment begins; else nothing. That the first setup begins in the
step of the choice is the model's reading (log entry 12), and that an announcement not yet taken keeps no entry from being
eligible its choice (log entry 29). -/
def Obligations.ArbiterDecides : Prop :=
  ∀ s : State,
    (∀ e : Entry,
      s.eligible e = true ↔
        ∃ x, e.body = .transfer x ∧ e.state = .waiting ∧
          (∀ f ∈ olderThan s.trk.entries e.slot, f.initiator = e.initiator → f.target ≠ some x.snapshot.target) ∧
          (s.tgt[x.snapshot.target].state = .online ∨ s.tgt[x.snapshot.target].state = .suspect) ∧
          s.pbe.recovery[x.snapshot.target] = 0 ∧ ∀ o ∈ s.handed.outcomes, o.1 ≠ x.snapshot.target) ∧
    (s.power.boot ≠ .running ∨ s.pbe.bus ≠ .idle → s.arbitrate = s) ∧
    (s.power.boot = .running → s.pbe.bus = .idle → s.pins.extreq = true →
      s.arbitrate = { s with pbe := { s.pbe with bus := .lent, lendTimer := some 0, overrunMark := false } }) ∧
    (s.pins.extreq = false → (∀ e ∈ s.trk.entries, s.eligible e = false) → s.arbitrate = s) ∧
    ∀ (e : Entry) (x : Transfer),
      TrackerLaw s → s.power.boot = .running → s.pbe.bus = .idle → s.pins.extreq = false → e ∈ s.trk.entries →
      s.eligible e = true → e.body = .transfer x →
      (∀ f ∈ s.trk.entries, (f.initiator - s.pbe.pointer).val < (e.initiator - s.pbe.pointer).val →
        s.eligible f = false) →
      (∀ f ∈ olderThan s.trk.entries e.slot, f.initiator = e.initiator → s.eligible f = false) →
        ∃ c, s.arbitrate =
            { s with
              trk :=
                { s.trk with
                  entries := s.trk.entries.map fun f => if f.slot = e.slot then { f with state := .inSegment false } else f }
              pbe := { s.pbe with pointer := e.initiator + 1, bus := .segment c } } ∧
          c.slot = e.slot ∧ c.target = x.snapshot.target ∧ c.write = decide (x.kind ≠ .read) ∧
          c.mode = x.snapshot.mode ∧ c.readPort = x.snapshot.readPort ∧ c.writePort = x.snapshot.writePort ∧
          c.cycles = (x.segmentUnits s.pbe.segmentLimit).flatMap x.unitCycles ∧ c.next = 0 ∧ c.start = x.progress ∧
          c.unitsDone = 0 ∧ c.bytesDone = 0 ∧ c.held = [] ∧ c.merged = [] ∧ c.timedOut = false ∧ c.report = none ∧
          c.run = c.cycles.head?.map fun spec =>
            ⟨spec, s.tgt[x.snapshot.target].strobeWidth, s.tgt[x.snapshot.target].readyTimeout,
              if spec.write then some (cycleValue x.data [] spec.use) else none, .setup⟩

/-- The end of the strobe: PRDY_SAMPLED_HIGH at a strobe clock from the strobe width to the timeout clock 40 × T completes
the cycle, taking a read's value; below the strobe width PRDY is not sampled; READY_TIMEOUT ends the cycle as timed out. -/
def Obligations.StrobeEnds : Prop :=
  ∀ (s : State) (c : SegmentContext) (r : CycleRun) (k clock : Nat) (data : Byte),
    s.pbe.bus = .segment c → c.run = some r → r.phase = .strobe k →
      (k ≤ clock → r.strobeWidth ≤ clock → clock ≤ 40 * r.readyTimeout →
        exec (.prdySampledHigh clock data) s =
          .next
            { s with
              pbe :=
                { s.pbe with
                  bus :=
                    .segment
                      { c with
                        run := some { r with phase := .hold (.completed (if r.spec.write then none else some data)) } } } }) ∧
      (clock < r.strobeWidth → exec (.prdySampledHigh clock data) s = .next s) ∧
      (40 * r.readyTimeout < clock → exec (.prdySampledHigh clock data) s = .next s) ∧
      exec .readyTimeout s =
        .next
          { s with pbe := { s.pbe with bus := .segment { c with run := some { r with phase := .hold .timedOut } } } }

/-- BYTE_CYCLE_END: the recovery timer starts with the recovery in force, the outcome is handed with the target's mark
outstanding, and the context advances. A completed cycle's value is held at its position where its byte is requested, or
with the merge; at a unit's last cycle the unit is counted and the merge's values are discarded. After a timed-out cycle,
or the last one, the segment end report is handed, with the units completed and, for a READ, the values held at their
positions; any other cycle is followed by the next one's setup at once where the recovery is 0, with the value it drives,
and by a wait for the timer where it is not, whether or not the outcome is taken (log entry 30). -/
def Obligations.ByteCycleEnds : Prop :=
  ∀ (s : State) (c : SegmentContext) (r : CycleRun) (result : CycleResult)
    (values : List (Nat × Byte) → Nat → List Byte),
    s.pbe.bus = .segment c → c.run = some r → r.phase = .hold result → c.timedOut = false →
    (∀ held n, values held n = if c.write then [] else (List.range n).map fun k => (held.lookup (c.start + k)).getD 0) →
      ∃ d, exec .byteCycleEnd s =
          .next
            { s with
              pbe :=
                { s.pbe with
                  recovery := s.pbe.recovery.set c.target (4 * s.tgt[c.target].recovery)
                  bus := .segment d }
              handed := { s.handed with outcomes := s.handed.outcomes ++ [(c.target, decide (result ≠ .timedOut))] } } ∧
        (result = .timedOut →
          d = { c with
                timedOut := true, run := none
                report := some ⟨c.slot, c.unitsDone, c.bytesDone, values c.held c.bytesDone, true⟩ }) ∧
        ∀ v c1, result = .completed v →
          c1 = { c with
                 next := c.next + 1
                 run := none
                 held :=
                   match v, r.spec.use with
                   | some b, .request p => c.held ++ [(p, b)]
                   | _, _ => c.held
                 merged :=
                   match r.spec.unitEnd, v, r.spec.use with
                   | some _, _, _ => []
                   | none, some b, .merge a => c.merged ++ [(a, b)]
                   | none, _, _ => c.merged
                 unitsDone := if r.spec.unitEnd.isSome then c.unitsDone + 1 else c.unitsDone
                 bytesDone := c.bytesDone + r.spec.unitEnd.getD 0 } →
            (c.cycles.length ≤ c.next + 1 →
              d = { c1 with
                    report := some ⟨c.slot, c1.unitsDone, c1.bytesDone, values c1.held c1.bytesDone, false⟩ }) ∧
            (∀ spec, c.cycles[c.next + 1]? = some spec → s.tgt[c.target].recovery = 0 →
              ∃ driven, s.Drives c.slot c1.merged spec driven ∧
                d = { c1 with
                      run := some
                        ⟨spec, s.tgt[c.target].strobeWidth, s.tgt[c.target].readyTimeout, driven, .setup⟩ }) ∧
            (c.next + 1 < c.cycles.length → s.tgt[c.target].recovery ≠ 0 → d = c1)

/-- RECOVERY_TIMER_EXPIRY of a running timer: with the bus IDLE the arbiter is evaluated; a segment to the target that waits
for the timer begins its next cycle, driving its value; otherwise only the timer is expired. -/
def Obligations.RecoveryTimerExpires : Prop :=
  ∀ (s : State) (t : TargetId), s.pbe.recovery[t] ≠ 0 →
    (s.pbe.bus = .idle →
      exec (.recoveryTimerExpiry t) s =
        .next (State.arbitrate { s with pbe := { s.pbe with recovery := s.pbe.recovery.set t 0 } })) ∧
    (s.pbe.bus = .lent →
      exec (.recoveryTimerExpiry t) s = .next { s with pbe := { s.pbe with recovery := s.pbe.recovery.set t 0 } }) ∧
    (∀ c spec, s.pbe.bus = .segment c → c.target = t → c.run = none → c.report = none → c.cycles[c.next]? = some spec →
      ∃ q, exec (.recoveryTimerExpiry t) s =
          .next
            { s with
              pbe := { s.pbe with recovery := s.pbe.recovery.set t 0, bus := .segment { c with run := some q } } } ∧
        q.spec = spec ∧ q.phase = .setup ∧ q.strobeWidth = s.tgt[t].strobeWidth ∧
        q.readyTimeout = s.tgt[t].readyTimeout ∧ s.Drives c.slot c.merged spec q.driven) ∧
    (∀ c, s.pbe.bus = .segment c → (c.target ≠ t ∨ c.run ≠ none ∨ c.report ≠ none) →
      exec (.recoveryTimerExpiry t) s = .next { s with pbe := { s.pbe with recovery := s.pbe.recovery.set t 0 } })

/-- EXTREQ_WITHDRAWN, the withdrawn level sampled at two consecutive edges (R187), while LENT: the bus is taken back IDLE
with EXTGNT withdrawn, the lend timer stops, the overrun mark clears, every recovery timer starts with the recovery in
force whatever its state, and the arbiter is evaluated (R112). That EXTREQ asserted again before the evaluation is an
operand of the command is the model's reading (log entry 32): the evaluation then grants the bus again, with the lend
timer at 0, the overrun mark clear and the timers started running on. While the bus is not LENT only the level is taken,
the model's reading of R92 in the same log entry. -/
def Obligations.BusReturnsFromLending : Prop :=
  ∀ (s : State) (samples : ExtreqSamples), 2 ≤ samples.withdrawn → s.pins.extreq = true →
    (s.pbe.bus = .lent →
      ∃ u : State, exec (.extreqWithdrawn samples) s = .next u.arbitrate ∧ u.busPins = quietPins ∧
        (∀ t : TargetId, u.pbe.recovery[t] = 4 * s.tgt[t].recovery) ∧
        u = { s with
              pins := { s.pins with extreq := decide (2 ≤ samples.again) }
              pbe :=
                { s.pbe with bus := .idle, lendTimer := none, overrunMark := false, recovery := u.pbe.recovery } } ∧
        (2 ≤ samples.again → s.power.boot = .running →
          u.arbitrate = { u with pbe := { u.pbe with bus := .lent, lendTimer := some 0 } })) ∧
    (s.pbe.bus ≠ .lent →
      exec (.extreqWithdrawn samples) s = .next { s with pins := { s.pins with extreq := false } })

/-- LEND_LIMIT_REACHED, judged against the lend limit in force: for a lending not yet reported, with a limit that is not 0
and a lend timer that has reached it, the mark and LEND_OVERRUN are set and an event of source 10 is handed; the lending
continues. With the timer short of the limit, as where a commit has raised it, the mark set, or the limit 0, nothing is
reported; that the command then does nothing is the model's reading (log entry 24). -/
def Obligations.LendingOverruns : Prop :=
  ∀ (s : State), s.pbe.bus = .lent → s.pbe.lendLimit ≤ 255 →
    (∀ n, s.pbe.overrunMark = false → s.pbe.lendLimit ≠ 0 → s.pbe.lendTimer = some n → 40 * s.pbe.lendLimit ≤ n →
      exec .lendLimitReached s =
        .next
          { s with
            pbe := { s.pbe with overrunMark := true, lendOverrun := true }
            handed := { s.handed with events := s.handed.events ++ [.lendOverrun] } }) ∧
    (∀ n, s.pbe.lendTimer = some n → n < 40 * s.pbe.lendLimit → exec .lendLimitReached s = .next s) ∧
    ((s.pbe.overrunMark = true ∨ s.pbe.lendLimit = 0) → exec .lendLimitReached s = .next s)

/-- The passages of the bus state: a lending ends only by EXTREQ_WITHDRAWN, a segment only by SEGMENT_END_REPORT, power-on
reset apart; a running segment keeps its entry and its cycle list. -/
def Obligations.BusStatePassages : Prop :=
  ∀ (c : Instr) (s t : State), exec c s = .next t →
    (∀ ns, c ≠ .porstAsserted ns) → c ≠ .porstReleased →
      (s.pbe.bus = .lent → t.pbe.bus = .lent ∨ ∃ n, c = .extreqWithdrawn n) ∧
      (∀ d, s.pbe.bus = .segment d →
        (∃ d', t.pbe.bus = .segment d' ∧ d'.slot = d.slot ∧ d'.cycles = d.cycles ∧ d'.target = d.target) ∨
          c = .segmentEndReport)

/-! ## The Interrupt Relay (chapter 7) -/

/-- IRQ_ASSERTED and IRQ_WITHDRAWN, sampled at two edges or more: the level is taken and the routed pair moves, from IDLE
to PENDING where the priority is not 0 and from PENDING to IDLE; no other pair moves. At one sample nothing is taken. A
place that the rotation of R126 was to give is free where no block waits any more (log entry 8). -/
def Obligations.IrqLinesMoveRoutedPair : Prop :=
  ∀ (s : State) (n : IrqLine) (samples : Nat) (src : Source) (d : Initiator),
    src.val = n.val → d = s.irl.routes[src].destination →
      (samples < 2 → exec (.irqAsserted n samples) s = .next s ∧ exec (.irqWithdrawn n samples) s = .next s) ∧
      (2 ≤ samples → s.pins.irq[n] = false →
        ∃ t : State, exec (.irqAsserted n samples) s = .next t ∧
          t = { s with pins := { s.pins with irq := s.pins.irq.set n true }, irl := { s.irl with pairs := t.irl.pairs } } ∧
          (t.irl.pair src d =
            if s.irl.pair src d = .idle ∧ s.irl.routes[src].priority ≠ 0 then .pending else s.irl.pair src d) ∧
          ∀ (k : Source) (i : Initiator), (k, i) ≠ (src, d) → t.irl.pair k i = s.irl.pair k i) ∧
      (2 ≤ samples → s.pins.irq[n] = true →
        ∃ t : State, exec (.irqWithdrawn n samples) s = .next t ∧
          t = { s with
                pins := { s.pins with irq := s.pins.irq.set n false }
                hlp := { s.hlp with contended := t.hlp.contended }
                irl := { s.irl with pairs := t.irl.pairs } } ∧
          s.PlaceSettled t ∧
          (t.irl.pair src d = if s.irl.pair src d = .pending then .idle else s.irl.pair src d) ∧
          ∀ (k : Source) (i : Initiator), (k, i) ≠ (src, d) → t.irl.pair k i = s.irl.pair k i)

/-- EVENT_SOURCE: an event of sources 8 to 11 makes the pair it reaches PENDING where it is IDLE and the source's
priority is not 0, by the route that stands then (the model's choice for sources 8 to 10, log entry 40; a COMMIT takes
events of source 11 before it changes a route, log entry 39), and is discarded or absorbed otherwise.
FLUSH_WITHDRAWAL returns a PENDING source 8 pair to IDLE, and takes with it the events of source 8 of its initiator
that were handed before the clearing, so that none of them raises a notice after it; those handed after it stay (log
entry 27). A place that the rotation of R126 was to give is free where no block waits any more (log entry 8). -/
def Obligations.EventsAndWithdrawalsMovePairs : Prop :=
  ∀ (s : State),
    (∀ (e : NoticeEvent) (before rest : List NoticeEvent) (src : Source) (i : Initiator),
      s.handed.events = before ++ e :: rest → e ∉ before →
      (e, src, i) ∈
        [(.postedFault i, 8, i), (.targetDown, 9, s.irl.routes[(9 : Source)].destination),
          (.lendOverrun, 10, s.irl.routes[(10 : Source)].destination), (.mailboxResult i, 11, i)] →
        ∃ t : State, exec (.eventSource e) s = .next t ∧
          t = { s with
                irl := { s.irl with pairs := t.irl.pairs }
                handed :=
                  { s.handed with
                    events := before ++ rest
                    withdrawals :=
                      s.handed.withdrawals.map fun c =>
                        if e = .postedFault c.initiator then { c with older := c.older - 1 } else c } } ∧
          (t.irl.pair src i =
            if s.irl.routes[src].priority ≠ 0 ∧ s.irl.pair src i = .idle then .pending else s.irl.pair src i) ∧
          ∀ (k : Source) (j : Initiator), (k, j) ≠ (src, i) → t.irl.pair k j = s.irl.pair k j) ∧
    ∀ (i : Initiator) (n : Nat) (before rest : List Clearing) (old new : List NoticeEvent),
      s.handed.withdrawals = before ++ ⟨i, n⟩ :: rest → (∀ c ∈ before, c.initiator ≠ i) →
      s.handed.events = old ++ new → old.count (.postedFault i) = n →
      ∃ t : State, exec (.flushWithdrawal i) s = .next t ∧
        t = { s with
              hlp := { s.hlp with contended := t.hlp.contended }
              irl := { s.irl with pairs := t.irl.pairs }
              handed :=
                { s.handed with
                  events := (old.filter fun e => decide (e ≠ .postedFault i)) ++ new
                  withdrawals :=
                    (before ++ rest).map fun c => if c.initiator = i then { c with older := c.older - n } else c } } ∧
        s.PlaceSettled t ∧
        (t.irl.pair 8 i = if s.irl.pair 8 i = .pending then .idle else s.irl.pair 8 i) ∧
        ∀ (k : Source) (j : Initiator), (k, j) ≠ (8, i) → t.irl.pair k j = s.irl.pair k j

/-- IRL_LINK_RESET returns every pair to IDLE, IRL_DETACH every pair of one initiator; a routed pair of a level source
whose line is asserted and whose priority is not 0 is PENDING again in the same step. Routes, thresholds and pointer are
kept. The model's readings in it: the news that the link is UP, where it stands behind the link reset, is taken with it
(log entry 9); a detach is taken before or after the events of its initiator, whichever was handed first (log entry 28),
and before or after a link reset or a clearing (log entry 35); a place that the rotation of R126 was to give is free where
no block waits any more (log entry 8). -/
def Obligations.ResetsReachRelay : Prop :=
  ∀ (s : State),
    (∀ (rest after : List LinkNews) (up : Bool), s.handed.irlNews = .reset :: rest →
      (rest.head? ≠ some .up → up = false ∧ after = rest) → (rest.head? = some .up → up = true ∧ after = rest.tail) →
      ∃ t : State, exec .irlLinkReset s = .next t ∧
        t = { s with
              hlp := { s.hlp with contended := t.hlp.contended }
              irl := { s.irl with linkUp := up, pairs := t.irl.pairs }
              handed := { s.handed with irlNews := after } } ∧
        s.PlaceSettled t ∧
        ∀ (src : Source) (i : Initiator),
          t.irl.pair src i =
            if src.val < 8 ∧ s.irl.routes[src].destination = i ∧ lineOf s.pins src = true ∧ s.irl.routes[src].priority ≠ 0
            then .pending else .idle) ∧
    ∀ (i : Initiator) (rest : List Initiator), s.handed.irlDetaches = i :: rest →
      ∃ t : State, exec (.irlDetach i) s = .next t ∧
        t = { s with
              hlp := { s.hlp with contended := t.hlp.contended }
              irl := { s.irl with pairs := t.irl.pairs }
              handed := { s.handed with irlDetaches := rest } } ∧
        s.PlaceSettled t ∧
        (∀ src : Source,
          t.irl.pair src i =
            if src.val < 8 ∧ s.irl.routes[src].destination = i ∧ lineOf s.pins src = true ∧ s.irl.routes[src].priority ≠ 0
            then .pending else .idle) ∧
        ∀ (src : Source) (j : Initiator), j ≠ i → t.irl.pair src j = s.irl.pair src j

/-- NOTICE_HANDING: of the first initiator from the pointer on that has a sendable pair, the pair of highest priority, the
lowest-numbered source among equals, is handed with the vector and priority of its route, becomes NOTIFIED, and the
pointer names the next initiator. Where the free place is one that the rotation of R126 gives, it is the IRL's when no
block from the outbound pointer on is ready before it, and the outbound pointer then names the TRK: when the rotation
gives a place is the model's reading (log entry 8). Where no pair is sendable, nothing is handed and the pointer is
unchanged; nor while the link is not UP, or a link reset handed to the IRL is not taken (R117). A pair is sendable by the
four conditions of R134. -/
def Obligations.NoticeIsHanded : Prop :=
  ∀ s : State,
    (∀ (src : Source) (i : Initiator),
      s.irl.sendable src i = true ↔
        s.irl.pairs[src][i] = .pending ∧ s.irl.thresholds[i] < s.irl.routes[src].priority ∧
          ((List.finRange 12).filter fun k => decide (s.irl.pairs[k][i] = .notified)).length < 4 ∧ s.irl.linkUp = true) ∧
    ((∀ (src : Source) (i : Initiator), s.irl.sendable src i = false) → exec .noticeHanding s = .next s) ∧
    ((s.hlp.link ≠ .up ∨ LinkNews.reset ∈ s.handed.irlNews) → exec .noticeHanding s = .next s) ∧
    ∀ (i : Initiator) (src : Source),
      s.hlp.link = .up → LinkNews.reset ∉ s.handed.irlNews → s.hlp.transmit.length < 4 →
      (s.hlp.contended = true →
        (s.hlp.pointer ≠ .irl → s.mgb.answers = []) ∧ (s.hlp.pointer = .trk → s.trk.answers = [])) →
      s.irl.sendable src i = true →
      (∀ (j : Initiator) (k : Source), (j - s.irl.pointer).val < (i - s.irl.pointer).val → s.irl.sendable k j = false) →
      (∀ k : Source, s.irl.sendable k i = true →
        s.irl.routes[k].priority < s.irl.routes[src].priority ∨
          (s.irl.routes[k].priority = s.irl.routes[src].priority ∧ src ≤ k)) →
        ∃ t : State, exec .noticeHanding s = .next t ∧
          t = { s with
                hlp :=
                  { s.hlp with
                    transmit :=
                      s.hlp.transmit ++ [.notice ⟨i, src, s.irl.routes[src].vector, s.irl.routes[src].priority⟩]
                    pointer := if s.hlp.contended then .trk else s.hlp.pointer
                    contended := false }
                irl := { s.irl with pairs := t.irl.pairs, pointer := i + 1 } } ∧
          t.irl.pair src i = .notified ∧
          ∀ (k : Source) (j : Initiator), (k, j) ≠ (src, i) → t.irl.pair k j = s.irl.pair k j

/-- NOTICE_ACK: a NOTIFIED pair of the named source at the writer is answered OK and leaves NOTIFIED, to PENDING where it is
the routed pair of a level source with its line asserted and its priority not 0, else to IDLE. Any other pair state, and a
value of 12 to 255, is answered NOT_OUTSTANDING and moves nothing. -/
def Obligations.NoticeIsAcknowledged : Prop :=
  ∀ (s : State) (r : Request) (rest : List Request),
    HeadForManagement s r rest → r.IsManagementWrite 0x050 4 →
      (∀ src : Source, (byteAt r.payload 0).toNat = src.val → s.irl.pair src r.initiator = .notified →
        ∃ t : State, exec .noticeAck s = .next t ∧
          t = { s.managementAnswered rest (r.answer .ok 4 .nothing) with irl := { s.irl with pairs := t.irl.pairs } } ∧
          (t.irl.pair src r.initiator =
            if src.val < 8 ∧ s.irl.routes[src].destination = r.initiator ∧ lineOf s.pins src = true ∧
                s.irl.routes[src].priority ≠ 0
            then .pending else .idle) ∧
          ∀ (k : Source) (j : Initiator), (k, j) ≠ (src, r.initiator) → t.irl.pair k j = s.irl.pair k j) ∧
      (∀ src : Source, (byteAt r.payload 0).toNat = src.val → s.irl.pair src r.initiator ≠ .notified →
        exec .noticeAck s = .next (s.managementAnswered rest (r.answer .notOutstanding 0 .nothing))) ∧
      (12 ≤ (byteAt r.payload 0).toNat →
        exec .noticeAck s = .next (s.managementAnswered rest (r.answer .notOutstanding 0 .nothing)))

/-! ## Management space and the mailbox (chapter 8) -/

/-- CLAIM: DENIED where the reader's bit of the claim mask is clear, in every mailbox state; GRANTED, with the lease in
force started, where the mailbox is FREE; HELD, with the owner and the state, otherwise, the owner itself included. -/
def Obligations.ClaimIsDecided : Prop :=
  ∀ (s : State) (r : Request) (rest : List Request),
    HeadForManagement s r rest → r.IsManagementRead 0x040 4 →
      (s.mgb.claimMask.getLsbD r.initiator.val = false →
        exec .claim s = .next (s.managementAnswered rest (r.answer .denied 0 .nothing))) ∧
      (s.mgb.claimMask.getLsbD r.initiator.val = true → s.mgb.mailbox = .free →
        exec .claim s =
          .next
            { s with
              hlp := { s.hlp with receive := rest }
              mgb :=
                { s.mgb with
                  mailbox := .claimed r.initiator
                  leaseTimer := some (40000 * s.mgb.lease)
                  answers :=
                    s.mgb.answers ++ [r.answer .ok 4 (.data [1, BitVec.ofNat 8 r.initiator.val, 1, 0])] } }) ∧
      (∀ i code, s.mgb.claimMask.getLsbD r.initiator.val = true →
        (s.mgb.mailbox, code) ∈
          [(.claimed i, (1 : Byte)), (.busy i false, 2), (.busy i true, 2), (.result i, 3)] →
        exec .claim s =
          .next (s.managementAnswered rest (r.answer .ok 4 (.data [2, BitVec.ofNat 8 i.val, code, 0]))))

/-- SUBMIT: NOT_OWNER, MBX_STATE, FORMAT for a chain length outside 4 to 512, else the mailbox is BUSY, the lease stops, the
result buffer is zeros and the CFX is EXECUTING in phase STRUCTURE at walk position 0. -/
def Obligations.SubmitIsDecided : Prop :=
  ∀ (s : State) (r : Request) (rest : List Request),
    HeadForManagement s r rest → r.IsManagementWrite 0x044 4 →
      (s.mgb.mailbox.owner ≠ some r.initiator →
        exec .submit s = .next (s.managementAnswered rest (r.answer .notOwner 0 .nothing))) ∧
      (∀ mark, (s.mgb.mailbox = .busy r.initiator mark ∨ s.mgb.mailbox = .result r.initiator) →
        exec .submit s = .next (s.managementAnswered rest (r.answer .mbxState 0 .nothing))) ∧
      (s.mgb.mailbox = .claimed r.initiator → (leNat r.payload < 4 ∨ 512 < leNat r.payload) →
        exec .submit s = .next (s.managementAnswered rest (r.answer .format 0 .nothing))) ∧
      (s.mgb.mailbox = .claimed r.initiator → 4 ≤ leNat r.payload → leNat r.payload ≤ 512 →
        exec .submit s =
          .next
            { s with
              hlp := { s.hlp with receive := rest }
              mgb :=
                { s.mgb with
                  mailbox := .busy r.initiator false, leaseTimer := none, resultBuffer := []
                  answers := s.mgb.answers ++ [r.answer .ok 4 .nothing] }
              cfx := some ⟨.structural, leNat r.payload, 0, [], none, [], false⟩ })

/-- RELEASE: from CLAIMED or RESULT the owner frees the mailbox and stops the lease; in BUSY its write is answered
MBX_STATE; any other writer, and any writer while FREE, is answered NOT_OWNER. -/
def Obligations.ReleaseIsDecided : Prop :=
  ∀ (s : State) (r : Request) (rest : List Request),
    HeadForManagement s r rest → r.IsManagementWrite 0x048 4 →
      (s.mgb.mailbox.owner ≠ some r.initiator →
        exec .release s = .next (s.managementAnswered rest (r.answer .notOwner 0 .nothing))) ∧
      ((s.mgb.mailbox = .claimed r.initiator ∨ s.mgb.mailbox = .result r.initiator) →
        exec .release s =
          .next
            { s with
              hlp := { s.hlp with receive := rest }
              mgb :=
                { s.mgb with
                  mailbox := .free, leaseTimer := none
                  answers := s.mgb.answers ++ [r.answer .ok 4 .nothing] } }) ∧
      (∀ mark, s.mgb.mailbox = .busy r.initiator mark →
        exec .release s = .next (s.managementAnswered rest (r.answer .mbxState 0 .nothing)))

/-- REQUEST_BUFFER_WRITE of 1 to 64 bytes lying wholly in the request buffer: in CLAIMED the owner's bytes are written there
and every other byte of the buffer is kept; otherwise nothing is written. MANAGEMENT_POSTED_WRITE: refused FORMAT without an
answer, the posted-fault record of its initiator taking the fault, with an event of source 8. MANAGEMENT_WRITE: MISS at an
unmapped offset; FORMAT where the fields do not agree or the form is not one that the location accepts, malformed writes to
SUBMIT, RELEASE, NOTICE ACK and the request buffer among them. -/
def Obligations.ManagementWrites : Prop :=
  (∀ (s : State) (r : Request) (rest : List Request) (o n : Nat),
    BufferLaw s → HeadForManagement s r rest → r.IsManagementWrite (0x100 + o) n → 1 ≤ n → n ≤ 64 → o + n ≤ 512 →
      (s.mgb.mailbox = .claimed r.initiator →
        ∃ t : State, exec .requestBufferWrite s = .next t ∧
          t = { s with
                hlp := { s.hlp with receive := rest }
                mgb :=
                  { s.mgb with
                    requestBuffer := t.mgb.requestBuffer
                    answers := s.mgb.answers ++ [r.answer .ok n .nothing] } } ∧
          ∀ a : Nat,
            readByte t.mgb.requestBuffer a =
              if o ≤ a ∧ a < o + n then byteAt r.payload (a - o) else readByte s.mgb.requestBuffer a) ∧
      (s.mgb.mailbox.owner ≠ some r.initiator →
        exec .requestBufferWrite s = .next (s.managementAnswered rest (r.answer .notOwner 0 .nothing))) ∧
      (∀ mark, (s.mgb.mailbox = .busy r.initiator mark ∨ s.mgb.mailbox = .result r.initiator) →
        exec .requestBufferWrite s = .next (s.managementAnswered rest (r.answer .mbxState 0 .nothing)))) ∧
  ∀ (s : State) (r : Request) (rest : List Request),
    HeadForManagement s r rest → 0xFFF000 ≤ r.address.toNat →
      (r.kind = .posted →
        ∃ f, exec .managementPostedWrite s =
            .next
              { s with
                hlp := { s.hlp with receive := rest }
                trk := { s.trk with faults := s.trk.faults.set r.initiator (some f) }
                handed := { s.handed with events := s.handed.events ++ [.postedFault r.initiator] } } ∧
          (s.trk.faults[r.initiator] = none → f = ⟨.format, r.address, 0, 1⟩) ∧
          ∀ g, s.trk.faults[r.initiator] = some g →
            f = { g with count := if g.count < 255 then g.count + 1 else g.count }) ∧
      (r.kind = .write →
        ((0xFFF054 ≤ r.address.toNat ∧ r.address.toNat < 0xFFF100) ∨ 0xFFF500 ≤ r.address.toNat) →
        exec .managementWrite s = .next (s.managementAnswered rest (r.answer .miss 0 .nothing))) ∧
      (r.kind = .write →
        (r.address.toNat < 0xFFF044 ∨ (0xFFF04C ≤ r.address.toNat ∧ r.address.toNat < 0xFFF050) ∨
          (0xFFF300 ≤ r.address.toNat ∧ r.address.toNat < 0xFFF500)) →
        exec .managementWrite s = .next (s.managementAnswered rest (r.answer .format 0 .nothing))) ∧
      (∀ o, r.kind = .write → r.address.toNat = 0xFFF000 + o → MappedOffset o →
        (r.fieldsAgree = false ∨ ¬WriteAccepted o r.length) →
        exec .managementWrite s = .next (s.managementAnswered rest (r.answer .format 0 .nothing)))

/-- MANAGEMENT_READ: the bytes of the status region that are named, which are the fields of R186 and sum to 0; the MAILBOX
STATE value; the bytes of the request buffer to its owner, and of the result buffer to the owner in RESULT, who is
answered MBX_STATE there in CLAIMED and BUSY; NOT_OWNER to any other reader of a buffer; MISS at an unmapped offset,
FORMAT where the fields do not agree or the form is not one that the location accepts. Nothing but the receive queue and
the held answers changes. -/
def Obligations.ManagementSpaceIsRead : Prop :=
  ∀ (s : State) (r : Request) (rest : List Request) (o n : Nat),
    HeadForManagement s r rest →
      (r.IsManagementRead o n → 1 ≤ n → n ≤ 64 → o + n ≤ 0x40 →
        exec .managementRead s =
          .next (s.managementAnswered rest (r.answer .ok n (.data ((s.statusRegion.drop o).take n))))) ∧
      (s.statusRegion.length = 64 ∧ s.statusRegion.sum = 0 ∧
        s.statusRegion[(0 : Nat)]? = some 1 ∧
        s.statusRegion[(1 : Nat)]? =
          some
            ((if s.mgb.configLoaded then 1 else 0) +
              (if ∀ t : TargetId, s.tgt[t].state ≠ .suspect ∧ s.tgt[t].state ≠ .offline then 2 else 0) +
              (if s.pbe.bus = .lent then 4 else 0) + (if s.pbe.lendOverrun then 8 else 0)) ∧
        (∀ code, (s.trk.gate, code) ∈ [(Gate.opened, (0 : Byte)), (.quiescing, 1), (.quiesced, 2)] →
          s.statusRegion[(2 : Nat)]? = some code) ∧
        (∀ i state owner,
          (s.mgb.mailbox, state, owner) ∈
            [(Mailbox.free, (0 : Byte), (0xFF : Byte)), (.claimed i, 1, BitVec.ofNat 8 i.val),
              (.busy i false, 2, BitVec.ofNat 8 i.val), (.busy i true, 2, BitVec.ofNat 8 i.val),
              (.result i, 3, BitVec.ofNat 8 i.val)] →
          s.statusRegion[(3 : Nat)]? = some state ∧ s.statusRegion[(4 : Nat)]? = some owner) ∧
        (s.mgb.lostLast = none → s.statusRegion[(5 : Nat)]? = some 0xFF) ∧
        (∀ i, s.mgb.lostLast = some i → s.statusRegion[(5 : Nat)]? = some (BitVec.ofNat 8 i.val)) ∧
        s.statusRegion[(6 : Nat)]? = some (BitVec.ofNat 8 s.mgb.lostCount) ∧
        s.statusRegion[(7 : Nat)]? = some (BitVec.ofNat 8 s.hlp.dropped) ∧
        s.statusRegion[(8 : Nat)]? = some (BitVec.ofNat 8 s.mgb.commitCount) ∧
        s.statusRegion[(9 : Nat)]? = some (BitVec.ofNat 8 (s.mgb.commitCount / 256)) ∧
        (∀ (t : TargetId) code,
          (s.tgt[t].state, code) ∈ [(TargetState.absent, 0), (.online, 1), (.suspect, 2), (.offline, 3)] →
          ∃ b, s.statusRegion[10 + t.val / 4]? = some b ∧ b.toNat / 4 ^ (t.val % 4) % 4 = code) ∧
        (∀ i : Initiator,
          s.statusRegion[14 + i.val]? = some (BitVec.ofNat 8 (s.trk.entriesOf i).length)) ∧
        ∀ k, 18 ≤ k → k < 63 → s.statusRegion[k]? = some 0) ∧
      (∀ i state owner mark,
        (s.mgb.mailbox, state, owner, mark) ∈
          [(Mailbox.free, (0 : Byte), (0xFF : Byte), (0 : Byte)), (.claimed i, 1, BitVec.ofNat 8 i.val, 0),
            (.busy i false, 2, BitVec.ofNat 8 i.val, 0), (.busy i true, 2, BitVec.ofNat 8 i.val, 1),
            (.result i, 3, BitVec.ofNat 8 i.val, 0)] →
        r.IsManagementRead 0x04C 4 →
        exec .managementRead s =
          .next (s.managementAnswered rest (r.answer .ok 4 (.data [state, owner, mark, 0])))) ∧
      (r.IsManagementRead (0x100 + o) n → 1 ≤ n → n ≤ 64 → o + n ≤ 512 → s.mgb.mailbox.owner = some r.initiator →
        exec .managementRead s =
          .next (s.managementAnswered rest (r.answer .ok n (.data (readBytes s.mgb.requestBuffer o n))))) ∧
      (r.IsManagementRead (0x300 + o) n → 1 ≤ n → n ≤ 64 → o + n ≤ 512 → s.mgb.mailbox = .result r.initiator →
        exec .managementRead s =
          .next (s.managementAnswered rest (r.answer .ok n (.data (readBytes s.mgb.resultBuffer o n))))) ∧
      (∀ mark, r.IsManagementRead (0x300 + o) n → 1 ≤ n → n ≤ 64 → o + n ≤ 512 →
        (s.mgb.mailbox = .claimed r.initiator ∨ s.mgb.mailbox = .busy r.initiator mark) →
        exec .managementRead s = .next (s.managementAnswered rest (r.answer .mbxState 0 .nothing))) ∧
      (r.IsManagementRead (0x100 + o) n → 1 ≤ n → n ≤ 64 → o + n ≤ 1024 → o + n ≤ 512 ∨ 512 ≤ o →
        s.mgb.mailbox.owner ≠ some r.initiator →
        exec .managementRead s = .next (s.managementAnswered rest (r.answer .notOwner 0 .nothing))) ∧
      (r.kind = .read → r.address.toNat = 0xFFF000 + o → ¬MappedOffset o →
        exec .managementRead s = .next (s.managementAnswered rest (r.answer .miss 0 .nothing))) ∧
      (r.kind = .read → r.address.toNat = 0xFFF000 + o → MappedOffset o →
        (r.fieldsAgree = false ∨ ¬ReadAccepted o r.length) →
        exec .managementRead s = .next (s.managementAnswered rest (r.answer .format 0 .nothing)))

/-- The mailbox is taken from its owner: LEASE_EXPIRY frees it from CLAIMED and RESULT and records the loss;
MGB_LINK_RESET, and MGB_DETACH of the owner, free it without a record, or in BUSY set the release-pending mark; MGB_DETACH
of another initiator changes nothing. Several that are not yet taken have no order (the model's choice, log entry 31). -/
def Obligations.MailboxIsTakenBack : Prop :=
  ∀ (s : State) (i : Initiator),
    ((s.mgb.mailbox = .claimed i ∨ s.mgb.mailbox = .result i) →
      (∀ n, s.mgb.leaseTimer = some n →
        exec .leaseExpiry s =
          .next
            { s with
              mgb :=
                { s.mgb with
                  mailbox := .free, leaseTimer := none, lostLast := some i
                  lostCount := if s.mgb.lostCount < 255 then s.mgb.lostCount + 1 else s.mgb.lostCount } }) ∧
      (s.handed.mgbResets ≠ 0 →
        exec .mgbLinkReset s =
          .next
            { s with
              mgb := { s.mgb with mailbox := .free, leaseTimer := none }
              handed := { s.handed with mgbResets := s.handed.mgbResets - 1 } }) ∧
      (∀ rest, s.handed.mgbDetaches = i :: rest →
        exec (.mgbDetach i) s =
          .next
            { s with
              mgb := { s.mgb with mailbox := .free, leaseTimer := none }
              handed := { s.handed with mgbDetaches := rest } })) ∧
    (∀ mark, s.mgb.mailbox = .busy i mark →
      (s.handed.mgbResets ≠ 0 →
        exec .mgbLinkReset s =
          .next
            { s with
              mgb := { s.mgb with mailbox := .busy i true }
              handed := { s.handed with mgbResets := s.handed.mgbResets - 1 } }) ∧
      (∀ rest, s.handed.mgbDetaches = i :: rest →
        exec (.mgbDetach i) s =
          .next
            { s with mgb := { s.mgb with mailbox := .busy i true }, handed := { s.handed with mgbDetaches := rest } })) ∧
    (∀ j rest, s.mgb.mailbox.owner ≠ some j → s.handed.mgbDetaches = j :: rest →
      exec (.mgbDetach j) s = .next { s with handed := { s.handed with mgbDetaches := rest } })

/-- EXECUTION_END: with the release-pending mark clear the mailbox passes to RESULT with the lease in force started and an
event of source 11 for the owner; with the mark set it passes to FREE, with no lease, no event and no loss recorded. The
CFX is IDLE. -/
def Obligations.ExecutionEnds : Prop :=
  ∀ (s : State) (i : Initiator) (x : Executor), s.cfx = some x → x.finished = true →
    (s.mgb.mailbox = .busy i false →
      exec .executionEnd s =
        .next
          { s with
            cfx := none
            mgb := { s.mgb with mailbox := .result i, leaseTimer := some (40000 * s.mgb.lease) }
            handed := { s.handed with events := s.handed.events ++ [.mailboxResult i] } }) ∧
    (s.mgb.mailbox = .busy i true →
      exec .executionEnd s = .next { s with cfx := none, mgb := { s.mgb with mailbox := .free } })

/-! ## Configuration (chapter 9) -/

/-- STRUCTURE_CHECK: the eight checks of R166 on the record at the walk position, in order; the first that fails rejects the
chain, the failing position being the number of records in the list. A record other than END that passes joins the list and
the walk goes on behind it; END, where the results fit, takes the chain to phase STAGING, and where they do not the chain is
rejected with RESULT_TOO_LARGE at the first record at which the running total exceeds 512. A rejection writes the
chain-outcome record alone, REJECTED in phase STRUCTURE. The record types have the codes of section 10.2, their payloads
and results the lengths of R164. -/
def Obligations.StructureIsChecked : Prop :=
  (∀ (code : Nat) (kinds : List (Nat × RecordKind × Nat × Nat)),
    kinds =
      [(0x10, .setWindow, 21, 0), (0x11, .enableWindow, 1, 0), (0x12, .disableWindow, 1, 0), (0x13, .clearWindow, 1, 0),
        (0x14, .getWindow, 1, 21), (0x20, .setTarget, 5, 0), (0x21, .clearTarget, 1, 0), (0x22, .reviveTarget, 1, 0),
        (0x23, .getTarget, 1, 8), (0x30, .setRoute, 4, 0), (0x31, .setThreshold, 2, 0), (0x40, .setLimits, 4, 0),
        (0x41, .quiesce, 0, 0), (0x42, .resume, 0, 0), (0x50, .getStatus, 0, 11), (0x0F, .endRecord, 0, 0)] →
      (∀ k payload result, (code, k, payload, result) ∈ kinds →
        recordKind code = some k ∧ k.payloadLength = payload ∧ k.resultLength = result) ∧
      (code ∉ kinds.map Prod.fst → recordKind code = none)) ∧
  (∀ (s : State) (x : Executor) (position : Nat) (reason : StructureReason) (code : Byte) (t : State),
    (reason, code) ∈
      [(.badChecksum, 0x20), (.badLength, 0x21), (.badType, 0x22), (.badSequence, 0x23), (.noEnd, 0x24),
        (.resultTooLarge, 0x25)] →
    t = s.finishChain x [] (.rejectedStructure position reason) →
      t = { s with
            mgb := { s.mgb with resultBuffer := t.mgb.resultBuffer }
            cfx := some { x with results := [], finished := true } } ∧
      ∃ record sum,
        record = [0xFF, 0x11, 4, 1, BitVec.ofNat 8 position, code, BitVec.ofNat 8 x.records.length, sum] ∧
        record.sum = 0 ∧
        (BufferLaw s → ∀ a,
          readByte t.mgb.resultBuffer a = if a < 8 then byteAt record a else readByte s.mgb.resultBuffer a)) ∧
  ∀ (s : State) (x : Executor) (left length : Nat) (ty : Byte),
    s.cfx = some x → x.phase = .structural → x.finished = false → left = x.chainLength - x.walk →
    ty = readByte s.mgb.requestBuffer x.walk → length = (readByte s.mgb.requestBuffer (x.walk + 1)).toNat →
      (∀ reason,
        ((firstFailing
          [(decide (left < 1), StructureReason.noEnd), (decide (left < 3), .badLength), (decide (60 < length), .badLength),
            (decide (left < 4 + length), .badLength),
            (decide ((readBytes s.mgb.requestBuffer x.walk (4 + length)).sum ≠ 0), .badChecksum),
            ((recordKind ty.toNat).isNone, .badType),
            (decide ((recordKind ty.toNat).map RecordKind.payloadLength ≠ some length), .badLength),
            (decide ((readByte s.mgb.requestBuffer (x.walk + 2)).toNat ≠ x.records.length), .badSequence)])
          = some reason) →
        exec .structureCheck s = .next (s.finishChain x [] (.rejectedStructure x.records.length reason))) ∧
      (∀ k, left ≥ 4 + length → length ≤ 60 → (readBytes s.mgb.requestBuffer x.walk (4 + length)).sum = 0 →
        recordKind ty.toNat = some k → length = k.payloadLength →
        (readByte s.mgb.requestBuffer (x.walk + 2)).toNat = x.records.length →
          (k ≠ .endRecord →
            exec .structureCheck s =
              .next
                { s with
                  cfx :=
                    some
                      { x with
                        walk := x.walk + 4 + length
                        records := x.records ++ [⟨x.walk, k, x.records.length⟩] } }) ∧
          (k = .endRecord →
            8 + 4 + (x.records.map fun ref => 4 + ref.kind.resultLength).sum ≤ 512 →
            exec .structureCheck s =
              .next
                { s with
                  cfx :=
                    some
                      { x with phase := .staging, records := x.records ++ [⟨x.walk, k, x.records.length⟩] } }) ∧
          (∀ records p ref, k = .endRecord → records = x.records ++ [⟨x.walk, k, x.records.length⟩] →
            records[p]? = some ref → 8 + ((records.take p).map fun f => 4 + f.kind.resultLength).sum ≤ 512 →
            512 < 8 + ((records.take (p + 1)).map fun f => 4 + f.kind.resultLength).sum →
            exec .structureCheck s =
              .next (s.finishChain { x with records := records } [] (.rejectedStructure ref.sequence .resultTooLarge))))

/-- SHADOW_FORMATION copies the live configuration into the shadow in one step, and changes nothing else. -/
def Obligations.ShadowIsFormed : Prop :=
  ∀ (s : State) (x : Executor), s.cfx = some x → x.phase = .staging → x.finished = false → x.shadow = none →
    exec .shadowFormation s =
      .next
        { s with
          cfx :=
            some
              { x with
                shadow :=
                  some
                    ⟨s.wdc, s.tgt, s.irl.routes, s.irl.thresholds, s.trk.gate, s.trk.entries.length,
                      s.pbe.segmentLimit, s.pbe.lendLimit, s.mgb.lease, s.mgb.claimMask⟩ } }

/-- The window records SET_WINDOW, ENABLE_WINDOW, DISABLE_WINDOW, CLEAR_WINDOW and GET_WINDOW that pass their checks stage
with DONE and change, or report, one entry of the shadow's Window Table. SET WINDOW loads the profile that its payload
spells, ACTIVE with the enable flag; GET WINDOW reports state, count and profile in 21 bytes. -/
def Obligations.WindowRecordsStage : Prop :=
  ∀ (s : State) (k : RecordKind) (x : Executor) (sh : Shadow) (ref : RecordRef) (bs : List Byte) (i : WindowIx),
    s.StagesNext k x sh ref bs → firstFailing (sh.stagingChecks k bs) = none → (byteAt bs 0).toNat = i.val →
      (k = .setWindow →
        ∃ p, profileOf bs = some p ∧ p.SpelledBy bs ∧
          exec .setWindow s =
            .next
              (s.recordDone x
                { sh with
                  windows :=
                    sh.windows.set i
                      (.loaded (if (byteAt bs 1).toNat % 2 = 1 then .active else .disabled) 0 p) } [])) ∧
      (∀ st n p, k = .enableWindow → sh.windows[i] = .loaded st n p →
        exec .enableWindow s =
          .next (s.recordDone x { sh with windows := sh.windows.set i (.loaded .active n p) } [])) ∧
      (∀ n p, k = .disableWindow → sh.windows[i] = .loaded .active n p →
        exec .disableWindow s =
          .next
            (s.recordDone x
              { sh with windows := sh.windows.set i (.loaded (if n = 0 then .disabled else .draining) n p) } [])) ∧
      (∀ st n p, k = .disableWindow → sh.windows[i] = .loaded st n p → st ≠ .active →
        exec .disableWindow s = .next (s.recordDone x sh [])) ∧
      (k = .clearWindow →
        exec .clearWindow s = .next (s.recordDone x { sh with windows := sh.windows.set i .empty } [])) ∧
      (k = .getWindow → sh.windows[i] = .empty →
        exec .getWindow s = .next (s.recordDone x sh (List.replicate 21 0))) ∧
      (∀ st n p code mode unit lane ab, k = .getWindow → sh.windows[i] = .loaded st n p →
        (st, code) ∈ [(LoadedStatus.disabled, (1 : Byte)), (.active, 2), (.draining, 3)] →
        (p.mode, mode) ∈ modeCodes → (p.unit, unit) ∈ unitCodes → (p.lane, lane) ∈ laneCodes → (p.ab, ab) ∈ abCodes →
        exec .getWindow s =
          .next
            (s.recordDone x sh
              [code, BitVec.ofNat 8 n, BitVec.ofNat 8 p.base.toNat, BitVec.ofNat 8 (p.base.toNat / 256),
                BitVec.ofNat 8 (p.base.toNat / 65536), BitVec.ofNat 8 p.size, BitVec.ofNat 8 (p.size / 256),
                BitVec.ofNat 8 p.target.val, mode, BitVec.ofNat 8 p.targetBase.toNat,
                BitVec.ofNat 8 (p.targetBase.toNat / 256), BitVec.ofNat 8 p.readPort.toNat,
                BitVec.ofNat 8 (p.readPort.toNat / 256), BitVec.ofNat 8 p.writePort.toNat,
                BitVec.ofNat 8 (p.writePort.toNat / 256), unit, lane, if p.rse then 1 else 0, ab,
                BitVec.ofNat 8 p.readMask.toNat, BitVec.ofNat 8 p.writeMask.toNat]))

/-- The target records SET_TARGET, CLEAR_TARGET, REVIVE_TARGET and GET_TARGET that pass their checks stage with DONE and
change, or report, one record of the shadow; GET TARGET reports it in 8 bytes. -/
def Obligations.TargetRecordsStage : Prop :=
  ∀ (s : State) (k : RecordKind) (x : Executor) (sh : Shadow) (ref : RecordRef) (bs : List Byte) (t : TargetId),
    s.StagesNext k x sh ref bs → firstFailing (sh.stagingChecks k bs) = none → (byteAt bs 0).toNat = t.val →
      (k = .setTarget → sh.targets[t].state = .absent →
        exec .setTarget s =
          .next
            (s.recordDone x
              { sh with
                targets :=
                  sh.targets.set t
                    ⟨.online, (byteAt bs 1).toNat, (byteAt bs 2).toNat, (byteAt bs 3).toNat, (byteAt bs 4).toNat,
                      0, 0, 255⟩ } [])) ∧
      (k = .setTarget → sh.targets[t].state ≠ .absent →
        exec .setTarget s =
          .next
            (s.recordDone x
              { sh with
                targets :=
                  sh.targets.set t
                    { sh.targets[t] with
                      recovery := (byteAt bs 1).toNat, readyTimeout := (byteAt bs 2).toNat
                      strobeWidth := (byteAt bs 3).toNat, threshold := (byteAt bs 4).toNat } } [])) ∧
      (k = .clearTarget →
        exec .clearTarget s =
          .next (s.recordDone x { sh with targets := sh.targets.set t ⟨.absent, 0, 16, 3, 3, 0, 0, 255⟩ } [])) ∧
      (k = .reviveTarget →
        exec .reviveTarget s =
          .next
            (s.recordDone x
              { sh with targets := sh.targets.set t { sh.targets[t] with state := .online, consecutive := 0 } } [])) ∧
      (∀ code r, k = .getTarget → r = sh.targets[t] →
        (r.state, code) ∈ [(TargetState.absent, (0 : Byte)), (.online, 1), (.suspect, 2), (.offline, 3)] →
        exec .getTarget s =
          .next
            (s.recordDone x sh
              [code, BitVec.ofNat 8 r.recovery, BitVec.ofNat 8 r.readyTimeout, BitVec.ofNat 8 r.strobeWidth,
                BitVec.ofNat 8 r.threshold, BitVec.ofNat 8 r.consecutive, BitVec.ofNat 8 r.errors, BitVec.ofNat 8 r.age]))

/-- The records SET_ROUTE, SET_THRESHOLD and SET_LIMITS that pass their checks stage with DONE and write their values into
the shadow. -/
def Obligations.RouteAndLimitRecordsStage : Prop :=
  ∀ (s : State) (k : RecordKind) (x : Executor) (sh : Shadow) (ref : RecordRef) (bs : List Byte),
    s.StagesNext k x sh ref bs → firstFailing (sh.stagingChecks k bs) = none →
      (k = .setRoute →
        ∀ (src : Source) (prio : Fin 16) (d : Initiator),
          (byteAt bs 0).toNat = src.val → (byteAt bs 1).toNat = prio.val → (byteAt bs 2).toNat = d.val →
          exec .setRoute s =
            .next (s.recordDone x { sh with routes := sh.routes.set src ⟨prio, d, byteAt bs 3⟩ } [])) ∧
      (k = .setThreshold →
        ∀ (i : Initiator) (threshold : Fin 16),
          (byteAt bs 0).toNat = i.val → (byteAt bs 1).toNat = threshold.val →
          exec .setThreshold s =
            .next (s.recordDone x { sh with thresholds := sh.thresholds.set i threshold } [])) ∧
      (k = .setLimits →
        exec .setLimits s =
          .next
            (s.recordDone x
              { sh with
                segmentLimit := (byteAt bs 0).toNat, lease := (byteAt bs 1).toNat, lendLimit := (byteAt bs 2).toNat
                claimMask := BitVec.ofNat 4 (byteAt bs 3).toNat } []))

/-- QUIESCE, RESUME, GET_STATUS and END stage with DONE: QUIESCE and RESUME move the shadow's gate, GET_STATUS reports in
11 bytes, the gate and the limits from the shadow and the rest live, and clears LEND_OVERRUN, the dropped-packet count and
the lease-lost record, END takes the chain to phase COMMIT. -/
def Obligations.GateStatusAndEndRecordsStage : Prop :=
  ∀ (s : State) (k : RecordKind) (x : Executor) (sh : Shadow) (ref : RecordRef) (bs : List Byte),
    s.StagesNext k x sh ref bs →
      (k = .quiesce →
        exec .quiesce s =
          .next
            (s.recordDone x
              { sh with
                gate :=
                  if sh.gate = .opened then (if sh.occupancy = 0 then .quiesced else .quiescing) else sh.gate } [])) ∧
      (k = .resume → exec .resume s = .next (s.recordDone x { sh with gate := .opened } [])) ∧
      (∀ gate last : Byte, k = .getStatus →
        (sh.gate, gate) ∈ [(Gate.opened, 0), (.quiescing, 1), (.quiesced, 2)] →
        (s.mgb.lostLast = none → last = 0xFF) → (∀ i : Initiator, s.mgb.lostLast = some i → last = BitVec.ofNat 8 i.val) →
        exec .getStatus s =
          .next
            (State.recordDone
              { s with
                pbe := { s.pbe with lendOverrun := false }
                hlp := { s.hlp with dropped := 0 }
                mgb := { s.mgb with lostLast := none, lostCount := 0 } }
              x sh
              [(if s.mgb.configLoaded then 1 else 0) + (if s.pbe.lendOverrun then 2 else 0), gate,
                BitVec.ofNat 8 s.mgb.commitCount, BitVec.ofNat 8 (s.mgb.commitCount / 256),
                BitVec.ofNat 8 sh.segmentLimit, BitVec.ofNat 8 sh.lease, BitVec.ofNat 8 sh.lendLimit,
                BitVec.ofNat 8 sh.claimMask.toNat, BitVec.ofNat 8 s.hlp.dropped, last, BitVec.ofNat 8 s.mgb.lostCount])) ∧
      (k = .endRecord →
        exec .endRecord s =
          .next
            { s with
              cfx := some { x with phase := .committing, shadow := some sh, results := x.results ++ [⟨.done, []⟩] } })

/-- A record that fails its checks, of any kind that has checks: the first that fails is its status, every later record is
NOT_RUN, the chain is rejected in phase STAGING at its sequence, and the shadow and the device are as before. A result
whose status is not DONE has a payload of zeros of the fixed length of its kind; the chain-outcome record is REJECTED with
the phase, the failing position, the status as reason and the number of records. -/
def Obligations.FailedRecordRejectsChain : Prop :=
  (∀ (ref : RecordRef) (payload : List Byte) (position n : Nat) (st : RecordStatus) (code : Byte),
    (st, code) ∈
      [(RecordStatus.badField, 1), (.overlap, 2), (.indexBusy, 3), (.targetInUse, 4), (.notRun, 5)] →
      (∃ sum, resultRecord ref ⟨st, payload⟩ =
          BitVec.ofNat 8 ref.sequence :: code :: BitVec.ofNat 8 ref.kind.resultLength ::
            (List.replicate ref.kind.resultLength 0 ++ [sum]) ∧
        (resultRecord ref ⟨st, payload⟩).sum = 0) ∧
      ∃ sum, outcomeRecord (.rejectedStaging position st) n =
          [0xFF, 0x11, 4, 2, BitVec.ofNat 8 position, code, BitVec.ofNat 8 n, sum] ∧
        (outcomeRecord (.rejectedStaging position st) n).sum = 0) ∧
  ∀ (s : State) (k : RecordKind) (c : Instr) (x : Executor) (sh : Shadow) (ref : RecordRef) (bs : List Byte)
    (st : RecordStatus),
    (k, c) ∈
      [(RecordKind.setWindow, Instr.setWindow), (.enableWindow, .enableWindow), (.disableWindow, .disableWindow),
        (.clearWindow, .clearWindow), (.getWindow, .getWindow), (.setTarget, .setTarget), (.clearTarget, .clearTarget),
        (.reviveTarget, .reviveTarget), (.getTarget, .getTarget), (.setRoute, .setRoute),
        (.setThreshold, .setThreshold), (.setLimits, .setLimits)] →
    BufferLaw s → s.StagesNext k x sh ref bs → firstFailing (sh.stagingChecks k bs) = some st →
      ∃ t : State, exec c s = .next t ∧
        s.RejectedAt t x
          (x.results ++ ⟨st, []⟩ :: List.replicate (x.records.length - x.results.length - 1) ⟨.notRun, []⟩)
          (.rejectedStaging ref.sequence st)

/-- COMMIT: the events that the IRL has not taken and that are of source 11, or whose source has priority 0, are taken
first by the routes as they stand, an IDLE source 11 pair that one reaches going PENDING at priority not 0 (the model's
reading of R189 and R146, log entry 39). The pass then applies the records in sequence order, each to what the pass has
left, and ends at the first whose recheck fails. Where none fails, all it leaves is live in one step, the commit count
rises by 1 from 65535 to 0, CONFIG_LOADED is set, the result buffer holds a result record for each record and the
chain-outcome record COMMITTED, and the arbiter is evaluated; where one fails, nothing of the chain is live, no event is
taken and the chain is rejected in phase COMMIT at that record. A place that the rotation of R126 was to give is free
where no block waits any more (log entry 8). -/
def Obligations.CommitIsAllOrNothing : Prop :=
  (∀ (s : State) (ref : RecordRef) (bs : List Byte) (rest : List (RecordRef × List Byte)),
    s.commitPass [] = .ok s ∧
    (∀ u, s.applyRecord ref.kind bs rest = .ok u → s.commitPass ((ref, bs) :: rest) = u.commitPass rest) ∧
    ∀ st, s.applyRecord ref.kind bs rest = .error st → s.commitPass ((ref, bs) :: rest) = .error (ref.sequence, st)) ∧
  (∀ (ref : RecordRef) (payload : List Byte) (n : Nat),
    (∃ sum, resultRecord ref ⟨.done, payload⟩ =
        BitVec.ofNat 8 ref.sequence :: 0 :: BitVec.ofNat 8 ref.kind.resultLength :: (payload ++ [sum]) ∧
      (resultRecord ref ⟨.done, payload⟩).sum = 0) ∧
    ∃ sum, outcomeRecord .committed n = [0xFF, 0x10, 4, 0, 0xFF, 0, BitVec.ofNat 8 n, sum] ∧
      (outcomeRecord .committed n).sum = 0) ∧
  (∀ (position n : Nat) (st : RecordStatus) (code : Byte), (st, code) ∈ [(RecordStatus.overlap, 2), (.indexBusy, 3)] →
    ∃ sum, outcomeRecord (.rejectedCommit position st) n =
        [0xFF, 0x11, 4, 3, BitVec.ofNat 8 position, code, BitVec.ofNat 8 n, sum] ∧
      (outcomeRecord (.rejectedCommit position st) n).sum = 0) ∧
  (∀ (ref : RecordRef) (r : RecordResult) (refs : List RecordRef) (rs : List RecordResult),
    resultRecords refs [] = [] ∧ resultRecords (ref :: refs) (r :: rs) = resultRecord ref r ++ resultRecords refs rs) ∧
  ∀ (s v : State) (x : Executor) (records : List (RecordRef × List Byte)),
    BufferLaw s → s.cfx = some x → x.phase = .committing → x.finished = false →
    records = x.records.map (fun ref => (ref, readBytes s.mgb.requestBuffer (ref.offset + 3) ref.kind.payloadLength)) →
    v = { s with
          irl :=
            { s.irl with
              pairs := tabulate fun k => tabulate fun j =>
                if k = 11 ∧ s.irl.routes[(11 : Source)].priority ≠ 0 ∧ s.irl.pair k j = .idle ∧
                    .mailboxResult j ∈ s.handed.events then .pending
                else s.irl.pair k j }
          handed :=
            { s.handed with
              events :=
                s.handed.events.filter fun e =>
                  decide (eventSourceOf e ≠ 11 ∧ s.irl.routes[eventSourceOf e].priority ≠ 0)
              withdrawals :=
                s.handed.withdrawals.map fun c =>
                  if s.irl.routes[(8 : Source)].priority = 0 then
                    { c with older := c.older - s.handed.events.count (.postedFault c.initiator) }
                  else c } } →
      (∀ u : State, v.commitPass records = .ok u →
        ∃ t : State, exec .commit s = .next t.arbitrate ∧
          t = { u with
                hlp := { u.hlp with contended := t.hlp.contended }
                mgb :=
                  { u.mgb with
                    commitCount := (s.mgb.commitCount + 1) % 65536, configLoaded := true
                    resultBuffer := t.mgb.resultBuffer }
                cfx := some { x with finished := true } } ∧
          s.ResultsWritten t x x.results .committed ∧ s.PlaceSettled t ∧
          u.hlp = s.hlp ∧ u.trk.entries = s.trk.entries ∧ u.mgb.mailbox = s.mgb.mailbox ∧ u.power = s.power) ∧
      ∀ (n : Nat) (st : RecordStatus), v.commitPass records = .error (n, st) →
        ∃ t : State, exec .commit s = .next t ∧
          s.RejectedAt t x
            (x.results.take n ++
              ⟨st, []⟩ :: List.replicate (x.records.length - (x.results.take n).length - 1) ⟨.notRun, []⟩)
            (.rejectedCommit n st)

/-- What a record of each kind does in the commit pass, from the live values the pass has reached. Window records: DISABLE
by the live count; SET and CLEAR meet INDEX_BUSY at an ACTIVE or DRAINING entry, SET with its flag and ENABLE meet
OVERLAP, and otherwise load, clear or make ACTIVE the entry. Target records: SET with the live health kept, or from ABSENT
with the power-on health; CLEAR; REVIVE from the live state. The last SET ROUTE of a source, SET THRESHOLD of an initiator
and SET LIMITS alone have effect: the route with the delivery pairs by R139 and R140, the threshold with none (R142), the
limits with the overrun of a lending that they bring about (R110). QUIESCE by the live occupancy, RESUME; GET records and
END change nothing. -/
def Obligations.CommitReadsLiveValues : Prop :=
  ∀ (s : State) (bs : List Byte) (later : List (RecordRef × List Byte)),
    (∀ i : WindowIx, (byteAt bs 0).toNat = i.val →
      (∀ n p, s.wdc[i] = .loaded .active n p →
        s.applyRecord .disableWindow bs later =
            .ok { s with wdc := s.wdc.set i (.loaded (if n = 0 then .disabled else .draining) n p) } ∧
          s.applyRecord .enableWindow bs later = .ok s) ∧
      (∀ st n p, s.wdc[i] = .loaded st n p → st ≠ .active →
        s.applyRecord .disableWindow bs later = .ok s ∧
          (s.MeetsOther i p → s.applyRecord .enableWindow bs later = .error .overlap) ∧
          (¬s.MeetsOther i p →
            s.applyRecord .enableWindow bs later = .ok { s with wdc := s.wdc.set i (.loaded .active n p) })) ∧
      (∀ st n p, s.wdc[i] = .loaded st n p → st ≠ .disabled →
        s.applyRecord .clearWindow bs later = .error .indexBusy ∧
          ((profileOf bs).isSome = true → rangeLegal (payloadBase bs) (payloadSize bs) = true →
            s.applyRecord .setWindow bs later = .error .indexBusy)) ∧
      ((s.wdc[i] = .empty ∨ ∃ n p, s.wdc[i] = .loaded .disabled n p) →
        s.applyRecord .clearWindow bs later = .ok { s with wdc := s.wdc.set i .empty } ∧
          ∀ q, profileOf bs = some q → rangeLegal (payloadBase bs) (payloadSize bs) = true →
            ((enableFlag bs = true ∧ s.MeetsOther i q) → s.applyRecord .setWindow bs later = .error .overlap) ∧
            (¬(enableFlag bs = true ∧ s.MeetsOther i q) →
              s.applyRecord .setWindow bs later =
                .ok
                  { s with
                    wdc := s.wdc.set i (.loaded (if enableFlag bs then .active else .disabled) 0 q) }))) ∧
    (∀ t : TargetId, (byteAt bs 0).toNat = t.val →
      s.applyRecord .reviveTarget bs later =
          .ok { s with tgt := s.tgt.set t { s.tgt[t] with state := .online, consecutive := 0 } } ∧
        s.applyRecord .clearTarget bs later = .ok { s with tgt := s.tgt.set t ⟨.absent, 0, 16, 3, 3, 0, 0, 255⟩ } ∧
        (timingLegal bs = true → s.tgt[t].state ≠ .absent →
          s.applyRecord .setTarget bs later =
            .ok
              { s with
                tgt :=
                  s.tgt.set t
                    { s.tgt[t] with
                      recovery := (byteAt bs 1).toNat, readyTimeout := (byteAt bs 2).toNat
                      strobeWidth := (byteAt bs 3).toNat, threshold := (byteAt bs 4).toNat } }) ∧
        (timingLegal bs = true → s.tgt[t].state = .absent →
          s.applyRecord .setTarget bs later =
            .ok
              { s with
                tgt :=
                  s.tgt.set t
                    ⟨.online, (byteAt bs 1).toNat, (byteAt bs 2).toNat, (byteAt bs 3).toNat, (byteAt bs 4).toNat, 0, 0,
                      255⟩ })) ∧
    (∀ (src : Source) (new : Route),
      (byteAt bs 0).toNat = src.val → (byteAt bs 1).toNat = new.priority.val → (byteAt bs 2).toNat = new.destination.val →
      byteAt bs 3 = new.vector →
        ((∃ r ∈ later, r.1.kind = .setRoute ∧ byteAt r.2 0 = byteAt bs 0) → s.applyRecord .setRoute bs later = .ok s) ∧
        ((∀ r ∈ later, r.1.kind = .setRoute → byteAt r.2 0 ≠ byteAt bs 0) →
          ∃ u : State, s.applyRecord .setRoute bs later = .ok u ∧
            u = { s with irl := { s.irl with routes := s.irl.routes.set src new, pairs := u.irl.pairs } } ∧
            (∀ j : Initiator, u.irl.pair src j = s.irl.pairAfterRoute s.pins src new j) ∧
            ∀ (k : Source) (j : Initiator), k ≠ src → u.irl.pair k j = s.irl.pair k j)) ∧
    (∀ (i : Initiator) (threshold : Fin 16),
      (byteAt bs 0).toNat = i.val → (byteAt bs 1).toNat = threshold.val →
        ((∃ r ∈ later, r.1.kind = .setThreshold ∧ byteAt r.2 0 = byteAt bs 0) →
          s.applyRecord .setThreshold bs later = .ok s) ∧
        ((∀ r ∈ later, r.1.kind = .setThreshold → byteAt r.2 0 ≠ byteAt bs 0) →
          s.applyRecord .setThreshold bs later =
            .ok { s with irl := { s.irl with thresholds := s.irl.thresholds.set i threshold } })) ∧
    ((∃ r ∈ later, r.1.kind = .setLimits) → s.applyRecord .setLimits bs later = .ok s) ∧
    (∀ overrun : Bool, (∀ r ∈ later, r.1.kind ≠ .setLimits) → limitsLegal bs = true →
      (overrun = true ↔
        s.pbe.bus = .lent ∧ s.pbe.overrunMark = false ∧ (byteAt bs 2).toNat ≠ 0 ∧
          ∃ n, s.pbe.lendTimer = some n ∧ 40 * (byteAt bs 2).toNat ≤ n) →
        s.applyRecord .setLimits bs later =
          .ok
            { s with
              pbe :=
                { s.pbe with
                  segmentLimit := (byteAt bs 0).toNat
                  lendLimit := (byteAt bs 2).toNat
                  overrunMark := s.pbe.overrunMark || overrun
                  lendOverrun := s.pbe.lendOverrun || overrun }
              mgb := { s.mgb with lease := (byteAt bs 1).toNat, claimMask := BitVec.ofNat 4 (byteAt bs 3).toNat }
              handed := { s.handed with events := s.handed.events ++ if overrun then [.lendOverrun] else [] } }) ∧
    s.applyRecord .quiesce bs later =
      .ok
        { s with
          trk :=
            { s.trk with
              gate :=
                if s.trk.gate = .opened then (if s.trk.entries = [] then .quiesced else .quiescing) else s.trk.gate } } ∧
    s.applyRecord .resume bs later = .ok { s with trk := { s.trk with gate := .opened } } ∧
    ∀ k ∈ [RecordKind.getWindow, .getTarget, .getStatus, .endRecord], s.applyRecord k bs later = .ok s

/-- The live configuration changes only at COMMIT, power-on reset apart: routes, thresholds, the four limits, the timing
parameters, which targets are ABSENT, the profiles of the windows and which windows are ACTIVE; and so do the commit count
and CONFIG_LOADED. -/
def Obligations.ConfigurationChangesOnlyAtCommit : Prop :=
  ∀ (c : Instr) (s t : State), exec c s = .next t → (∀ ns, c ≠ .porstAsserted ns) → c ≠ .porstReleased → c ≠ .commit →
    t.irl.routes = s.irl.routes ∧ t.irl.thresholds = s.irl.thresholds ∧ t.pbe.segmentLimit = s.pbe.segmentLimit ∧
      t.pbe.lendLimit = s.pbe.lendLimit ∧ t.mgb.lease = s.mgb.lease ∧ t.mgb.claimMask = s.mgb.claimMask ∧
      t.mgb.commitCount = s.mgb.commitCount ∧ t.mgb.configLoaded = s.mgb.configLoaded ∧
      (∀ k : TargetId,
        t.tgt[k].recovery = s.tgt[k].recovery ∧ t.tgt[k].readyTimeout = s.tgt[k].readyTimeout ∧
          t.tgt[k].strobeWidth = s.tgt[k].strobeWidth ∧ t.tgt[k].threshold = s.tgt[k].threshold ∧
          (t.tgt[k].state = .absent ↔ s.tgt[k].state = .absent)) ∧
      ∀ i : WindowIx,
        t.wdc[i].profile = s.wdc[i].profile ∧ (t.wdc[i].decodes.isSome = s.wdc[i].decodes.isSome)

/-! ## Laws of the whole device -/

/-- Every step keeps law R15: no two windows that are ACTIVE or DRAINING overlap, and every window lies below FFF000h. -/
def Obligations.StepKeepsWindowLaw : Prop := ∀ s t : State, WindowLaw s → step s = .next t → WindowLaw t

/-- Every step keeps the limits of the tracker (16 entries, 8 of an initiator, one entry to a slot, no tag twice) and, with
them, each window's count equal to the number of entries decoded to it, DISABLED windows at 0, DRAINING windows above 0. -/
def Obligations.StepKeepsTrackerAndCounts : Prop :=
  ∀ s t : State, TrackerLaw s → step s = .next t → TrackerLaw t ∧ (CountLaw s → CountLaw t)

/-- Every step keeps the law of the answer list: an answer for each DONE entry but those behind an older READ or WRITE of
their pair that owes its own, and the answers of one initiator from one target in the order of admission (the first part
by the model's choice, log entry 37). -/
def Obligations.StepKeepsAnswerLaw : Prop :=
  ∀ s t : State, TrackerLaw s → AnswerLaw s → step s = .next t → AnswerLaw t

/-- Every step keeps the law of the bus: one entry IN_SEGMENT in SEGMENT, none in IDLE and LENT, and no entry IN_SEGMENT
while an older entry of its initiator and target is in the tracker. -/
def Obligations.StepKeepsBusLaw : Prop :=
  ∀ s t : State, TrackerLaw s → BusLaw s → step s = .next t → BusLaw t

/-- Every step keeps the mailbox law: the CFX is EXECUTING exactly in BUSY, the lease runs exactly in CLAIMED and RESULT;
and no step takes the mailbox from one owner to another. -/
def Obligations.StepKeepsMailboxLaw : Prop :=
  ∀ s t : State, MailboxLaw s → step s = .next t →
    MailboxLaw t ∧ ∀ i j : Initiator, s.mgb.mailbox.owner = some i → t.mgb.mailbox.owner = some j → i = j

/-- Every step keeps every queue within its capacity, both buffers in canonical form, and the notices outstanding at each
initiator at four at most. -/
def Obligations.StepKeepsCapacities : Prop :=
  ∀ s t : State, step s = .next t →
    (QueueLaw s → QueueLaw t) ∧ (BufferLaw s → BufferLaw t) ∧ (NoticeLaw s → NoticeLaw t)

/-- Every step keeps in the ranges the spec gives them the target records, the recovery timers, the lend timer, the
limits, the lease, the claim mask, and the counts of lease losses, commits, dropped packets and posted faults. -/
def Obligations.StepKeepsRanges : Prop := ∀ s t : State, RangeLaw s → step s = .next t → RangeLaw t

/-- Every step but power-on reset keeps the age order and what an entry has from its admission: the entries after it, by
slot, initiator, tag, address, length, window and snapshot, are those before it in their order, some perhaps gone, and at
most one new entry at the young end. -/
def Obligations.StepKeepsAgeOrder : Prop :=
  ∀ (c : Instr) (s t : State), TrackerLaw s → exec c s = .next t → (∀ ns, c ≠ .porstAsserted ns) → c ≠ .porstReleased →
    ∃ new : List Entry, new.length ≤ 1 ∧ (∀ e ∈ new, e.serial = s.trk.nextSerial) ∧
      List.Sublist (t.trk.entries.map Entry.identity) ((s.trk.entries ++ new).map Entry.identity)

/-! ## What the device drives (sections 5.2, 10.1) -/

/-- The output pins of the peripheral bus by bus state: in IDLE and between the cycles of a SEGMENT all selects and
strobes are withdrawn and PD[7:0] is not driven; in a byte cycle the target's select, the cycle's target address, its
value in a write cycle, and the strobe of its direction during the strobe alone; in LENT all are released and EXTGNT alone
is asserted. On the link, while UP, the packet at the head of the transmit queue is sent: the bytes of a RESPONSE with its
status code and what it carries, and of a NOTICE. -/
def Obligations.DeviceDrivesItsOutputs : Prop :=
  (∀ s : State,
    ((s.pbe.bus = .idle ∨ ∃ c, s.pbe.bus = .segment c ∧ c.run = none) →
      s.busPins = ⟨.value none, .notSignificant, .released, .value false, .value false, false⟩) ∧
    (s.pbe.bus = .lent → s.busPins = ⟨.released, .released, .released, .released, .released, true⟩) ∧
    (∀ c r strobe, s.pbe.bus = .segment c → c.run = some r → (strobe = true ↔ ∃ k, r.phase = .strobe k) →
      s.busPins =
        ⟨.value (some c.target), .value r.spec.addr, (r.driven.map Drive.value).getD .released,
          .value (strobe && !r.spec.write), .value (strobe && r.spec.write), false⟩) ∧
    (s.hlp.link ≠ .up → s.linkOut = none) ∧
    ∀ p ps, s.hlp.link = .up → s.hlp.transmit = p :: ps → s.linkOut = some (packetBytes p)) ∧
  (∀ (r : Response) (code faultCode : Byte) (f : FaultRecord) (codes : List (Status × Byte)),
    codes =
      [(.ok, 0x00), (.retry, 0x01), (.format, 0x02), (.tagBusy, 0x03), (.miss, 0x04), (.span, 0x05), (.denied, 0x06),
        (.align, 0x07), (.offline, 0x08), (.timeout, 0x09), (.postedFault, 0x0A), (.detached, 0x0B), (.notOwner, 0x0C),
        (.mbxState, 0x0D), (.notOutstanding, 0x0E)] →
    (r.status, code) ∈ codes → (f.status, faultCode) ∈ codes →
      (r.carried = .nothing →
        packetBytes (.response r) =
          [BitVec.ofNat 8 (0x80 + 16 * r.initiator.val), BitVec.ofNat 8 r.tag.val, code, BitVec.ofNat 8 r.done]) ∧
      (∀ data, r.carried = .data data →
        packetBytes (.response r) =
          [BitVec.ofNat 8 (0x80 + 16 * r.initiator.val), BitVec.ofNat 8 r.tag.val, code, BitVec.ofNat 8 r.done] ++ data) ∧
      (∀ n, r.carried = .dropped n →
        packetBytes (.response r) =
          [BitVec.ofNat 8 (0x80 + 16 * r.initiator.val), BitVec.ofNat 8 r.tag.val, code, BitVec.ofNat 8 r.done,
            BitVec.ofNat 8 n]) ∧
      (r.carried = .fault f →
        packetBytes (.response r) =
          [BitVec.ofNat 8 (0x80 + 16 * r.initiator.val), BitVec.ofNat 8 r.tag.val, code, BitVec.ofNat 8 r.done,
            faultCode, BitVec.ofNat 8 f.address.toNat, BitVec.ofNat 8 (f.address.toNat / 256),
            BitVec.ofNat 8 (f.address.toNat / 65536), BitVec.ofNat 8 f.done, BitVec.ofNat 8 f.count])) ∧
  ∀ n : Notice,
    packetBytes (.notice n) =
      [BitVec.ofNat 8 (0xC0 + 16 * n.initiator.val), BitVec.ofNat 8 n.source.val, n.vector,
        BitVec.ofNat 8 n.priority.val]
end

