-- ==== Sys2Proof/Laws/State.lean ====
section
/-! SUPPORT. One lemma for each field of `State` (and of the block it changes) and each named update of the state, so that a
proof about a field never unfolds the update. -/

namespace Sys2Proof.Machine

variable (s : State)

/-! ## Equality, field by field -/

/-- Two states with the same fields are one. -/
theorem state_ext {s t : State} (h1 : s.power = t.power) (h2 : s.pins = t.pins) (h3 : s.hlp = t.hlp)
    (h4 : s.wdc = t.wdc) (h5 : s.tgt = t.tgt) (h6 : s.trk = t.trk) (h7 : s.pbe = t.pbe) (h8 : s.irl = t.irl)
    (h9 : s.mgb = t.mgb) (h10 : s.cfx = t.cfx) (h11 : s.handed = t.handed) (h12 : s.pending = t.pending) : s = t := by
  cases s; cases t; simp only at *; subst h1 h2 h3 h4 h5 h6 h7 h8 h9 h10 h11 h12; rfl

/-- Two trackers with the same fields are one. -/
theorem tracker_ext {s t : Tracker} (h1 : s.entries = t.entries) (h2 : s.gate = t.gate) (h3 : s.faults = t.faults)
    (h4 : s.answers = t.answers) (h5 : s.detaches = t.detaches) (h6 : s.nextSerial = t.nextSerial) : s = t := by
  cases s; cases t; simp only at *; subst h1 h2 h3 h4 h5 h6; rfl

/-- Two bus engines with the same fields are one. -/
theorem busEngine_ext {s t : BusEngine} (h1 : s.bus = t.bus) (h2 : s.recovery = t.recovery)
    (h3 : s.pointer = t.pointer) (h4 : s.lendTimer = t.lendTimer) (h5 : s.overrunMark = t.overrunMark)
    (h6 : s.segmentLimit = t.segmentLimit) (h7 : s.lendLimit = t.lendLimit) (h8 : s.lendOverrun = t.lendOverrun) : s = t := by
  cases s; cases t; simp only at *; subst h1 h2 h3 h4 h5 h6 h7 h8; rfl

/-- Two link ports with the same fields are one. -/
theorem linkPort_ext {s t : LinkPort} (h1 : s.link = t.link) (h2 : s.quiet = t.quiet) (h3 : s.receive = t.receive)
    (h4 : s.transmit = t.transmit) (h5 : s.dropped = t.dropped) (h6 : s.pointer = t.pointer)
    (h7 : s.contended = t.contended) : s = t := by
  cases s; cases t; simp only at *; subst h1 h2 h3 h4 h5 h6 h7; rfl

/-- Two management blocks with the same fields are one. -/
theorem management_ext {s t : Management} (h1 : s.mailbox = t.mailbox) (h2 : s.leaseTimer = t.leaseTimer)
    (h3 : s.lease = t.lease) (h4 : s.claimMask = t.claimMask) (h5 : s.requestBuffer = t.requestBuffer)
    (h6 : s.resultBuffer = t.resultBuffer) (h7 : s.lostLast = t.lostLast) (h8 : s.lostCount = t.lostCount)
    (h9 : s.commitCount = t.commitCount) (h10 : s.configLoaded = t.configLoaded) (h11 : s.answers = t.answers) : s = t := by
  cases s; cases t; simp only at *; subst h1 h2 h3 h4 h5 h6 h7 h8 h9 h10 h11; rfl

/-- Two lists of what is handed with the same fields are one. -/
theorem handed_ext {s t : Handed} (h1 : s.outcomes = t.outcomes) (h2 : s.announcements = t.announcements)
    (h3 : s.events = t.events) (h4 : s.withdrawals = t.withdrawals) (h5 : s.irlDetaches = t.irlDetaches)
    (h6 : s.mgbDetaches = t.mgbDetaches) (h7 : s.trkResets = t.trkResets) (h8 : s.mgbResets = t.mgbResets)
    (h9 : s.irlNews = t.irlNews) : s = t := by
  cases s; cases t; simp only at *; subst h1 h2 h3 h4 h5 h6 h7 h8 h9; rfl

/-! ## `State.popHead` -/

@[simp] theorem State.popHead_power : s.popHead.power = s.power := rfl
@[simp] theorem State.popHead_pins : s.popHead.pins = s.pins := rfl
@[simp] theorem State.popHead_hlp : s.popHead.hlp = { s.hlp with receive := s.hlp.receive.tail } := rfl
@[simp] theorem State.popHead_wdc : s.popHead.wdc = s.wdc := rfl
@[simp] theorem State.popHead_tgt : s.popHead.tgt = s.tgt := rfl
@[simp] theorem State.popHead_trk : s.popHead.trk = s.trk := rfl
@[simp] theorem State.popHead_pbe : s.popHead.pbe = s.pbe := rfl
@[simp] theorem State.popHead_irl : s.popHead.irl = s.irl := rfl
@[simp] theorem State.popHead_mgb : s.popHead.mgb = s.mgb := rfl
@[simp] theorem State.popHead_cfx : s.popHead.cfx = s.cfx := rfl
@[simp] theorem State.popHead_handed : s.popHead.handed = s.handed := rfl
@[simp] theorem State.popHead_pending : s.popHead.pending = s.pending := rfl

/-! ## `State.handEvent` -/

@[simp] theorem State.handEvent_power (e : NoticeEvent) : (s.handEvent e).power = s.power := rfl
@[simp] theorem State.handEvent_pins (e : NoticeEvent) : (s.handEvent e).pins = s.pins := rfl
@[simp] theorem State.handEvent_hlp (e : NoticeEvent) : (s.handEvent e).hlp = s.hlp := rfl
@[simp] theorem State.handEvent_wdc (e : NoticeEvent) : (s.handEvent e).wdc = s.wdc := rfl
@[simp] theorem State.handEvent_tgt (e : NoticeEvent) : (s.handEvent e).tgt = s.tgt := rfl
@[simp] theorem State.handEvent_trk (e : NoticeEvent) : (s.handEvent e).trk = s.trk := rfl
@[simp] theorem State.handEvent_pbe (e : NoticeEvent) : (s.handEvent e).pbe = s.pbe := rfl
@[simp] theorem State.handEvent_irl (e : NoticeEvent) : (s.handEvent e).irl = s.irl := rfl
@[simp] theorem State.handEvent_mgb (e : NoticeEvent) : (s.handEvent e).mgb = s.mgb := rfl
@[simp] theorem State.handEvent_cfx (e : NoticeEvent) : (s.handEvent e).cfx = s.cfx := rfl
@[simp] theorem State.handEvent_handed (e : NoticeEvent) :
    (s.handEvent e).handed = { s.handed with events := s.handed.events ++ [e] } := rfl
@[simp] theorem State.handEvent_pending (e : NoticeEvent) : (s.handEvent e).pending = s.pending := rfl

/-! ## `State.recordFault` -/

@[simp] theorem State.recordFault_power (i : Initiator) (st : Status) (a : UpAddr) (n : Nat) :
    (s.recordFault i st a n).power = s.power := rfl
@[simp] theorem State.recordFault_pins (i : Initiator) (st : Status) (a : UpAddr) (n : Nat) :
    (s.recordFault i st a n).pins = s.pins := rfl
@[simp] theorem State.recordFault_hlp (i : Initiator) (st : Status) (a : UpAddr) (n : Nat) :
    (s.recordFault i st a n).hlp = s.hlp := rfl
@[simp] theorem State.recordFault_wdc (i : Initiator) (st : Status) (a : UpAddr) (n : Nat) :
    (s.recordFault i st a n).wdc = s.wdc := rfl
@[simp] theorem State.recordFault_tgt (i : Initiator) (st : Status) (a : UpAddr) (n : Nat) :
    (s.recordFault i st a n).tgt = s.tgt := rfl
@[simp] theorem State.recordFault_trk (i : Initiator) (st : Status) (a : UpAddr) (n : Nat) :
    (s.recordFault i st a n).trk =
      { s.trk with faults := s.trk.faults.set i (some (takeFault s.trk.faults[i] st a n)) } := rfl
@[simp] theorem State.recordFault_pbe (i : Initiator) (st : Status) (a : UpAddr) (n : Nat) :
    (s.recordFault i st a n).pbe = s.pbe := rfl
@[simp] theorem State.recordFault_irl (i : Initiator) (st : Status) (a : UpAddr) (n : Nat) :
    (s.recordFault i st a n).irl = s.irl := rfl
@[simp] theorem State.recordFault_mgb (i : Initiator) (st : Status) (a : UpAddr) (n : Nat) :
    (s.recordFault i st a n).mgb = s.mgb := rfl
@[simp] theorem State.recordFault_cfx (i : Initiator) (st : Status) (a : UpAddr) (n : Nat) :
    (s.recordFault i st a n).cfx = s.cfx := rfl
@[simp] theorem State.recordFault_handed (i : Initiator) (st : Status) (a : UpAddr) (n : Nat) :
    (s.recordFault i st a n).handed = { s.handed with events := s.handed.events ++ [.postedFault i] } := rfl
@[simp] theorem State.recordFault_pending (i : Initiator) (st : Status) (a : UpAddr) (n : Nat) :
    (s.recordFault i st a n).pending = s.pending := rfl

/-! ## `State.depart` -/

@[simp] theorem State.depart_power (e : Entry) : (s.depart e).power = s.power := rfl
@[simp] theorem State.depart_pins (e : Entry) : (s.depart e).pins = s.pins := rfl
@[simp] theorem State.depart_hlp (e : Entry) : (s.depart e).hlp = s.hlp := rfl
@[simp] theorem State.depart_wdc (e : Entry) : (s.depart e).wdc = releaseWindow s.wdc e := rfl
@[simp] theorem State.depart_tgt (e : Entry) : (s.depart e).tgt = s.tgt := rfl
@[simp] theorem State.depart_trk_entries (e : Entry) :
    (s.depart e).trk.entries = s.trk.entries.filter fun f => decide (f.slot ≠ e.slot) := rfl
@[simp] theorem State.depart_trk_gate (e : Entry) :
    (s.depart e).trk.gate = s.trk.gate.afterDeparture (s.trk.entries.filter fun f => decide (f.slot ≠ e.slot)) := rfl
@[simp] theorem State.depart_trk_faults (e : Entry) : (s.depart e).trk.faults = s.trk.faults := rfl
@[simp] theorem State.depart_trk_answers (e : Entry) : (s.depart e).trk.answers = s.trk.answers := rfl
@[simp] theorem State.depart_trk_detaches (e : Entry) : (s.depart e).trk.detaches = s.trk.detaches := rfl
@[simp] theorem State.depart_trk_nextSerial (e : Entry) : (s.depart e).trk.nextSerial = s.trk.nextSerial := rfl
@[simp] theorem State.depart_pbe (e : Entry) : (s.depart e).pbe = s.pbe := rfl
@[simp] theorem State.depart_irl (e : Entry) : (s.depart e).irl = s.irl := rfl
@[simp] theorem State.depart_mgb (e : Entry) : (s.depart e).mgb = s.mgb := rfl
@[simp] theorem State.depart_cfx (e : Entry) : (s.depart e).cfx = s.cfx := rfl
@[simp] theorem State.depart_handed (e : Entry) : (s.depart e).handed = s.handed := rfl
@[simp] theorem State.depart_pending (e : Entry) : (s.depart e).pending = s.pending := rfl

/-! ## `State.joinReady` -/

@[simp] theorem State.joinReady_power : s.joinReady.power = s.power := rfl
@[simp] theorem State.joinReady_pins : s.joinReady.pins = s.pins := rfl
@[simp] theorem State.joinReady_hlp : s.joinReady.hlp = s.hlp := rfl
@[simp] theorem State.joinReady_wdc : s.joinReady.wdc = s.wdc := rfl
@[simp] theorem State.joinReady_tgt : s.joinReady.tgt = s.tgt := rfl
@[simp] theorem State.joinReady_trk : s.joinReady.trk = s.trk.joinAnswers.joinDetaches := rfl
@[simp] theorem State.joinReady_pbe : s.joinReady.pbe = s.pbe := rfl
@[simp] theorem State.joinReady_irl : s.joinReady.irl = s.irl := rfl
@[simp] theorem State.joinReady_mgb : s.joinReady.mgb = s.mgb := rfl
@[simp] theorem State.joinReady_cfx : s.joinReady.cfx = s.cfx := rfl
@[simp] theorem State.joinReady_handed : s.joinReady.handed = s.handed := rfl
@[simp] theorem State.joinReady_pending : s.joinReady.pending = s.pending := rfl

/-! ## `State.reportOverrun` -/

@[simp] theorem State.reportOverrun_power : s.reportOverrun.power = s.power := rfl
@[simp] theorem State.reportOverrun_pins : s.reportOverrun.pins = s.pins := rfl
@[simp] theorem State.reportOverrun_hlp : s.reportOverrun.hlp = s.hlp := rfl
@[simp] theorem State.reportOverrun_wdc : s.reportOverrun.wdc = s.wdc := rfl
@[simp] theorem State.reportOverrun_tgt : s.reportOverrun.tgt = s.tgt := rfl
@[simp] theorem State.reportOverrun_trk : s.reportOverrun.trk = s.trk := rfl
@[simp] theorem State.reportOverrun_pbe :
    s.reportOverrun.pbe = { s.pbe with overrunMark := true, lendOverrun := true } := rfl
@[simp] theorem State.reportOverrun_irl : s.reportOverrun.irl = s.irl := rfl
@[simp] theorem State.reportOverrun_mgb : s.reportOverrun.mgb = s.mgb := rfl
@[simp] theorem State.reportOverrun_cfx : s.reportOverrun.cfx = s.cfx := rfl
@[simp] theorem State.reportOverrun_handed :
    s.reportOverrun.handed = { s.handed with events := s.handed.events ++ [.lendOverrun] } := rfl
@[simp] theorem State.reportOverrun_pending : s.reportOverrun.pending = s.pending := rfl

/-! ## `State.answerRefusal` -/

@[simp] theorem State.answerRefusal_power (r : Request) (st : Status) : (s.answerRefusal r st).power = s.power := rfl
@[simp] theorem State.answerRefusal_pins (r : Request) (st : Status) : (s.answerRefusal r st).pins = s.pins := rfl
@[simp] theorem State.answerRefusal_hlp (r : Request) (st : Status) : (s.answerRefusal r st).hlp = s.hlp := rfl
@[simp] theorem State.answerRefusal_wdc (r : Request) (st : Status) : (s.answerRefusal r st).wdc = s.wdc := rfl
@[simp] theorem State.answerRefusal_tgt (r : Request) (st : Status) : (s.answerRefusal r st).tgt = s.tgt := rfl
@[simp] theorem State.answerRefusal_trk (r : Request) (st : Status) :
    (s.answerRefusal r st).trk = { s.trk with answers := s.trk.answers ++ [.refusal (r.refusedWith st)] } := rfl
@[simp] theorem State.answerRefusal_pbe (r : Request) (st : Status) : (s.answerRefusal r st).pbe = s.pbe := rfl
@[simp] theorem State.answerRefusal_irl (r : Request) (st : Status) : (s.answerRefusal r st).irl = s.irl := rfl
@[simp] theorem State.answerRefusal_mgb (r : Request) (st : Status) : (s.answerRefusal r st).mgb = s.mgb := rfl
@[simp] theorem State.answerRefusal_cfx (r : Request) (st : Status) : (s.answerRefusal r st).cfx = s.cfx := rfl
@[simp] theorem State.answerRefusal_handed (r : Request) (st : Status) : (s.answerRefusal r st).handed = s.handed := rfl
@[simp] theorem State.answerRefusal_pending (r : Request) (st : Status) :
    (s.answerRefusal r st).pending = s.pending := rfl

/-! ## `State.addEntry` -/

@[simp] theorem State.addEntry_power (r : Request) (b : EntryBody) : (s.addEntry r b).power = s.power := rfl
@[simp] theorem State.addEntry_pins (r : Request) (b : EntryBody) : (s.addEntry r b).pins = s.pins := rfl
@[simp] theorem State.addEntry_hlp (r : Request) (b : EntryBody) : (s.addEntry r b).hlp = s.hlp := rfl
@[simp] theorem State.addEntry_wdc (r : Request) (b : EntryBody) : (s.addEntry r b).wdc = s.wdc := rfl
@[simp] theorem State.addEntry_tgt (r : Request) (b : EntryBody) : (s.addEntry r b).tgt = s.tgt := rfl
@[simp] theorem State.addEntry_trk_entries (r : Request) (b : EntryBody) :
    (s.addEntry r b).trk.entries =
      s.trk.entries ++ [⟨s.trk.freeSlot, s.trk.nextSerial, r.initiator, r.tag, b, .waiting⟩] := rfl
@[simp] theorem State.addEntry_trk_gate (r : Request) (b : EntryBody) : (s.addEntry r b).trk.gate = s.trk.gate := rfl
@[simp] theorem State.addEntry_trk_faults (r : Request) (b : EntryBody) :
    (s.addEntry r b).trk.faults = s.trk.faults := rfl
@[simp] theorem State.addEntry_trk_answers (r : Request) (b : EntryBody) :
    (s.addEntry r b).trk.answers = s.trk.answers := rfl
@[simp] theorem State.addEntry_trk_detaches (r : Request) (b : EntryBody) :
    (s.addEntry r b).trk.detaches = s.trk.detaches := rfl
@[simp] theorem State.addEntry_trk_nextSerial (r : Request) (b : EntryBody) :
    (s.addEntry r b).trk.nextSerial = s.trk.nextSerial + 1 := rfl
@[simp] theorem State.addEntry_pbe (r : Request) (b : EntryBody) : (s.addEntry r b).pbe = s.pbe := rfl
@[simp] theorem State.addEntry_irl (r : Request) (b : EntryBody) : (s.addEntry r b).irl = s.irl := rfl
@[simp] theorem State.addEntry_mgb (r : Request) (b : EntryBody) : (s.addEntry r b).mgb = s.mgb := rfl
@[simp] theorem State.addEntry_cfx (r : Request) (b : EntryBody) : (s.addEntry r b).cfx = s.cfx := rfl
@[simp] theorem State.addEntry_handed (r : Request) (b : EntryBody) : (s.addEntry r b).handed = s.handed := rfl
@[simp] theorem State.addEntry_pending (r : Request) (b : EntryBody) : (s.addEntry r b).pending = s.pending := rfl

/-! ## `State.completeFlush` -/

@[simp] theorem State.completeFlush_power (e : Entry) : (s.completeFlush e).power = s.power := rfl
@[simp] theorem State.completeFlush_pins (e : Entry) : (s.completeFlush e).pins = s.pins := rfl
@[simp] theorem State.completeFlush_hlp (e : Entry) : (s.completeFlush e).hlp = s.hlp := rfl
@[simp] theorem State.completeFlush_wdc (e : Entry) : (s.completeFlush e).wdc = s.wdc := rfl
@[simp] theorem State.completeFlush_tgt (e : Entry) : (s.completeFlush e).tgt = s.tgt := rfl
@[simp] theorem State.completeFlush_trk_entries (e : Entry) :
    (s.completeFlush e).trk.entries =
      changeEntry s.trk.entries e.slot fun f =>
        { f with body := .flush s.trk.faults[e.initiator], state := .done .ok } := rfl
@[simp] theorem State.completeFlush_trk_gate (e : Entry) : (s.completeFlush e).trk.gate = s.trk.gate := rfl
@[simp] theorem State.completeFlush_trk_faults (e : Entry) :
    (s.completeFlush e).trk.faults = s.trk.faults.set e.initiator none := rfl
@[simp] theorem State.completeFlush_trk_answers (e : Entry) : (s.completeFlush e).trk.answers = s.trk.answers := rfl
@[simp] theorem State.completeFlush_trk_detaches (e : Entry) : (s.completeFlush e).trk.detaches = s.trk.detaches := rfl
@[simp] theorem State.completeFlush_trk_nextSerial (e : Entry) :
    (s.completeFlush e).trk.nextSerial = s.trk.nextSerial := rfl
@[simp] theorem State.completeFlush_pbe (e : Entry) : (s.completeFlush e).pbe = s.pbe := rfl
@[simp] theorem State.completeFlush_irl (e : Entry) : (s.completeFlush e).irl = s.irl := rfl
@[simp] theorem State.completeFlush_mgb (e : Entry) : (s.completeFlush e).mgb = s.mgb := rfl
@[simp] theorem State.completeFlush_cfx (e : Entry) : (s.completeFlush e).cfx = s.cfx := rfl
@[simp] theorem State.completeFlush_handed_outcomes (e : Entry) :
    (s.completeFlush e).handed.outcomes = s.handed.outcomes := rfl
@[simp] theorem State.completeFlush_handed_announcements (e : Entry) :
    (s.completeFlush e).handed.announcements = s.handed.announcements := rfl
@[simp] theorem State.completeFlush_handed_events (e : Entry) :
    (s.completeFlush e).handed.events = s.handed.events := rfl
@[simp] theorem State.completeFlush_handed_withdrawals (e : Entry) :
    (s.completeFlush e).handed.withdrawals =
      s.handed.withdrawals ++
        (if s.trk.faults[e.initiator].isSome then
          [⟨e.initiator, s.handed.events.count (.postedFault e.initiator)⟩]
        else []) := rfl
@[simp] theorem State.completeFlush_handed_irlDetaches (e : Entry) :
    (s.completeFlush e).handed.irlDetaches = s.handed.irlDetaches := rfl
@[simp] theorem State.completeFlush_handed_mgbDetaches (e : Entry) :
    (s.completeFlush e).handed.mgbDetaches = s.handed.mgbDetaches := rfl
@[simp] theorem State.completeFlush_handed_trkResets (e : Entry) :
    (s.completeFlush e).handed.trkResets = s.handed.trkResets := rfl
@[simp] theorem State.completeFlush_handed_mgbResets (e : Entry) :
    (s.completeFlush e).handed.mgbResets = s.handed.mgbResets := rfl
@[simp] theorem State.completeFlush_handed_irlNews (e : Entry) :
    (s.completeFlush e).handed.irlNews = s.handed.irlNews := rfl
@[simp] theorem State.completeFlush_pending (e : Entry) : (s.completeFlush e).pending = s.pending := rfl

/-! ## `State.withContext` -/

@[simp] theorem State.withContext_power (c : SegmentContext) : (s.withContext c).power = s.power := rfl
@[simp] theorem State.withContext_pins (c : SegmentContext) : (s.withContext c).pins = s.pins := rfl
@[simp] theorem State.withContext_hlp (c : SegmentContext) : (s.withContext c).hlp = s.hlp := rfl
@[simp] theorem State.withContext_wdc (c : SegmentContext) : (s.withContext c).wdc = s.wdc := rfl
@[simp] theorem State.withContext_tgt (c : SegmentContext) : (s.withContext c).tgt = s.tgt := rfl
@[simp] theorem State.withContext_trk (c : SegmentContext) : (s.withContext c).trk = s.trk := rfl
@[simp] theorem State.withContext_pbe (c : SegmentContext) :
    (s.withContext c).pbe = { s.pbe with bus := .segment c } := rfl
@[simp] theorem State.withContext_irl (c : SegmentContext) : (s.withContext c).irl = s.irl := rfl
@[simp] theorem State.withContext_mgb (c : SegmentContext) : (s.withContext c).mgb = s.mgb := rfl
@[simp] theorem State.withContext_cfx (c : SegmentContext) : (s.withContext c).cfx = s.cfx := rfl
@[simp] theorem State.withContext_handed (c : SegmentContext) : (s.withContext c).handed = s.handed := rfl
@[simp] theorem State.withContext_pending (c : SegmentContext) : (s.withContext c).pending = s.pending := rfl

/-! ## `State.grantBus` -/

@[simp] theorem State.grantBus_power : s.grantBus.power = s.power := rfl
@[simp] theorem State.grantBus_pins : s.grantBus.pins = s.pins := rfl
@[simp] theorem State.grantBus_hlp : s.grantBus.hlp = s.hlp := rfl
@[simp] theorem State.grantBus_wdc : s.grantBus.wdc = s.wdc := rfl
@[simp] theorem State.grantBus_tgt : s.grantBus.tgt = s.tgt := rfl
@[simp] theorem State.grantBus_trk : s.grantBus.trk = s.trk := rfl
@[simp] theorem State.grantBus_pbe :
    s.grantBus.pbe = { s.pbe with bus := .lent, lendTimer := some 0, overrunMark := false } := rfl
@[simp] theorem State.grantBus_irl : s.grantBus.irl = s.irl := rfl
@[simp] theorem State.grantBus_mgb : s.grantBus.mgb = s.mgb := rfl
@[simp] theorem State.grantBus_cfx : s.grantBus.cfx = s.cfx := rfl
@[simp] theorem State.grantBus_handed : s.grantBus.handed = s.handed := rfl
@[simp] theorem State.grantBus_pending : s.grantBus.pending = s.pending := rfl

/-! ## `State.returnBus` -/

@[simp] theorem State.returnBus_power : s.returnBus.power = s.power := rfl
@[simp] theorem State.returnBus_pins : s.returnBus.pins = s.pins := rfl
@[simp] theorem State.returnBus_hlp : s.returnBus.hlp = s.hlp := rfl
@[simp] theorem State.returnBus_wdc : s.returnBus.wdc = s.wdc := rfl
@[simp] theorem State.returnBus_tgt : s.returnBus.tgt = s.tgt := rfl
@[simp] theorem State.returnBus_trk : s.returnBus.trk = s.trk := rfl
@[simp] theorem State.returnBus_pbe_bus : s.returnBus.pbe.bus = .idle := rfl
@[simp] theorem State.returnBus_pbe_recovery :
    s.returnBus.pbe.recovery = tabulate fun t => Config.clocksPerTick * s.tgt[t].recovery := rfl
@[simp] theorem State.returnBus_pbe_pointer : s.returnBus.pbe.pointer = s.pbe.pointer := rfl
@[simp] theorem State.returnBus_pbe_lendTimer : s.returnBus.pbe.lendTimer = none := rfl
@[simp] theorem State.returnBus_pbe_overrunMark : s.returnBus.pbe.overrunMark = false := rfl
@[simp] theorem State.returnBus_pbe_segmentLimit : s.returnBus.pbe.segmentLimit = s.pbe.segmentLimit := rfl
@[simp] theorem State.returnBus_pbe_lendLimit : s.returnBus.pbe.lendLimit = s.pbe.lendLimit := rfl
@[simp] theorem State.returnBus_pbe_lendOverrun : s.returnBus.pbe.lendOverrun = s.pbe.lendOverrun := rfl
@[simp] theorem State.returnBus_irl : s.returnBus.irl = s.irl := rfl
@[simp] theorem State.returnBus_mgb : s.returnBus.mgb = s.mgb := rfl
@[simp] theorem State.returnBus_cfx : s.returnBus.cfx = s.cfx := rfl
@[simp] theorem State.returnBus_handed : s.returnBus.handed = s.handed := rfl
@[simp] theorem State.returnBus_pending : s.returnBus.pending = s.pending := rfl

/-! ## `State.withExtreq` -/

@[simp] theorem State.withExtreq_power (level : Bool) : (s.withExtreq level).power = s.power := rfl
@[simp] theorem State.withExtreq_pins (level : Bool) :
    (s.withExtreq level).pins = { s.pins with extreq := level } := rfl
@[simp] theorem State.withExtreq_hlp (level : Bool) : (s.withExtreq level).hlp = s.hlp := rfl
@[simp] theorem State.withExtreq_wdc (level : Bool) : (s.withExtreq level).wdc = s.wdc := rfl
@[simp] theorem State.withExtreq_tgt (level : Bool) : (s.withExtreq level).tgt = s.tgt := rfl
@[simp] theorem State.withExtreq_trk (level : Bool) : (s.withExtreq level).trk = s.trk := rfl
@[simp] theorem State.withExtreq_pbe (level : Bool) : (s.withExtreq level).pbe = s.pbe := rfl
@[simp] theorem State.withExtreq_irl (level : Bool) : (s.withExtreq level).irl = s.irl := rfl
@[simp] theorem State.withExtreq_mgb (level : Bool) : (s.withExtreq level).mgb = s.mgb := rfl
@[simp] theorem State.withExtreq_cfx (level : Bool) : (s.withExtreq level).cfx = s.cfx := rfl
@[simp] theorem State.withExtreq_handed (level : Bool) : (s.withExtreq level).handed = s.handed := rfl
@[simp] theorem State.withExtreq_pending (level : Bool) : (s.withExtreq level).pending = s.pending := rfl

/-! ## `State.endCycle` -/

@[simp] theorem State.endCycle_power (c : SegmentContext) (r : CycleRun) (v : CycleResult) :
    (s.endCycle c r v).power = s.power := rfl
@[simp] theorem State.endCycle_pins (c : SegmentContext) (r : CycleRun) (v : CycleResult) :
    (s.endCycle c r v).pins = s.pins := rfl
@[simp] theorem State.endCycle_hlp (c : SegmentContext) (r : CycleRun) (v : CycleResult) :
    (s.endCycle c r v).hlp = s.hlp := rfl
@[simp] theorem State.endCycle_wdc (c : SegmentContext) (r : CycleRun) (v : CycleResult) :
    (s.endCycle c r v).wdc = s.wdc := rfl
@[simp] theorem State.endCycle_tgt (c : SegmentContext) (r : CycleRun) (v : CycleResult) :
    (s.endCycle c r v).tgt = s.tgt := rfl
@[simp] theorem State.endCycle_trk (c : SegmentContext) (r : CycleRun) (v : CycleResult) :
    (s.endCycle c r v).trk = s.trk := rfl
@[simp] theorem State.endCycle_pbe_bus (c : SegmentContext) (r : CycleRun) (v : CycleResult) :
    (s.endCycle c r v).pbe.bus = .segment ((c.endCycle r v).proceed s.tgt[c.target] (s.trk.dataAt c.slot)) := rfl
@[simp] theorem State.endCycle_pbe_recovery (c : SegmentContext) (r : CycleRun) (v : CycleResult) :
    (s.endCycle c r v).pbe.recovery = s.pbe.recovery.set c.target (Config.clocksPerTick * s.tgt[c.target].recovery) := rfl
@[simp] theorem State.endCycle_pbe_pointer (c : SegmentContext) (r : CycleRun) (v : CycleResult) :
    (s.endCycle c r v).pbe.pointer = s.pbe.pointer := rfl
@[simp] theorem State.endCycle_pbe_lendTimer (c : SegmentContext) (r : CycleRun) (v : CycleResult) :
    (s.endCycle c r v).pbe.lendTimer = s.pbe.lendTimer := rfl
@[simp] theorem State.endCycle_pbe_overrunMark (c : SegmentContext) (r : CycleRun) (v : CycleResult) :
    (s.endCycle c r v).pbe.overrunMark = s.pbe.overrunMark := rfl
@[simp] theorem State.endCycle_pbe_segmentLimit (c : SegmentContext) (r : CycleRun) (v : CycleResult) :
    (s.endCycle c r v).pbe.segmentLimit = s.pbe.segmentLimit := rfl
@[simp] theorem State.endCycle_pbe_lendLimit (c : SegmentContext) (r : CycleRun) (v : CycleResult) :
    (s.endCycle c r v).pbe.lendLimit = s.pbe.lendLimit := rfl
@[simp] theorem State.endCycle_pbe_lendOverrun (c : SegmentContext) (r : CycleRun) (v : CycleResult) :
    (s.endCycle c r v).pbe.lendOverrun = s.pbe.lendOverrun := rfl
@[simp] theorem State.endCycle_irl (c : SegmentContext) (r : CycleRun) (v : CycleResult) :
    (s.endCycle c r v).irl = s.irl := rfl
@[simp] theorem State.endCycle_mgb (c : SegmentContext) (r : CycleRun) (v : CycleResult) :
    (s.endCycle c r v).mgb = s.mgb := rfl
@[simp] theorem State.endCycle_cfx (c : SegmentContext) (r : CycleRun) (v : CycleResult) :
    (s.endCycle c r v).cfx = s.cfx := rfl
@[simp] theorem State.endCycle_handed (c : SegmentContext) (r : CycleRun) (v : CycleResult) :
    (s.endCycle c r v).handed =
      { s.handed with outcomes := s.handed.outcomes ++ [(c.target, decide (v ≠ .timedOut))] } := rfl
@[simp] theorem State.endCycle_pending (c : SegmentContext) (r : CycleRun) (v : CycleResult) :
    (s.endCycle c r v).pending = s.pending := rfl

/-! ## `State.withOutcomeTaken` -/

@[simp] theorem State.withOutcomeTaken_power (t : TargetId) (r : TargetRecord) (left : List (TargetId × Bool)) :
    (s.withOutcomeTaken t r left).power = s.power := rfl
@[simp] theorem State.withOutcomeTaken_pins (t : TargetId) (r : TargetRecord) (left : List (TargetId × Bool)) :
    (s.withOutcomeTaken t r left).pins = s.pins := rfl
@[simp] theorem State.withOutcomeTaken_hlp (t : TargetId) (r : TargetRecord) (left : List (TargetId × Bool)) :
    (s.withOutcomeTaken t r left).hlp = s.hlp := rfl
@[simp] theorem State.withOutcomeTaken_wdc (t : TargetId) (r : TargetRecord) (left : List (TargetId × Bool)) :
    (s.withOutcomeTaken t r left).wdc = s.wdc := rfl
@[simp] theorem State.withOutcomeTaken_tgt (t : TargetId) (r : TargetRecord) (left : List (TargetId × Bool)) :
    (s.withOutcomeTaken t r left).tgt = s.tgt.set t r := rfl
@[simp] theorem State.withOutcomeTaken_trk (t : TargetId) (r : TargetRecord) (left : List (TargetId × Bool)) :
    (s.withOutcomeTaken t r left).trk = s.trk := rfl
@[simp] theorem State.withOutcomeTaken_pbe (t : TargetId) (r : TargetRecord) (left : List (TargetId × Bool)) :
    (s.withOutcomeTaken t r left).pbe = s.pbe := rfl
@[simp] theorem State.withOutcomeTaken_irl (t : TargetId) (r : TargetRecord) (left : List (TargetId × Bool)) :
    (s.withOutcomeTaken t r left).irl = s.irl := rfl
@[simp] theorem State.withOutcomeTaken_mgb (t : TargetId) (r : TargetRecord) (left : List (TargetId × Bool)) :
    (s.withOutcomeTaken t r left).mgb = s.mgb := rfl
@[simp] theorem State.withOutcomeTaken_cfx (t : TargetId) (r : TargetRecord) (left : List (TargetId × Bool)) :
    (s.withOutcomeTaken t r left).cfx = s.cfx := rfl
@[simp] theorem State.withOutcomeTaken_handed (t : TargetId) (r : TargetRecord) (left : List (TargetId × Bool)) :
    (s.withOutcomeTaken t r left).handed = { s.handed with outcomes := left } := rfl
@[simp] theorem State.withOutcomeTaken_pending (t : TargetId) (r : TargetRecord) (left : List (TargetId × Bool)) :
    (s.withOutcomeTaken t r left).pending = s.pending := rfl

/-! ## `State.announceOffline` -/

@[simp] theorem State.announceOffline_power (t : TargetId) : (s.announceOffline t).power = s.power := rfl
@[simp] theorem State.announceOffline_pins (t : TargetId) : (s.announceOffline t).pins = s.pins := rfl
@[simp] theorem State.announceOffline_hlp (t : TargetId) : (s.announceOffline t).hlp = s.hlp := rfl
@[simp] theorem State.announceOffline_wdc (t : TargetId) : (s.announceOffline t).wdc = s.wdc := rfl
@[simp] theorem State.announceOffline_tgt (t : TargetId) : (s.announceOffline t).tgt = s.tgt := rfl
@[simp] theorem State.announceOffline_trk (t : TargetId) : (s.announceOffline t).trk = s.trk := rfl
@[simp] theorem State.announceOffline_pbe (t : TargetId) : (s.announceOffline t).pbe = s.pbe := rfl
@[simp] theorem State.announceOffline_irl (t : TargetId) : (s.announceOffline t).irl = s.irl := rfl
@[simp] theorem State.announceOffline_mgb (t : TargetId) : (s.announceOffline t).mgb = s.mgb := rfl
@[simp] theorem State.announceOffline_cfx (t : TargetId) : (s.announceOffline t).cfx = s.cfx := rfl
@[simp] theorem State.announceOffline_handed (t : TargetId) :
    (s.announceOffline t).handed =
      { s.handed with announcements := s.handed.announcements ++ [⟨t, s.trk.nextSerial⟩], events :=
        s.handed.events ++ [.targetDown] } := rfl
@[simp] theorem State.announceOffline_pending (t : TargetId) : (s.announceOffline t).pending = s.pending := rfl

/-! ## `State.leaveTransmit` -/

@[simp] theorem State.leaveTransmit_power (left : List OutPacket) : (s.leaveTransmit left).power = s.power := rfl
@[simp] theorem State.leaveTransmit_pins (left : List OutPacket) : (s.leaveTransmit left).pins = s.pins := rfl
@[simp] theorem State.leaveTransmit_hlp_link (left : List OutPacket) :
    (s.leaveTransmit left).hlp.link = s.hlp.link := rfl
@[simp] theorem State.leaveTransmit_hlp_quiet (left : List OutPacket) :
    (s.leaveTransmit left).hlp.quiet = s.hlp.quiet := rfl
@[simp] theorem State.leaveTransmit_hlp_receive (left : List OutPacket) :
    (s.leaveTransmit left).hlp.receive = s.hlp.receive := rfl
@[simp] theorem State.leaveTransmit_hlp_transmit (left : List OutPacket) :
    (s.leaveTransmit left).hlp.transmit = left := rfl
@[simp] theorem State.leaveTransmit_hlp_dropped (left : List OutPacket) :
    (s.leaveTransmit left).hlp.dropped = s.hlp.dropped := rfl
@[simp] theorem State.leaveTransmit_hlp_pointer (left : List OutPacket) :
    (s.leaveTransmit left).hlp.pointer = s.hlp.pointer := rfl
@[simp] theorem State.leaveTransmit_hlp_contended (left : List OutPacket) :
    (s.leaveTransmit left).hlp.contended =
      ((s.hlp.contended || (decide (Config.transmitPlaces ≤ s.hlp.transmit.length) && decide
        (left.length < Config.transmitPlaces))) && s.placeWinner.isSome) := rfl
@[simp] theorem State.leaveTransmit_wdc (left : List OutPacket) : (s.leaveTransmit left).wdc = s.wdc := rfl
@[simp] theorem State.leaveTransmit_tgt (left : List OutPacket) : (s.leaveTransmit left).tgt = s.tgt := rfl
@[simp] theorem State.leaveTransmit_trk (left : List OutPacket) : (s.leaveTransmit left).trk = s.trk := rfl
@[simp] theorem State.leaveTransmit_pbe (left : List OutPacket) : (s.leaveTransmit left).pbe = s.pbe := rfl
@[simp] theorem State.leaveTransmit_irl (left : List OutPacket) : (s.leaveTransmit left).irl = s.irl := rfl
@[simp] theorem State.leaveTransmit_mgb (left : List OutPacket) : (s.leaveTransmit left).mgb = s.mgb := rfl
@[simp] theorem State.leaveTransmit_cfx (left : List OutPacket) : (s.leaveTransmit left).cfx = s.cfx := rfl
@[simp] theorem State.leaveTransmit_handed (left : List OutPacket) : (s.leaveTransmit left).handed = s.handed := rfl
@[simp] theorem State.leaveTransmit_pending (left : List OutPacket) : (s.leaveTransmit left).pending = s.pending := rfl

/-! ## `State.settlePlace` -/

@[simp] theorem State.settlePlace_power : s.settlePlace.power = s.power := rfl
@[simp] theorem State.settlePlace_pins : s.settlePlace.pins = s.pins := rfl
@[simp] theorem State.settlePlace_hlp_link : s.settlePlace.hlp.link = s.hlp.link := rfl
@[simp] theorem State.settlePlace_hlp_quiet : s.settlePlace.hlp.quiet = s.hlp.quiet := rfl
@[simp] theorem State.settlePlace_hlp_receive : s.settlePlace.hlp.receive = s.hlp.receive := rfl
@[simp] theorem State.settlePlace_hlp_transmit : s.settlePlace.hlp.transmit = s.hlp.transmit := rfl
@[simp] theorem State.settlePlace_hlp_dropped : s.settlePlace.hlp.dropped = s.hlp.dropped := rfl
@[simp] theorem State.settlePlace_hlp_pointer : s.settlePlace.hlp.pointer = s.hlp.pointer := rfl
@[simp] theorem State.settlePlace_hlp_contended :
    s.settlePlace.hlp.contended = (s.hlp.contended && s.placeWinner.isSome) := rfl
@[simp] theorem State.settlePlace_wdc : s.settlePlace.wdc = s.wdc := rfl
@[simp] theorem State.settlePlace_tgt : s.settlePlace.tgt = s.tgt := rfl
@[simp] theorem State.settlePlace_trk : s.settlePlace.trk = s.trk := rfl
@[simp] theorem State.settlePlace_pbe : s.settlePlace.pbe = s.pbe := rfl
@[simp] theorem State.settlePlace_irl : s.settlePlace.irl = s.irl := rfl
@[simp] theorem State.settlePlace_mgb : s.settlePlace.mgb = s.mgb := rfl
@[simp] theorem State.settlePlace_cfx : s.settlePlace.cfx = s.cfx := rfl
@[simp] theorem State.settlePlace_handed : s.settlePlace.handed = s.handed := rfl
@[simp] theorem State.settlePlace_pending : s.settlePlace.pending = s.pending := rfl

/-! ## `State.handAnswer` -/

@[simp] theorem State.handAnswer_power (r : Response) : (s.handAnswer r).power = s.power := rfl
@[simp] theorem State.handAnswer_pins (r : Response) : (s.handAnswer r).pins = s.pins := rfl
@[simp] theorem State.handAnswer_hlp (r : Response) : (s.handAnswer r).hlp = s.hlp.hand .trk (.response r) := rfl
@[simp] theorem State.handAnswer_wdc (r : Response) : (s.handAnswer r).wdc = s.wdc := rfl
@[simp] theorem State.handAnswer_tgt (r : Response) : (s.handAnswer r).tgt = s.tgt := rfl
@[simp] theorem State.handAnswer_trk (r : Response) :
    (s.handAnswer r).trk = { s.trk with answers := s.trk.answers.tail } := rfl
@[simp] theorem State.handAnswer_pbe (r : Response) : (s.handAnswer r).pbe = s.pbe := rfl
@[simp] theorem State.handAnswer_irl (r : Response) : (s.handAnswer r).irl = s.irl := rfl
@[simp] theorem State.handAnswer_mgb (r : Response) : (s.handAnswer r).mgb = s.mgb := rfl
@[simp] theorem State.handAnswer_cfx (r : Response) : (s.handAnswer r).cfx = s.cfx := rfl
@[simp] theorem State.handAnswer_handed (r : Response) : (s.handAnswer r).handed = s.handed := rfl
@[simp] theorem State.handAnswer_pending (r : Response) : (s.handAnswer r).pending = s.pending := rfl

/-! ## `State.answerAccess` -/

@[simp] theorem State.answerAccess_power (a : Response) : (s.answerAccess a).power = s.power := rfl
@[simp] theorem State.answerAccess_pins (a : Response) : (s.answerAccess a).pins = s.pins := rfl
@[simp] theorem State.answerAccess_hlp (a : Response) :
    (s.answerAccess a).hlp = { s.hlp with receive := s.hlp.receive.tail } := rfl
@[simp] theorem State.answerAccess_wdc (a : Response) : (s.answerAccess a).wdc = s.wdc := rfl
@[simp] theorem State.answerAccess_tgt (a : Response) : (s.answerAccess a).tgt = s.tgt := rfl
@[simp] theorem State.answerAccess_trk (a : Response) : (s.answerAccess a).trk = s.trk := rfl
@[simp] theorem State.answerAccess_pbe (a : Response) : (s.answerAccess a).pbe = s.pbe := rfl
@[simp] theorem State.answerAccess_irl (a : Response) : (s.answerAccess a).irl = s.irl := rfl
@[simp] theorem State.answerAccess_mgb (a : Response) :
    (s.answerAccess a).mgb = { s.mgb with answers := s.mgb.answers ++ [a] } := rfl
@[simp] theorem State.answerAccess_cfx (a : Response) : (s.answerAccess a).cfx = s.cfx := rfl
@[simp] theorem State.answerAccess_handed (a : Response) : (s.answerAccess a).handed = s.handed := rfl
@[simp] theorem State.answerAccess_pending (a : Response) : (s.answerAccess a).pending = s.pending := rfl

/-! ## `State.answerWith` -/

@[simp] theorem State.answerWith_power (m : Management) (a : Response) : (s.answerWith m a).power = s.power := rfl
@[simp] theorem State.answerWith_pins (m : Management) (a : Response) : (s.answerWith m a).pins = s.pins := rfl
@[simp] theorem State.answerWith_hlp (m : Management) (a : Response) :
    (s.answerWith m a).hlp = { s.hlp with receive := s.hlp.receive.tail } := rfl
@[simp] theorem State.answerWith_wdc (m : Management) (a : Response) : (s.answerWith m a).wdc = s.wdc := rfl
@[simp] theorem State.answerWith_tgt (m : Management) (a : Response) : (s.answerWith m a).tgt = s.tgt := rfl
@[simp] theorem State.answerWith_trk (m : Management) (a : Response) : (s.answerWith m a).trk = s.trk := rfl
@[simp] theorem State.answerWith_pbe (m : Management) (a : Response) : (s.answerWith m a).pbe = s.pbe := rfl
@[simp] theorem State.answerWith_irl (m : Management) (a : Response) : (s.answerWith m a).irl = s.irl := rfl
@[simp] theorem State.answerWith_mgb (m : Management) (a : Response) :
    (s.answerWith m a).mgb = { m with answers := m.answers ++ [a] } := rfl
@[simp] theorem State.answerWith_cfx (m : Management) (a : Response) : (s.answerWith m a).cfx = s.cfx := rfl
@[simp] theorem State.answerWith_handed (m : Management) (a : Response) : (s.answerWith m a).handed = s.handed := rfl
@[simp] theorem State.answerWith_pending (m : Management) (a : Response) : (s.answerWith m a).pending = s.pending := rfl

/-! ## `State.finishChain` -/

@[simp] theorem State.finishChain_power (x : Executor) (rs : List RecordResult) (o : ChainOutcome) :
    (s.finishChain x rs o).power = s.power := rfl
@[simp] theorem State.finishChain_pins (x : Executor) (rs : List RecordResult) (o : ChainOutcome) :
    (s.finishChain x rs o).pins = s.pins := rfl
@[simp] theorem State.finishChain_hlp (x : Executor) (rs : List RecordResult) (o : ChainOutcome) :
    (s.finishChain x rs o).hlp = s.hlp := rfl
@[simp] theorem State.finishChain_wdc (x : Executor) (rs : List RecordResult) (o : ChainOutcome) :
    (s.finishChain x rs o).wdc = s.wdc := rfl
@[simp] theorem State.finishChain_tgt (x : Executor) (rs : List RecordResult) (o : ChainOutcome) :
    (s.finishChain x rs o).tgt = s.tgt := rfl
@[simp] theorem State.finishChain_trk (x : Executor) (rs : List RecordResult) (o : ChainOutcome) :
    (s.finishChain x rs o).trk = s.trk := rfl
@[simp] theorem State.finishChain_pbe (x : Executor) (rs : List RecordResult) (o : ChainOutcome) :
    (s.finishChain x rs o).pbe = s.pbe := rfl
@[simp] theorem State.finishChain_irl (x : Executor) (rs : List RecordResult) (o : ChainOutcome) :
    (s.finishChain x rs o).irl = s.irl := rfl
@[simp] theorem State.finishChain_mgb_mailbox (x : Executor) (rs : List RecordResult) (o : ChainOutcome) :
    (s.finishChain x rs o).mgb.mailbox = s.mgb.mailbox := rfl
@[simp] theorem State.finishChain_mgb_leaseTimer (x : Executor) (rs : List RecordResult) (o : ChainOutcome) :
    (s.finishChain x rs o).mgb.leaseTimer = s.mgb.leaseTimer := rfl
@[simp] theorem State.finishChain_mgb_lease (x : Executor) (rs : List RecordResult) (o : ChainOutcome) :
    (s.finishChain x rs o).mgb.lease = s.mgb.lease := rfl
@[simp] theorem State.finishChain_mgb_claimMask (x : Executor) (rs : List RecordResult) (o : ChainOutcome) :
    (s.finishChain x rs o).mgb.claimMask = s.mgb.claimMask := rfl
@[simp] theorem State.finishChain_mgb_requestBuffer (x : Executor) (rs : List RecordResult) (o : ChainOutcome) :
    (s.finishChain x rs o).mgb.requestBuffer = s.mgb.requestBuffer := rfl
@[simp] theorem State.finishChain_mgb_lostLast (x : Executor) (rs : List RecordResult) (o : ChainOutcome) :
    (s.finishChain x rs o).mgb.lostLast = s.mgb.lostLast := rfl
@[simp] theorem State.finishChain_mgb_lostCount (x : Executor) (rs : List RecordResult) (o : ChainOutcome) :
    (s.finishChain x rs o).mgb.lostCount = s.mgb.lostCount := rfl
@[simp] theorem State.finishChain_mgb_commitCount (x : Executor) (rs : List RecordResult) (o : ChainOutcome) :
    (s.finishChain x rs o).mgb.commitCount = s.mgb.commitCount := rfl
@[simp] theorem State.finishChain_mgb_configLoaded (x : Executor) (rs : List RecordResult) (o : ChainOutcome) :
    (s.finishChain x rs o).mgb.configLoaded = s.mgb.configLoaded := rfl
@[simp] theorem State.finishChain_mgb_answers (x : Executor) (rs : List RecordResult) (o : ChainOutcome) :
    (s.finishChain x rs o).mgb.answers = s.mgb.answers := rfl
@[simp] theorem State.finishChain_cfx (x : Executor) (rs : List RecordResult) (o : ChainOutcome) :
    (s.finishChain x rs o).cfx = some { x with results := rs, finished := true } := rfl
@[simp] theorem State.finishChain_handed (x : Executor) (rs : List RecordResult) (o : ChainOutcome) :
    (s.finishChain x rs o).handed = s.handed := rfl
@[simp] theorem State.finishChain_pending (x : Executor) (rs : List RecordResult) (o : ChainOutcome) :
    (s.finishChain x rs o).pending = s.pending := rfl

/-! ## `State.clearCounters` -/

@[simp] theorem State.clearCounters_power : s.clearCounters.power = s.power := rfl
@[simp] theorem State.clearCounters_pins : s.clearCounters.pins = s.pins := rfl
@[simp] theorem State.clearCounters_hlp : s.clearCounters.hlp = { s.hlp with dropped := 0 } := rfl
@[simp] theorem State.clearCounters_wdc : s.clearCounters.wdc = s.wdc := rfl
@[simp] theorem State.clearCounters_tgt : s.clearCounters.tgt = s.tgt := rfl
@[simp] theorem State.clearCounters_trk : s.clearCounters.trk = s.trk := rfl
@[simp] theorem State.clearCounters_pbe : s.clearCounters.pbe = { s.pbe with lendOverrun := false } := rfl
@[simp] theorem State.clearCounters_irl : s.clearCounters.irl = s.irl := rfl
@[simp] theorem State.clearCounters_mgb : s.clearCounters.mgb = { s.mgb with lostLast := none, lostCount := 0 } := rfl
@[simp] theorem State.clearCounters_cfx : s.clearCounters.cfx = s.cfx := rfl
@[simp] theorem State.clearCounters_handed : s.clearCounters.handed = s.handed := rfl
@[simp] theorem State.clearCounters_pending : s.clearCounters.pending = s.pending := rfl

/-! ## `State.countCommit` -/

@[simp] theorem State.countCommit_power : s.countCommit.power = s.power := rfl
@[simp] theorem State.countCommit_pins : s.countCommit.pins = s.pins := rfl
@[simp] theorem State.countCommit_hlp : s.countCommit.hlp = s.hlp := rfl
@[simp] theorem State.countCommit_wdc : s.countCommit.wdc = s.wdc := rfl
@[simp] theorem State.countCommit_tgt : s.countCommit.tgt = s.tgt := rfl
@[simp] theorem State.countCommit_trk : s.countCommit.trk = s.trk := rfl
@[simp] theorem State.countCommit_pbe : s.countCommit.pbe = s.pbe := rfl
@[simp] theorem State.countCommit_irl : s.countCommit.irl = s.irl := rfl
@[simp] theorem State.countCommit_mgb :
    s.countCommit.mgb = { s.mgb with commitCount := (s.mgb.commitCount + 1) % 65536, configLoaded := true } := rfl
@[simp] theorem State.countCommit_cfx : s.countCommit.cfx = s.cfx := rfl
@[simp] theorem State.countCommit_handed : s.countCommit.handed = s.handed := rfl
@[simp] theorem State.countCommit_pending : s.countCommit.pending = s.pending := rfl

end Sys2Proof.Machine
end

