-- ==== Sys2Proof/Laws/Memory.lean ====
section
/-! SUPPORT. The laws of the two buffers, of tables, and of little-endian bytes and checksums. -/

namespace Sys2Proof.Machine

/-! ## Tables -/

/-- Entry `i` of a table. -/
@[simp] theorem tabulate_get {α : Type} {n : Nat} (f : Fin n → α) (i : Fin n) : (tabulate f)[i] = f i := by
  simp [tabulate]

/-- Entry `i` of a table, by its number. -/
@[simp] theorem tabulate_getElem {α : Type} {n : Nat} (f : Fin n → α) (i : Nat) (h : i < n) :
    (tabulate f)[i] = f ⟨i, h⟩ := by
  simp [tabulate]

/-- Two tables with the same entries are the same table. -/
theorem table_ext {α : Type} {n : Nat} {v w : Vector α n} (h : ∀ i : Fin n, v[i] = w[i]) : v = w :=
  Vector.ext fun i hi => h ⟨i, hi⟩

/-- Entry `j` of a table whose entry `i` has been set. -/
theorem table_set_get {α : Type} {n : Nat} (v : Vector α n) (i j : Fin n) (x : α) :
    (v.set i x)[j] = if i = j then x else v[j] := by
  simp only [Fin.getElem_fin, Vector.getElem_set, Fin.ext_iff]

/-- The entry that has been set. -/
@[simp] theorem table_set_same {α : Type} {n : Nat} (v : Vector α n) (i : Fin n) (x : α) : (v.set i x)[i] = x := by
  simp

/-- An entry other than the one that has been set. -/
theorem table_set_other {α : Type} {n : Nat} (v : Vector α n) {i j : Fin n} (x : α) (h : i ≠ j) :
    (v.set i x)[j] = v[j] := by
  rw [table_set_get, if_neg h]

/-- An entry set to what it is. -/
theorem table_set_self {α : Type} {n : Nat} (v : Vector α n) (i : Fin n) {x : α} (h : v[i] = x) : v.set i x = v := by
  refine table_ext fun j => ?_
  rw [table_set_get]
  by_cases hj : i = j
  · subst hj; rw [if_pos rfl, h]
  · rw [if_neg hj]

/-! ## The canonical form of a buffer -/

/-- A buffer in canonical form from an offset on is so from any earlier one. -/
theorem bufferWfFrom_mono {lo lo' hi : Nat} (h : lo' ≤ lo) {m : List Host.Cell} (hm : bufferWfFrom lo hi m = true) :
    bufferWfFrom lo' hi m = true := by
  cases m with
  | nil => rfl
  | cons c rest =>
    simp only [bufferWfFrom, Bool.and_eq_true, decide_eq_true_eq] at hm ⊢
    exact ⟨⟨⟨by omega, hm.1.1.2⟩, hm.1.2⟩, hm.2⟩

/-- A write at an offset in range keeps the canonical form. -/
theorem bufferWfFrom_writeByte {hi a : Nat} {v : Byte} (ha : a < hi) :
    ∀ {lo : Nat} {m : List Host.Cell}, lo ≤ a → bufferWfFrom lo hi m = true →
      bufferWfFrom lo hi (writeByte m a v) = true := by
  intro lo m
  induction m generalizing lo with
  | nil =>
    intro h _
    by_cases hv : v = unlistedByte <;> simp [writeByte, bufferWfFrom, hv, h, ha]
  | cons c rest ih =>
    obtain ⟨k, w⟩ := c
    intro h hm
    simp only [bufferWfFrom, Bool.and_eq_true, decide_eq_true_eq] at hm
    obtain ⟨⟨⟨h1, h2⟩, h3⟩, h4⟩ := hm
    by_cases hk : k < a
    · simp only [writeByte, hk, if_true, bufferWfFrom, Bool.and_eq_true, decide_eq_true_eq]
      exact ⟨⟨⟨h1, h2⟩, h3⟩, ih (by omega) h4⟩
    · by_cases he : k = a
      · subst he
        by_cases hv : v = unlistedByte
        · simp only [writeByte, hk, hv, if_true, if_false]
          exact bufferWfFrom_mono (by omega) h4
        · simp only [writeByte, hk, hv, if_true, if_false, bufferWfFrom, Bool.and_eq_true, decide_eq_true_eq]
          exact ⟨⟨⟨h, h2⟩, hv⟩, h4⟩
      · by_cases hv : v = unlistedByte
        · simp only [writeByte, hk, he, hv, if_true, if_false, bufferWfFrom, Bool.and_eq_true, decide_eq_true_eq]
          exact ⟨⟨⟨h1, h2⟩, h3⟩, h4⟩
        · simp only [writeByte, hk, he, hv, if_false, bufferWfFrom, Bool.and_eq_true, decide_eq_true_eq]
          exact ⟨⟨⟨h, ha⟩, hv⟩, ⟨⟨by omega, h2⟩, h3⟩, h4⟩

/-- A byte below the first offset that may be listed is unlisted. -/
theorem readByte_below {hi : Nat} : ∀ {lo a : Nat} {m : List Host.Cell}, a < lo → bufferWfFrom lo hi m = true →
    readByte m a = unlistedByte := by
  intro lo a m
  induction m generalizing lo with
  | nil => intros; rfl
  | cons c rest ih =>
    obtain ⟨k, w⟩ := c
    intro h hm
    simp only [bufferWfFrom, Bool.and_eq_true, decide_eq_true_eq] at hm
    have hk : k ≠ a := by omega
    simp only [readByte, hk, if_false]
    exact ih (by omega) hm.2

/-- Memory.wf is kept by the write of a byte in range. -/
theorem Memory.wf_writeByte {m : List Host.Cell} {a : Nat} {v : Byte} (h : a < Config.bufferBytes)
    (hm : Memory.wf m = true) : Memory.wf (writeByte m a v) = true :=
  bufferWfFrom_writeByte h (Nat.zero_le a) hm

/-- Memory.wf is kept by the write of bytes in range. -/
theorem Memory.wf_writeBytes {bs : List Byte} : ∀ {m : List Host.Cell} {a : Nat}, a + bs.length ≤ Config.bufferBytes →
    Memory.wf m = true → Memory.wf (writeBytes m a bs) = true := by
  induction bs with
  | nil => intro m a _ hm; exact hm
  | cons b bs ih =>
    intro m a h hm
    simp only [List.length_cons] at h
    exact ih (by omega) (Memory.wf_writeByte (by omega) hm)

/-- The empty buffer has the canonical form. -/
theorem Memory.wf_nil : Memory.wf [] = true := rfl

/-! ## Reading after writing -/

/-- An offset not written reads as before, in any buffer. -/
theorem readByte_writeByte_other {a b : Nat} {v : Byte} (h : a ≠ b) (m : List Host.Cell) :
    readByte (writeByte m a v) b = readByte m b := by
  induction m with
  | nil =>
    by_cases hv : v = unlistedByte <;> simp [writeByte, readByte, hv, h]
  | cons c rest ih =>
    obtain ⟨k, w⟩ := c
    by_cases hk : k < a
    · simp only [writeByte, hk, if_true, readByte, ih]
    · by_cases he : k = a
      · subst he
        by_cases hv : v = unlistedByte <;> simp [writeByte, readByte, hv, h]
      · by_cases hv : v = unlistedByte
        · simp only [writeByte, hk, he, hv, if_true, if_false]
        · simp [writeByte, readByte, hk, he, hv, h]

/-- The offset written reads as the byte written, in a buffer in canonical form. -/
theorem readByte_writeByte_same {hi a : Nat} {v : Byte} :
    ∀ {lo : Nat} {m : List Host.Cell}, bufferWfFrom lo hi m = true → readByte (writeByte m a v) a = v := by
  intro lo m
  induction m generalizing lo with
  | nil =>
    intro _
    by_cases hv : v = unlistedByte <;> simp [writeByte, readByte, hv]
  | cons c rest ih =>
    obtain ⟨k, w⟩ := c
    intro hm
    simp only [bufferWfFrom, Bool.and_eq_true, decide_eq_true_eq] at hm
    by_cases hk : k < a
    · have : k ≠ a := by omega
      simp [writeByte, readByte, hk, this, ih hm.2]
    · by_cases he : k = a
      · subst he
        by_cases hv : v = unlistedByte
        · simp only [writeByte, hv, if_true, lt_irrefl, if_false]
          exact readByte_below (Nat.lt_succ_self k) hm.2
        · simp [writeByte, readByte, hv]
      · by_cases hv : v = unlistedByte
        · simp only [writeByte, hk, he, hv, if_true, if_false, readByte]
          exact readByte_below (by omega) hm.2
        · simp [writeByte, readByte, hk, he, hv]

/-- Every byte of a buffer after the write of bytes from offset `a` on. -/
theorem readByte_writeBytes {bs : List Byte} : ∀ {m : List Host.Cell} {a : Nat}, a + bs.length ≤ Config.bufferBytes →
    Memory.wf m = true → ∀ k : Nat,
      readByte (writeBytes m a bs) k = if a ≤ k ∧ k < a + bs.length then byteAt bs (k - a) else readByte m k := by
  induction bs with
  | nil => intro m a _ _ k; simp only [List.length_nil, writeBytes]; rw [if_neg (by omega)]
  | cons b bs ih =>
    intro m a h hm k
    simp only [List.length_cons] at h
    have hw : Memory.wf (writeByte m a b) = true := Memory.wf_writeByte (by omega) hm
    have ha : a + 1 + bs.length ≤ Config.bufferBytes := by omega
    rw [writeBytes, ih ha hw k, List.length_cons]
    by_cases hk : a = k
    · subst hk
      rw [if_neg (by omega), if_pos (by omega), readByte_writeByte_same (lo := 0) hm]
      simp [byteAt]
    · rw [readByte_writeByte_other hk]
      by_cases h1 : a + 1 ≤ k ∧ k < a + 1 + bs.length
      · rw [if_pos h1, if_pos (by omega)]
        obtain ⟨j, rfl⟩ : ∃ j, k = a + 1 + j := ⟨k - (a + 1), by omega⟩
        have e1 : a + 1 + j - (a + 1) = j := by omega
        have e2 : a + 1 + j - a = j + 1 := by omega
        simp [byteAt, e1, e2]
      · rw [if_neg h1, if_neg (by omega)]

/-- The number of bytes read. -/
@[simp] theorem readBytes_length (m : List Host.Cell) (a n : Nat) : (readBytes m a n).length = n := by
  simp [readBytes]

/-! ## Bytes -/

/-- The number of little-endian bytes. -/
@[simp] theorem leBytes_length : ∀ (n x : Nat), (leBytes n x).length = n
  | 0, _ => rfl
  | n + 1, x => by simp [leBytes, leBytes_length n]

/-- Little-endian bytes spell the number they were made from. -/
theorem leNat_leBytes : ∀ (n x : Nat), x < 256 ^ n → leNat (leBytes n x) = x
  | 0, x, h => by simp at h; simp [leBytes, leNat, h]
  | n + 1, x, h => by
    have : x / 256 < 256 ^ n := by
      rw [Nat.div_lt_iff_lt_mul (by norm_num)]; rw [pow_succ] at h; exact h
    simp only [leBytes, leNat, leNat_leBytes n _ this, BitVec.toNat_ofNat]
    omega

/-- The sum of bytes is additive over a list's head. -/
theorem byteSum_eq_sum (bs : List Byte) : byteSum bs = bs.sum := by
  have h : ∀ (l : List Byte) (a : Byte), l.foldl (· + ·) a = a + l.sum := by
    intro l
    induction l with
    | nil => intro a; simp
    | cons b l ih => intro a; simp only [List.foldl_cons, List.sum_cons, ih]; exact BitVec.add_assoc a b l.sum
  simp only [byteSum, h]
  exact BitVec.zero_add _

/-- Bytes closed by their checksum sum to 0. -/
theorem withChecksum_sum (bs : List Byte) : (withChecksum bs).sum = 0 := by
  simp only [withChecksum, checksum, byteSum_eq_sum, List.sum_append, List.sum_cons, List.sum_nil]
  have : ∀ x : Byte, x + (0 - x + 0) = 0 := by intro x; bv_omega
  exact this _

/-! ## Ranges -/

/-- Two ranges overlap exactly where an address lies in both, for ranges that are not empty. -/
theorem overlaps_iff {p q : Profile} (hp : 1 ≤ p.size) (hq : 1 ≤ q.size) :
    p.overlaps q = true ↔ ∃ a : Nat, p.contains a = true ∧ q.contains a = true := by
  simp only [Profile.overlaps, Profile.contains, Bool.and_eq_true, decide_eq_true_eq]
  simp only [Profile.limit]
  constructor
  · rintro ⟨h1, h2⟩
    rcases Nat.le_total p.base.toNat q.base.toNat with h | h
    · exact ⟨q.base.toNat, ⟨h, h2⟩, Nat.le_refl _, by omega⟩
    · exact ⟨p.base.toNat, ⟨Nat.le_refl _, by omega⟩, h, h1⟩
  · rintro ⟨a, ⟨h1, h2⟩, h3, h4⟩
    exact ⟨by omega, by omega⟩

/-- Overlap is symmetric. -/
theorem overlaps_comm (p q : Profile) : p.overlaps q = q.overlaps p := by
  simp only [Profile.overlaps, Bool.and_comm]

end Sys2Proof.Machine
end

