-- ==== Sys2Proof/Laws/Bus.lean ====
section
/-! SUPPORT. What the Peripheral Bus Engine can do: the rotation of initiators, eligibility, the choice, one evaluation of
the arbiter, and the segment context. -/

namespace Sys2Proof.Machine

/-! ## The rotation -/

/-- Every initiator has its turn. -/
theorem mem_rotation (p i : Initiator) : i ∈ rotation p := by
  revert p i; decide

/-- The turns are the initiators by their distance from the pointer. -/
theorem rotation_eq (p : Initiator) : rotation p = (List.finRange 4).map fun k => p + k := by
  revert p; decide

/-- The initiator of each turn has that distance from the pointer. -/
theorem sub_of_rotation (p k : Initiator) : (p + k) - p = k := by
  revert p k; decide

/-- The initiator at its own distance from the pointer. -/
theorem rotation_of_sub (p i : Initiator) : p + (i - p) = i := by
  revert p i; decide

/-- The first turn whose initiator answers is found by a search: it answers, and none nearer the pointer does. -/
theorem rotation_findSome? {α : Type} (p : Initiator) (f : Initiator → Option α) {i : Initiator} {a : α}
    (hi : f i = some a) (hj : ∀ j : Initiator, (j - p).val < (i - p).val → f j = none) :
    (rotation p).findSome? f = some a := by
  have h0 : ∀ k : Initiator, k.val < (i - p).val → f (p + k) = none := fun k hk =>
    hj _ (by rw [sub_of_rotation]; exact hk)
  have h1 : f (p + (i - p)) = some a := by rw [rotation_of_sub]; exact hi
  clear hj hi
  generalize i - p = d at h0 h1
  have e0 := h0 0
  have e1 := h0 1
  have e2 := h0 2
  fin_cases d <;>
    simp_all [rotation]

/-- Where no turn's initiator answers, nothing is found. -/
theorem rotation_findSome?_none {α : Type} (p : Initiator) (f : Initiator → Option α) :
    (rotation p).findSome? f = none ↔ ∀ i : Initiator, f i = none := by
  rw [List.findSome?_eq_none_iff]
  exact ⟨fun h i => h i (mem_rotation p i), fun h i _ => h i⟩

/-! ## Entries -/

/-- A list of entries with one entry to a slot finds each entry by its slot. -/
theorem find_slot {es : List Entry} (h : (es.map Entry.slot).Nodup) {e : Entry} (he : e ∈ es) :
    es.find? (fun f => decide (f.slot = e.slot)) = some e := by
  induction es with
  | nil => cases he
  | cons f rest ih =>
    simp only [List.map_cons, List.nodup_cons, List.mem_map, not_exists, not_and] at h
    rcases List.mem_cons.mp he with rfl | hr
    · simp
    · have hne : f.slot ≠ e.slot := fun hc => h.1 e hr hc.symm
      rw [List.find?_cons_of_neg (by simpa using hne)]
      exact ih h.2 hr

/-- Two entries of a list with one entry to a slot are one where their slots are. -/
theorem slot_inj {es : List Entry} (h : (es.map Entry.slot).Nodup) {e f : Entry} (he : e ∈ es) (hf : f ∈ es)
    (hs : f.slot = e.slot) : f = e := by
  have h1 := find_slot h he
  have h2 := find_slot h hf
  rw [hs] at h2
  exact Option.some.inj (h2.symm.trans h1)

/-- A change of the entry at a slot keeps the slots. -/
theorem changeEntry_slots {es : List Entry} {slot : Slot} {f : Entry → Entry} (hf : ∀ e, (f e).slot = e.slot) :
    (changeEntry es slot f).map Entry.slot = es.map Entry.slot := by
  simp only [changeEntry, List.map_map]
  refine List.map_congr_left fun e _ => ?_
  by_cases h : e.slot = slot <;> simp [h, hf]

/-! ## Eligibility and choice -/

/-- R94: what an eligible entry is. -/
theorem eligible_iff (s : State) (e : Entry) :
    s.eligible e = true ↔
      ∃ x, e.body = .transfer x ∧ e.state = .waiting ∧
        (∀ f ∈ olderThan s.trk.entries e.slot, f.initiator = e.initiator → f.target ≠ some x.snapshot.target) ∧
        (s.tgt[x.snapshot.target].state = .online ∨ s.tgt[x.snapshot.target].state = .suspect) ∧
        s.pbe.recovery[x.snapshot.target] = 0 ∧ ∀ o ∈ s.handed.outcomes, o.1 ≠ x.snapshot.target := by
  cases hb : e.body with
  | flush r => simp [State.eligible, Entry.target, Entry.transfer, hb]
  | transfer x =>
    simp only [State.eligible, Entry.target, Entry.transfer, hb, Option.map_some, Tracker.heldBack, State.targetReady,
      State.outcomeMark, Bool.and_eq_true, decide_eq_true_eq, Bool.not_eq_true', List.any_eq_false, Bool.or_eq_true,
      EntryBody.transfer.injEq, exists_eq_left', not_and, and_assoc]

/-- A chosen entry is eligible and in the tracker. -/
theorem chosen_spec {s : State} {e : Entry} (h : s.chosen = some e) : e ∈ s.trk.entries ∧ s.eligible e = true := by
  simp only [State.chosen, List.findSome?_eq_some_iff] at h
  obtain ⟨_, i, _, _, h, _⟩ := h
  have h1 := List.find?_some h
  have h2 := List.mem_of_find?_eq_some h
  simp only [Bool.and_eq_true] at h1
  exact ⟨h2, h1.2⟩

/-- No entry is chosen exactly where none is eligible. -/
theorem chosen_none_iff (s : State) : s.chosen = none ↔ ∀ e ∈ s.trk.entries, s.eligible e = false := by
  simp only [State.chosen, rotation_findSome?_none, List.find?_eq_none, Bool.and_eq_true, decide_eq_true_eq, not_and,
    Bool.not_eq_true]
  exact ⟨fun h e he => h e.initiator e he rfl, fun h _ e he _ => h e he⟩

/-- An eligible entry is chosen where it is the oldest of its initiator and no initiator before it in the rotation has
one (R95). -/
theorem chosen_eq {s : State} {e : Entry} (hn : (s.trk.entries.map Entry.slot).Nodup) (he : e ∈ s.trk.entries)
    (h : s.eligible e = true)
    (h1 : ∀ f ∈ s.trk.entries, (f.initiator - s.pbe.pointer).val < (e.initiator - s.pbe.pointer).val →
      s.eligible f = false)
    (h2 : ∀ f ∈ olderThan s.trk.entries e.slot, f.initiator = e.initiator → s.eligible f = false) :
    s.chosen = some e := by
  refine rotation_findSome? (i := e.initiator) _ _ ?_ ?_
  · have key : ∀ es : List Entry, (es.map Entry.slot).Nodup → e ∈ es →
        (∀ f ∈ olderThan es e.slot, f.initiator = e.initiator → s.eligible f = false) →
        es.find? (fun f => decide (f.initiator = e.initiator) && s.eligible f) = some e := by
      intro es
      induction es with
      | nil => intro _ hm; cases hm
      | cons f rest ih =>
        intro hnd hm ho
        simp only [List.map_cons, List.nodup_cons, List.mem_map, not_exists, not_and] at hnd
        rcases List.mem_cons.mp hm with rfl | hr
        · rw [List.find?_cons_of_pos]
          simp [h]
        · have hne : f.slot ≠ e.slot := fun hc => hnd.1 e hr hc.symm
          have hold : olderThan (f :: rest) e.slot = f :: olderThan rest e.slot := by
            simp [olderThan, hne]
          rw [hold] at ho
          rw [List.find?_cons_of_neg]
          · exact ih hnd.2 hr fun g hg => ho g (List.mem_cons_of_mem _ hg)
          · simp only [Bool.and_eq_true, decide_eq_true_eq, not_and, Bool.not_eq_true]
            exact ho f (List.mem_cons_self ..)
    exact key _ hn he h2
  · intro j hj
    rw [List.find?_eq_none]
    intro f hf
    simp only [Bool.and_eq_true, decide_eq_true_eq, not_and, Bool.not_eq_true]
    rintro rfl
    exact h1 f hf hj

/-! ## One evaluation of the arbiter -/

/-- Everything one evaluation of the arbiter can do (R92, R93, R95). -/
theorem arbitrate_cases (s : State) :
    s.arbitrate = s ∨
      (s.power.boot = .running ∧ s.pbe.bus = .idle ∧ s.pins.extreq = true ∧
        s.arbitrate = { s with pbe := { s.pbe with bus := .lent, lendTimer := some 0, overrunMark := false } }) ∨
      ∃ (e : Entry) (x : Transfer),
        s.power.boot = .running ∧ s.pbe.bus = .idle ∧ s.pins.extreq = false ∧ s.chosen = some e ∧
          e.body = .transfer x ∧ e.state = .waiting ∧ e ∈ s.trk.entries ∧
          s.arbitrate =
            { s with
              trk :=
                { s.trk with
                  entries := changeEntry s.trk.entries e.slot fun f => { f with state := .inSegment false } }
              pbe :=
                { s.pbe with
                  pointer := e.initiator + 1
                  bus :=
                    .segment (beginCycle s.tgt[x.snapshot.target] x.data (contextOf e x s.pbe.segmentLimit)) } } := by
  unfold State.arbitrate
  by_cases h : s.power.boot = .running ∧ s.pbe.bus = .idle
  · rw [if_pos h]
    cases hx : s.pins.extreq with
    | true => exact Or.inr (Or.inl ⟨h.1, h.2, rfl, by simp [State.grantBus]⟩)
    | false =>
      cases hc : s.chosen with
      | none => exact Or.inl (by simp)
      | some e =>
        obtain ⟨hm, he⟩ := chosen_spec hc
        obtain ⟨x, hb, hw, _⟩ := (eligible_iff s e).mp he
        refine Or.inr (Or.inr ⟨e, x, h.1, h.2, rfl, rfl, hb, hw, hm, ?_⟩)
        simp [State.beginSegment, Entry.transfer, hb]
  · rw [if_neg h]; exact Or.inl rfl

/-- The arbiter changes nothing but the tracker's entries and the bus. -/
theorem arbitrate_frame (s : State) :
    s.arbitrate = { s with trk := { s.trk with entries := s.arbitrate.trk.entries }, pbe := s.arbitrate.pbe } := by
  rcases arbitrate_cases s with h | ⟨_, _, _, h⟩ | ⟨e, x, _, _, _, _, _, _, _, h⟩ <;> rw [h]

/-- An entry's state alone changes at an evaluation of the arbiter. -/
theorem arbitrate_entries (s : State) :
    ∃ f : Entry → EntryState, s.arbitrate.trk.entries = s.trk.entries.map fun e => { e with state := f e } := by
  rcases arbitrate_cases s with h | ⟨_, _, _, h⟩ | ⟨e, x, _, _, _, _, _, _, _, h⟩
  · exact ⟨Entry.state, by rw [h]; simp⟩
  · exact ⟨Entry.state, by rw [h]; simp⟩
  · refine ⟨fun f => if f.slot = e.slot then .inSegment false else f.state, ?_⟩
    rw [h]
    refine List.map_congr_left fun f _ => ?_
    by_cases hs : f.slot = e.slot <;> simp [hs]

@[simp] theorem arbitrate_power (s : State) : s.arbitrate.power = s.power := by rw [arbitrate_frame]
@[simp] theorem arbitrate_pins (s : State) : s.arbitrate.pins = s.pins := by rw [arbitrate_frame]
@[simp] theorem arbitrate_hlp (s : State) : s.arbitrate.hlp = s.hlp := by rw [arbitrate_frame]
@[simp] theorem arbitrate_wdc (s : State) : s.arbitrate.wdc = s.wdc := by rw [arbitrate_frame]
@[simp] theorem arbitrate_tgt (s : State) : s.arbitrate.tgt = s.tgt := by rw [arbitrate_frame]
@[simp] theorem arbitrate_irl (s : State) : s.arbitrate.irl = s.irl := by rw [arbitrate_frame]
@[simp] theorem arbitrate_mgb (s : State) : s.arbitrate.mgb = s.mgb := by rw [arbitrate_frame]
@[simp] theorem arbitrate_cfx (s : State) : s.arbitrate.cfx = s.cfx := by rw [arbitrate_frame]
@[simp] theorem arbitrate_handed (s : State) : s.arbitrate.handed = s.handed := by rw [arbitrate_frame]
@[simp] theorem arbitrate_pending (s : State) : s.arbitrate.pending = s.pending := by rw [arbitrate_frame]
@[simp] theorem arbitrate_trk_gate (s : State) : s.arbitrate.trk.gate = s.trk.gate := by rw [arbitrate_frame]
@[simp] theorem arbitrate_trk_faults (s : State) : s.arbitrate.trk.faults = s.trk.faults := by rw [arbitrate_frame]
@[simp] theorem arbitrate_trk_answers (s : State) : s.arbitrate.trk.answers = s.trk.answers := by rw [arbitrate_frame]
@[simp] theorem arbitrate_trk_detaches (s : State) : s.arbitrate.trk.detaches = s.trk.detaches := by
  rw [arbitrate_frame]
@[simp] theorem arbitrate_trk_nextSerial (s : State) : s.arbitrate.trk.nextSerial = s.trk.nextSerial := by
  rw [arbitrate_frame]

/-! ## The segment context -/

/-- What the beginning of a cycle changes: the run, to the next cycle of the list in its setup (R98). -/
theorem beginCycle_frame (record : TargetRecord) (data : List Byte) (c : SegmentContext) :
    beginCycle record data c = { c with run := (beginCycle record data c).run } := by
  unfold beginCycle
  cases c.cycles[c.next]? <;> rfl

@[simp] theorem beginCycle_slot (r : TargetRecord) (d : List Byte) (c : SegmentContext) :
    (beginCycle r d c).slot = c.slot := by rw [beginCycle_frame]
@[simp] theorem beginCycle_target (r : TargetRecord) (d : List Byte) (c : SegmentContext) :
    (beginCycle r d c).target = c.target := by rw [beginCycle_frame]
@[simp] theorem beginCycle_cycles (r : TargetRecord) (d : List Byte) (c : SegmentContext) :
    (beginCycle r d c).cycles = c.cycles := by rw [beginCycle_frame]
@[simp] theorem beginCycle_report (r : TargetRecord) (d : List Byte) (c : SegmentContext) :
    (beginCycle r d c).report = c.report := by rw [beginCycle_frame]

/-- What the end of a cycle keeps: the entry, the target and the cycle list (R97). -/
theorem endCycle_kept (c : SegmentContext) (r : CycleRun) (v : CycleResult) :
    (c.endCycle r v).slot = c.slot ∧ (c.endCycle r v).target = c.target ∧ (c.endCycle r v).cycles = c.cycles ∧
      (c.endCycle r v).report = c.report := by
  cases v with
  | timedOut => exact ⟨rfl, rfl, rfl, rfl⟩
  | completed taken =>
    simp only [SegmentContext.endCycle, SegmentContext.advance]
    cases r.spec.unitEnd <;> exact ⟨rfl, rfl, rfl, rfl⟩

/-- What the passage to the next cycle or to the report keeps; a report it hands names the entry's slot (R106). -/
theorem proceed_kept (c : SegmentContext) (r : TargetRecord) (d : List Byte) :
    (c.proceed r d).slot = c.slot ∧ (c.proceed r d).target = c.target ∧ (c.proceed r d).cycles = c.cycles ∧
      ((c.proceed r d).report = c.report ∨ ∃ q, (c.proceed r d).report = some q ∧ q.slot = c.slot) := by
  unfold SegmentContext.proceed
  split
  · exact ⟨rfl, rfl, rfl, Or.inr ⟨_, rfl, rfl⟩⟩
  · split
    · exact ⟨by simp, by simp, by simp, Or.inl (by simp)⟩
    · exact ⟨rfl, rfl, rfl, Or.inl rfl⟩

end Sys2Proof.Machine
end

