-- ==== Sys2Proof/Laws/Relay.lean ====
section
/-! SUPPORT. What the Interrupt Relay can do: pairs, the offer, and the four-notice limit. -/

namespace Sys2Proof.Machine

/-! ## Pairs -/

/-- Every pair of a delivery table with one pair replaced. -/
theorem pair_setPair (r : Relay) (src k : Source) (i j : Initiator) (p : PairState) :
    (r.setPair src i p).pair k j = if k = src ∧ j = i then p else r.pair k j := by
  have e : ∀ t : Relay, t.pair k j = t.pairs[k][j] := fun _ => rfl
  have e2 : (r.setPair src i p).pairs = r.pairs.set src (r.pairs[src].set i p) := rfl
  rw [e, e]
  have e3 : (r.setPair src i p).pairs[k] = if src = k then r.pairs[src].set i p else r.pairs[k] := by
    rw [e2, table_set_get]
  rw [e3]
  by_cases h : src = k
  · subst h
    by_cases h2 : i = j
    · subst h2; simp
    · rw [show (if src = src then r.pairs[src].set i p else r.pairs[src]) = r.pairs[src].set i p from if_pos rfl,
        table_set_other _ _ h2]
      exact (if_neg fun hc => h2 hc.2.symm).symm
  · rw [show (if src = k then r.pairs[src].set i p else r.pairs[k]) = r.pairs[k] from if_neg h]
    exact (if_neg fun hc => h hc.1.symm).symm

@[simp] theorem setPair_routes (r : Relay) (src : Source) (i : Initiator) (p : PairState) :
    (r.setPair src i p).routes = r.routes := rfl
@[simp] theorem setPair_thresholds (r : Relay) (src : Source) (i : Initiator) (p : PairState) :
    (r.setPair src i p).thresholds = r.thresholds := rfl
@[simp] theorem setPair_pointer (r : Relay) (src : Source) (i : Initiator) (p : PairState) :
    (r.setPair src i p).pointer = r.pointer := rfl
@[simp] theorem setPair_linkUp (r : Relay) (src : Source) (i : Initiator) (p : PairState) :
    (r.setPair src i p).linkUp = r.linkUp := rfl
@[simp] theorem setPair_destination (r : Relay) (src k : Source) (i : Initiator) (p : PairState) :
    (r.setPair src i p).destination k = r.destination k := rfl
@[simp] theorem setPair_priority (r : Relay) (src k : Source) (i : Initiator) (p : PairState) :
    (r.setPair src i p).priority k = r.priority k := rfl

/-- Replacing a pair by itself changes nothing. -/
theorem setPair_self (r : Relay) (src : Source) (i : Initiator) : r.setPair src i (r.pair src i) = r := by
  have h : (r.setPair src i (r.pair src i)).pairs = r.pairs := by
    refine table_ext fun k => table_ext fun j => ?_
    have := pair_setPair r src k i j (r.pair src i)
    simp only [Relay.pair] at this ⊢
    rw [this]
    split
    · rename_i hk; rw [hk.1, hk.2]
    · rfl
  cases r
  simp only [Relay.setPair] at h ⊢
  rw [h]

/-- An acknowledgement, link reset or detach leaves a pair IDLE, or PENDING where its line still asserts it. -/
theorem idleOrPending_eq (r : Relay) (pins : Pins) (src : Source) (i : Initiator) :
    r.idleOrPending pins src i =
      if src.val < 8 ∧ r.routes[src].destination = i ∧ lineOf pins src = true ∧ r.routes[src].priority ≠ 0 then .pending
      else .idle := by
  simp only [Relay.idleOrPending, Relay.repends, isLevel, Bool.and_eq_true, decide_eq_true_eq, and_assoc]
  rfl

/-- It leaves no pair NOTIFIED. -/
theorem idleOrPending_ne (r : Relay) (pins : Pins) (src : Source) (i : Initiator) :
    r.idleOrPending pins src i ≠ .notified := by
  unfold Relay.idleOrPending; split <;> decide

/-! ## Events and clearings (R133, R143) -/

/-- Everything the taking of an event does: the pair it reaches is PENDING where it was IDLE and the source's priority is
not 0; nothing else of the relay changes (R133). -/
theorem Relay.takeEvent_pair (r : Relay) (e : NoticeEvent) (k : Source) (j : Initiator) :
    (r.takeEvent e).pair k j =
      if k = eventSourceOf e ∧ j = r.reached e ∧ r.priority k ≠ 0 ∧ r.pair k j = .idle then .pending else r.pair k j := by
  unfold Relay.takeEvent
  by_cases h : r.priority (eventSourceOf e) ≠ 0 ∧ r.pair (eventSourceOf e) (r.reached e) = .idle
  · rw [if_pos h, pair_setPair]
    by_cases hk : k = eventSourceOf e ∧ j = r.reached e
    · rw [if_pos hk, if_pos ⟨hk.1, hk.2, by rw [hk.1]; exact h.1, by rw [hk.1, hk.2]; exact h.2⟩]
    · rw [if_neg hk, if_neg fun hc => hk ⟨hc.1, hc.2.1⟩]
  · rw [if_neg h, if_neg]
    rintro ⟨rfl, rfl, h1⟩
    exact h h1

/-- The taking of an event changes the delivery table alone. -/
theorem Relay.takeEvent_frame (r : Relay) (e : NoticeEvent) : r.takeEvent e = { r with pairs := (r.takeEvent e).pairs } := by
  unfold Relay.takeEvent; dsimp only; split <;> rfl

/-- Everything a clearing does: a PENDING source 8 pair of its initiator is IDLE (R143). -/
theorem Relay.withdrawFault_pair (r : Relay) (i : Initiator) (k : Source) (j : Initiator) :
    (r.withdrawFault i).pair k j = if k = 8 ∧ j = i ∧ r.pair k j = .pending then .idle else r.pair k j := by
  unfold Relay.withdrawFault
  by_cases h : r.pair 8 i = .pending
  · rw [if_pos h, pair_setPair]
    by_cases hk : k = 8 ∧ j = i
    · rw [if_pos hk, if_pos ⟨hk.1, hk.2, by rw [hk.1, hk.2]; exact h⟩]
    · rw [if_neg hk, if_neg fun hc => hk ⟨hc.1, hc.2.1⟩]
  · rw [if_neg h, if_neg]
    rintro ⟨rfl, rfl, h1⟩
    exact h h1

/-- A clearing changes the delivery table alone. -/
theorem Relay.withdrawFault_frame (r : Relay) (i : Initiator) :
    r.withdrawFault i = { r with pairs := (r.withdrawFault i).pairs } := by
  unfold Relay.withdrawFault; split <;> rfl

/-- Events without `e` are left as they are. -/
theorem eraseOldest_of_not_mem {e : NoticeEvent} : ∀ {n : Nat} {l : List NoticeEvent}, e ∉ l → eraseOldest e n l = l
  | 0, _, _ => rfl
  | n + 1, l, h => by rw [eraseOldest, List.erase_of_not_mem h, eraseOldest_of_not_mem h]

/-- The oldest events equal to `e` taken: those of the part of the list that holds just as many (R143). -/
theorem eraseOldest_append (e : NoticeEvent) : ∀ (n : Nat) (old new : List NoticeEvent), old.count e = n →
    eraseOldest e n (old ++ new) = (old.filter fun x => decide (x ≠ e)) ++ new := by
  intro n
  induction n with
  | zero =>
    intro old new h
    rw [List.count_eq_zero] at h
    have hf : ∀ x ∈ old, decide (x ≠ e) = true := fun x hx => decide_eq_true fun hc => h (hc ▸ hx)
    rw [eraseOldest, List.filter_eq_self.mpr hf]
  | succ n ih =>
    intro old new h
    have hm : e ∈ old := List.count_pos_iff.mp (by omega)
    rw [eraseOldest, List.erase_append_left _ hm, ih _ _ (by rw [List.count_erase_self, h]; omega)]
    congr 1
    obtain ⟨a, b, hn, rfl, he⟩ := List.exists_erase_eq hm
    rw [he]; simp

/-- The clearings that stand behind others of other initiators are found. -/
theorem find_clearing {i : Initiator} {n : Nat} {before rest : List Clearing} (h : ∀ c ∈ before, c.initiator ≠ i) :
    ((before ++ ⟨i, n⟩ :: rest).find? fun c => decide (c.initiator = i)) = some ⟨i, n⟩ ∧
      (before ++ ⟨i, n⟩ :: rest).erase ⟨i, n⟩ = before ++ rest := by
  constructor
  · rw [List.find?_append, List.find?_eq_none.mpr fun c hc => by simpa using h c hc]; simp
  · rw [List.erase_append_right _ fun hc => h _ hc rfl, List.erase_cons_head]

/-- What is handed to the IRL after an event is taken from behind others. -/
theorem takeEvent_eq (h : Handed) {e : NoticeEvent} {before rest : List NoticeEvent} (hh : h.events = before ++ e :: rest)
    (hb : e ∉ before) :
    h.takeEvent e = { h with events := before ++ rest, withdrawals := h.withdrawals.map (Clearing.taken e 1) } := by
  rw [Handed.takeEvent, hh, List.erase_append_right _ hb, List.erase_cons_head]

/-- What is handed to the IRL after the oldest clearing of an initiator is taken, with the events that stood before it. -/
theorem takeClearing_eq (h : Handed) {i : Initiator} {n : Nat} {before rest : List Clearing} {old new : List NoticeEvent}
    (hw : h.withdrawals = before ++ ⟨i, n⟩ :: rest) (hb : ∀ c ∈ before, c.initiator ≠ i) (he : h.events = old ++ new)
    (hn : old.count (.postedFault i) = n) :
    h.takeClearing ⟨i, n⟩ =
      { h with
        events := (old.filter fun e => decide (e ≠ .postedFault i)) ++ new
        withdrawals := (before ++ rest).map fun c => if c.initiator = i then { c with older := c.older - n } else c } := by
  rw [Handed.takeClearing, he, eraseOldest_append _ _ _ _ hn, hw, (find_clearing hb).2]
  congr 1
  refine List.map_congr_left fun c _ => ?_
  simp only [Clearing.taken, NoticeEvent.postedFault.injEq, eq_comm]

@[simp] theorem takeEvent_outcomes (h : Handed) (e : NoticeEvent) : (h.takeEvent e).outcomes = h.outcomes := rfl
@[simp] theorem takeEvent_announcements (h : Handed) (e : NoticeEvent) : (h.takeEvent e).announcements = h.announcements := rfl
@[simp] theorem takeEvent_irlDetaches (h : Handed) (e : NoticeEvent) : (h.takeEvent e).irlDetaches = h.irlDetaches := rfl
@[simp] theorem takeEvent_mgbDetaches (h : Handed) (e : NoticeEvent) : (h.takeEvent e).mgbDetaches = h.mgbDetaches := rfl
@[simp] theorem takeEvent_trkResets (h : Handed) (e : NoticeEvent) : (h.takeEvent e).trkResets = h.trkResets := rfl
@[simp] theorem takeEvent_mgbResets (h : Handed) (e : NoticeEvent) : (h.takeEvent e).mgbResets = h.mgbResets := rfl
@[simp] theorem takeEvent_irlNews (h : Handed) (e : NoticeEvent) : (h.takeEvent e).irlNews = h.irlNews := rfl
@[simp] theorem takeClearing_outcomes (h : Handed) (c : Clearing) : (h.takeClearing c).outcomes = h.outcomes := rfl
@[simp] theorem takeClearing_announcements (h : Handed) (c : Clearing) : (h.takeClearing c).announcements = h.announcements := rfl
@[simp] theorem takeClearing_irlDetaches (h : Handed) (c : Clearing) : (h.takeClearing c).irlDetaches = h.irlDetaches := rfl
@[simp] theorem takeClearing_mgbDetaches (h : Handed) (c : Clearing) : (h.takeClearing c).mgbDetaches = h.mgbDetaches := rfl
@[simp] theorem takeClearing_trkResets (h : Handed) (c : Clearing) : (h.takeClearing c).trkResets = h.trkResets := rfl
@[simp] theorem takeClearing_mgbResets (h : Handed) (c : Clearing) : (h.takeClearing c).mgbResets = h.mgbResets := rfl
@[simp] theorem takeClearing_irlNews (h : Handed) (c : Clearing) : (h.takeClearing c).irlNews = h.irlNews := rfl

/-! ## What a COMMIT takes first (R133, R146, R189) -/

@[simp] theorem State.takeEvent_irl (s : State) (e : NoticeEvent) : (s.takeEvent e).irl = s.irl.takeEvent e := rfl
@[simp] theorem State.takeEvent_handed (s : State) (e : NoticeEvent) : (s.takeEvent e).handed = s.handed.takeEvent e := rfl

/-- Events found untaken, taken one by one: the other parts of the state, what else is handed, and all of the relay but its
delivery table are as before. -/
theorem foldl_takeEvent_frame : ∀ (l : List NoticeEvent) (s : State),
    l.foldl State.takeEvent s =
      { s with
        irl := { s.irl with pairs := (l.foldl State.takeEvent s).irl.pairs }
        handed :=
          { s.handed with
            events := l.foldl List.erase s.handed.events
            withdrawals :=
              s.handed.withdrawals.map fun c => { c with older := c.older - l.count (.postedFault c.initiator) } } }
  | [], s => by simp
  | e :: l, s => by
    rw [List.foldl_cons, foldl_takeEvent_frame l (s.takeEvent e), State.takeEvent_irl, Relay.takeEvent_frame]
    simp only [State.takeEvent, Handed.takeEvent, List.map_map, List.foldl_cons, List.count_cons]
    congr 2
    refine List.map_congr_left fun c _ => ?_
    by_cases h : e = .postedFault c.initiator <;> simp [Clearing.taken, h, Nat.sub_sub, Nat.add_comm]

/-- Every pair after events are taken one by one: PENDING where it was IDLE, its source's priority is not 0 and one of the
events reaches it (R133). -/
theorem foldl_takeEvent_pair (k : Source) (j : Initiator) : ∀ (l : List NoticeEvent) (s : State),
    (l.foldl State.takeEvent s).irl.pair k j =
      if s.irl.priority k ≠ 0 ∧ s.irl.pair k j = .idle ∧ ∃ e ∈ l, eventSourceOf e = k ∧ s.irl.reached e = j then .pending
      else s.irl.pair k j
  | [], s => by simp
  | e :: l, s => by
    have hr : ∀ x, (s.irl.takeEvent e).reached x = s.irl.reached x := by
      intro x; rw [Relay.takeEvent_frame]; cases x <;> rfl
    have hp : (s.irl.takeEvent e).priority k = s.irl.priority k := by rw [Relay.takeEvent_frame]; rfl
    rw [List.foldl_cons, foldl_takeEvent_pair k j l (s.takeEvent e), State.takeEvent_irl, Relay.takeEvent_pair, hp]
    simp only [hr, List.exists_mem_cons_iff]
    by_cases h : s.irl.priority k ≠ 0 ∧ s.irl.pair k j = .idle
    · by_cases h2 : k = eventSourceOf e ∧ j = s.irl.reached e
      · simp [h, h2.1.symm, h2.2.symm]
      · have h3 : ¬(eventSourceOf e = k ∧ s.irl.reached e = j) := fun hc => h2 ⟨hc.1.symm, hc.2.symm⟩
        have h4 : ∀ q, ¬(k = eventSourceOf e ∧ j = s.irl.reached e ∧ q) := fun q hc => h2 ⟨hc.1, hc.2.1⟩
        simp only [h4, h3, if_false, false_or]
    · have h4 : ¬(k = eventSourceOf e ∧ j = s.irl.reached e ∧ s.irl.priority k ≠ 0 ∧ s.irl.pair k j = .idle) :=
        fun hc => h ⟨hc.2.2.1, hc.2.2.2⟩
      simp only [h4, if_false]
      rw [if_neg fun hc => h ⟨hc.1, hc.2.1⟩, if_neg fun hc => h ⟨hc.1, hc.2.1⟩]

/-- The events that a test picks, erased one by one: the others stay in their order. -/
theorem foldl_erase_filter (p : NoticeEvent → Bool) : ∀ l : List NoticeEvent,
    (l.filter p).foldl List.erase l = l.filter fun e => !p e
  | [] => rfl
  | e :: l => by
    have hc : ∀ (xs m : List NoticeEvent), (∀ x ∈ xs, p x = true) → p e = false →
        xs.foldl List.erase (e :: m) = e :: xs.foldl List.erase m := by
      intro xs
      induction xs with
      | nil => intro m _ _; rfl
      | cons x xs ih =>
        intro m hx he
        have hne : e ≠ x := by rintro rfl; rw [hx e (List.mem_cons_self ..)] at he; cases he
        rw [List.foldl_cons, List.erase_cons_tail (by simpa using hne),
          ih _ (fun y hy => hx y (List.mem_cons_of_mem _ hy)) he, List.foldl_cons]
    cases he : p e with
    | true => simp only [List.filter_cons, he, if_true, List.foldl_cons, List.erase_cons_head]
              simpa using foldl_erase_filter p l
    | false =>
      simp only [List.filter_cons, he, Bool.not_false, if_true, Bool.false_eq_true, if_false]
      rw [hc _ _ (fun x hx => (List.mem_filter.mp hx).2) he, foldl_erase_filter p l]

/-- Everything a COMMIT does with the events it finds due, before its pass: those of source 11 and those whose source has
priority 0 are no longer handed, an older clearing counts those of source 8 no more, and an IDLE source 11 pair that one of
them reaches is PENDING where the priority of source 11 is not 0. -/
theorem takeDueEvents_eq (s : State) :
    s.takeDueEvents =
      { s with
        irl :=
          { s.irl with
            pairs := tabulate fun k => tabulate fun j =>
              if k = 11 ∧ s.irl.priority 11 ≠ 0 ∧ s.irl.pair k j = .idle ∧ .mailboxResult j ∈ s.handed.events then
                .pending
              else s.irl.pair k j }
        handed :=
          { s.handed with
            events :=
              s.handed.events.filter fun e => decide (eventSourceOf e ≠ 11 ∧ s.irl.priority (eventSourceOf e) ≠ 0)
            withdrawals :=
              s.handed.withdrawals.map fun c =>
                if s.irl.priority 8 = 0 then
                  { c with older := c.older - s.handed.events.count (.postedFault c.initiator) }
                else c } } := by
  have hp : ((s.handed.events.filter s.irl.dueAtCommit).foldl State.takeEvent s).irl.pairs =
      tabulate fun k => tabulate fun j =>
        if k = 11 ∧ s.irl.priority 11 ≠ 0 ∧ s.irl.pair k j = .idle ∧ .mailboxResult j ∈ s.handed.events then .pending
        else s.irl.pair k j := by
    refine table_ext fun k => table_ext fun j => (foldl_takeEvent_pair k j _ s).trans ?_
    rw [tabulate_get, tabulate_get]
    refine if_congr ⟨?_, ?_⟩ rfl rfl
    · rintro ⟨h0, h1, e, he, rfl, hj⟩
      obtain ⟨hm, hd⟩ := List.mem_filter.mp he
      have hs : eventSourceOf e = 11 := by simpa [Relay.dueAtCommit, h0] using hd
      refine ⟨hs, hs ▸ h0, h1, ?_⟩
      cases e with
      | mailboxResult i => obtain rfl : i = j := hj; exact hm
      | _ => exact absurd hs (by simp [eventSourceOf])
    · rintro ⟨rfl, h0, h1, hm⟩
      exact ⟨h0, h1, _, List.mem_filter.mpr ⟨hm, by simp [Relay.dueAtCommit, eventSourceOf]⟩, rfl, rfl⟩
  have hw : ∀ c : Clearing,
      ({ c with older := c.older - (s.handed.events.filter s.irl.dueAtCommit).count (.postedFault c.initiator) } : Clearing) =
        if s.irl.priority 8 = 0 then { c with older := c.older - s.handed.events.count (.postedFault c.initiator) }
        else c := by
    intro c
    by_cases h : s.irl.priority 8 = 0
    · rw [if_pos h, List.count_filter (by simp [Relay.dueAtCommit, eventSourceOf, h])]
    · rw [if_neg h, List.count_eq_zero.mpr fun hc => ?_, Nat.sub_zero]
      simpa [Relay.dueAtCommit, eventSourceOf, h] using (List.mem_filter.mp hc).2
  have he : (fun e => !s.irl.dueAtCommit e) =
      fun e => decide (eventSourceOf e ≠ 11 ∧ s.irl.priority (eventSourceOf e) ≠ 0) := by
    funext e; simp [Relay.dueAtCommit]
  rw [State.takeDueEvents, foldl_takeEvent_frame, foldl_erase_filter, hp, he]
  simp only [hw]

/-! ## The offer -/

/-- The source found by going through sources in rising order and keeping the better (R135). -/
theorem foldl_better (r : Relay) : ∀ (l : List Source) (b : Source), (∀ k ∈ l, b ≤ k) → l.Pairwise (· ≤ ·) →
    ∃ c, l.foldl r.better (some b) = some c ∧ c ∈ b :: l ∧
      ∀ k ∈ b :: l, r.priority k < r.priority c ∨ (r.priority k = r.priority c ∧ c ≤ k) := by
  intro l
  induction l with
  | nil =>
    intro b _ _
    exact ⟨b, rfl, List.mem_cons_self .., fun k hk => by
      rw [List.mem_singleton] at hk; rw [hk]; exact Or.inr ⟨rfl, le_refl _⟩⟩
  | cons a l ih =>
    intro b hb hp
    rw [List.pairwise_cons] at hp
    simp only [List.foldl_cons, Relay.better]
    have hba := hb a (List.mem_cons_self ..)
    by_cases h : r.priority b < r.priority a
    · rw [if_pos h]
      obtain ⟨c, h1, h2, h3⟩ := ih a hp.1 hp.2
      refine ⟨c, h1, List.mem_cons_of_mem _ h2, fun k hk => ?_⟩
      rcases List.mem_cons.mp hk with rfl | hk
      · rcases h3 a (List.mem_cons_self ..) with h4 | h4
        · exact Or.inl (lt_trans h h4)
        · exact Or.inl (h4.1 ▸ h)
      · exact h3 k hk
    · rw [if_neg h]
      obtain ⟨c, h1, h2, h3⟩ := ih b (fun k hk => hb k (List.mem_cons_of_mem _ hk)) hp.2
      refine ⟨c, h1, ?_, fun k hk => ?_⟩
      · rcases List.mem_cons.mp h2 with h2 | h2
        · rw [h2]; exact List.mem_cons_self ..
        · exact List.mem_cons_of_mem _ (List.mem_cons_of_mem _ h2)
      · rcases List.mem_cons.mp hk with rfl | hk
        · exact h3 k (List.mem_cons_self ..)
        · rcases List.mem_cons.mp hk with rfl | hk
          · rcases h3 b (List.mem_cons_self ..) with h4 | h4
            · exact Or.inl (lt_of_le_of_lt (not_lt.mp h) h4)
            · rcases lt_or_eq_of_le (not_lt.mp h) with h5 | h5
              · exact Or.inl (h4.1 ▸ h5)
              · exact Or.inr ⟨h5.trans h4.1, le_trans h4.2 hba⟩
          · exact h3 k (List.mem_cons_of_mem _ hk)

/-- What an initiator's best source is: sendable, of highest priority, the lowest among equals (R135). -/
theorem bestSource_spec (r : Relay) (i : Initiator) :
    (r.bestSource i = none ∧ ∀ k, r.sendable k i = false) ∨
      ∃ c, r.bestSource i = some c ∧ r.sendable c i = true ∧
        ∀ k, r.sendable k i = true → r.priority k < r.priority c ∨ (r.priority k = r.priority c ∧ c ≤ k) := by
  have hs : ((List.finRange 12).filter fun src => r.sendable src i).Pairwise (· ≤ ·) :=
    List.Pairwise.filter _ ((List.pairwise_lt_finRange 12).imp le_of_lt)
  have hm : ∀ k : Source, k ∈ ((List.finRange 12).filter fun src => r.sendable src i) ↔ r.sendable k i = true := by
    intro k; simp [List.mem_filter, List.mem_finRange]
  unfold Relay.bestSource
  generalize ((List.finRange 12).filter fun src => r.sendable src i) = l at hs hm
  cases l with
  | nil =>
    left
    refine ⟨rfl, fun k => ?_⟩
    have := (hm k).not.mp (List.not_mem_nil)
    simpa using this
  | cons a l =>
    right
    rw [List.pairwise_cons] at hs
    obtain ⟨c, h1, h2, h3⟩ := foldl_better r l a hs.1 hs.2
    exact ⟨c, h1, (hm c).mp h2, fun k hk => h3 k ((hm k).mpr hk)⟩

/-- A pair is sendable where the four conditions of R134 hold. -/
theorem sendable_iff (r : Relay) (src : Source) (i : Initiator) :
    r.sendable src i = true ↔
      r.pair src i = .pending ∧ r.thresholds[i] < r.priority src ∧ r.outstanding i < Config.outstandingNotices ∧
        r.linkUp = true := by
  simp only [Relay.sendable, Bool.and_eq_true, decide_eq_true_eq, and_assoc]

/-- Where no pair is sendable, none is offered (R135). -/
theorem offer_none {r : Relay} (h : ∀ (src : Source) (i : Initiator), r.sendable src i = false) : r.offer = none := by
  rw [Relay.offer, List.findSome?_eq_none_iff]
  intro i _
  simp [Relay.bestSource, h]

/-- The pair offered is sendable, and the outstanding notices of its initiator are fewer than four (R134, R135). -/
theorem offer_sendable {r : Relay} {i : Initiator} {src : Source} (h : r.offer = some (i, src)) :
    r.sendable src i = true := by
  simp only [Relay.offer, List.findSome?_eq_some_iff, Option.map_eq_some_iff] at h
  obtain ⟨_, j, _, _, ⟨c, hc, he⟩, _⟩ := h
  simp only [Prod.mk.injEq] at he
  obtain ⟨rfl, rfl⟩ := he
  rcases bestSource_spec r j with ⟨h1, _⟩ | ⟨d, h1, h2, _⟩
  · rw [h1] at hc; cases hc
  · rw [h1] at hc; cases hc; exact h2

/-! ## Outstanding notices (R134) -/

/-- The outstanding notices rise by no more than the pairs that become NOTIFIED. -/
theorem outstanding_mono {r q : Relay} {i : Initiator} (h : ∀ k, q.pair k i = .notified → r.pair k i = .notified) :
    q.outstanding i ≤ r.outstanding i := by
  simp only [Relay.outstanding]
  refine List.Sublist.length_le ?_
  have h2 : ((List.finRange 12).filter fun k => decide (q.pair k i = .notified)) =
      ((List.finRange 12).filter fun k => decide (r.pair k i = .notified)).filter
        fun k => decide (q.pair k i = .notified) := by
    rw [List.filter_filter]
    refine List.filter_congr fun k _ => ?_
    by_cases hq : q.pair k i = .notified
    · simp [hq, h k hq]
    · simp [hq]
  rw [h2]
  exact List.filter_sublist

/-- One pair of an initiator becomes NOTIFIED: its outstanding notices rise by one at most. -/
theorem outstanding_handed (r : Relay) (i j : Initiator) (src : Source) :
    (r.handed i src).outstanding j ≤ r.outstanding j + if j = i then 1 else 0 := by
  have hp : ∀ k j, (r.handed i src).pair k j = if k = src ∧ j = i then .notified else r.pair k j := fun k j =>
    pair_setPair r src k i j .notified
  by_cases h : j = i
  · subst h
    simp only [Relay.outstanding, hp, and_true]
    have key : ∀ l : List Source, l.Nodup →
        (l.filter fun k => decide ((if k = src then PairState.notified else r.pair k j) = .notified)).length ≤
          (l.filter fun k => decide (r.pair k j = .notified)).length + 1 := by
      intro l
      induction l with
      | nil => intro _; simp
      | cons a l ih =>
        intro hn
        rw [List.nodup_cons] at hn
        by_cases ha : a = src
        · subst ha
          have : (l.filter fun k => decide ((if k = a then PairState.notified else r.pair k j) = .notified)) =
              l.filter fun k => decide (r.pair k j = .notified) := by
            refine List.filter_congr fun k hk => ?_
            have : k ≠ a := fun hc => hn.1 (hc ▸ hk)
            simp [this]
          rw [List.filter_cons, List.filter_cons, this]
          simp only [if_true, decide_true, List.length_cons]
          split <;> simp
        · have := ih hn.2
          by_cases hr : r.pair a j = .notified <;> simp [ha, hr] at this ⊢ <;> omega
    exact key _ (List.nodup_finRange 12)
  · rw [if_neg h]
    refine outstanding_mono fun k hk => ?_
    rw [hp, if_neg (by tauto)] at hk
    exact hk

end Sys2Proof.Machine
end

