-- ==== Sys2Proof/Laws/Link.lean ====
section
/-! SUPPORT. Who waits for a place of the transmit queue; the requests at the head of the receive queue: consistency, the command that takes one, and the taking. -/

namespace Sys2Proof.Machine

/-! ## Who waits for a place (R126) -/

/-- The rotation gives a place to a block exactly where one holds a packet ready. -/
theorem placeWinner_isSome (s : State) : s.placeWinner.isSome = true ↔ s.PacketWaits := by
  have hr : (s.ready .trk = true ∨ s.ready .mgb = true ∨ s.ready .irl = true) ↔ s.PacketWaits := by
    simp [State.ready, State.PacketWaits, and_assoc]
  rw [← hr, State.placeWinner]
  cases s.hlp.pointer <;> simp only [OutBlock.next, List.find?_isSome, List.mem_cons, List.not_mem_nil, or_false,
    exists_eq_or_imp, exists_eq_left] <;> tauto

/-- Settling keeps a place for the rotation while a block waits for it, and changes nothing else. -/
theorem settlePlace_settled (s : State) : s.PlaceSettled s.settlePlace := by
  show (s.hlp.contended && s.placeWinner.isSome) = true ↔ s.hlp.contended = true ∧ s.PacketWaits
  rw [Bool.and_eq_true, placeWinner_isSome]

/-! ## Consistency (R48) -/

/-- A READ's fields agree. -/
theorem consistent_read {r : Request} (h : r.kind = .read) :
    r.consistent = (decide (1 ≤ r.length) && decide (r.length ≤ 64) && r.payload.isEmpty) := by
  simp only [Request.consistent, h]

/-- A WRITE's fields agree. -/
theorem consistent_write {r : Request} (h : r.kind = .write) :
    r.consistent = (decide (1 ≤ r.length) && decide (r.length ≤ 64) && decide (r.payload.length = r.length)) := by
  simp only [Request.consistent, h]

/-- A POSTED request's fields agree. -/
theorem consistent_posted {r : Request} (h : r.kind = .posted) :
    r.consistent = (decide (1 ≤ r.length) && decide (r.length ≤ 64) && decide (r.payload.length = r.length)) := by
  simp only [Request.consistent, h]

/-- A FLUSH's or DETACH's fields agree. -/
theorem consistent_entryless {r : Request} (h : r.kind = .flush ∨ r.kind = .detach) :
    r.consistent = r.payload.isEmpty := by
  rcases h with h | h <;> simp only [Request.consistent, h]

/-- The two forms of R48 agree. -/
theorem consistent_eq_fieldsAgree (r : Request) : r.consistent = r.fieldsAgree := by
  have he : r.payload.isEmpty = decide (r.payload.length = 0) := by
    cases r.payload <;> rfl
  cases h : r.kind <;>
    simp only [Request.consistent, Request.fieldsAgree, h, he, Bool.decide_and, Bool.and_assoc]

/-! ## Which command takes the head (R122, R124) -/

/-- The head of the receive queue is taken by its command where its block has room. -/
theorem headFor_eq {s : State} {r : Request} {rest : List Request} {c : HeadClass} (h : s.hlp.receive = r :: rest)
    (hc : headClass r = c) (ht : s.canTake c = true) : s.headFor c = some r := by
  simp only [State.headFor, h, hc, ht, and_self, if_true]

/-- What it means that a command finds a request at the head. -/
theorem headFor_some {s : State} {r : Request} {c : HeadClass} (h : s.headFor c = some r) :
    s.hlp.receive = r :: s.hlp.receive.tail ∧ headClass r = c ∧ s.canTake c = true := by
  unfold State.headFor at h
  cases hr : s.hlp.receive with
  | nil => rw [hr] at h; cases h
  | cons q rest =>
    rw [hr] at h
    simp only at h
    by_cases hq : headClass q = c ∧ s.canTake c = true
    · rw [if_pos hq] at h
      cases h
      exact ⟨rfl, hq.1, hq.2⟩
    · rw [if_neg hq] at h; cases h

/-- A tracker command needs an entryless place. -/
theorem canTake_tracker {s : State} {c : HeadClass} (h : c.isTracker = true) :
    s.canTake c = true ↔ s.trk.entryless < 8 := by
  simp only [State.canTake, h, if_true, decide_eq_true_eq]

/-- A management command needs a held-answer place. -/
theorem canTake_management {s : State} {c : HeadClass} (h : c.isTracker = false) :
    s.canTake c = true ↔ s.mgb.answers.length < 4 := by
  simp only [State.canTake, h, Bool.false_eq_true, if_false, decide_eq_true_eq]

/-- The kind of request that a tracker command takes. -/
theorem headClass_tracker {r : Request} :
    (headClass r = .read → r.kind = .read ∧ r.inManagement = false) ∧
      (headClass r = .write → r.kind = .write ∧ r.inManagement = false) ∧
      (headClass r = .posted → r.kind = .posted ∧ r.inManagement = false) ∧
      (headClass r = .flush → r.kind = .flush) ∧ (headClass r = .detach → r.kind = .detach) ∧
      (headClass r = .unknownKind → r.kind = .unknown) := by
  have h1 : ∀ f c, managementReadClass f = c → c = .claim ∨ c = .managementRead := by
    intro f c; unfold managementReadClass; split <;> rintro rfl <;> simp
  have h2 : ∀ f c, managementWriteClass f = c →
      c = .submit ∨ c = .release ∨ c = .noticeAck ∨ c = .requestBufferWrite ∨ c = .managementWrite := by
    intro f c; unfold managementWriteClass; split <;> rintro rfl <;> simp
  unfold headClass
  cases r.kind <;> cases hm : r.inManagement <;> simp
  · exact ⟨fun h => by simpa using h1 _ _ h, fun h => by simpa using h1 _ _ h, fun h => by simpa using h1 _ _ h,
      fun h => by simpa using h1 _ _ h, fun h => by simpa using h1 _ _ h, fun h => by simpa using h1 _ _ h⟩
  · exact ⟨fun h => by simpa using h2 _ _ h, fun h => by simpa using h2 _ _ h, fun h => by simpa using h2 _ _ h,
      fun h => by simpa using h2 _ _ h, fun h => by simpa using h2 _ _ h, fun h => by simpa using h2 _ _ h⟩

/-- The offset of an access to management space. -/
theorem offset_eq {r : Request} {o : Nat} (h : r.address.toNat = 0xFFF000 + o) :
    r.offset = o ∧ r.inManagement = true := by
  constructor
  · have := r.address.isLt
    simp only [Request.offset]
    omega
  · simp only [Request.inManagement, Config.managementBase, h]
    exact decide_eq_true (Nat.le_add_right _ _)

/-- A WRITE of a form its location accepts is taken by the command of the location (R147, R148). -/
theorem accepted_write {s : State} {r : Request} {rest : List Request} {o n : Nat} (place : Place)
    (h : HeadForManagement s r rest) (h2 : r.IsManagementWrite o n) (hn : 1 ≤ n) (hn2 : n ≤ 64)
    (hp : placeAt o = some place) (ha : acceptedForm place false o n = true) :
    accessForm r = .accepted place ∧ s.headFor (managementWriteClass (.accepted place)) = some r := by
  obtain ⟨h3, h4, h5, h6⟩ := h2
  obtain ⟨ho, hm⟩ := offset_eq h4
  have hc : r.consistent = true := by
    rw [consistent_write h3]; simp only [h6, h5, decide_true, hn, hn2, Bool.and_self]
  have hk : decide (r.kind = .read) = false := by rw [h3]; rfl
  have hf : accessForm r = .accepted place := by
    simp [accessForm, ho, hp, hc, hk, h5, ha]
  refine ⟨hf, headFor_eq h.1 ?_ ?_⟩
  · simp [headClass, h3, hm, hf]
  · rw [canTake_management]
    · exact h.2
    · cases place <;> rfl

/-- A READ of a form its location accepts is taken by the command of the location (R147, R148). -/
theorem accepted_read {s : State} {r : Request} {rest : List Request} {o n : Nat} (place : Place)
    (h : HeadForManagement s r rest) (h2 : r.IsManagementRead o n) (hn : 1 ≤ n) (hn2 : n ≤ 64)
    (hp : placeAt o = some place) (ha : acceptedForm place true o n = true) :
    accessForm r = .accepted place ∧ s.headFor (managementReadClass (.accepted place)) = some r := by
  obtain ⟨h3, h4, h5, h6⟩ := h2
  obtain ⟨ho, hm⟩ := offset_eq h4
  have hc : r.consistent = true := by rw [consistent_read h3]; simp [h6, h5, hn, hn2]
  have hk : decide (r.kind = .read) = true := by rw [h3]; rfl
  have hf : accessForm r = .accepted place := by
    simp [accessForm, ho, hp, hc, hk, h5, ha]
  refine ⟨hf, headFor_eq h.1 ?_ ?_⟩
  · simp [headClass, h3, hm, hf]
  · rw [canTake_management]
    · exact h.2
    · cases place <;> rfl

/-- The taking of a management access with its answer. -/
theorem answerAccess_eq {s : State} {r : Request} {rest : List Request} (h : s.hlp.receive = r :: rest) (a : Response) :
    s.answerAccess a = s.managementAnswered rest a := by
  simp only [State.answerAccess, State.managementAnswered, State.popHead, h, List.tail_cons]

end Sys2Proof.Machine
end

