-- ==== Sys2Proof/Laws/Entries.lean ====
section
/-! SUPPORT. Lists of tracker entries: what an entry's identity decides, and what each shared operation on the tracker does
to the entries (departure, the change of one entry, the judging of FLUSH entries). -/

namespace Sys2Proof.Machine

/-! ## Identity -/

/-- What the identity of an entry decides. -/
theorem identity_eq {e f : Entry} (h : e.identity = f.identity) :
    e.slot = f.slot ∧ e.serial = f.serial ∧ e.initiator = f.initiator ∧ e.tag = f.tag ∧ e.isPosted = f.isPosted ∧
      e.isFlush = f.isFlush ∧ e.usedTag = f.usedTag ∧ e.target = f.target ∧ ∀ w, e.refersTo w = f.refersTo w := by
  simp only [Entry.identity, Prod.mk.injEq] at h
  obtain ⟨h1, h2, h3, h4, h5⟩ := h
  have hp : e.isPosted = f.isPosted ∧ e.isFlush = f.isFlush ∧ e.target = f.target ∧
      ∀ w, e.refersTo w = f.refersTo w := by
    unfold Entry.isPosted Entry.isFlush Entry.target Entry.refersTo Entry.transfer
    unfold Entry.transfer at h5
    cases he : e.body <;> cases hf : f.body <;> rw [he, hf] at h5 <;> simp at h5
    · simp [h5]
    · simp
  exact ⟨h1, h2, h3, h4, hp.1, hp.2.1, by simp only [Entry.usedTag, hp.1, h3, h4], hp.2.2.1, hp.2.2.2⟩

/-- An entry's state is no part of its identity. -/
@[simp] theorem identity_state (e : Entry) (st : EntryState) : { e with state := st }.identity = e.identity := rfl

/-- Nor are the progress and data of its transfer. -/
theorem identity_progressed (e : Entry) {x : Transfer} (h : e.body = .transfer x) (n : Nat) (vs : List Byte)
    (st : EntryState) : { e with body := .transfer (x.progressed n vs), state := st }.identity = e.identity := by
  simp [Entry.identity, Entry.transfer, h, Transfer.progressed]

/-- Nor is the record that a FLUSH's response carries. -/
theorem identity_flush (e : Entry) (h : e.isFlush = true) (r : Option FaultRecord) (st : EntryState) :
    { e with body := .flush r, state := st }.identity = e.identity := by
  unfold Entry.isFlush at h
  cases hb : e.body with
  | transfer x => rw [hb] at h; cases h
  | flush q => simp [Entry.identity, Entry.transfer, hb]

/-- The change of an entry that keeps its identity keeps the identities of the list. -/
theorem changeEntry_identity {es : List Entry} {slot : Slot} {f : Entry → Entry}
    (h : ∀ e ∈ es, e.slot = slot → (f e).identity = e.identity) :
    (changeEntry es slot f).map Entry.identity = es.map Entry.identity := by
  rw [changeEntry, List.map_map]
  refine List.map_congr_left fun e he => ?_
  by_cases hs : e.slot = slot
  · simp only [Function.comp_apply, hs, if_true]; exact h e he hs
  · simp only [Function.comp_apply, hs, if_false]

/-- The entries after are, by identity, those before in their order, some perhaps gone. -/
abbrev Shrinks (s t : State) : Prop :=
  List.Sublist (t.trk.entries.map Entry.identity) (s.trk.entries.map Entry.identity)

/-- What the identity decides shrinks with the identities. -/
theorem Shrinks.map {s t : State} (h : Shrinks s t) {α : Type} [Inhabited α] {f : Entry → α}
    (hf : ∀ e e' : Entry, e.identity = e'.identity → f e = f e') :
    List.Sublist (t.trk.entries.map f) (s.trk.entries.map f) := by
  have he : f = (Function.extend Entry.identity f fun _ => default) ∘ Entry.identity :=
    funext fun e => ((Function.FactorsThrough.extend_apply (fun a b hab => hf a b hab) _ e).symm)
  have := List.Sublist.map (Function.extend Entry.identity f fun _ => default) h
  rwa [List.map_map, List.map_map, ← he] at this

/-- The entries that a property decided by identity picks out shrink too. -/
theorem Shrinks.filter {s t : State} (h : Shrinks s t) {p : Entry → Bool}
    (hp : ∀ e e' : Entry, e.identity = e'.identity → p e = p e') :
    (t.trk.entries.filter p).length ≤ (s.trk.entries.filter p).length := by
  have h1 := (h.map hp).filter id
  have key : ∀ l : List Entry, ((l.map p).filter id).length = (l.filter p).length := by
    intro l
    rw [List.filter_map, List.length_map]; rfl
  have := h1.length_le
  rwa [key, key] at this

theorem Shrinks.refl (s : State) : Shrinks s s := List.Sublist.refl _

theorem Shrinks.trans {s t u : State} (h : Shrinks s t) (h2 : Shrinks t u) : Shrinks s u := List.Sublist.trans h2 h

/-- Entries that are the same by identity shrink nothing. -/
theorem Shrinks.of_eq {s t : State} (h : t.trk.entries.map Entry.identity = s.trk.entries.map Entry.identity) :
    Shrinks s t := by
  unfold Shrinks; rw [h]

/-- The slots of what shrinks stay distinct. -/
theorem Shrinks.slots {s t : State} (h : Shrinks s t) (hn : (s.trk.entries.map Entry.slot).Nodup) :
    (t.trk.entries.map Entry.slot).Nodup :=
  (h.map fun _ _ he => (identity_eq he).1).nodup hn

/-- The tracker's law is kept by what shrinks. -/
theorem Shrinks.trackerLaw {s t : State} (h : Shrinks s t) (hs : TrackerLaw s) : TrackerLaw t := by
  obtain ⟨h1, h2, h3, h4⟩ := hs
  refine ⟨?_, fun i => ?_, h.slots h3, ?_⟩
  · have := h.length_le
    simp only [List.length_map] at this
    exact le_trans this h1
  · refine le_trans (h.filter fun e e' he => ?_) (h2 i)
    rw [(identity_eq he).2.2.1]
  · have := (h.map (f := Entry.usedTag) fun _ _ he => (identity_eq he).2.2.2.2.2.2.1).filterMap id
    rw [List.filterMap_map, List.filterMap_map] at this
    exact this.nodup h4

/-! ## Age order -/

/-- Behind the entries of other slots an entry has them all before it. -/
theorem olderThan_new {es : List Entry} {e : Entry} (h : ∀ f ∈ es, f.slot ≠ e.slot) : olderThan (es ++ [e]) e.slot = es := by
  unfold olderThan
  rw [List.takeWhile_append_of_pos (by simpa using h)]
  simp

/-- An entry at the young end is before no entry that stands already. -/
theorem olderThan_append {es : List Entry} {e f : Entry} (hf : f ∈ es) :
    olderThan (es ++ [e]) f.slot = olderThan es f.slot := by
  unfold olderThan
  induction es with
  | nil => cases hf
  | cons a es ih =>
    rw [List.cons_append]
    by_cases h : a.slot = f.slot
    · rw [List.takeWhile_cons_of_neg (by simpa using h), List.takeWhile_cons_of_neg (by simpa using h)]
    · rcases List.mem_cons.mp hf with rfl | hf
      · exact absurd rfl h
      · rw [List.takeWhile_cons_of_pos (by simpa using h), List.takeWhile_cons_of_pos (by simpa using h), ih hf]

/-- The entries older than a slot, after a change that keeps slots. -/
theorem olderThan_map {es : List Entry} {f : Entry → Entry} (hf : ∀ e ∈ es, (f e).slot = e.slot) (slot : Slot) :
    olderThan (es.map f) slot = (olderThan es slot).map f := by
  unfold olderThan
  induction es with
  | nil => rfl
  | cons a es ih =>
    have ha := hf a (List.mem_cons_self ..)
    have hr := ih fun e he => hf e (List.mem_cons_of_mem _ he)
    rw [List.map_cons]
    by_cases h : a.slot = slot
    · rw [List.takeWhile_cons_of_neg (by simpa [ha] using h), List.takeWhile_cons_of_neg (by simpa using h)]; rfl
    · rw [List.takeWhile_cons_of_pos (by simpa [ha] using h), List.takeWhile_cons_of_pos (by simpa using h), hr]; rfl

/-- The entries older than a slot, after entries of other slots are gone. -/
theorem olderThan_filter {es : List Entry} {p : Entry → Bool} {slot : Slot} (hp : ∀ e ∈ es, e.slot = slot → p e = true) :
    olderThan (es.filter p) slot = (olderThan es slot).filter p := by
  unfold olderThan
  induction es with
  | nil => rfl
  | cons a es ih =>
    have hr := ih fun e he => hp e (List.mem_cons_of_mem _ he)
    by_cases h : a.slot = slot
    · rw [List.filter_cons_of_pos (hp a (List.mem_cons_self ..) h), List.takeWhile_cons_of_neg (by simpa using h),
        List.takeWhile_cons_of_neg (by simpa using h)]; rfl
    · by_cases hpa : p a = true
      · rw [List.filter_cons_of_pos hpa, List.takeWhile_cons_of_pos (by simpa using h),
          List.takeWhile_cons_of_pos (by simpa using h), List.filter_cons_of_pos hpa, hr]
      · rw [List.filter_cons_of_neg hpa, List.takeWhile_cons_of_pos (by simpa using h), List.filter_cons_of_neg hpa, hr]

/-! ## Departure -/

/-- A departure takes entries away. -/
theorem depart_shrinks (s : State) (e : Entry) : Shrinks s (s.depart e) := by
  show List.Sublist ((s.trk.entries.filter _).map _) _
  exact List.Sublist.map _ List.filter_sublist

/-- What a window loses by a departure (R14, R18). -/
theorem dropReference_spec (w : Window) :
    w.dropReference.count = w.count - 1 ∧ w.dropReference.profile = w.profile ∧ w.dropReference.decodes = w.decodes ∧
      (w.dropReference.reserved = w.reserved ∨ w.dropReference.reserved = none) ∧
      (w.countAgrees = true → w.dropReference.countAgrees = true) := by
  cases w with
  | empty => simp [Window.dropReference, Window.count]
  | loaded st n p =>
    cases st with
    | disabled =>
      simp only [Window.dropReference, Window.count, Window.profile, Window.decodes, Window.reserved, Window.countAgrees,
        decide_eq_true_eq]
      refine ⟨trivial, trivial, trivial, Or.inl trivial, fun h => by omega⟩
    | active => exact ⟨rfl, rfl, rfl, Or.inl rfl, fun h => h⟩
    | draining =>
      match n with
      | 0 => exact ⟨rfl, rfl, rfl, Or.inl rfl, fun h => h⟩
      | 1 => exact ⟨rfl, rfl, rfl, Or.inr rfl, fun _ => rfl⟩
      | n + 2 =>
        refine ⟨rfl, rfl, rfl, Or.inl rfl, fun _ => ?_⟩
        show decide (n + 2 - 1 ≠ 0) = true
        exact decide_eq_true (by omega)

/-- No departure takes nothing from a window. -/
@[simp] theorem Window.losing_zero (w : Window) : w.losing 0 = w := by
  cases w with
  | empty => rfl
  | loaded st n p =>
    have h : ¬(st = .draining ∧ 0 < n ∧ n ≤ 0) := fun h => by omega
    rw [Window.losing, if_neg h, Nat.sub_zero]

/-- The count after departures. -/
@[simp] theorem Window.losing_count (w : Window) (m : Nat) : (w.losing m).count = w.count - m := by
  cases w <;> simp [Window.losing, Window.count]

/-- One departure is the loss of one reference (R14, R18). -/
theorem Window.losing_one (w : Window) : w.losing 1 = w.dropReference := by
  cases w with
  | empty => rfl
  | loaded st n p =>
    cases st with
    | disabled => simp [Window.losing, Window.dropReference]
    | active => simp [Window.losing, Window.dropReference]
    | draining =>
      match n with
      | 0 => simp [Window.losing, Window.dropReference]
      | 1 => simp [Window.losing, Window.dropReference]
      | n + 2 => simp [Window.losing, Window.dropReference]

/-- Departures in turn take from a window what they take together. -/
theorem Window.losing_losing (w : Window) (m n : Nat) : (w.losing m).losing n = w.losing (m + n) := by
  cases w with
  | empty => rfl
  | loaded st k p =>
    simp only [Window.losing, Nat.sub_sub]
    congr 1
    cases st with
    | disabled => simp
    | active => simp
    | draining =>
      by_cases hm : 0 < k ∧ k ≤ m
      · have h1 : (LoadedStatus.draining = .draining ∧ 0 < k ∧ k ≤ m) := ⟨rfl, hm⟩
        have h2 : (LoadedStatus.draining = .draining ∧ 0 < k ∧ k ≤ m + n) := ⟨rfl, by omega⟩
        rw [if_pos h1, if_pos h2, if_neg (fun h => nomatch h.1)]
      · have h1 : ¬(LoadedStatus.draining = .draining ∧ 0 < k ∧ k ≤ m) := fun h => hm h.2
        rw [if_neg h1]
        exact if_congr (and_congr_right fun _ => by omega) rfl rfl

/-- Each window after a departure: the departing entry's own window loses a reference, the others are kept. -/
theorem releaseWindow_get (ws : Vector Window 32) (e : Entry) (w : WindowIx) :
    (releaseWindow ws e)[w] = if e.refersTo w then ws[w].dropReference else ws[w] := by
  unfold releaseWindow Entry.refersTo
  cases e.transfer with
  | none => simp
  | some x =>
    simp only [table_set_get, decide_eq_true_eq]
    by_cases h : x.window = w
    · subst h; simp
    · simp only [h, if_false]

/-- The entries that refer to a window after the entry at a slot is gone. -/
theorem filter_departed {es : List Entry} (hn : (es.map Entry.slot).Nodup) {f : Entry} (hf : f ∈ es) (p : Entry → Bool) :
    ((es.filter fun g => decide (g.slot ≠ f.slot)).filter p).length =
      (es.filter p).length - if p f then 1 else 0 := by
  induction es with
  | nil => cases hf
  | cons g es ih =>
    simp only [List.map_cons, List.nodup_cons, List.mem_map, not_exists, not_and] at hn
    rcases List.mem_cons.mp hf with rfl | hf
    · have h1 : (es.filter fun g => decide (g.slot ≠ f.slot)) = es := by
        rw [List.filter_eq_self]
        intro g hg
        exact decide_eq_true fun hc => hn.1 g hg hc
      rw [List.filter_cons_of_neg (by simp), h1, List.filter_cons]
      by_cases hp : p f = true <;> simp [hp]
    · have hne : g.slot ≠ f.slot := fun hc => hn.1 f hf hc.symm
      rw [List.filter_cons_of_pos (by simpa using hne), List.filter_cons, List.filter_cons (p := p)]
      have h2 := ih hn.2 hf
      have h3 : 1 ≤ (es.filter p).length ∨ p f = false := by
        by_cases hp : p f = true
        · left; exact List.length_pos_of_mem (List.mem_filter.mpr ⟨hf, hp⟩)
        · right; simpa using hp
      by_cases hp : p g = true
      · simp only [hp, if_true, List.length_cons, h2]
        rcases h3 with h3 | h3
        · split <;> omega
        · simp [h3]
      · simp only [hp]
        exact h2

/-- The counts stay right at a departure (R18, R19). -/
theorem depart_counts {s : State} (hn : (s.trk.entries.map Entry.slot).Nodup) {e f : Entry} (hf : f ∈ s.trk.entries)
    (he : e.slot = f.slot) (hw : ∀ w, e.refersTo w = f.refersTo w) (h : CountLaw s) : CountLaw (s.depart e) := by
  intro w
  obtain ⟨h1, h2⟩ := h w
  simp only [State.depart_wdc, State.depart_trk_entries, releaseWindow_get]
  rw [he, filter_departed hn hf, hw w]
  by_cases hr : f.refersTo w = true
  · simp only [hr, if_true]
    exact ⟨by rw [(dropReference_spec _).1, h1], (dropReference_spec _).2.2.2.2 h2⟩
  · simp only [hr, Bool.false_eq_true, if_false]
    exact ⟨by rw [h1]; rfl, h2⟩

/-- The counts are kept by an operation that keeps the windows and the identities of the entries. -/
theorem counts_of_eq {s t : State} (hw : t.wdc = s.wdc)
    (hi : t.trk.entries.map Entry.identity = s.trk.entries.map Entry.identity) (h : CountLaw s) : CountLaw t := by
  intro w
  rw [hw]
  have : (t.trk.entries.filter fun e => e.refersTo w).length = (s.trk.entries.filter fun e => e.refersTo w).length := by
    have hp : ∀ e e' : Entry, e.identity = e'.identity → e.refersTo w = e'.refersTo w :=
      fun e e' he => (identity_eq he).2.2.2.2.2.2.2.2 w
    have a : Shrinks s t := Shrinks.of_eq hi
    have b : Shrinks t s := Shrinks.of_eq hi.symm
    exact le_antisymm (a.filter hp) (b.filter hp)
  rw [this]
  exact h w

/-! ## The judging of FLUSH entries -/

/-- No FLUSH entry due changes no entry. -/
@[simp] theorem Entry.flushDone_nil (r : Option FaultRecord) (f : Entry) : Entry.flushDone [] r f = f := by
  simp [Entry.flushDone]

/-- The completion of FLUSH entries keeps an entry's slot, and so its place in the age order. -/
@[simp] theorem Entry.flushDone_slot (due : List Entry) (r : Option FaultRecord) (f : Entry) :
    (Entry.flushDone due r f).slot = f.slot := by
  unfold Entry.flushDone; split <;> rfl

/-- FLUSH entries of one initiator completed in turn: each becomes DONE, the first carries the record, and the record is
cleared and its clearing told to the IRL once (R61). -/
theorem completeFlush_fold (i : Initiator) : ∀ (es : List Entry) (s : State), (∀ e ∈ es, e.initiator = i) →
    (s.trk.entries.map Entry.slot).Nodup → (∀ e ∈ es, e ∈ s.trk.entries) → (es.map Entry.slot).Nodup →
    es.foldl State.completeFlush s =
      { s with
        trk :=
          { s.trk with
            entries := s.trk.entries.map (Entry.flushDone es s.trk.faults[i])
            faults := if es = [] then s.trk.faults else s.trk.faults.set i none }
        handed :=
          { s.handed with
            withdrawals :=
              s.handed.withdrawals ++
                if es ≠ [] ∧ s.trk.faults[i].isSome = true then [⟨i, s.handed.events.count (.postedFault i)⟩]
                else [] } } := by
  intro es
  induction es with
  | nil => intro s _ _ _ _; simp [funext (Entry.flushDone_nil _)]
  | cons e es ih =>
    intro s hi hs hm hn
    rw [List.map_cons, List.nodup_cons] at hn
    have hei : e.initiator = i := hi e (List.mem_cons_self ..)
    have hne : ∀ f ∈ es, f.slot ≠ e.slot := fun f hf hc => hn.1 (hc ▸ List.mem_map_of_mem hf)
    have hs1 : ((s.completeFlush e).trk.entries.map Entry.slot).Nodup := by
      rw [State.completeFlush_trk_entries]; rwa [changeEntry_slots (es := s.trk.entries) fun _ => by exact rfl]
    have hm1 : ∀ f ∈ es, f ∈ (s.completeFlush e).trk.entries := by
      intro f hf
      rw [State.completeFlush_trk_entries, changeEntry, List.mem_map]
      exact ⟨f, hm f (List.mem_cons_of_mem _ hf), if_neg (hne f hf)⟩
    have hr := ih (s.completeFlush e) (fun f hf => hi f (List.mem_cons_of_mem _ hf)) hs1 hm1 hn.2
    rw [List.foldl_cons, hr]
    have hf1 : (s.completeFlush e).trk.faults = s.trk.faults.set i none := by
      rw [State.completeFlush_trk_faults]; subst hei; rfl
    have hf2 : (s.trk.faults.set i none)[i] = none := table_set_same _ _ _
    have hw : (s.completeFlush e).handed.withdrawals =
        s.handed.withdrawals ++
          if s.trk.faults[i].isSome = true then [⟨i, s.handed.events.count (.postedFault i)⟩] else [] := by
      rw [State.completeFlush_handed_withdrawals]; subst hei; rfl
    have he : (s.completeFlush e).trk.entries.map (Entry.flushDone es none) =
        s.trk.entries.map (Entry.flushDone (e :: es) s.trk.faults[i]) := by
      rw [State.completeFlush_trk_entries, changeEntry, List.map_map]
      refine List.map_congr_left fun f hf => ?_
      by_cases hse : f.slot = e.slot
      · have hfe : f = e := slot_inj hs (hm e (List.mem_cons_self ..)) hf hse
        subst hfe
        have hd : ({ f with body := .flush s.trk.faults[i], state := .done .ok } : Entry) ∉ es :=
          fun hc => hne _ hc rfl
        subst hei
        rw [Function.comp_apply, if_pos rfl]
        refine (if_neg hd).trans ?_
        simp [Entry.flushDone]
      · have hfe : e ≠ f := fun hc => hse (hc ▸ rfl)
        simp [Entry.flushDone, hse, hfe, Ne.symm hfe]
    rw [hf1, hf2, he, hw]
    have hset : (s.trk.faults.set i none).set i none = s.trk.faults.set i none := by
      refine table_ext fun j => ?_
      simp only [table_set_get]; split <;> rfl
    simp only [hset, Option.isSome_none, Bool.false_eq_true, and_false, if_false, List.append_nil, ite_self,
      reduceCtorEq, ne_eq, not_false_eq_true, true_and]
    simp only [State.completeFlush]

/-- Everything the judging of an initiator's FLUSH entries does: those that are ready become DONE, the oldest with the
posted-fault record, which is cleared (R60, R61). -/
theorem judgeFlushes_eq {s : State} (hn : (s.trk.entries.map Entry.slot).Nodup) (i : Initiator) {due : List Entry}
    (hd : (s.trk.entries.filter fun e => decide (e.initiator = i) && s.trk.flushReady e) = due) :
    s.judgeFlushes i =
      { s with
        trk :=
          { s.trk with
            entries := s.trk.entries.map (Entry.flushDone due s.trk.faults[i])
            faults := if due = [] then s.trk.faults else s.trk.faults.set i none }
        handed :=
          { s.handed with
            withdrawals :=
              s.handed.withdrawals ++
                if due ≠ [] ∧ s.trk.faults[i].isSome = true then [⟨i, s.handed.events.count (.postedFault i)⟩]
                else [] } } := by
  subst hd
  refine completeFlush_fold i _ s (fun e he => ?_) hn (fun e he => (List.mem_filter.mp he).1)
    ((List.Sublist.map _ List.filter_sublist).nodup hn)
  exact of_decide_eq_true (Bool.and_eq_true _ _ ▸ (List.mem_filter.mp he).2).1

/-- A FLUSH that is ready is a FLUSH, and WAITING. -/
theorem flushReady_spec {t : Tracker} {e : Entry} (h : t.flushReady e = true) :
    e.isFlush = true ∧ e.state = .waiting ∧
      ∀ f ∈ olderThan t.entries e.slot, f.initiator = e.initiator → f.isPosted = false := by
  simp only [Tracker.flushReady, Bool.and_eq_true, decide_eq_true_eq, Bool.not_eq_true', List.any_eq_false, not_and,
    Bool.not_eq_true] at h
  exact ⟨h.1.1, h.1.2, h.2⟩

/-- The judging keeps the identities. -/
theorem judgeFlushes_identity {s : State} (hn : (s.trk.entries.map Entry.slot).Nodup) (i : Initiator) :
    (s.judgeFlushes i).trk.entries.map Entry.identity = s.trk.entries.map Entry.identity := by
  rw [judgeFlushes_eq hn i rfl, List.map_map]
  refine List.map_congr_left fun f _ => ?_
  simp only [Function.comp_apply, Entry.flushDone]
  split
  · rename_i hc
    have := (List.mem_filter.mp hc).2
    simp only [Bool.and_eq_true] at this
    exact identity_flush f (flushReady_spec this.2).1 _ _
  · rfl

/-- With no FLUSH of the initiator ready the judging does nothing. -/
theorem judgeFlushes_none {s : State} (hn : (s.trk.entries.map Entry.slot).Nodup) {i : Initiator}
    (h : ∀ f ∈ s.trk.entries, f.initiator = i → s.trk.flushReady f = false) : s.judgeFlushes i = s := by
  rw [judgeFlushes_eq hn i (List.filter_eq_nil_iff.mpr fun f hf hc => ?_)]
  · simp [funext (Entry.flushDone_nil _)]
  · simp only [Bool.and_eq_true, decide_eq_true_eq] at hc
    rw [h f hf hc.1] at hc; cases hc.2

/-! ## The FLUSH entries that wait for one departure -/

/-- After the departure of an entry that is no FLUSH, the FLUSH entries ready are those that waited for it alone (R60). -/
theorem due_after_depart {s : State} (hn : (s.trk.entries.map Entry.slot).Nodup) {e f : Entry} (hf : f ∈ s.trk.entries)
    (hs : f.slot = e.slot) (hb : f.isFlush = false) :
    ((s.depart e).trk.entries.filter fun g => decide (g.initiator = e.initiator) && (s.depart e).trk.flushReady g) =
      s.trk.flushesBehind e := by
  rw [State.depart_trk_entries, List.filter_filter, Tracker.flushesBehind]
  refine List.filter_congr fun g hg => ?_
  by_cases hse : g.slot = e.slot
  · have : g = f := slot_inj hn hf hg (hse.trans hs.symm)
    subst this
    simp [hse, hb]
  · have ho : olderThan (s.depart e).trk.entries g.slot =
        (olderThan s.trk.entries g.slot).filter fun h => decide (h.slot ≠ e.slot) := by
      rw [State.depart_trk_entries]
      exact olderThan_filter fun k _ hk => decide_eq_true (hk ▸ hse)
    have hall : (!((olderThan s.trk.entries g.slot).filter fun h => decide (h.slot ≠ e.slot)).any fun h =>
          decide (h.initiator = g.initiator) && h.isPosted) =
        (olderThan s.trk.entries g.slot).all fun h =>
          !(decide (h.initiator = g.initiator) && h.isPosted && decide (h.slot ≠ e.slot)) := by
      rw [List.any_filter, List.not_any_eq_all_not]
      congr 1; funext h
      cases decide (h.slot ≠ e.slot) <;> simp
    by_cases hi : g.initiator = e.initiator
    · rw [Tracker.flushReady, ho, hall]
      simp [hi, hse]
    · simp [hi]

end Sys2Proof.Machine
end

