-- ==== Sys2Proof/Laws/Tracker.lean ====
section
/-! SUPPORT. What the operations on the tracker do, once each: departures of several entries, disposal, the joining of
answers, the free slot, decode, and the failing of entries by an OFFLINE announcement. -/

namespace Sys2Proof.Machine

/-! ## Windows that only lose references -/

/-- What every command but COMMIT and power-on reset keeps of a window: its profile and whether it decodes; a reservation
may end, none begins. -/
def Window.Weakens (w v : Window) : Prop :=
  v.profile = w.profile ∧ v.decodes = w.decodes ∧ (v.reserved = w.reserved ∨ v.reserved = none)

theorem Window.Weakens.refl (w : Window) : w.Weakens w := ⟨rfl, rfl, Or.inl rfl⟩

theorem Window.Weakens.trans {u v w : Window} (h : u.Weakens v) (h2 : v.Weakens w) : u.Weakens w := by
  obtain ⟨a, b, c⟩ := h
  obtain ⟨a2, b2, c2⟩ := h2
  refine ⟨a2.trans a, b2.trans b, ?_⟩
  rcases c2 with c2 | c2
  · rcases c with c | c
    · exact Or.inl (c2.trans c)
    · exact Or.inr (c2.trans c)
  · exact Or.inr c2

/-- A departure weakens windows. -/
theorem releaseWindow_weakens (ws : Vector Window 32) (e : Entry) (w : WindowIx) :
    ws[w].Weakens (releaseWindow ws e)[w] := by
  rw [releaseWindow_get]
  split
  · obtain ⟨_, h1, h2, h3, _⟩ := dropReference_spec ws[w]; exact ⟨h1, h2, h3⟩
  · exact Window.Weakens.refl _

/-- An admission's reference changes neither profile, decode nor reservation. -/
theorem addReference_weakens (w : Window) : w.Weakens w.addReference := by
  cases w with
  | empty => exact Window.Weakens.refl _
  | loaded st n p => cases st <;> exact ⟨rfl, rfl, Or.inl rfl⟩

/-- Windows that weaken keep the law of the Window Table (R15). -/
theorem WindowLaw.of_weakens {s t : State} (h : ∀ w : WindowIx, s.wdc[w].Weakens t.wdc[w]) (hs : WindowLaw s) :
    WindowLaw t := by
  refine ⟨fun i p hp => hs.1 i p ?_, fun i j hij p hp q hq => hs.2 i j hij p ?_ q ?_⟩
  · rw [(h i).1] at hp; exact hp
  · rcases (h i).2.2 with h1 | h1 <;> rw [h1] at hp
    · exact hp
    · cases hp
  · rcases (h j).2.2 with h1 | h1 <;> rw [h1] at hq
    · exact hq
    · cases hq

/-! ## The gate (R46) -/

/-- Two departures in turn move the gate as the second does. -/
theorem afterDeparture_twice (g : Gate) {es fs : List Entry} (h : es = [] → fs = []) :
    (g.afterDeparture es).afterDeparture fs = g.afterDeparture fs := by
  cases g <;> simp only [Gate.afterDeparture]
  by_cases he : es = []
  · simp [he, h he]
  · have : es.isEmpty = false := by simpa using he
    simp [this]

/-- The gate after a departure. -/
theorem afterDeparture_eq (g : Gate) (es : List Entry) :
    g.afterDeparture es = if g = .quiescing ∧ es = [] then .quiesced else g := by
  cases g with
  | opened => simp [Gate.afterDeparture]
  | quiesced => simp [Gate.afterDeparture]
  | quiescing =>
    cases es with
    | nil => simp [Gate.afterDeparture]
    | cons a es => simp [Gate.afterDeparture]

/-! ## Several departures -/

/-- Everything that departures of several entries do (R18, R43, R46). -/
theorem departFold_spec : ∀ (es : List Entry) (s : State), (s.trk.entries.map Entry.slot).Nodup →
    (es.map Entry.slot).Nodup → (∀ e ∈ es, e ∈ s.trk.entries) →
    es.foldl State.depart s =
      { s with
        wdc := (es.foldl State.depart s).wdc
        trk :=
          { s.trk with
            entries := s.trk.entries.filter fun f => decide (f.slot ∉ es.map Entry.slot)
            gate :=
              if es = [] then s.trk.gate
              else s.trk.gate.afterDeparture (s.trk.entries.filter fun f => decide (f.slot ∉ es.map Entry.slot)) } } ∧
      (∀ w : WindowIx, s.wdc[w].Weakens (es.foldl State.depart s).wdc[w]) ∧
      (∀ w : WindowIx,
        (es.foldl State.depart s).wdc[w].count = s.wdc[w].count - (es.filter fun e => e.refersTo w).length) ∧
      (CountLaw s → CountLaw (es.foldl State.depart s)) := by
  intro es
  induction es with
  | nil =>
    intro s _ _ _
    refine ⟨?_, fun w => Window.Weakens.refl _, fun w => by simp, fun h => h⟩
    have : (s.trk.entries.filter fun f => decide (f.slot ∉ ([] : List Entry).map Entry.slot)) = s.trk.entries := by
      simp
    rw [this]; simp
  | cons e es ih =>
    intro s hn he hm
    rw [List.map_cons, List.nodup_cons] at he
    have hn1 : ((s.depart e).trk.entries.map Entry.slot).Nodup := (depart_shrinks s e).slots hn
    have hm1 : ∀ f ∈ es, f ∈ (s.depart e).trk.entries := by
      intro f hf
      rw [State.depart_trk_entries, List.mem_filter]
      refine ⟨hm f (List.mem_cons_of_mem _ hf), decide_eq_true fun hc => he.1 ?_⟩
      rw [← hc]; exact List.mem_map_of_mem hf
    obtain ⟨h1, h2, h3, h4⟩ := ih (s.depart e) hn1 he.2 hm1
    have hee := hm e (List.mem_cons_self ..)
    have hent : ((s.depart e).trk.entries.filter fun f => decide (f.slot ∉ es.map Entry.slot)) =
        s.trk.entries.filter fun f => decide (f.slot ∉ (e :: es).map Entry.slot) := by
      rw [State.depart_trk_entries, List.filter_filter]
      refine List.filter_congr fun f _ => ?_
      rw [Bool.eq_iff_iff]
      simp only [Bool.and_eq_true, decide_eq_true_eq, List.map_cons, List.mem_cons, not_or, ne_eq]
      tauto
    rw [List.foldl_cons]
    refine ⟨?_, fun w => (releaseWindow_weakens s.wdc e w).trans (h2 w), fun w => ?_, fun hc => ?_⟩
    · conv_lhs => rw [h1, hent]
      have hg : (if es = [] then (s.depart e).trk.gate
            else (s.depart e).trk.gate.afterDeparture
              (s.trk.entries.filter fun f => decide (f.slot ∉ (e :: es).map Entry.slot))) =
          s.trk.gate.afterDeparture
            (s.trk.entries.filter fun f => decide (f.slot ∉ (e :: es).map Entry.slot)) := by
        by_cases h0 : es = []
        · subst h0
          simp
        · rw [if_neg h0, State.depart_trk_gate, afterDeparture_twice]
          intro hnil
          rw [← hent, State.depart_trk_entries, hnil]; rfl
      rw [hg, if_neg (List.cons_ne_nil _ _)]
      simp only [State.depart]
    · rw [h3 w, State.depart_wdc, releaseWindow_get, List.filter_cons]
      by_cases hr : e.refersTo w = true
      · simp only [hr, if_true, List.length_cons, (dropReference_spec _).1]; omega
      · simp only [hr, Bool.false_eq_true, if_false]
    · exact h4 (depart_counts hn hee rfl (fun _ => rfl) hc)

/-- What every window loses by departures of several entries: as many references as entries decoded to it (R14, R18). -/
theorem departFold_windows (w : WindowIx) : ∀ (es : List Entry) (s : State),
    (es.foldl State.depart s).wdc[w] = s.wdc[w].losing (es.filter fun e => e.refersTo w).length
  | [], s => by simp
  | e :: es, s => by
    rw [List.foldl_cons, departFold_windows w es, State.depart_wdc, releaseWindow_get, List.filter_cons]
    by_cases hr : e.refersTo w = true
    · simp only [hr, if_true, ← Window.losing_one, Window.losing_losing, List.length_cons, Nat.add_comm 1]
    · simp [hr]

/-! ## The departure of a POSTED entry -/

/-- One fault on a record, in the two forms (R58). -/
theorem takeFault_eq (old : Option FaultRecord) (st : Status) (address : UpAddr) (done : Nat) :
    takeFault old st address done = faultsRecorded old st address done 1 := by
  cases old with
  | none => rfl
  | some f =>
    simp only [takeFault, faultsRecorded, saturate255]
    split
    · rw [Nat.min_eq_right (by omega)]
    · rfl

/-- Faults in turn on a record are as many faults on it: the first stays recorded (R58). -/
theorem faultsRecorded_succ (old : Option FaultRecord) (st : Status) (a b : UpAddr) (c d m : Nat) :
    faultsRecorded (some (faultsRecorded old st a c 1)) st b d (m + 1) = faultsRecorded old st a c (m + 2) := by
  have count : ∀ n : Nat, (if (if n < 255 then min 255 (n + 1) else n) < 255
      then min 255 ((if n < 255 then min 255 (n + 1) else n) + (m + 1)) else if n < 255 then min 255 (n + 1) else n) =
      if n < 255 then min 255 (n + (m + 2)) else n := by
    intro n
    by_cases hn : n < 255
    · simp only [hn, if_true]; split <;> omega
    · simp only [hn, if_false]
  cases old with
  | none =>
    have first : (if min 255 1 < 255 then min 255 (min 255 1 + (m + 1)) else min 255 1) = min 255 (m + 2) := by
      rw [if_pos (by decide)]; omega
    exact congrArg (fun n => FaultRecord.mk st a c n) first
  | some f => exact congrArg (fun n => { f with count := n }) (count f.count)

/-- Everything a departure with the judging of FLUSH entries does (R18, R43, R46, R60, R61). -/
theorem depart_judge_eq {s : State} (hn : (s.trk.entries.map Entry.slot).Nodup) {e f : Entry} (hf : f ∈ s.trk.entries)
    (hs : f.slot = e.slot) (hb : f.isFlush = false) :
    (s.depart e).judgeFlushes e.initiator =
      { s with
        wdc := releaseWindow s.wdc e
        trk :=
          { s.trk with
            entries :=
              (s.trk.entries.filter fun g => decide (g.slot ≠ e.slot)).map
                (Entry.flushDone (s.trk.flushesBehind e) s.trk.faults[e.initiator])
            gate := s.trk.gate.afterDeparture (s.trk.entries.filter fun g => decide (g.slot ≠ e.slot))
            faults :=
              s.trk.faults.set e.initiator
                (if s.trk.flushesBehind e = [] then s.trk.faults[e.initiator] else none) }
        handed :=
          { s.handed with
            withdrawals :=
              s.handed.withdrawals ++
                if s.trk.flushesBehind e ≠ [] ∧ s.trk.faults[e.initiator].isSome = true then
                  [⟨e.initiator, s.handed.events.count (.postedFault e.initiator)⟩]
                else [] } } := by
  rw [judgeFlushes_eq ((depart_shrinks s e).slots hn) e.initiator (due_after_depart hn hf hs hb)]
  by_cases h : s.trk.flushesBehind e = []
  · simp only [h, if_true, State.depart, ne_eq, not_true_eq_false, false_and, if_false]
    rw [table_set_self _ _ rfl]
  · simp only [h, if_false, State.depart, ne_eq, not_false_eq_true, true_and]

/-- Everything the end of a POSTED entry with an outcome does: a failure is recorded with an event of source 8, the entry
leaves, and the FLUSH entries that waited for it alone are DONE (R57, R58, R60, R61). -/
theorem finishPosted_eq {s : State} (hn : (s.trk.entries.map Entry.slot).Nodup) {e f : Entry} (hf : f ∈ s.trk.entries)
    (hs : f.slot = e.slot) (hb : f.isFlush = false) (x : Transfer) (o : EntryOutcome) {due : List Entry}
    {report : Option FaultRecord} (hd : due = s.trk.flushesBehind e)
    (hr : report =
      if o = .ok then s.trk.faults[e.initiator]
      else some (faultsRecorded s.trk.faults[e.initiator] (outcomeStatus o) x.address x.progress 1)) :
    s.finishPosted e x o =
      { s with
        wdc := releaseWindow s.wdc e
        trk :=
          { s.trk with
            entries := (s.trk.entries.filter fun g => decide (g.slot ≠ e.slot)).map (Entry.flushDone due report)
            gate := s.trk.gate.afterDeparture (s.trk.entries.filter fun g => decide (g.slot ≠ e.slot))
            faults := s.trk.faults.set e.initiator (if due = [] then report else none) }
        handed :=
          { s.handed with
            events := s.handed.events ++ if o = .ok then [] else [.postedFault e.initiator]
            withdrawals :=
              s.handed.withdrawals ++
                if due ≠ [] ∧ report.isSome = true then
                  [⟨e.initiator, s.handed.events.count (.postedFault e.initiator) + if o = .ok then 0 else 1⟩]
                else [] } } := by
  subst hd hr
  have set2 : ∀ (v : Vector (Option FaultRecord) 4) (a b : Option FaultRecord),
      (v.set e.initiator a).set e.initiator b = v.set e.initiator b := fun v a b =>
    table_ext fun j => by simp only [table_set_get]; split <;> rfl
  have fault : ∀ st, (((s.recordFault e.initiator st x.address x.progress).depart e).judgeFlushes e.initiator) =
      { s with
        wdc := releaseWindow s.wdc e
        trk :=
          { s.trk with
            entries :=
              (s.trk.entries.filter fun g => decide (g.slot ≠ e.slot)).map
                (Entry.flushDone (s.trk.flushesBehind e)
                  (some (faultsRecorded s.trk.faults[e.initiator] st x.address x.progress 1)))
            gate := s.trk.gate.afterDeparture (s.trk.entries.filter fun g => decide (g.slot ≠ e.slot))
            faults :=
              s.trk.faults.set e.initiator
                (if s.trk.flushesBehind e = [] then
                  some (faultsRecorded s.trk.faults[e.initiator] st x.address x.progress 1)
                else none) }
        handed :=
          { s.handed with
            events := s.handed.events ++ [.postedFault e.initiator]
            withdrawals :=
              s.handed.withdrawals ++
                if s.trk.flushesBehind e ≠ [] then
                  [⟨e.initiator, s.handed.events.count (.postedFault e.initiator) + 1⟩]
                else [] } } := by
    intro st
    have h := depart_judge_eq (s := s.recordFault e.initiator st x.address x.progress) hn hf hs hb
    have hb : (s.recordFault e.initiator st x.address x.progress).trk.flushesBehind e = s.trk.flushesBehind e := rfl
    have hg : (s.recordFault e.initiator st x.address x.progress).trk.faults[e.initiator] =
        some (faultsRecorded s.trk.faults[e.initiator] st x.address x.progress 1) := by
      rw [← takeFault_eq]; exact table_set_same _ _ _
    rw [h, hb, hg]
    simp only [State.recordFault, State.handEvent, set2, Option.isSome_some, and_true, List.count_append,
      List.count_singleton_self]
  cases o with
  | ok =>
    simp only [State.finishPosted, if_true, List.append_nil]
    exact depart_judge_eq hn hf hs hb
  | timeout =>
    simp only [State.finishPosted, reduceCtorEq, if_false, Option.isSome_some, and_true, outcomeStatus]
    exact fault .timeout
  | offline =>
    simp only [State.finishPosted, reduceCtorEq, if_false, Option.isSome_some, and_true, outcomeStatus]
    exact fault .offline

/-! ## Disposal by a detach or a link reset -/

/-- Everything that the disposal of the entries with a property does, where the property does not look at an entry's state
(R63, R66). -/
theorem dispose_spec {s : State} (hn : (s.trk.entries.map Entry.slot).Nodup) {p : Entry → Bool}
    (hp : ∀ (e : Entry) st, p { e with state := st } = p e) :
    s.dispose p =
        { s with
          wdc := (s.dispose p).wdc
          trk :=
            { s.trk with
              entries :=
                (s.trk.entries.filter fun e => !p e || e.isInSegment).map fun e =>
                  if p e then { e with state := .inSegment true } else e
              gate := (s.dispose p).trk.gate
              answers :=
                s.trk.answers.filter fun a =>
                  !s.trk.entries.any fun e => p e && !e.isInSegment && decide (a = .entry e.slot) } } ∧
      (s.dispose p).trk.gate =
        (if (∀ e ∈ s.trk.entries, p e = true → e.isInSegment = true) then s.trk.gate
         else s.trk.gate.afterDeparture (s.dispose p).trk.entries) ∧
      (∀ w : WindowIx, s.wdc[w].Weakens (s.dispose p).wdc[w]) ∧
      (∀ w : WindowIx,
        (s.dispose p).wdc[w] =
          s.wdc[w].losing (s.trk.entries.filter fun e => e.refersTo w && (p e && !e.isInSegment)).length) ∧
      (CountLaw s → CountLaw (s.dispose p)) := by
  set mark : Entry → Entry := fun e => if p e && e.isInSegment then { e with state := .inSegment true } else e with hmark
  have hmi : ∀ e, (mark e).identity = e.identity := by
    intro e; rw [hmark]; dsimp only; split <;> rfl
  have hms : ∀ e, (mark e).isInSegment = e.isInSegment := by
    intro e; rw [hmark]; dsimp only
    split
    · rename_i h; simp only [Bool.and_eq_true] at h; rw [h.2]; rfl
    · rfl
  have hmp : ∀ e, p (mark e) = p e := by
    intro e; rw [hmark]; dsimp only; split
    · exact hp e _
    · rfl
  set s1 : State := { s with trk := { s.trk with entries := s.trk.entries.map mark } } with hs1
  have hid : s1.trk.entries.map Entry.identity = s.trk.entries.map Entry.identity := by
    show (s.trk.entries.map mark).map Entry.identity = _
    rw [List.map_map]; exact List.map_congr_left fun e _ => hmi e
  have hsl : (s1.trk.entries.map Entry.slot).Nodup := (Shrinks.of_eq hid).slots hn
  set es := (s.trk.entries.map mark).filter fun e => p e && !e.isInSegment with hes
  have hes2 : es = s.trk.entries.filter fun e => p e && !e.isInSegment := by
    rw [hes, List.filter_map]
    have hf : (s.trk.entries.filter ((fun e => p e && !e.isInSegment) ∘ mark)) =
        s.trk.entries.filter fun e => p e && !e.isInSegment :=
      List.filter_congr fun e _ => by simp only [Function.comp_apply, hmp, hms]
    rw [hf]
    conv_rhs => rw [← List.map_id (s.trk.entries.filter fun e => p e && !e.isInSegment)]
    refine List.map_congr_left fun e he => ?_
    have := (List.mem_filter.mp he).2
    simp only [Bool.and_eq_true, Bool.not_eq_true'] at this
    simp only [hmark, this.2, Bool.and_false, Bool.false_eq_true, if_false, id]
  have hsub : ∀ e ∈ es, e ∈ s1.trk.entries := fun e he => (List.mem_filter.mp he).1
  have hnd : (es.map Entry.slot).Nodup := (List.Sublist.map _ List.filter_sublist).nodup hsl
  obtain ⟨h1, h2, -, h4⟩ := departFold_spec es s1 hsl hnd hsub
  have hmem : ∀ e ∈ s.trk.entries, e.slot ∈ es.map Entry.slot ↔ (p e && !e.isInSegment) = true := by
    intro e he
    rw [hes2, List.mem_map]
    constructor
    · rintro ⟨f, hf, hs⟩
      have hf2 := List.mem_filter.mp hf
      have := slot_inj hn he hf2.1 hs
      subst this; exact hf2.2
    · intro h; exact ⟨e, List.mem_filter.mpr ⟨he, h⟩, rfl⟩
  have hd : s.dispose p =
      { es.foldl State.depart s1 with
        trk :=
          { (es.foldl State.depart s1).trk with
            answers := (es.foldl State.depart s1).trk.answers.filter fun a =>
              !es.any fun e => decide (a = .entry e.slot) } } := rfl
  have hent : (s1.trk.entries.filter fun f => decide (f.slot ∉ es.map Entry.slot)) =
      (s.trk.entries.filter fun e => !p e || e.isInSegment).map fun e =>
        if p e then { e with state := .inSegment true } else e := by
    show (s.trk.entries.map mark).filter _ = _
    rw [List.filter_map]
    have hf : (s.trk.entries.filter ((fun f => decide (f.slot ∉ es.map Entry.slot)) ∘ mark)) =
        s.trk.entries.filter fun e => !p e || e.isInSegment := by
      refine List.filter_congr fun e he => ?_
      have hslot : (mark e).slot = e.slot := (identity_eq (hmi e)).1
      simp only [Function.comp_apply, hslot, hmem e he]
      cases p e <;> cases e.isInSegment <;> rfl
    rw [hf]
    refine List.map_congr_left fun e he => ?_
    have h5 := (List.mem_filter.mp he).2
    simp only [hmark]
    cases hpe : p e with
    | false => simp
    | true =>
      rw [hpe] at h5
      simp only [Bool.not_true, Bool.false_or] at h5
      simp [h5]
  have hnil : es = [] ↔ ∀ e ∈ s.trk.entries, p e = true → e.isInSegment = true := by
    rw [hes2, List.filter_eq_nil_iff]
    constructor
    · intro h e he hpe
      have := h e he
      simpa [hpe] using this
    · intro h e he hc
      simp only [Bool.and_eq_true, Bool.not_eq_true'] at hc
      rw [h e he hc.1] at hc; cases hc.2
  refine ⟨?_, ?_, ?_, ?_, ?_⟩
  · have hans : (s.dispose p).trk.answers = s.trk.answers.filter fun a =>
        !s.trk.entries.any fun e => p e && !e.isInSegment && decide (a = .entry e.slot) := by
      rw [hd]
      show (es.foldl State.depart s1).trk.answers.filter _ = _
      rw [h1]
      refine List.filter_congr fun a _ => ?_
      rw [hes2, List.any_filter]
    have hen : (s.dispose p).trk.entries = _ := (by rw [hd]; show (es.foldl State.depart s1).trk.entries = _; rw [h1] :
      (s.dispose p).trk.entries = s1.trk.entries.filter fun f => decide (f.slot ∉ es.map Entry.slot))
    rw [hent] at hen
    rw [← hans, ← hen]
    rw [hd, h1]
  · rw [hd]
    show (es.foldl State.depart s1).trk.gate = if _ then _ else s.trk.gate.afterDeparture (es.foldl State.depart s1).trk.entries
    rw [h1]
    by_cases h0 : es = []
    · rw [if_pos h0, if_pos (hnil.mp h0)]
    · rw [if_neg h0, if_neg (fun hc => h0 (hnil.mpr hc))]
  · intro w; rw [hd]; exact h2 w
  · intro w
    rw [hd]
    show (es.foldl State.depart s1).wdc[w] = _
    rw [departFold_windows, hes2, List.filter_filter]
  · intro hc w
    have := h4 (counts_of_eq (s := s) rfl hid hc) w
    rw [hd]
    exact this

/-! ## Answers that become ready (R56, R64) -/

/-- One initiator among the four. -/
theorem filter_initiator : ∀ i : Initiator, ((List.finRange 4).filter fun j => decide (j = i)) = [i] := by decide

/-- An entry owes its answer where it is a READ or WRITE that is WAITING, or IN_SEGMENT and not dropped. -/
theorem owesAnswer_iff (e : Entry) :
    e.owesAnswer = true ↔
      (e.state = .waiting ∨ e.state = .inSegment false) ∧ ∃ x, e.body = .transfer x ∧ x.kind ≠ .posted := by
  unfold Entry.owesAnswer
  cases e.body <;> cases e.state <;> simp [and_comm]

/-- An answer is held exactly behind an older entry of its initiator and target that owes its own (R53, R127). -/
theorem answerHeld_iff (t : Tracker) (e : Entry) :
    t.answerHeld e = true ↔
      ∃ f ∈ olderThan t.entries e.slot, f.initiator = e.initiator ∧ f.target = e.target ∧ f.owesAnswer = true := by
  simp [Tracker.answerHeld, and_assoc]

/-- The answer of an entry that no older entry of its pair precedes is not held. -/
theorem answerHeld_of_first {t : Tracker} {e : Entry} (h : t.heldBack e = false) : t.answerHeld e = false := by
  simp only [Tracker.heldBack, List.any_eq_false] at h
  simp only [Tracker.answerHeld, List.any_eq_false]
  intro f hf hc
  exact h f hf (by simp only [Bool.and_eq_true] at hc ⊢; exact hc.1)

/-- Everything the joining of ready answers does. -/
theorem joinReady_spec (s : State) :
    s.joinReady =
      { s with
        trk :=
          { s.trk with
            answers :=
              s.trk.answers ++
                (s.trk.entries.filter fun e =>
                  e.isDone && !s.trk.answerHeld e && !answersEntry s.trk.answers e.slot).map
                  (fun e => Answer.entry e.slot) ++
                ((List.finRange 4).filter fun i =>
                  s.trk.detaches[i].isSome && (s.trk.entriesOf i).isEmpty &&
                    !s.trk.answers.contains (.detached i)).map Answer.detached } } := by
  have h : ∀ i : Initiator, s.trk.joinAnswers.detachReady i =
      (s.trk.detaches[i].isSome && (s.trk.entriesOf i).isEmpty && !s.trk.answers.contains (.detached i)) := by
    intro i
    have hc : s.trk.joinAnswers.answers.contains (.detached i) = s.trk.answers.contains (.detached i) := by
      rw [Bool.eq_iff_iff]
      simp [Tracker.joinAnswers]
    simp only [Tracker.detachReady, hc]; rfl
  simp only [State.joinReady, Tracker.joinDetaches]
  have hf : (List.finRange 4).filter s.trk.joinAnswers.detachReady = (List.finRange 4).filter fun i =>
      s.trk.detaches[i].isSome && (s.trk.entriesOf i).isEmpty && !s.trk.answers.contains (.detached i) :=
    List.filter_congr fun i _ => h i
  rw [hf]
  rfl

/-- Where every DONE entry that is not held has its answer in the list, only the answer of a detach can join; it joins for one initiator
where no other's has become ready. -/
theorem joinReady_one {s : State}
    (h : ∀ e ∈ s.trk.entries, e.isDone = true → s.trk.answerHeld e = false → Answer.entry e.slot ∈ s.trk.answers) (i : Initiator)
    (hj : ∀ j, j ≠ i → s.trk.detaches[j].isSome = true → s.trk.entriesOf j = [] → Answer.detached j ∈ s.trk.answers) :
    s.joinReady =
      { s with
        trk :=
          { s.trk with
            answers :=
              s.trk.answers ++
                if s.trk.detaches[i].isSome = true ∧ s.trk.entriesOf i = [] ∧ Answer.detached i ∉ s.trk.answers then
                  [.detached i]
                else [] } } := by
  rw [joinReady_spec]
  have h1 : (s.trk.entries.filter fun e =>
      e.isDone && !s.trk.answerHeld e && !answersEntry s.trk.answers e.slot) = [] := by
    rw [List.filter_eq_nil_iff]
    intro e he hc
    simp only [Bool.and_eq_true, Bool.not_eq_true', answersEntry] at hc
    have := h e he hc.1.1 hc.1.2
    rw [← List.contains_iff_mem, hc.2] at this; cases this
  have h2 : ∀ j : Initiator, (s.trk.detaches[j].isSome && (s.trk.entriesOf j).isEmpty &&
        !s.trk.answers.contains (.detached j)) =
      (decide (j = i) && decide (s.trk.detaches[i].isSome = true ∧ s.trk.entriesOf i = [] ∧
        Answer.detached i ∉ s.trk.answers)) := by
    intro j
    rw [Bool.eq_iff_iff]
    simp only [Bool.and_eq_true, List.isEmpty_iff, Bool.not_eq_true', decide_eq_true_eq]
    have hc : ∀ k, (s.trk.answers.contains (.detached k) = false) ↔ Answer.detached k ∉ s.trk.answers := by
      intro k; rw [← Bool.not_eq_true, List.contains_iff_mem]
    rw [hc]
    constructor
    · rintro ⟨⟨a, b⟩, c⟩
      by_cases hij : j = i
      · subst hij; exact ⟨rfl, a, b, c⟩
      · exact absurd (hj j hij a b) c
    · rintro ⟨rfl, a, b, c⟩; exact ⟨⟨a, b⟩, c⟩
  have h3 : ((List.finRange 4).filter fun j => s.trk.detaches[j].isSome && (s.trk.entriesOf j).isEmpty &&
        !s.trk.answers.contains (.detached j)) =
      if s.trk.detaches[i].isSome = true ∧ s.trk.entriesOf i = [] ∧ Answer.detached i ∉ s.trk.answers then [i] else [] := by
    simp only [h2]
    split
    · rename_i hc
      simp only [hc, not_false_eq_true, and_self, decide_true, Bool.and_true]
      exact filter_initiator i
    · rename_i hc
      simp only [hc, decide_false, Bool.and_false]
      rw [List.filter_eq_nil_iff]; intro _ _ h; cases h
  rw [h1, h3]
  simp only [List.map_nil, List.append_nil]
  split <;> rfl

/-- Where nothing has become ready, nothing joins. -/
theorem joinReady_self {s : State}
    (h : ∀ e ∈ s.trk.entries, e.isDone = true → s.trk.answerHeld e = false → Answer.entry e.slot ∈ s.trk.answers)
    (hj : ∀ j : Initiator, s.trk.detaches[j].isSome = true → s.trk.entriesOf j = [] →
      Answer.detached j ∈ s.trk.answers) : s.joinReady = s := by
  rw [joinReady_one h 0 fun j _ => hj j]
  rw [if_neg (fun hc => hc.2.2 (hj 0 hc.1 hc.2.1))]
  simp

/-! ## The free slot and decode -/

/-- The slots around one. -/
theorem finRange_split16 : ∀ k : Slot,
    List.finRange 16 = (List.finRange 16).take k.val ++ k :: (List.finRange 16).drop (k.val + 1) := by decide

/-- The windows around one. -/
theorem finRange_split32 : ∀ k : WindowIx,
    List.finRange 32 = (List.finRange 32).take k.val ++ k :: (List.finRange 32).drop (k.val + 1) := by decide

/-- The slot an admission takes is the lowest free one, where one is free (R42). -/
theorem freeSlot_eq {s : State} {slot : Slot} (h : s.LowestFree slot) : s.trk.freeSlot = slot := by
  obtain ⟨h1, h2⟩ := h
  have hp : (!s.trk.entries.any fun e => decide (e.slot = slot)) = true := by
    simp only [Bool.not_eq_true', List.any_eq_false, decide_eq_true_eq]
    exact h1
  have hq : ∀ k : Slot, k < slot → (!s.trk.entries.any fun e => decide (e.slot = k)) = false := by
    intro k hk
    simp only [Bool.not_eq_false', List.any_eq_true, decide_eq_true_eq]
    exact h2 k hk
  have key : ∀ (q : Slot → Bool), q slot = true → (∀ k, k < slot → q k = false) →
      ((List.finRange 16).find? q).getD 0 = slot := by
    intro q hq1 hq2
    have : (List.finRange 16).find? q = some slot := by
      rw [List.find?_eq_some_iff_append]
      refine ⟨hq1, (List.finRange 16).take slot.val, (List.finRange 16).drop (slot.val + 1), ?_, ?_⟩
      · exact finRange_split16 slot
      · intro a ha
        have : a < slot := by
          clear hq1 hq2
          rw [List.mem_take_iff_getElem] at ha
          obtain ⟨i, hi, rfl⟩ := ha
          simp only [List.getElem_finRange, Fin.lt_def]
          simp at hi ⊢
          omega
        rw [hq2 a this]; rfl
    rw [this]; rfl
  exact key _ hp hq

/-- A lowest free slot exists where the tracker is not full. -/
theorem exists_lowestFree {s : State} (h : s.trk.entries.length < 16) :
    ∃ slot, s.LowestFree slot := by
  have hex : ∃ k : Slot, k ∉ s.trk.entries.map Entry.slot := by
    by_contra hc
    simp only [not_exists, not_not] at hc
    have : (Finset.univ : Finset Slot) ⊆ (s.trk.entries.map Entry.slot).toFinset := fun k _ => by simp [hc k]
    have h2 := Finset.card_le_card this
    rw [Finset.card_univ, Fintype.card_fin] at h2
    have h3 := List.toFinset_card_le (s.trk.entries.map Entry.slot)
    rw [List.length_map] at h3
    omega
  have hmin : ∃ k : Slot, k ∉ s.trk.entries.map Entry.slot ∧ ∀ j, j < k → j ∈ s.trk.entries.map Entry.slot := by
    obtain ⟨k, hk⟩ := hex
    let S : Finset Slot := Finset.univ.filter fun k => k ∉ s.trk.entries.map Entry.slot
    have hS : S.Nonempty := ⟨k, by simp [S]; simpa using hk⟩
    refine ⟨S.min' hS, ?_, fun j hj => ?_⟩
    · have := Finset.min'_mem S hS
      exact (Finset.mem_filter.mp this).2
    · by_contra hc
      have : S.min' hS ≤ j := Finset.min'_le S j (Finset.mem_filter.mpr ⟨Finset.mem_univ _, hc⟩)
      exact absurd hj (not_lt.mpr this)
  obtain ⟨k, h1, h2⟩ := hmin
  refine ⟨k, fun e he hc => h1 (hc ▸ List.mem_map_of_mem he), fun j hj => ?_⟩
  obtain ⟨e, he, hs⟩ := List.mem_map.mp (h2 j hj)
  exact ⟨e, he, hs⟩

/-- Decode finds the ACTIVE window that contains an address, and finds none exactly where there is none (R15, R20). -/
theorem decodeAddress_spec {s : State} (hl : WindowLaw s) {a : Nat} {w : Option (WindowIx × Nat × Profile)}
    (h : s.DecodesTo a w) : decodeAddress s.wdc a = w.map fun x => (x.1, x.2.2) := by
  unfold decodeAddress
  cases w with
  | none =>
    rw [Option.map_none, List.findSome?_eq_none_iff]
    intro i _
    cases hw : s.wdc[i] with
    | empty => rfl
    | loaded st n p =>
      cases st with
      | active =>
        have := h i n p hw
        have hc : ¬ p.contains a = true := by
          simpa only [Profile.contains, Bool.and_eq_true, decide_eq_true_eq] using this
        simp only [Window.decodes, if_neg hc]
      | disabled => rfl
      | draining => rfl
  | some x =>
    obtain ⟨i, n, p⟩ := x
    obtain ⟨h1, h2, h3⟩ := h
    have hc : p.contains a = true := by
      simp only [Profile.contains, Bool.and_eq_true, decide_eq_true_eq]; exact ⟨h2, h3⟩
    rw [Option.map_some]
    have huniq : ∀ (j : WindowIx) q, s.wdc[j].decodes = some q → q.contains a = true → j = i := by
      intro j q hq hqa
      by_contra hne
      have hr : q ∈ s.wdc[j].reserved := by
        revert hq; cases s.wdc[j] with
        | empty => intro hq; cases hq
        | loaded st n q' => cases st <;> intro hq <;> cases hq; rfl
      have hp : p ∈ s.wdc[i].reserved := by rw [h1]; rfl
      have := hl.2 j i hne q hr p hp
      simp only [Profile.overlaps, Profile.contains, Bool.and_eq_true, Bool.and_eq_false_iff, decide_eq_true_eq,
        decide_eq_false_iff_not] at this hqa hc
      omega
    have hi : (match s.wdc[i].decodes with
        | some p => if p.contains a then some (i, p) else none
        | none => none) = some (i, p) := by
      rw [h1]; simp only [Window.decodes, hc, if_true]
    have hj : ∀ j, j ≠ i → (match s.wdc[j].decodes with
        | some p => if p.contains a then some (j, p) else none
        | none => none) = none := by
      intro j hji
      cases hd : s.wdc[j].decodes with
      | none => rfl
      | some q =>
        simp only
        rw [if_neg]
        intro hq; exact hji (huniq j q hd hq)
    rw [List.findSome?_eq_some_iff]
    refine ⟨(List.finRange 32).take i.val, i, (List.finRange 32).drop (i.val + 1), ?_, hi, ?_⟩
    · exact finRange_split32 i
    · intro j hjm
      refine hj j fun hc => ?_
      subst hc
      rw [List.mem_take_iff_getElem] at hjm
      obtain ⟨k, hk, he⟩ := hjm
      have := congrArg Fin.val he
      simp at this hk
      omega

end Sys2Proof.Machine
end

