-- ==== Sys2Proof/Laws/Admission.lean ====
section
/-! SUPPORT. Admission as the table of R47: the first check that fails decides, and a request that passes is admitted. -/

namespace Sys2Proof.Machine

/-- Check 2 for a READ, WRITE or POSTED request (R49). -/
theorem retry_transfer {s : State} {r : Request} (hk : r.kind = .read ∨ r.kind = .write ∨ r.kind = .posted) :
    s.trk.retry r = (decide (s.trk.gate ≠ .opened) || s.full r.initiator) := by
  rcases hk with hk | hk | hk <;>
    simp [Tracker.retry, hk, State.full, RequestKind.transferKind, Bool.or_assoc]

/-- Check 2 for a FLUSH, whatever the gate (R49). -/
theorem retry_flush {s : State} {r : Request} (hk : r.kind = .flush) : s.trk.retry r = s.full r.initiator := by
  simp [Tracker.retry, hk, State.full, RequestKind.transferKind, Bool.or_assoc]

/-- Check 2 for a DETACH: only a detach in progress (R49). -/
theorem retry_detach {s : State} {r : Request} (hk : r.kind = .detach) :
    s.trk.retry r = s.trk.detaches[r.initiator].isSome := by
  simp [Tracker.retry, hk, RequestKind.transferKind]

/-- The tags in use (R50). -/
theorem tagInUse_eq (s : State) (i : Initiator) (tag : Tag) :
    (s.trk.entries.any fun e => decide (e.initiator = i) && decide (e.tag = tag) && !e.isPosted) = s.tagInUse i tag := by
  simp only [State.tagInUse]
  congr 1; funext e
  cases hp : e.isPosted <;> simp [Entry.usedTag, hp]

/-- Check 3 for a READ, WRITE or POSTED request (R50). -/
theorem tagBusy_transfer {s : State} {r : Request} (hk : r.kind = .read ∨ r.kind = .write ∨ r.kind = .posted) :
    s.trk.tagBusy r = (decide (r.kind ≠ .posted) && s.tagInUse r.initiator r.tag) := by
  simp only [Tracker.tagBusy, tagInUse_eq]
  rcases hk with hk | hk | hk <;> simp [hk]

/-- Check 3 for a FLUSH (R50). -/
theorem tagBusy_flush {s : State} {r : Request} (hk : r.kind = .flush) :
    s.trk.tagBusy r = s.tagInUse r.initiator r.tag := by
  simp [Tracker.tagBusy, tagInUse_eq, hk]

/-- What a FLUSH and a DETACH are refused with. -/
theorem refusal_entryless {s : State} {r : Request} (hk : r.kind = .flush ∨ r.kind = .detach) :
    s.trk.refusal r =
      if r.payload ≠ [] then some .format else if s.trk.retry r then some .retry
      else if s.trk.tagBusy r then some .tagBusy else none := by
  simp only [Tracker.refusal, consistent_entryless hk]
  cases r.payload <;> rfl

/-- The eight checks of a READ, WRITE or POSTED request, in their order, decide its admission (R47). -/
theorem admission_eq {s : State} {r : Request} (hk : r.kind = .read ∨ r.kind = .write ∨ r.kind = .posted)
    {w : Option (WindowIx × Nat × Profile)} (hl : WindowLaw s) (hd : s.DecodesTo r.address.toNat w) :
    (match s.trk.refusal r with
     | some st => Except.error st
     | none => decodeRequest s.wdc s.tgt r) =
      match firstFailing (s.admissionChecks r (w.map fun x => x.2.2)), w with
      | some st, _ => .error st
      | none, some x => .ok (x.1, x.2.2)
      | none, none => .error .miss := by
  have hdec := decodeAddress_spec hl hd
  simp only [Tracker.refusal, decodeRequest, hdec, State.admissionChecks, List.cons_append, firstFailing, List.find?_cons,
    consistent_eq_fieldsAgree, retry_transfer hk, tagBusy_transfer hk]
  cases hf : r.fieldsAgree
  · simp
  · simp only [Bool.not_true, Bool.false_eq_true, if_false]
    cases h2 : (decide (s.trk.gate ≠ .opened) || s.full r.initiator)
    · simp only [Bool.false_eq_true, if_false]
      cases h3 : (decide (r.kind ≠ .posted) && s.tagInUse r.initiator r.tag)
      · simp only [Bool.false_eq_true, if_false]
        cases w with
        | none => simp
        | some x =>
          obtain ⟨i, n, p⟩ := x
          simp only [Option.map_some, Option.isNone_some, List.nil_append, List.find?_cons]
          have hlen : 1 ≤ r.length := by
            simp only [Request.fieldsAgree] at hf
            rcases hk with hk | hk | hk <;> rw [hk] at hf <;> simp at hf <;> omega
          have hspan : p.contains (r.address.toNat + r.length - 1) =
              !decide (p.limit < r.address.toNat + r.length) := by
            have := hd.2.1
            rw [Bool.eq_iff_iff]
            simp only [Profile.contains, Bool.and_eq_true, decide_eq_true_eq, Bool.not_eq_true', decide_eq_false_iff_not]
            omega
          have hadm : p.admits (decide (r.kind = .read)) r.initiator =
              (p.maskFor r.kind).getLsbD r.initiator.val := by
            simp only [Profile.admits, Profile.maskFor]; by_cases hq : r.kind = .read <;> simp [hq]
          have hwu : p.wholeUnits r.address.toNat r.length = p.coversWhole r.address.toNat r.length := rfl
          rw [hspan, hadm, hwu]
          cases h4 : decide (p.limit < r.address.toNat + r.length) <;>
            simp only [Bool.not_false, Bool.not_true, Bool.false_eq_true, if_false, if_true, Option.map_some]
          cases h5 : (p.maskFor r.kind).getLsbD r.initiator.val <;>
            simp only [Bool.not_false, Bool.not_true, Bool.false_eq_true, if_false, if_true, Option.map_some]
          cases h6 : (p.rse && !p.coversWhole r.address.toNat r.length)
          · simp only [Bool.false_eq_true, if_false]
            by_cases h7 : s.tgt[p.target].state = .offline <;> simp [-Fin.getElem_fin, h7]
          · simp
      · simp
    · simp

end Sys2Proof.Machine
end

