-- ==== Sys2Proof/Laws/Staging.lean ====
section
/-! SUPPORT. The tables of checks: a chain's structure (R166), the staging of each record kind (R16, R37), and the writing
of the result buffer. -/

namespace Sys2Proof.Machine

/-! ## Tables of checks -/

/-- The first check decides where it fails. -/
theorem firstFailing_cons {α : Type} (b : Bool) (x : α) (l : List (Bool × α)) :
    firstFailing ((b, x) :: l) = if b then some x else firstFailing l := by
  cases b <;> simp [firstFailing]

/-- No check, no failure. -/
theorem firstFailing_nil {α : Type} : firstFailing ([] : List (Bool × α)) = none := rfl

/-! ## The structure phase (R166, R167) -/

/-- The examination of a record answers with the first check that fails. -/
theorem checkRecord_eq (buf : List Host.Cell) (chain walk seq : Nat) :
    checkRecord buf chain walk seq =
      match firstFailing
        [(decide (chain - walk < 1), StructureReason.noEnd), (decide (chain - walk < 3), .badLength),
          (decide (60 < (readByte buf (walk + 1)).toNat), .badLength),
          (decide (chain - walk < 4 + (readByte buf (walk + 1)).toNat), .badLength),
          (decide ((readBytes buf walk (4 + (readByte buf (walk + 1)).toNat)).sum ≠ 0), .badChecksum),
          ((recordKind (readByte buf walk).toNat).isNone, .badType),
          (decide ((recordKind (readByte buf walk).toNat).map RecordKind.payloadLength ≠
            some (readByte buf (walk + 1)).toNat), .badLength),
          (decide ((readByte buf (walk + 2)).toNat ≠ seq), .badSequence)],
        recordKind (readByte buf walk).toNat with
      | some r, _ => .error r
      | none, some k => .ok (k, 4 + (readByte buf (walk + 1)).toNat)
      | none, none => .error .badType := by
  simp only [checkRecord, firstFailing_cons, firstFailing_nil, byteSum_eq_sum, decide_eq_true_eq, Nat.lt_one_iff]
  split_ifs <;> try rfl
  all_goals cases hk : recordKind (readByte buf walk).toNat <;> simp_all
  all_goals exact fun h => absurd h.symm ‹_›

/-- The result size is not exceeded where the whole sum is 512 at most (R167). -/
theorem resultOverflow_none : ∀ (l : List RecordRef) (t : Nat),
    t + (l.map fun ref => 4 + ref.kind.resultLength).sum ≤ 512 → resultOverflow t l = none
  | [], _, _ => rfl
  | r :: l, t, h => by
    simp only [List.map_cons, List.sum_cons] at h
    have : ¬ Config.bufferBytes < t + 4 + r.kind.resultLength := by show ¬ 512 < _; omega
    simp only [resultOverflow, if_neg this]
    exact resultOverflow_none l _ (by omega)

/-! ## The record that stages next -/

/-- The record that stages next, and its payload. -/
theorem StagesNext.staging {s : State} {k : RecordKind} {x : Executor} {sh : Shadow} {ref : RecordRef} {bs : List Byte}
    (h : s.StagesNext k x sh ref bs) : s.staging k = some (x, sh, ref) ∧ s.payloadOf ref = bs := by
  obtain ⟨h1, h2, h3, h4, h5, h6, h7⟩ := h
  constructor
  · simp [State.staging, h1, h2, h3, h4, h5, h6]
  · simp [State.payloadOf, h6, h7]

/-! ## Indexes and profiles of a payload -/

/-- A window index below 32 names an entry. -/
theorem windowIndex_eq {bs : List Byte} {i : WindowIx} (h : (byteAt bs 0).toNat = i.val) : windowIndex bs = some i := by
  have := i.isLt
  unfold windowIndex
  rw [dif_pos (by omega)]
  exact congrArg some (Fin.ext h)

/-- A window index of 32 or more names none. -/
theorem windowIndex_none {bs : List Byte} (h : 31 < (byteAt bs 0).toNat) : windowIndex bs = none := by
  unfold windowIndex
  exact dif_neg (by omega)

/-- A target number below 16 names a target. -/
theorem targetNumber_eq {b : Byte} {t : TargetId} (h : b.toNat = t.val) : targetNumber b = some t := by
  have := t.isLt
  unfold targetNumber
  rw [dif_pos (by omega)]
  exact congrArg some (Fin.ext h)

/-- A target number of 16 or more names none. -/
theorem targetNumber_none {b : Byte} (h : 15 < b.toNat) : targetNumber b = none := by
  unfold targetNumber
  exact dif_neg (by omega)

/-- A byte is the one of its number. -/
theorem byte_eq {b : Byte} {n : Nat} (h : b.toNat = n) : b = BitVec.ofNat 8 n := by subst h; simp

/-- What a mode byte spells, and which spell nothing. -/
theorem modeOf_spec (b : Byte) :
    (∀ m, modeOf b = some m → (m, b) ∈ modeCodes) ∧ (modeOf b = none ↔ 2 < b.toNat) := by
  unfold modeOf
  split
  case h_4 h0 h1 h2 =>
    have e0 : b.toNat ≠ 0 := h0
    have e1 : b.toNat ≠ 1 := h1
    have e2 : b.toNat ≠ 2 := h2
    exact ⟨(fun _ h => nomatch h), iff_of_true rfl (by omega)⟩
  all_goals
    rename_i h
    rw [byte_eq h]
    exact ⟨fun _ h => by cases h; decide, by decide⟩

/-- What a unit byte spells. -/
theorem unitOf_spec (b : Byte) :
    (∀ u, unitOf b = some u → (u, b) ∈ unitCodes) ∧ (unitOf b = none ↔ b.toNat ∉ [1, 2, 4]) := by
  unfold unitOf
  split
  case h_4 h1 h2 h4 =>
    exact ⟨(fun _ h => nomatch h), iff_of_true rfl (by rintro h; simp only [List.mem_cons, List.not_mem_nil] at h; tauto)⟩
  all_goals
    rename_i h
    rw [byte_eq h]
    exact ⟨fun _ h => by cases h; decide, by decide⟩

/-- What a lane order byte spells. -/
theorem laneOf_spec (b : Byte) :
    (∀ l, laneOf b = some l → (l, b) ∈ laneCodes) ∧ (laneOf b = none ↔ 1 < b.toNat) := by
  unfold laneOf
  split
  case h_3 h0 h1 =>
    have e0 : b.toNat ≠ 0 := h0
    have e1 : b.toNat ≠ 1 := h1
    exact ⟨(fun _ h => nomatch h), iff_of_true rfl (by omega)⟩
  all_goals
    rename_i h
    rw [byte_eq h]
    exact ⟨fun _ h => by cases h; decide, by decide⟩

/-- What an RSE byte spells. -/
theorem rseOf_spec (b : Byte) :
    (∀ r, rseOf b = some r → b = if r then 1 else 0) ∧ (rseOf b = none ↔ 1 < b.toNat) := by
  unfold rseOf
  split
  case h_3 h0 h1 =>
    have e0 : b.toNat ≠ 0 := h0
    have e1 : b.toNat ≠ 1 := h1
    exact ⟨(fun _ h => nomatch h), iff_of_true rfl (by omega)⟩
  all_goals
    rename_i h
    rw [byte_eq h]
    exact ⟨fun _ h => by cases h; decide, by decide⟩

/-- What an atomic boundary byte spells. -/
theorem abOf_spec (b : Byte) :
    (∀ a, abOf b = some a → (a, b) ∈ abCodes) ∧ (abOf b = none ↔ b.toNat ∉ [0, 4, 8, 16, 32, 64]) := by
  unfold abOf
  split
  case h_7 h0 h1 h2 h3 h4 h5 =>
    exact ⟨(fun _ h => nomatch h), iff_of_true rfl (by rintro h; simp only [List.mem_cons, List.not_mem_nil] at h; tauto)⟩
  all_goals
    rename_i h
    rw [byte_eq h]
    exact ⟨fun _ h => by cases h; decide, by decide⟩

/-- What a mask byte spells. -/
theorem maskOf_spec (b : Byte) :
    (∀ m, maskOf b = some m → m.toNat = b.toNat) ∧ (maskOf b = none ↔ 15 < b.toNat) := by
  unfold maskOf
  split
  · rename_i h
    refine ⟨fun m hm => ?_, by simp; omega⟩
    rw [← Option.some.inj hm, BitVec.toNat_ofNat, Nat.mod_eq_of_lt h]
  · exact ⟨(fun _ h => nomatch h), by simp; omega⟩

/-- What a target number names, and which name nothing. -/
theorem targetNumber_spec (b : Byte) :
    (∀ t, targetNumber b = some t → t.val = b.toNat) ∧ (targetNumber b = none ↔ 15 < b.toNat) := by
  unfold targetNumber
  split
  · exact ⟨fun t h => by rw [← Option.some.inj h], by simp; omega⟩
  · exact ⟨(fun _ h => nomatch h), by simp; omega⟩

/-- The profile of a payload is the one its bytes spell (R4, R185). -/
theorem profileOf_spelled {bs : List Byte} {p : Profile} (h : profileOf bs = some p) : p.SpelledBy bs := by
  simp only [profileOf, Option.bind_eq_bind, Option.bind_eq_some_iff] at h
  obtain ⟨t, h1, m, h2, ⟨u, l, r⟩, h3, ab, h4, rm, h5, wm, h6, h7⟩ := h
  simp only [Option.pure_def, Option.some.injEq] at h7
  subst h7
  have lt := fun k => (byteAt bs k).isLt
  have l2 := lt 2; have l3 := lt 3; have l4 := lt 4; have l9 := lt 9; have l10 := lt 10
  have l11 := lt 11; have l12 := lt 12; have l13 := lt 13; have l14 := lt 14
  constructor
  · simp only [payloadBase, leNat, BitVec.toNat_ofNat]; omega
  · simp only [payloadSize, leNat]; omega
  · exact (targetNumber_spec _).1 _ h1
  · exact (modeOf_spec _).1 _ h2
  · simp only [leNat, BitVec.toNat_ofNat]; omega
  · simp only [leNat, BitVec.toNat_ofNat]; omega
  · simp only [leNat, BitVec.toNat_ofNat]; omega
  · rintro rfl
    simp only [shapeOf, Option.bind_eq_bind, Option.bind_eq_some_iff] at h3
    obtain ⟨u', hu, l', hl, r', hr, he⟩ := h3
    simp only [Option.pure_def, Option.some.injEq, Prod.mk.injEq] at he
    obtain ⟨rfl, rfl, rfl⟩ := he
    exact ⟨(unitOf_spec _).1 _ hu, (laneOf_spec _).1 _ hl, (rseOf_spec _).1 _ hr⟩
  · intro hm
    cases m with
    | linear => exact absurd rfl hm
    | port => simp only [shapeOf, Option.some.injEq, Prod.mk.injEq] at h3; exact ⟨h3.1.symm, h3.2.1.symm, h3.2.2.symm⟩
    | splitPort =>
      simp only [shapeOf, Option.some.injEq, Prod.mk.injEq] at h3; exact ⟨h3.1.symm, h3.2.1.symm, h3.2.2.symm⟩
  · exact (abOf_spec _).1 _ h4
  · exact (maskOf_spec _).1 _ h5
  · exact (maskOf_spec _).1 _ h6

/-- The unit, lane order and RSE of a payload are judged in LINEAR mode alone (R185). -/
theorem shapeOf_none_iff (m : WindowMode) (bs : List Byte) :
    shapeOf m bs = none ↔
      m = .linear ∧ ((byteAt bs 15).toNat ∉ [1, 2, 4] ∨ 1 < (byteAt bs 16).toNat ∨ 1 < (byteAt bs 17).toNat) := by
  rw [← (unitOf_spec _).2, ← (laneOf_spec _).2, ← (rseOf_spec _).2]
  cases m with
  | port => simp [shapeOf]
  | splitPort => simp [shapeOf]
  | linear =>
    simp only [shapeOf]
    cases unitOf (byteAt bs 15) <;> cases laneOf (byteAt bs 16) <;> cases rseOf (byteAt bs 17) <;> simp

/-- A payload carries no profile exactly where a field fails check 5 of R16 (R185). -/
theorem profileOf_none_iff (bs : List Byte) :
    profileOf bs = none ↔
      (15 < (byteAt bs 7).toNat ∨ 2 < (byteAt bs 8).toNat ∨
        ((byteAt bs 8).toNat = 0 ∧
          ((byteAt bs 15).toNat ∉ [1, 2, 4] ∨ 1 < (byteAt bs 16).toNat ∨ 1 < (byteAt bs 17).toNat)) ∨
        (byteAt bs 18).toNat ∉ [0, 4, 8, 16, 32, 64] ∨ 15 < (byteAt bs 19).toNat ∨ 15 < (byteAt bs 20).toNat) := by
  have hm : ∀ m, modeOf (byteAt bs 8) = some m → (m = .linear ↔ (byteAt bs 8).toNat = 0) := by
    intro m h
    have := (modeOf_spec _).1 _ h
    simp only [modeCodes, List.mem_cons, Prod.mk.injEq, List.not_mem_nil, or_false] at this
    rcases this with ⟨rfl, hb⟩ | ⟨rfl, hb⟩ | ⟨rfl, hb⟩ <;> rw [hb] <;> decide
  rw [← (targetNumber_spec _).2, ← (modeOf_spec _).2, ← (abOf_spec _).2, ← (maskOf_spec (byteAt bs 19)).2,
    ← (maskOf_spec (byteAt bs 20)).2]
  unfold profileOf
  cases targetNumber (byteAt bs 7) with
  | none => simp
  | some t =>
    cases h8 : modeOf (byteAt bs 8) with
    | none => simp
    | some m =>
      rw [← hm m h8, ← shapeOf_none_iff m bs]
      cases hs : shapeOf m bs with
      | none => simp [hs]
      | some q =>
        cases abOf (byteAt bs 18) <;> cases maskOf (byteAt bs 19) <;> cases maskOf (byteAt bs 20) <;> simp [hs]

/-! ## Reports and records (R173, R178, R179) -/

/-- The report of a window that is not EMPTY, byte by byte (section 10.2). -/
theorem windowReport_loaded {st : LoadedStatus} {n : Nat} {p : Profile} {code mode unit lane ab : Byte}
    (h0 : (st, code) ∈ [(LoadedStatus.disabled, (1 : Byte)), (.active, 2), (.draining, 3)])
    (h1 : (p.mode, mode) ∈ modeCodes) (h2 : (p.unit, unit) ∈ unitCodes) (h3 : (p.lane, lane) ∈ laneCodes)
    (h4 : (p.ab, ab) ∈ abCodes) :
    windowReport (.loaded st n p) =
      [code, BitVec.ofNat 8 n, BitVec.ofNat 8 p.base.toNat, BitVec.ofNat 8 (p.base.toNat / 256),
        BitVec.ofNat 8 (p.base.toNat / 65536), BitVec.ofNat 8 p.size, BitVec.ofNat 8 (p.size / 256),
        BitVec.ofNat 8 p.target.val, mode, BitVec.ofNat 8 p.targetBase.toNat,
        BitVec.ofNat 8 (p.targetBase.toNat / 256), BitVec.ofNat 8 p.readPort.toNat,
        BitVec.ofNat 8 (p.readPort.toNat / 256), BitVec.ofNat 8 p.writePort.toNat,
        BitVec.ofNat 8 (p.writePort.toNat / 256), unit, lane, if p.rse then 1 else 0, ab,
        BitVec.ofNat 8 p.readMask.toNat, BitVec.ofNat 8 p.writeMask.toNat] := by
  have e0 : BitVec.ofNat 8 (windowStateCode (.loaded st n p)) = code := by
    simp only [List.mem_cons, Prod.mk.injEq, List.not_mem_nil, or_false] at h0
    rcases h0 with ⟨rfl, rfl⟩ | ⟨rfl, rfl⟩ | ⟨rfl, rfl⟩ <;> rfl
  have e1 : BitVec.ofNat 8 (modeCode p.mode) = mode := by
    simp only [modeCodes, List.mem_cons, Prod.mk.injEq, List.not_mem_nil, or_false] at h1
    rcases h1 with ⟨h, rfl⟩ | ⟨h, rfl⟩ | ⟨h, rfl⟩ <;> rw [h] <;> rfl
  have e2 : BitVec.ofNat 8 p.unit.bytes = unit := by
    simp only [unitCodes, List.mem_cons, Prod.mk.injEq, List.not_mem_nil, or_false] at h2
    rcases h2 with ⟨h, rfl⟩ | ⟨h, rfl⟩ | ⟨h, rfl⟩ <;> rw [h] <;> rfl
  have e3 : BitVec.ofNat 8 (laneCode p.lane) = lane := by
    simp only [laneCodes, List.mem_cons, Prod.mk.injEq, List.not_mem_nil, or_false] at h3
    rcases h3 with ⟨h, rfl⟩ | ⟨h, rfl⟩ <;> rw [h] <;> rfl
  have e4 : BitVec.ofNat 8 p.ab.bytes = ab := by
    simp only [abCodes, List.mem_cons, Prod.mk.injEq, List.not_mem_nil, or_false] at h4
    rcases h4 with ⟨h, rfl⟩ | ⟨h, rfl⟩ | ⟨h, rfl⟩ | ⟨h, rfl⟩ | ⟨h, rfl⟩ | ⟨h, rfl⟩ <;> rw [h] <;> rfl
  have e5 : BitVec.ofNat 8 (bit p.rse) = if p.rse then 1 else 0 := by cases p.rse <;> rfl
  simp [windowReport, leBytes, e0, e1, e2, e3, e4, e5, Nat.div_div_eq_div_mul]

/-- The report of a target, byte by byte (section 10.2). -/
theorem targetReport_eq {r : TargetRecord} {code : Byte}
    (h : (r.state, code) ∈ [(TargetState.absent, (0 : Byte)), (.online, 1), (.suspect, 2), (.offline, 3)]) :
    targetReport r =
      [code, BitVec.ofNat 8 r.recovery, BitVec.ofNat 8 r.readyTimeout, BitVec.ofNat 8 r.strobeWidth,
        BitVec.ofNat 8 r.threshold, BitVec.ofNat 8 r.consecutive, BitVec.ofNat 8 r.errors, BitVec.ofNat 8 r.age] := by
  simp only [List.mem_cons, Prod.mk.injEq, List.not_mem_nil, or_false] at h
  rcases h with ⟨h, rfl⟩ | ⟨h, rfl⟩ | ⟨h, rfl⟩ | ⟨h, rfl⟩ <;>
    simp [targetReport, leBytes, h, targetStateCode]

/-- The report of GET STATUS, byte by byte (section 10.2). -/
theorem statusReport_eq {s : State} {sh : Shadow} {gate last : Byte}
    (h : (sh.gate, gate) ∈ [(Gate.opened, (0 : Byte)), (.quiescing, 1), (.quiesced, 2)])
    (h1 : s.mgb.lostLast = none → last = 0xFF) (h2 : ∀ i : Initiator, s.mgb.lostLast = some i → last = BitVec.ofNat 8 i.val) :
    statusReport s sh =
      [(if s.mgb.configLoaded then 1 else 0) + (if s.pbe.lendOverrun then 2 else 0), gate,
        BitVec.ofNat 8 s.mgb.commitCount, BitVec.ofNat 8 (s.mgb.commitCount / 256), BitVec.ofNat 8 sh.segmentLimit,
        BitVec.ofNat 8 sh.lease, BitVec.ofNat 8 sh.lendLimit, BitVec.ofNat 8 sh.claimMask.toNat,
        BitVec.ofNat 8 s.hlp.dropped, last, BitVec.ofNat 8 s.mgb.lostCount] := by
  have e : BitVec.ofNat 8 (initiatorCode s.mgb.lostLast) = last := by
    cases hl : s.mgb.lostLast with
    | none => rw [h1 hl]; rfl
    | some i => rw [h2 i hl]; rfl
  have e2 : BitVec.ofNat 8 (bit s.mgb.configLoaded + 2 * bit s.pbe.lendOverrun) =
      (if s.mgb.configLoaded then 1 else 0) + (if s.pbe.lendOverrun then 2 else 0) := by
    cases s.mgb.configLoaded <;> cases s.pbe.lendOverrun <;> rfl
  simp only [List.mem_cons, Prod.mk.injEq, List.not_mem_nil, or_false] at h
  rcases h with ⟨h, rfl⟩ | ⟨h, rfl⟩ | ⟨h, rfl⟩ <;>
    simp [statusReport, leBytes, h, gateCode, e, e2]

/-- The result records of a list of references, one behind the other (R178). -/
theorem resultRecords_cons (ref : RecordRef) (r : RecordResult) (refs : List RecordRef) (rs : List RecordResult) :
    resultRecords (ref :: refs) (r :: rs) = resultRecord ref r ++ resultRecords refs rs := rfl

/-- No results, no result records. -/
theorem resultRecords_nil (refs : List RecordRef) : resultRecords refs [] = [] := by cases refs <;> rfl

/-- Every chain-outcome record sums to 0 (R179). -/
theorem outcomeRecord_sum (o : ChainOutcome) (n : Nat) : (outcomeRecord o n).sum = 0 := withChecksum_sum _

/-- Every result record sums to 0 (R178). -/
theorem resultRecord_sum (ref : RecordRef) (r : RecordResult) : (resultRecord ref r).sum = 0 := withChecksum_sum _

/-! ## A shadow's entries by payload byte -/

/-- The entry of a shadow that a byte names. -/
theorem windowAt_eq {sh : Shadow} {b : Byte} {i : WindowIx} (h : b.toNat = i.val) : sh.windowAt b = sh.windows[i] := by
  have := i.isLt
  unfold Shadow.windowAt
  rw [dif_pos (by omega)]
  simp only [h]; rfl

/-- The target of a shadow that a byte names. -/
theorem targetState_eq {sh : Shadow} {b : Byte} {t : TargetId} (h : b.toNat = t.val) :
    sh.targetState b = sh.targets[t].state := by
  have := t.isLt
  unfold Shadow.targetState
  rw [dif_pos (by omega)]
  simp only [h]; rfl

/-- The overlap check of a payload and of a table of windows. -/
theorem meetsOther_eq {sh : Shadow} {b : Byte} {i : WindowIx} (h : b.toNat = i.val) (p : Profile) :
    sh.meetsOther b p = overlapsOther sh.windows i p := by
  simp only [Shadow.meetsOther, overlapsOther]
  congr 1; funext j
  have : (j.val ≠ b.toNat) ↔ j ≠ i := by rw [h, ne_eq, ne_eq, Fin.ext_iff]
  simp only [this]
  cases sh.windows[j].reserved <;> rfl

/-- The use check of a payload and of a table of windows (R35). -/
theorem inUse_eq {sh : Shadow} {b : Byte} {t : TargetId} (h : b.toNat = t.val) :
    ((List.finRange 32).any fun j => sh.windows[j].profile.any fun p => decide (p.target.val = b.toNat)) =
      targetInUse sh.windows t := by
  simp only [targetInUse]
  congr 1; funext j
  cases sh.windows[j].profile with
  | none => rfl
  | some p => simp only [Option.any_some, h, Fin.ext_iff]

/-- The range check of R16 in its two forms. -/
theorem rangeLegal_iff (base size : Nat) :
    rangeLegal base size = decide (base % 256 = 0 ∧ 1 ≤ size ∧ size ≤ 4096 ∧ base + 256 * size ≤ 0xFFF000) := by
  have h : (base + 256 * size - 1 ≤ Config.lastWindowAddress) ↔ (base + 256 * size ≤ 0xFFF000) := by
    show _ - 1 ≤ 0xFFEFFF ↔ _
    omega
  simp only [rangeLegal, h, Bool.decide_and, Bool.and_assoc]

/-! ## Each rule of staging by its table (R16, R37, R138, R172) -/

/-- SET WINDOW. -/
theorem stageSetWindow_eq (sh : Shadow) (bs : List Byte) :
    (∀ st, firstFailing (sh.stagingChecks .setWindow bs) = some st →
      stageSetWindow sh.windows sh.targets bs = .error st) ∧
      (firstFailing (sh.stagingChecks .setWindow bs) = none → ∀ i : WindowIx, (byteAt bs 0).toNat = i.val →
        ∃ p, profileOf bs = some p ∧
          stageSetWindow sh.windows sh.targets bs = .ok (sh.windows.set i (loadedWindow (enableFlag bs) p))) := by
  simp only [Shadow.stagingChecks, firstFailing_cons, firstFailing_nil, decide_eq_true_eq, ← rangeLegal_iff]
  by_cases h0 : 31 < (byteAt bs 0).toNat
  · simp [-Fin.getElem_fin, h0, stageSetWindow, windowIndex_none h0]
  · obtain ⟨i, hi⟩ : ∃ i : WindowIx, (byteAt bs 0).toNat = i.val := ⟨⟨(byteAt bs 0).toNat, by omega⟩, rfl⟩
    have hw : ∀ j : WindowIx, (byteAt bs 0).toNat = j.val → j = i := fun j hj => Fin.ext (hj.symm.trans hi)
    simp only [h0, if_false, stageSetWindow, windowIndex_eq hi, windowAt_eq hi, meetsOther_eq hi, Window.isReserved]
    by_cases h1 : sh.windows[i].reserved.isSome
    · simp [-Fin.getElem_fin, h1]
    · by_cases h2 : rangeLegal (payloadBase bs) (payloadSize bs) = true
      · simp only [← profileOf_none_iff]
        cases hp : profileOf bs with
        | none => simp [-Fin.getElem_fin, h1, h2]
        | some p =>
          have ht : (byteAt bs 7).toNat = p.target.val := (profileOf_spelled hp).target.symm
          simp only [targetState_eq ht, Option.any_some, reduceCtorEq, if_false]
          by_cases h3 : sh.targets[p.target].state = .absent
          · simp [-Fin.getElem_fin, h1, h2, h3]
          · by_cases h4 : (enableFlag bs && overlapsOther sh.windows i p) = true
            · simp [-Fin.getElem_fin, h1, h2, h3, h4]
            · simp only [h1, h2, h3, h4, Bool.not_true, Bool.false_eq_true, if_false]
              refine ⟨fun st h => by simp at h, fun _ j hj => ⟨p, rfl, ?_⟩⟩
              rw [hw j hj]
      · simp [-Fin.getElem_fin, h1, h2]

/-- ENABLE WINDOW. -/
theorem stageEnableWindow_eq (sh : Shadow) (bs : List Byte) :
    (∀ st, firstFailing (sh.stagingChecks .enableWindow bs) = some st → stageEnableWindow sh.windows bs = .error st) ∧
      (firstFailing (sh.stagingChecks .enableWindow bs) = none → ∀ i : WindowIx, (byteAt bs 0).toNat = i.val →
        sh.windows[i] ≠ .empty ∧
          stageEnableWindow sh.windows bs =
            .ok (if sh.windows[i].enabling.isSome then sh.windows.set i sh.windows[i].enabled else sh.windows)) := by
  simp only [Shadow.stagingChecks, firstFailing_cons, firstFailing_nil, decide_eq_true_eq]
  by_cases h0 : 31 < (byteAt bs 0).toNat
  · simp [-Fin.getElem_fin, h0, stageEnableWindow, windowIndex_none h0]
  · obtain ⟨i, hi⟩ : ∃ i : WindowIx, (byteAt bs 0).toNat = i.val := ⟨⟨(byteAt bs 0).toNat, by omega⟩, rfl⟩
    have hw : ∀ j : WindowIx, (byteAt bs 0).toNat = j.val → j = i := fun j hj => Fin.ext (hj.symm.trans hi)
    simp only [h0, if_false, stageEnableWindow, windowIndex_eq hi, windowAt_eq hi, meetsOther_eq hi]
    by_cases h1 : sh.windows[i] = .empty
    · simp [-Fin.getElem_fin, h1]
    · cases he : sh.windows[i].enabling with
      | none =>
        simp only [h1, if_false, Option.any_none, Bool.false_eq_true]
        refine ⟨fun st h => by simp at h, fun _ j hj => ?_⟩
        rw [hw j hj]
        simp [-Fin.getElem_fin, h1, he]
      | some p =>
        by_cases h2 : overlapsOther sh.windows i p = true
        · simp [-Fin.getElem_fin, h1, h2]
        · simp only [h1, if_false, Option.any_some, h2]
          refine ⟨fun st h => by simp at h, fun _ j hj => ?_⟩
          rw [hw j hj]
          simp [-Fin.getElem_fin, h1, he]

/-- DISABLE WINDOW. -/
theorem stageDisableWindow_eq (sh : Shadow) (bs : List Byte) :
    (∀ st, firstFailing (sh.stagingChecks .disableWindow bs) = some st → stageDisableWindow sh.windows bs = .error st) ∧
      (firstFailing (sh.stagingChecks .disableWindow bs) = none → ∀ i : WindowIx, (byteAt bs 0).toNat = i.val →
        stageDisableWindow sh.windows bs = .ok (sh.windows.set i sh.windows[i].disabled)) := by
  simp only [Shadow.stagingChecks, firstFailing_cons, firstFailing_nil, decide_eq_true_eq]
  by_cases h0 : 31 < (byteAt bs 0).toNat
  · simp [-Fin.getElem_fin, h0, stageDisableWindow, windowIndex_none h0]
  · obtain ⟨i, hi⟩ : ∃ i : WindowIx, (byteAt bs 0).toNat = i.val := ⟨⟨(byteAt bs 0).toNat, by omega⟩, rfl⟩
    have hw : ∀ j : WindowIx, (byteAt bs 0).toNat = j.val → j = i := fun j hj => Fin.ext (hj.symm.trans hi)
    simp only [h0, if_false, stageDisableWindow, windowIndex_eq hi, windowAt_eq hi]
    by_cases h1 : sh.windows[i] = .empty
    · simp [-Fin.getElem_fin, h1]
    · simp only [h1, if_false]
      refine ⟨fun st h => by simp at h, fun _ j hj => ?_⟩
      rw [hw j hj]

/-- CLEAR WINDOW. -/
theorem stageClearWindow_eq (sh : Shadow) (bs : List Byte) :
    (∀ st, firstFailing (sh.stagingChecks .clearWindow bs) = some st → stageClearWindow sh.windows bs = .error st) ∧
      (firstFailing (sh.stagingChecks .clearWindow bs) = none → ∀ i : WindowIx, (byteAt bs 0).toNat = i.val →
        stageClearWindow sh.windows bs = .ok (sh.windows.set i .empty)) := by
  simp only [Shadow.stagingChecks, firstFailing_cons, firstFailing_nil, decide_eq_true_eq]
  by_cases h0 : 31 < (byteAt bs 0).toNat
  · simp [-Fin.getElem_fin, h0, stageClearWindow, windowIndex_none h0]
  · obtain ⟨i, hi⟩ : ∃ i : WindowIx, (byteAt bs 0).toNat = i.val := ⟨⟨(byteAt bs 0).toNat, by omega⟩, rfl⟩
    have hw : ∀ j : WindowIx, (byteAt bs 0).toNat = j.val → j = i := fun j hj => Fin.ext (hj.symm.trans hi)
    simp only [h0, if_false, stageClearWindow, windowIndex_eq hi, windowAt_eq hi, Window.isReserved]
    by_cases h1 : sh.windows[i].reserved.isSome = true
    · simp [-Fin.getElem_fin, h1]
    · simp only [h1]
      refine ⟨fun st h => by simp at h, fun _ j hj => ?_⟩
      rw [hw j hj]; simp

/-- The timing checks in their two forms (R37). -/
theorem timingLegal_iff (bs : List Byte) :
    timingLegal bs =
      decide (1 ≤ (byteAt bs 2).toNat ∧ 2 ≤ (byteAt bs 3).toNat ∧ (byteAt bs 3).toNat ≤ 15 ∧ 1 ≤ (byteAt bs 4).toNat ∧
        (byteAt bs 4).toNat ≤ 15) := by
  simp only [timingLegal, Bool.decide_and, Bool.and_assoc]

/-- The target records. -/
theorem stageTarget_eq (sh : Shadow) (bs : List Byte) :
    ((∀ st, firstFailing (sh.stagingChecks .setTarget bs) = some st → stageSetTarget sh.targets bs = .error st) ∧
      (firstFailing (sh.stagingChecks .setTarget bs) = none → ∀ t : TargetId, (byteAt bs 0).toNat = t.val →
        stageSetTarget sh.targets bs = .ok (sh.targets.set t (sh.targets[t].configured bs)))) ∧
    ((∀ st, firstFailing (sh.stagingChecks .clearTarget bs) = some st →
        stageClearTarget sh.windows sh.targets bs = .error st) ∧
      (firstFailing (sh.stagingChecks .clearTarget bs) = none → ∀ t : TargetId, (byteAt bs 0).toNat = t.val →
        stageClearTarget sh.windows sh.targets bs = .ok (sh.targets.set t TargetRecord.powerOn))) ∧
    ((∀ st, firstFailing (sh.stagingChecks .reviveTarget bs) = some st →
        stageReviveTarget sh.targets bs = .error st) ∧
      (firstFailing (sh.stagingChecks .reviveTarget bs) = none → ∀ t : TargetId, (byteAt bs 0).toNat = t.val →
        stageReviveTarget sh.targets bs = .ok (sh.targets.set t sh.targets[t].revived))) := by
  simp only [Shadow.stagingChecks, firstFailing_cons, firstFailing_nil, decide_eq_true_eq, ← timingLegal_iff]
  by_cases h0 : 15 < (byteAt bs 0).toNat
  · simp [-Fin.getElem_fin, h0, stageSetTarget, stageClearTarget, stageReviveTarget, targetNumber_none h0]
  · obtain ⟨i, hi⟩ : ∃ i : TargetId, (byteAt bs 0).toNat = i.val := ⟨⟨(byteAt bs 0).toNat, by omega⟩, rfl⟩
    have hw : ∀ j : TargetId, (byteAt bs 0).toNat = j.val → j = i := fun j hj => Fin.ext (hj.symm.trans hi)
    simp only [h0, if_false, stageSetTarget, stageClearTarget, stageReviveTarget, targetNumber_eq hi, targetState_eq hi,
      inUse_eq hi]
    refine ⟨?_, ?_, ?_⟩
    · by_cases h1 : timingLegal bs = true
      · simp only [h1, Bool.not_true, Bool.false_eq_true, if_false, if_true]
        refine ⟨fun st h => by simp at h, fun _ j hj => ?_⟩
        rw [hw j hj]
      · simp [-Fin.getElem_fin, h1]
    · by_cases h1 : targetInUse sh.windows i = true
      · simp [-Fin.getElem_fin, h1]
      · simp only [h1]
        refine ⟨fun st h => by simp at h, fun _ j hj => ?_⟩
        rw [hw j hj]; simp
    · by_cases h1 : sh.targets[i].state = .absent
      · simp [-Fin.getElem_fin, h1]
      · simp only [h1, if_false]
        refine ⟨fun st h => by simp at h, fun _ j hj => ?_⟩
        rw [hw j hj]

/-- SET ROUTE out of range. -/
theorem routeOf_none {bs : List Byte} (h : 11 < (byteAt bs 0).toNat ∨ 15 < (byteAt bs 1).toNat ∨ 3 < (byteAt bs 2).toNat) :
    routeOf bs = none := by
  unfold routeOf
  exact dif_neg (by omega)

/-- SET ROUTE in range. -/
theorem routeOf_some {bs : List Byte} {src : Source} {prio : Fin 16} {d : Initiator} (h0 : (byteAt bs 0).toNat = src.val)
    (h1 : (byteAt bs 1).toNat = prio.val) (h2 : (byteAt bs 2).toNat = d.val) :
    routeOf bs = some (src, ⟨prio, d, byteAt bs 3⟩) := by
  have a := src.isLt
  have b := prio.isLt
  have c := d.isLt
  unfold routeOf
  rw [dif_pos ⟨by omega, by omega, by omega⟩]
  have e0 : (⟨(byteAt bs 0).toNat, by omega⟩ : Source) = src := Fin.ext h0
  have e1 : (⟨(byteAt bs 1).toNat, by omega⟩ : Fin 16) = prio := Fin.ext h1
  have e2 : (⟨(byteAt bs 2).toNat, by omega⟩ : Initiator) = d := Fin.ext h2
  rw [e0, e1, e2]

/-- SET THRESHOLD out of range. -/
theorem thresholdOf_none {bs : List Byte} (h : 3 < (byteAt bs 0).toNat ∨ 15 < (byteAt bs 1).toNat) :
    thresholdOf bs = none := by
  unfold thresholdOf
  exact dif_neg (by omega)

/-- SET THRESHOLD in range. -/
theorem thresholdOf_some {bs : List Byte} {i : Initiator} {threshold : Fin 16} (h0 : (byteAt bs 0).toNat = i.val)
    (h1 : (byteAt bs 1).toNat = threshold.val) : thresholdOf bs = some (i, threshold) := by
  have a := i.isLt
  have b := threshold.isLt
  unfold thresholdOf
  rw [dif_pos ⟨by omega, by omega⟩]
  have e0 : (⟨(byteAt bs 0).toNat, by omega⟩ : Initiator) = i := Fin.ext h0
  have e1 : (⟨(byteAt bs 1).toNat, by omega⟩ : Fin 16) = threshold := Fin.ext h1
  rw [e0, e1]

/-- The limits check in its two forms (R172). -/
theorem limitsLegal_iff (bs : List Byte) :
    limitsLegal bs =
      !(decide ((byteAt bs 0).toNat < 4 ∨ 64 < (byteAt bs 0).toNat ∨ (byteAt bs 0).toNat % 4 ≠ 0 ∨
        (byteAt bs 1).toNat = 0 ∨ (byteAt bs 3).toNat = 0 ∨ 15 < (byteAt bs 3).toNat)) := by
  rw [Bool.eq_iff_iff]
  simp only [limitsLegal, Bool.and_eq_true, decide_eq_true_eq, Bool.not_eq_true', decide_eq_false_iff_not]
  omega

/-! ## The result buffer -/

/-- Every byte of the result buffer after a chain's end (R178, R179). -/
theorem finishChain_read {s : State} (h : Memory.wf s.mgb.resultBuffer = true) (x : Executor) (rs : List RecordResult)
    (o : ChainOutcome) (a : Nat) :
    readByte (s.finishChain x rs o).mgb.resultBuffer a =
      if a < min 512 (resultRecords x.records rs ++ outcomeRecord o x.records.length).length
      then byteAt (resultRecords x.records rs ++ outcomeRecord o x.records.length) a
      else readByte s.mgb.resultBuffer a := by
  have h1 : (s.finishChain x rs o).mgb.resultBuffer =
      writeBytes s.mgb.resultBuffer 0
        ((resultRecords x.records rs ++ outcomeRecord o x.records.length).take Config.bufferBytes) := rfl
  rw [h1]
  generalize resultRecords x.records rs ++ outcomeRecord o x.records.length = bs
  have hl : (bs.take Config.bufferBytes).length = min 512 bs.length := List.length_take
  rw [readByte_writeBytes (by rw [hl]; show 0 + _ ≤ 512; omega) h, hl]
  by_cases ha : a < min 512 bs.length
  · rw [if_pos ha, if_pos (by omega), Nat.sub_zero]
    have : a < 512 := by omega
    simp only [byteAt, List.getD_eq_getElem?_getD, List.getElem?_take]
    rw [if_pos (show a < Config.bufferBytes from this)]
  · rw [if_neg ha, if_neg (by omega)]

/-- A chain's end keeps the canonical form of the result buffer. -/
theorem finishChain_wf {s : State} (h : Memory.wf s.mgb.resultBuffer = true) (x : Executor) (rs : List RecordResult)
    (o : ChainOutcome) : Memory.wf (s.finishChain x rs o).mgb.resultBuffer = true :=
  Memory.wf_writeBytes (by rw [List.length_take, Nat.zero_add]; exact Nat.min_le_left _ _) h

/-! ## The commit pass (R175) -/

/-- What one record of the commit pass can change: the configuration, the gate, and the report of a lending that a new limit
makes overrun. -/
theorem applyRecord_frame {s u : State} {k : RecordKind} {bs : List Byte} {later : List (RecordRef × List Byte)}
    (h : s.applyRecord k bs later = .ok u) :
    u = { s with
          wdc := u.wdc, tgt := u.tgt, irl := u.irl
          trk := { s.trk with gate := u.trk.gate }
          pbe :=
            { s.pbe with
              segmentLimit := u.pbe.segmentLimit, lendLimit := u.pbe.lendLimit, overrunMark := u.pbe.overrunMark
              lendOverrun := u.pbe.lendOverrun }
          mgb := { s.mgb with lease := u.mgb.lease, claimMask := u.mgb.claimMask }
          handed := { s.handed with events := u.handed.events } } := by
  cases k <;> simp only [State.applyRecord, State.withWindows, Except.map] at h
  case setWindow => split at h <;> cases h; rfl
  case enableWindow => split at h <;> cases h; rfl
  case clearWindow => split at h <;> cases h; rfl
  case setRoute =>
    split at h
    · cases h; split <;> rfl
    · cases h; rfl
  case setThreshold =>
    split at h
    · cases h; split <;> rfl
    · cases h; rfl
  case setLimits =>
    cases h; split
    · rfl
    · simp only [State.applyLimits]; split <;> rfl
  all_goals (cases h; rfl)

/-- What the whole pass can change. -/
theorem commitPass_frame : ∀ (l : List (RecordRef × List Byte)) {s u : State}, s.commitPass l = .ok u →
    u = { s with
          wdc := u.wdc, tgt := u.tgt, irl := u.irl
          trk := { s.trk with gate := u.trk.gate }
          pbe :=
            { s.pbe with
              segmentLimit := u.pbe.segmentLimit, lendLimit := u.pbe.lendLimit, overrunMark := u.pbe.overrunMark
              lendOverrun := u.pbe.lendOverrun }
          mgb := { s.mgb with lease := u.mgb.lease, claimMask := u.mgb.claimMask }
          handed := { s.handed with events := u.handed.events } }
  | [], s, u, h => by simp only [State.commitPass] at h; cases h; rfl
  | (ref, bs) :: rest, s, u, h => by
    simp only [State.commitPass] at h
    split at h
    · cases h
    · rename_i s1 h1
      have a := applyRecord_frame h1
      have b := commitPass_frame rest h
      rw [a] at b
      exact b

/-- A property that every record of a chain keeps is kept by the whole pass. -/
theorem commitPass_induction {P : State → Prop}
    (hp : ∀ (s u : State) (k : RecordKind) (bs : List Byte) (later : List (RecordRef × List Byte)),
      P s → s.applyRecord k bs later = .ok u → P u) :
    ∀ (l : List (RecordRef × List Byte)) {s u : State}, P s → s.commitPass l = .ok u → P u
  | [], s, u, hs, h => by simp only [State.commitPass] at h; cases h; exact hs
  | (ref, bs) :: rest, s, u, hs, h => by
    simp only [State.commitPass] at h
    split at h
    · cases h
    · rename_i s1 h1
      exact commitPass_induction hp rest (hp s s1 _ _ _ hs h1) h

end Sys2Proof.Machine
end

