-- ==== Sys2Proof/Tests/Slice0.lean ====
section
/-! SUPPORT. Tests of one step each, with expected values written out from the spec's worked values and examples, and for
each statement of Certificates/Slice0/Obligations.lean that has hypotheses a witness that meets them. -/

open Sys2Proof Sys2Proof.Machine

set_option maxRecDepth 100000

namespace Sys2Proof.Tests

/-! ## Helpers -/

/-- The state that a command leaves. -/
def after (c : Instr) (s : State) : State :=
  match exec c s with
  | .next t => t
  | .fault _ => s
  | .refused _ => s

/-- Bytes from numbers. -/
def bytes (l : List Nat) : List Byte := l.map (BitVec.ofNat 8)

/-- A record of a chain: type, length, sequence, payload, checksum (section 10.2). -/
def record (type seq : Nat) (payload : List Nat) : List Byte := withChecksum (bytes ([type, payload.length, seq] ++ payload))

/-- Window 11 of section 11.1: base 100000h, size 16, target 5, LINEAR, unit 4, DESCENDING, RSE no, AB 0, masks 1111b. -/
def profile11 : Profile :=
  ⟨0x100000, 16, 5, .linear, 0, 0, 0, .four, .descending, false, .none, 0b1111, 0b1111⟩

/-- Target 5 of section 11.1, ONLINE: recovery 10, ready timeout 10, strobe width 3, threshold 3. -/
def target5 : TargetRecord := ⟨.online, 10, 10, 3, 3, 0, 0, 255⟩

/-- The device running with the link UP, window 11 ACTIVE with count `n` and target 5 as given. -/
def running (n : Nat) (t : TargetRecord) : State :=
  { State.reset with
    power := ⟨.running, 0⟩
    hlp := { LinkPort.powerOn with link := .up }
    irl := { Relay.powerOn with linkUp := true }
    wdc := State.reset.wdc.set 11 (.loaded .active n profile11)
    tgt := State.reset.tgt.set 5 t }

/-- The device running, with a request at the head of the receive queue. -/
def asked (r : Request) (s : State) : State := { s with hlp := { s.hlp with receive := [r] } }

/-- An entry of initiator 1 to window 11: a transfer of `length` bytes at `address` with progress `p`. -/
def entry11 (slot : Slot) (tag : Tag) (k : TransferKind) (address : UpAddr) (length p : Nat) (st : EntryState) : Entry :=
  ⟨slot, slot.val, 1, tag, .transfer ⟨k, address, length, 11, profile11, p, if k = .read then bytes (List.replicate p 7) else
    bytes (List.range length)⟩, st⟩

/-- The device running with entries in the tracker. -/
def tracking (es : List Entry) : State :=
  let s := running es.length target5
  { s with trk := { s.trk with entries := es, nextSerial := 16 } }

/-! ## Well-formedness: an ill-formed command for each check -/

theorem test_wf_strobe_clock : Instr.wellFormed (.prdySampledHigh 0 0) = false := by decide
theorem test_wf_extreq_asserted : Instr.wellFormed (.extreqAsserted 0) = false := by decide
theorem test_wf_extreq_withdrawn : Instr.wellFormed (.extreqWithdrawn ⟨0, 0⟩) = false := by decide
theorem test_wf_irq_asserted : Instr.wellFormed (.irqAsserted 3 0) = false := by decide
theorem test_wf_irq_withdrawn : Instr.wellFormed (.irqWithdrawn 3 0) = false := by decide
theorem test_wf_packet : Instr.wellFormed (.packetArrival true []) = false := by decide
theorem test_wf_accepts : (Instr.packetArrival true [0x40]).wellFormed = true ∧ Instr.wellFormed .commit = true := by decide

/-! ## Formats and the status region (sections 8.2, 10.1, 10.2) -/

/-- R186: the region after power-on reset: format 01h, flags 02h (TARGETS_HEALTHY), owner FFh, last lease loss FFh,
checksum FFh, the bytes summing to 0 modulo 256. -/
theorem test_status_after_reset :
    State.reset.statusRegion.take 8 = bytes [0x01, 0x02, 0, 0, 0xFF, 0xFF, 0, 0] ∧ State.reset.statusRegion.length = 64 ∧
      State.reset.statusRegion.getLast? = some 0xFF ∧ byteSum State.reset.statusRegion = 0 := by decide

/-- Section 11.3: the FLUSH response that carries a fault: code 0Ah, done count 0, status 09h, address 00h 02h 10h, done 4,
count 1, in 10 bytes. -/
theorem test_flush_response_bytes :
    packetBytes (.response ⟨1, 6, .postedFault, 0, .fault ⟨.timeout, 0x100200, 4, 1⟩⟩) =
      bytes [0x90, 6, 0x0A, 0, 0x09, 0x00, 0x02, 0x10, 4, 1] := by decide

/-- Section 10.1: a notice of source 11, vector B0h, priority 5 to initiator 0. -/
theorem test_notice_bytes : packetBytes (.notice ⟨0, 11, 0xB0, 5⟩) = bytes [0xC0, 11, 0xB0, 5] := by decide

/-- R179: the chain-outcome record of a committed chain of seven records sums to 0 and is 8 bytes long. -/
theorem test_outcome_record :
    (outcomeRecord .committed 7).take 7 = bytes [0xFF, 0x10, 4, 0, 0xFF, 0, 7] ∧ (outcomeRecord .committed 7).length = 8 ∧
      byteSum (outcomeRecord .committed 7) = 0 := by decide

/-! ## Decode (section 1.6) -/

/-- The three windows of the decode examples of section 1.6. -/
def decodeTable : State :=
  { State.reset with
    hlp := { LinkPort.powerOn with link := .up }
    tgt := (State.reset.tgt.set 5 target5).set 9 target5
    wdc :=
      ((State.reset.wdc.set 2
          (.loaded .active 0
            ⟨0x080000, 16, 5, .linear, 0xC000, 0, 0, .two, .descending, false, .none, 0b1111, 0b1111⟩)).set 7
        (.loaded .active 0 ⟨0x081000, 1, 9, .port, 0, 0x0040, 0, .one, .ascending, true, .none, 0b0011, 0b0011⟩)).set 12
        (.loaded .draining 2
          ⟨0x090000, 256, 9, .linear, 0, 0, 0, .one, .ascending, false, .none, 0b1111, 0b1111⟩) }

/-- The refusal joined to the answer list. -/
def refusalOf (s : State) : Option Status :=
  match s.trk.answers with
  | [.refusal r] => some r.status
  | _ => none

theorem test_read_hits_window_2 :
    (after .read (asked ⟨0, .read, 1, 0x080010, 8, []⟩ decodeTable)).wdc[(2 : WindowIx)].count = 1 := by decide
theorem test_write_spans_windows :
    refusalOf (after .write (asked ⟨0, .write, 1, 0x080FFC, 8, bytes (List.range 8)⟩ decodeTable)) = some .span := by decide
theorem test_read_denied :
    refusalOf (after .read (asked ⟨2, .read, 1, 0x081000, 4, []⟩ decodeTable)) = some .denied := by decide
theorem test_draining_window_misses :
    decodeAddress decodeTable.wdc 0x090000 = none ∧ decodeAddress decodeTable.wdc 0x07FFFC = none := by decide

/-! ## Units and segments (sections 4.2 to 4.4) -/

/-- A transfer of 2 bytes at 080011h in window 2: cycles at 080011h, 080010h, 080013h, 080012h (R72). -/
def readPartial : Transfer :=
  ⟨.read, 0x080011, 2, 2, ⟨0x080000, 16, 5, .linear, 0xC000, 0, 0, .two, .descending, false, .none, 0b1111, 0b1111⟩, 0, []⟩

theorem test_partial_read_cycles :
    (readPartial.segmentCycles 16).map (fun c => c.addr.toNat) = [0xC011, 0xC010, 0xC013, 0xC012] ∧
      (readPartial.segmentCycles 16).map (fun c => c.use) = [.request 0, .discard, .discard, .request 1] := by decide

/-- The WRITE of section 4.4: address 100006h, length 20, in window 11, at a progress. -/
def write20 (p : Nat) : Transfer := ⟨.write, 0x100006, 20, 11, profile11, p, bytes (List.range 20)⟩

/-- Section 4.4: three segments of 14, 4 and 2 requested bytes and 18, 4 and 6 byte cycles. -/
theorem test_segments_of_write :
    ((((write20 0).segmentUnits 16).map (write20 0).requestedBytes).sum, ((write20 0).segmentCycles 16).length) = (14, 18) ∧
      ((((write20 14).segmentUnits 16).map (write20 14).requestedBytes).sum, ((write20 14).segmentCycles 16).length) =
        (4, 4) ∧
      ((((write20 18).segmentUnits 16).map (write20 18).requestedBytes).sum, ((write20 18).segmentCycles 16).length) =
        (2, 6) := by decide

/-- Section 4.4: the merge of U5: reads 001Bh, 001Ah, then writes 001Bh, 001Ah, 0019h, 0018h. -/
theorem test_merge_cycles :
    ((write20 18).segmentCycles 16).map (fun c => (c.write, c.addr.toNat)) =
      [(false, 0x1B), (false, 0x1A), (true, 0x1B), (true, 0x1A), (true, 0x19), (true, 0x18)] := by decide

/-- A READ of 20 bytes at an address, with a mode, a unit, an atomic boundary and a progress. -/
def read20 (a : UpAddr) (m : WindowMode) (u : UnitSize) (ab : AtomicBoundary) (p : Nat) : Transfer :=
  ⟨.read, a, 20, 11, ⟨0x100000, 16, 5, m, 0, 0x40, 0, u, .ascending, decide (m ≠ .linear), ab, 0b1111, 0b1111⟩, p, []⟩

/-- The requested bytes of the next segment. -/
def cutBytes (x : Transfer) (limit : Nat) : Nat := ((x.segmentUnits limit).map x.requestedBytes).sum

/-- Section 4.4: LINEAR, unit 2, AB 16, READ 10000Eh, length 20: segments of 2, 16 and 2 bytes. -/
theorem test_segments_linear_ab :
    [0, 2, 18].map (fun p => cutBytes (read20 0x10000E .linear .two .b16 p) 16) = [2, 16, 2] := by decide

/-- Section 4.4: PORT with AB 8: 8, 8, 4; with AB 0 and segment limit 16: 16, 4. -/
theorem test_segments_port :
    [0, 8, 16].map (fun p => cutBytes (read20 0x100000 .port .one .b8 p) 16) = [8, 8, 4] ∧
      [0, 16].map (fun p => cutBytes (read20 0x100000 .port .one .none p) 16) = [16, 4] := by decide

/-! ## The queue, start-up and the link -/

/-- Every timer at its last clock, no command waiting. -/
def lastClock : State :=
  let s := running 0 target5
  { s with
    power := ⟨.running, 39999⟩
    hlp := { s.hlp with link := .down, quiet := some 1 }
    pbe := { s.pbe with recovery := s.pbe.recovery.set 5 1 }
    mgb := { s.mgb with mailbox := .claimed 0, leaseTimer := some 1 } }

/-- The link in a state, with news not yet taken by the IRL. -/
def linked (l : LinkState) (quiet : Option Nat) (news : List LinkNews) : State :=
  { State.reset with
    hlp := { LinkPort.powerOn with link := l, quiet := quiet }
    handed := { Handed.nothing with irlNews := news } }

theorem witness_StepTakesFrontCommand :
    ({ State.reset with pending := [.ageTick, .commit] } : State).pending = .ageTick :: [.commit] := by decide
theorem witness_EmptyQueueStepIsOneBusClock :
    lastClock.pending = [] ∧ lastClock.power.boot = .running ∧ lastClock.pbe.recovery[(5 : TargetId)] = 1 ∧
      lastClock.mgb.leaseTimer = some 1 ∧ lastClock.hlp.quiet = some 1 ∧ lastClock.power.msClock = 39999 := by decide
theorem test_last_clock :
    (match step lastClock with
      | .next t => t.pending
      | _ => []) = [.quietTimeEnd, .ageTick, .recoveryTimerExpiry 5, .leaseExpiry] := by decide
/-- While PORST# is held nothing moves; while tables are initialized the count falls. -/
theorem witness_EmptyQueueStepIsOneBusClock_boots :
    let held : State := { State.reset with power := ⟨.held, 0⟩ }
    (held.pending = [] ∧ held.power.boot = .held) ∧ State.reset.pending = [] ∧ State.reset.power.boot ≠ .held ∧
      (match step held with
        | .next t => some t
        | _ => none) = some held ∧
      (match step State.reset with
        | .next t => some t.power.boot
        | _ => none) = some (.initializing 1999) := by decide
/-- R188: a pulse of 999 ns is not taken, one of 1000 ns is power-on reset. -/
theorem witness_PowerOnReset :
    (after (.porstAsserted 1000) lastClock).power.boot = .held ∧ after (.porstAsserted 999) lastClock = lastClock ∧
      (after .porstReleased (after (.porstAsserted 1000) lastClock)).power.boot = .initializing 2000 := by decide
theorem witness_EvaluationsAtStartUpAndExtreq :
    State.reset.power.boot = .initializing 2000 ∧ (running 0 target5).pins.extreq = false ∧
      (after (.extreqAsserted 2) (running 0 target5)).pbe.bus = .lent ∧
      after (.extreqAsserted 1) (running 0 target5) = running 0 target5 := by decide
theorem witness_LinkStatePassages :
    ((linked .down (some 1) []).hlp.link = .down ∧ (linked .down (some 1) []).hlp.quiet = some 1) ∧
      ((linked .training none []).hlp.link = .training ∧ (linked .training none []).handed.irlNews = []) ∧
      ((linked .training none [.reset]).hlp.link = .training ∧ (linked .training none [.reset]).handed.irlNews ≠ []) ∧
      (linked .up none []).hlp.link = .up := by decide
/-- R117, R126: LINK_LOST with four packets, of which the two notices leave, opens places; the MGB's answer waits for one. A
pair of the IRL waits for none, the link being down. -/
theorem test_link_lost_places :
    let full (answers : List Response) : State :=
      let s := linked .up none []
      { s with
        hlp :=
          { s.hlp with
            transmit :=
              [.response ⟨0, 0, .ok, 1, .nothing⟩, .notice ⟨0, 8, 1, 1⟩, .notice ⟨1, 8, 1, 1⟩,
                .response ⟨1, 0, .ok, 1, .nothing⟩] }
        irl := ({ s.irl with linkUp := true, routes := s.irl.routes.set 3 ⟨5, 2, 0x33⟩ } : Relay).setPair 3 2 .pending
        mgb := { s.mgb with answers := answers } }
    (after .linkLost (full [⟨1, 2, .ok, 4, .nothing⟩])).hlp.contended = true ∧
      (after .linkLost (full [])).hlp.contended = false ∧ (full []).irl.offer = some (2, 3) ∧
      (after .linkLost (full [])).hlp.transmit.length = 2 := by decide

/-- A state whose receive queue holds 7 requests, one place short of full. -/
def sevenReceived : State :=
  let s := linked .up none []
  { s with hlp := { s.hlp with receive := List.replicate 7 ⟨0, .read, 0, 0, 1, []⟩ } }

/-- Sizes 5, 6, 133 and 134 B, the limits of R182. -/
theorem witness_PacketArrives :
    sevenReceived.hlp.link = .up ∧ sevenReceived.hlp.receive.length < 8 ∧
      (after (.packetArrival true (bytes (0x40 :: List.replicate 4 0))) sevenReceived).hlp.dropped = 1 ∧
      (after (.packetArrival true (bytes (0x40 :: List.replicate 5 0))) sevenReceived).hlp.receive.length = 8 ∧
      (after (.packetArrival true (bytes (0x40 :: List.replicate 132 0))) sevenReceived).hlp.receive.length = 8 ∧
      (after (.packetArrival true (bytes (0x40 :: List.replicate 133 0))) sevenReceived).hlp.dropped = 1 ∧
      (after (.packetArrival true (bytes (0x80 :: List.replicate 5 0))) sevenReceived).hlp.dropped = 1 ∧
      (after (.packetArrival false (bytes (0x40 :: List.replicate 5 0))) sevenReceived).hlp.dropped = 1 := by decide
/-- The fields of a REQUEST: initiator 2, WRITE, tag 3, address 123456h, length 2 (R182). -/
theorem test_request_fields :
    requestOf (bytes [0x61, 0x03, 0x56, 0x34, 0x12, 2, 8, 9]) = some ⟨2, .write, 3, 0x123456, 2, bytes [8, 9]⟩ := by decide

/-- The request kinds by code, 0h to 5h and Fh (section 10.1). -/
theorem test_request_kinds :
    [0x40, 0x41, 0x42, 0x43, 0x44, 0x45, 0x4F].map
        (fun b => (requestOf (bytes (b :: List.replicate 5 0))).map fun r => r.kind) =
      [RequestKind.read, .write, .posted, .flush, .detach, .unknown, .unknown].map some := by decide

/-- A state with `n` packets in the transmit queue and an answer held by the MGB. -/
def sending (n : Nat) (p : OutBlock) (contended : Bool) : State :=
  let s := linked .up none []
  { s with
    hlp :=
      { s.hlp with transmit := List.replicate n (.response ⟨0, 0, .ok, 1, .nothing⟩), pointer := p, contended := contended }
    mgb := { s.mgb with answers := [⟨1, 2, .ok, 4, .nothing⟩] } }

theorem witness_PacketsAreHandedAndSent :
    ((sending 3 .trk false).mgb.answers = [⟨1, 2, .ok, 4, .nothing⟩] ∧ (sending 3 .trk false).hlp.transmit.length < 4 ∧
        (sending 3 .trk false).hlp.contended = false) ∧
      ((sending 3 .trk true).hlp.contended = true ∧ (sending 3 .trk true).trk.answers = []) ∧
      ((sending 3 .irl true).hlp.contended = true ∧ (sending 3 .irl true).ready .irl = false) ∧
      (after .packetTransmissionEnd (sending 4 .trk false)).hlp.contended = true := by decide

/-! ## Admission -/

/-- A window like window 11 with read side effects. -/
def rseTable : State :=
  { running 0 target5 with wdc := State.reset.wdc.set 11 (.loaded .active 0 { profile11 with rse := true }) }

/-- The head of the receive queue is a request of a kind at an address, with a length and as many bytes of payload. -/
def request (k : RequestKind) (a : UpAddr) (n : Nat) : Request :=
  ⟨1, k, 3, a, n, if k = .read ∨ k = .flush ∨ k = .detach then [] else bytes (List.range n)⟩

/-- Entry of initiator 1 with tag 3, WAITING. -/
def waiting3 : Entry := entry11 0 3 .read 0x100000 4 0 .waiting

theorem decodes_nothing : State.reset.DecodesTo 0x100000 none := by
  intro i n p h
  have empty : ∀ k : WindowIx, State.reset.wdc[k] = .empty := by decide
  rw [empty i] at h
  cases h

/-- The hypotheses of AdmissionRefuses for a request at the head of the queue, decoded to window 11 with a profile. -/
def Refuses (s : State) (r : Request) (n : Nat) (p : Profile) (st : Status) : Prop :=
  WindowLaw (asked r s) ∧ HeadForTracker (asked r s) r [] ∧ r.address.toNat < 0xFFF000 ∧
    (asked r s).DecodesTo r.address.toNat (some (11, n, p)) ∧
    firstFailing ((asked r s).admissionChecks r (some p)) = some st

/-- The statuses of the checks of R47, each from the first check that fails; MISS, with no window, below. -/
theorem witness_AdmissionRefuses :
    Refuses (running 0 target5) (request .read 0x100000 65) 0 profile11 .format ∧
      Refuses (tracking (List.replicate 8 waiting3)) (request .posted 0x100000 4) 8 profile11 .retry ∧
      Refuses (tracking [waiting3]) (request .write 0x100000 4) 1 profile11 .tagBusy ∧
      Refuses (running 0 target5) (request .read 0x100FFD 4) 0 profile11 .span ∧
      Refuses rseTable (request .read 0x100000 3) 0 { profile11 with rse := true } .align ∧
      Refuses (running 0 { target5 with state := .offline }) (request .posted 0x100000 4) 0 profile11 .offline := by
  refine ⟨?_, ?_, ?_, ?_, ?_, ?_⟩ <;> exact ⟨by decide, by decide, by decide, ⟨by decide, by decide, by decide⟩, by decide⟩
theorem witness_AdmissionRefuses_denied :
    let p := { profile11 with readMask := 0b1101 }
    Refuses { running 0 target5 with wdc := State.reset.wdc.set 11 (.loaded .active 0 p) } (request .read 0x100000 4) 0 p
      .denied := ⟨by decide, by decide, by decide, ⟨by decide, by decide, by decide⟩, by decide⟩
theorem witness_AdmissionRefuses_miss :
    let r := request .posted 0x100000 4
    WindowLaw (asked r State.reset) ∧ HeadForTracker (asked r State.reset) r [] ∧ r.address.toNat < 0xFFF000 ∧
      (asked r State.reset).DecodesTo r.address.toNat none ∧
      firstFailing ((asked r State.reset).admissionChecks r none) = some .miss :=
  ⟨by decide, by decide, by decide, decodes_nothing, by decide⟩
/-- The hypotheses of AdmissionAdmits for a request of each kind, at the ends of window 11 and at the lengths 1 and 64. -/
theorem witness_AdmissionAdmits_all :
    [request .write 0x100022 24, request .read 0x100FFF 1, request .posted 0x100000 64].all (fun r =>
        decide (WindowLaw (asked r (running 0 target5)) ∧ HeadForTracker (asked r (running 0 target5)) r [] ∧
          firstFailing ((asked r (running 0 target5)).admissionChecks r (some profile11)) = none)) = true ∧
      (asked (request .write 0x100022 24) (running 0 target5)).DecodesTo 0x100022 (some (11, 0, profile11)) ∧
      (asked (request .read 0x100FFF 1) (running 0 target5)).DecodesTo 0x100FFF (some (11, 0, profile11)) ∧
      (asked (request .posted 0x100000 64) (running 0 target5)).DecodesTo 0x100000 (some (11, 0, profile11)) :=
  ⟨by decide, ⟨by decide, by decide, by decide⟩, ⟨by decide, by decide, by decide⟩, ⟨by decide, by decide, by decide⟩⟩
/-- Section 11.2: the WRITE of initiator 1 takes slot 0 and the bus, whose first cycle is the merge read at 0021h. -/
theorem test_write_takes_the_bus :
    (after .write (asked (request .write 0x100022 24) (running 0 target5))).busPins.pa = .value 0x0021 ∧
      (after .write (asked (request .write 0x100022 24) (running 0 target5))).trk.entries.map Entry.slot = [0] := by decide
theorem witness_AdmissionAdmits_slot : (running 0 target5).LowestFree 0 ∧ (tracking [waiting3]).LowestFree 1 := by
  unfold State.LowestFree; decide
theorem witness_OtherRequestsRefused :
    HeadForTracker (asked ⟨1, .unknown, 3, 0, 0, []⟩ (running 0 target5)) ⟨1, .unknown, 3, 0, 0, []⟩ [] ∧
      (tracking (List.replicate 8 waiting3)).full 1 = true ∧
      ((tracking [waiting3]).full 1 = false ∧ (tracking [waiting3]).tagInUse 1 3 = true) ∧
      refusalOf (after .unknownKind (asked ⟨1, .unknown, 3, 0, 0, []⟩ (running 0 target5))) = some .format ∧
      refusalOf (after .flush (asked ⟨1, .flush, 3, 0, 0, [1]⟩ (running 0 target5))) = some .format ∧
      refusalOf (after .flush (asked ⟨1, .flush, 3, 0, 0, []⟩ (tracking [waiting3]))) = some .tagBusy ∧
      refusalOf (after .detach (asked ⟨1, .detach, 3, 0, 0, [1]⟩ (running 0 target5))) = some .format := by decide

/-! ## The tracker -/

/-- The tracker of section 11.3: P1 and P2 of initiator 1, P2 behind P1, and a posted-fault record. -/
def posting : State :=
  tracking [entry11 0 0 .posted 0x100200 8 0 .waiting, entry11 1 0 .posted 0x100300 4 0 .waiting]

theorem witness_FlushAdmitted :
    TrackerLaw posting ∧ AnswerLaw posting ∧ HeadForTracker (asked (request .flush 0 0) posting) (request .flush 0 0) [] ∧
      posting.full 1 = false ∧ posting.tagInUse 1 3 = false ∧
      (∃ e ∈ posting.trk.entries, e.initiator = 1 ∧ e.isPosted = true) ∧
      (∀ e ∈ (running 0 target5).trk.entries, e.initiator = 1 → e.isPosted = false) ∧
      ((after .flush (asked (request .flush 0 0) posting)).trk.entries.map Entry.state = [.waiting, .waiting, .waiting]) ∧
      (after .flush (asked (request .flush 0 0) (running 0 target5))).trk.answers = [.entry 0] := by
  refine ⟨?_, ?_, ?_⟩ <;> decide

/-- The tracker with an entry IN_SEGMENT, one WAITING and, to another target, one DONE of initiator 1. -/
def mixed : State :=
  let s := tracking [entry11 0 1 .read 0x100000 8 4 (.inSegment false), entry11 1 2 .posted 0x100010 4 0 .waiting,
    ⟨2, 2, 1, 3, .transfer ⟨.write, 0x100020, 4, 11, { profile11 with target := 6 }, 4, bytes [0, 1, 2, 3]⟩, .done .ok⟩]
  { s with trk := { s.trk with answers := [.entry 2] } }

theorem witness_DetachBegins :
    TrackerLaw mixed ∧ AnswerLaw mixed ∧ HeadForTracker (asked (request .detach 0 0) mixed) (request .detach 0 0) [] ∧
      mixed.trk.detaches[(1 : Initiator)] = none ∧
      (after .detach (asked (request .detach 0 0) mixed)).trk.entries.map Entry.state = [.inSegment true] ∧
      (after .detach (asked (request .detach 0 0) (running 0 target5))).trk.answers = [.detached 1] := by
  refine ⟨?_, ?_, ?_⟩ <;> decide
theorem witness_LinkResetReachesTracker :
    let s : State := { mixed with handed := { Handed.nothing with trkResets := 1 } }
    TrackerLaw s ∧ AnswerLaw s ∧ s.handed.trkResets ≠ 0 ∧ (after .trkLinkReset s).wdc[(11 : WindowIx)].count = 1 := by decide
/-- R126: the place that the rotation was to give is free once the only answer that waited for it has left; and R46: the
last entry's departure takes the gate from QUIESCING to QUIESCED. -/
theorem test_link_reset_settles :
    let s := tracking [entry11 0 3 .write 0x100020 4 4 (.done .ok)]
    let r : State :=
      { s with
        trk := { s.trk with answers := [.entry 0], gate := .quiescing }
        hlp := { s.hlp with contended := true }
        handed := { Handed.nothing with trkResets := 1 } }
    TrackerLaw r ∧ AnswerLaw r ∧ r.PacketWaits ∧ (after .trkLinkReset r).hlp.contended = false ∧
      (after .trkLinkReset r).trk.gate = .quiesced := by
  refine ⟨?_, ?_, ?_⟩ <;> decide

/-- An OFFLINE announcement of target 5 that reaches the entries admitted before serial 2. -/
def announced : State :=
  let s := tracking [entry11 0 1 .read 0x100000 8 4 .waiting, entry11 1 2 .posted 0x100010 4 0 .waiting,
    entry11 2 3 .write 0x100020 4 0 .waiting]
  { s with handed := { Handed.nothing with announcements := [⟨5, 2⟩] } }

theorem witness_OfflineAnnouncementFails :
    TrackerLaw announced ∧ AnswerLaw announced ∧ announced.handed.announcements = [⟨5, 2⟩] ∧
      (∃ e ∈ announced.trk.entries, e.initiator = 1 ∧ e.isPosted = true ∧ e.target = some 5 ∧ e.state = .waiting ∧
        e.serial < 2) ∧
      (∀ f ∈ announced.trk.entries, f.initiator = 1 → f.isFlush = true → f.state ≠ .waiting) ∧
      (after (.offlineAnnouncement 5) announced).trk.faults[(1 : Initiator)] = some ⟨.offline, 0x100010, 0, 1⟩ ∧
      (after (.offlineAnnouncement 5) announced).handed.events = [.postedFault 1] ∧
      (after (.offlineAnnouncement 5) announced).trk.answers = [.entry 0] ∧
      (after (.offlineAnnouncement 5) announced).wdc[(11 : WindowIx)].count = 2 := by
  refine ⟨?_, ?_, ?_⟩ <;> decide

/-- The announcement of target 5 with one POSTED entry, given its record before, and a FLUSH entry of tag 6 behind it. -/
def announcedFlush (record : Option FaultRecord) : State :=
  let s := tracking [entry11 0 2 .posted 0x100010 4 0 .waiting, ⟨1, 1, 1, 6, .flush none, .waiting⟩]
  { s with
    trk := { s.trk with faults := s.trk.faults.set 1 record }
    handed := { Handed.nothing with announcements := [⟨5, 2⟩] } }

/-- R60, R61: the FLUSH that waited for the POSTED entry alone is DONE with the fault, whose record is cleared; a record
valid before keeps its first fault. -/
theorem witness_OfflineAnnouncementFails_flush :
    TrackerLaw (announcedFlush none) ∧ AnswerLaw (announcedFlush none) ∧
      (announcedFlush none).trk.entries.filter Entry.isPosted = [entry11 0 2 .posted 0x100010 4 0 .waiting] ∧
      (announcedFlush none).trk.flushesBehind (entry11 0 2 .posted 0x100010 4 0 .waiting) =
        [⟨1, 1, 1, 6, .flush none, .waiting⟩] ∧
      (after (.offlineAnnouncement 5) (announcedFlush none)).trk.entries.map Entry.body =
        [.flush (some ⟨.offline, 0x100010, 0, 1⟩)] ∧
      (after (.offlineAnnouncement 5) (announcedFlush none)).trk.faults[(1 : Initiator)] = none ∧
      (after (.offlineAnnouncement 5) (announcedFlush none)).handed.withdrawals = [⟨1, 1⟩] ∧
      (after (.offlineAnnouncement 5) (announcedFlush (some ⟨.timeout, 7, 3, 255⟩))).trk.entries.map Entry.body =
        [.flush (some ⟨.timeout, 7, 3, 255⟩)] := by decide

/-- A segment whose end report has been handed, for an entry in slot 0. -/
def reported (e : Entry) (byteCount : Nat) (timedOut : Bool) : State :=
  let s := tracking [e]
  let c : SegmentContext :=
    ⟨0, 5, true, .linear, 0, 0, [], 0, 0, 0, 0, [], [], timedOut, none, some ⟨0, 1, byteCount, bytes [1, 2, 3, 4], timedOut⟩⟩
  { s with pbe := { s.pbe with bus := .segment c, recovery := s.pbe.recovery.set 5 40 } }

/-- The state of the entry in slot 0 and its data, after the report. -/
def reportTaken (s : State) : List (EntryState × Nat) :=
  (after .segmentEndReport s).trk.entries.map fun e => (e.state, (e.transfer.map fun x => x.progress).getD 0)

theorem witness_SegmentEndAdvancesEntry :
    ∃ (s : State) (c : SegmentContext) (rep : SegmentReport) (e : Entry) (x : Transfer),
      TrackerLaw s ∧ AnswerLaw s ∧ s.pbe.bus = .segment c ∧ c.report = some rep ∧ e ∈ s.trk.entries ∧
      e.slot = rep.slot ∧ e.state = .inSegment false ∧ e.body = .transfer x ∧ x.kind ≠ .posted ∧ rep.timedOut = false ∧
      x.length ≤ x.progress + rep.bytes :=
  ⟨reported (entry11 0 1 .read 0x100000 8 4 (.inSegment false)) 4 false, _, _, _, _, by decide, by decide, rfl, rfl,
    List.mem_singleton.2 rfl, rfl, rfl, rfl, by decide, rfl, by decide⟩
theorem test_segment_end_advances :
    TrackerLaw (reported (entry11 0 1 .read 0x100000 8 4 (.inSegment false)) 4 false) ∧
      AnswerLaw (reported (entry11 0 1 .read 0x100000 8 4 (.inSegment false)) 4 false) ∧
      reportTaken (reported (entry11 0 1 .read 0x100000 8 4 (.inSegment false)) 4 false) = [(.done .ok, 8)] ∧
      reportTaken (reported (entry11 0 1 .read 0x100000 8 0 (.inSegment false)) 4 false) = [(.waiting, 4)] ∧
      reportTaken (reported (entry11 0 1 .read 0x100000 8 0 (.inSegment false)) 4 true) = [(.done .timeout, 4)] := by
  refine ⟨?_, ?_, ?_⟩ <;> decide
/-- R32, R53, R127: a READ that timed out, in slot 0, with its report and the OFFLINE announcement both to be taken, and a
younger WRITE of its initiator to the target. -/
def timedOutFirst : State :=
  let s := reported (entry11 0 1 .read 0x100000 8 0 (.inSegment false)) 4 true
  { s with
    trk := { s.trk with entries := s.trk.entries ++ [entry11 1 2 .write 0x100010 4 0 .waiting] }
    handed := { Handed.nothing with announcements := [⟨5, 2⟩] } }
theorem test_pair_answers_in_admission_order :
    TrackerLaw timedOutFirst ∧ AnswerLaw timedOutFirst ∧
      (after (.offlineAnnouncement 5) timedOutFirst).trk.answers = [] ∧
      AnswerLaw (after (.offlineAnnouncement 5) timedOutFirst) ∧
      (after .segmentEndReport (after (.offlineAnnouncement 5) timedOutFirst)).trk.answers = [.entry 0, .entry 1] ∧
      (after (.offlineAnnouncement 5) (after .segmentEndReport timedOutFirst)).trk.answers = [.entry 0, .entry 1] := by
  refine ⟨?_, ?_, ?_⟩ <;> decide
theorem witness_SegmentEndRemovesEntry :
    ∃ (s : State) (c : SegmentContext) (rep : SegmentReport) (e : Entry) (x : Transfer),
      TrackerLaw s ∧ AnswerLaw s ∧ s.pbe.bus = .segment c ∧ c.report = some rep ∧ e ∈ s.trk.entries ∧
      e.slot = rep.slot ∧ e.body = .transfer x ∧ s.trk.flushesBehind e = [] ∧
      e.state = .inSegment false ∧ x.kind = .posted ∧ rep.timedOut = true ∧ s.trk.faults[e.initiator] = none :=
  ⟨reported (entry11 0 1 .posted 0x100200 8 0 (.inSegment false)) 4 true, _, _, _, _, by decide, by decide, rfl, rfl,
    List.mem_singleton.2 rfl, rfl, rfl, by decide, rfl, rfl, rfl, rfl⟩
theorem test_segment_end_removes :
    TrackerLaw (reported (entry11 0 1 .posted 0x100200 8 0 (.inSegment false)) 4 true) ∧
      AnswerLaw (reported (entry11 0 1 .posted 0x100200 8 0 (.inSegment false)) 4 true) ∧
      (after .segmentEndReport (reported (entry11 0 1 .posted 0x100200 8 0 (.inSegment false)) 4 true)).trk.faults[
          (1 : Initiator)] = some ⟨.timeout, 0x100200, 4, 1⟩ ∧
      reportTaken (reported (entry11 0 1 .posted 0x100200 8 4 (.inSegment false)) 4 false) = [] ∧
      reportTaken (reported (entry11 0 1 .posted 0x100200 8 0 (.inSegment false)) 4 false) = [(.waiting, 4)] ∧
      reportTaken (reported (entry11 0 1 .posted 0x100200 8 0 (.inSegment true)) 4 true) = [] := by decide

/-- Section 11.3: the segment of P1 has ended, timed out or not, with a FLUSH behind P1, given a posted-fault record. -/
def flushBehind (record : Option FaultRecord) (timedOut : Bool) : State :=
  let s := reported (entry11 0 1 .posted 0x100200 8 4 (.inSegment false)) 4 timedOut
  { s with
    trk :=
      { s.trk with
        entries := s.trk.entries ++ [⟨1, 1, 1, 6, .flush none, .waiting⟩]
        faults := s.trk.faults.set 1 record
        gate := .quiescing } }

/-- R58, R60, R61: the FLUSH due at the departure carries the fault of the step, or the record that stood before with one
more fault counted; the record is cleared. With no record it carries none and nothing is told to the IRL. -/
theorem witness_SegmentEndRemovesEntry_flush :
    TrackerLaw (flushBehind none true) ∧ AnswerLaw (flushBehind none true) ∧
      (flushBehind none true).trk.flushesBehind (entry11 0 1 .posted 0x100200 8 4 (.inSegment false)) =
        [⟨1, 1, 1, 6, .flush none, .waiting⟩] ∧
      (after .segmentEndReport (flushBehind none true)).trk.entries.map Entry.body =
        [.flush (some ⟨.timeout, 0x100200, 8, 1⟩)] ∧
      (after .segmentEndReport (flushBehind none true)).trk.answers = [.entry 1] ∧
      (after .segmentEndReport (flushBehind none true)).handed.withdrawals = [⟨1, 1⟩] ∧
      (after .segmentEndReport (flushBehind none true)).trk.gate = .quiescing ∧
      (after .segmentEndReport (flushBehind (some ⟨.offline, 9, 2, 254⟩) true)).trk.entries.map Entry.body =
        [.flush (some ⟨.offline, 9, 2, 255⟩)] ∧
      (after .segmentEndReport (flushBehind none false)).trk.entries.map Entry.body = [.flush none] ∧
      (after .segmentEndReport (flushBehind none false)).handed.withdrawals = [] := by
  refine ⟨?_, ?_, ?_⟩ <;> decide

/-- A detach of initiator 1 in progress, its last entry DROPPED and its segment ended. -/
def lastDropped : State :=
  let s := reported (entry11 0 1 .read 0x100000 8 0 (.inSegment true)) 4 false
  { s with trk := { s.trk with detaches := s.trk.detaches.set 1 (some ⟨9, 3⟩) } }

theorem witness_SegmentEndRemovesEntry_dropped :
    ∃ (s : State) (c : SegmentContext) (rep : SegmentReport) (e : Entry) (x : Transfer),
      TrackerLaw s ∧ AnswerLaw s ∧ s.pbe.bus = .segment c ∧ c.report = some rep ∧ e ∈ s.trk.entries ∧
      e.slot = rep.slot ∧ e.body = .transfer x ∧
      e.state = .inSegment true ∧ s.trk.detaches[e.initiator].isSome = true ∧ s.trk.entriesOf e.initiator = [e] :=
  ⟨lastDropped, _, _, _, _, by decide, by decide, rfl, rfl, List.mem_singleton.2 rfl, rfl, rfl, rfl, rfl, by decide⟩
theorem test_detach_answer_ready :
    TrackerLaw lastDropped ∧ AnswerLaw lastDropped ∧ (after .segmentEndReport lastDropped).trk.answers = [.detached 1] ∧
      lastDropped.trk.entriesOf 1 = lastDropped.trk.entries := by decide

/-- The tracker with one answer at the head of the answer list. -/
def answering (e : Entry) : State :=
  let s := tracking [e]
  { s with trk := { s.trk with answers := [.entry e.slot] } }

/-- The last packet of the transmit queue, as bytes. -/
def lastSent (s : State) : Option (List Byte) := s.hlp.transmit.getLast?.map packetBytes

theorem witness_AnswersAreHanded :
    ∃ (s : State) (slot : Slot) (rest : List Answer) (e : Entry) (o : EntryOutcome) (x : Transfer),
      TrackerLaw s ∧ AnswerLaw s ∧ s.hlp.transmit.length < 4 ∧ s.hlp.contended = false ∧
      s.trk.answers = .entry slot :: rest ∧ e ∈ s.trk.entries ∧ e.slot = slot ∧ e.state = .done o ∧ e.body = .transfer x :=
  ⟨answering (entry11 0 1 .read 0x100000 8 4 (.done .timeout)), _, _, _, _, _, by decide, by decide, by decide, rfl, rfl,
    List.mem_singleton.2 rfl, rfl, rfl, rfl⟩
/-- A place that the rotation gives, the outbound pointer at the IRL, which has nothing to send: it is the TRK's, and the
pointer then names the MGB (R126). At the MGB, which holds an answer, the TRK hands nothing. -/
theorem witness_AnswersAreHanded_contended :
    let s := answering (entry11 0 1 .read 0x100000 8 4 (.done .timeout))
    let c : State := { s with hlp := { s.hlp with contended := true, pointer := .irl } }
    let m : State :=
      { s with
        hlp := { s.hlp with contended := true, pointer := .mgb }
        mgb := { s.mgb with answers := [⟨1, 2, .ok, 4, .nothing⟩] } }
    TrackerLaw c ∧ AnswerLaw c ∧ c.hlp.transmit.length < 4 ∧ c.hlp.contended = true ∧ c.hlp.pointer ≠ .mgb ∧
      c.ready .irl = false ∧ (after .answerHanded c).hlp.pointer = .mgb ∧ (after .answerHanded c).hlp.contended = false ∧
      after .answerHanded m = m := by decide
theorem witness_AnswersAreHanded_flush :
    let s := answering ⟨0, 0, 1, 6, .flush (some ⟨.timeout, 0x100200, 4, 1⟩), .done .ok⟩
    TrackerLaw s ∧ AnswerLaw s ∧ s.hlp.transmit.length < 4 ∧ s.hlp.contended = false ∧ s.trk.answers = [.entry 0] := by
  decide
theorem test_answers_are_handed :
    TrackerLaw (answering (entry11 0 1 .read 0x100000 8 4 (.done .timeout))) ∧
      AnswerLaw (answering (entry11 0 1 .read 0x100000 8 4 (.done .timeout))) ∧
      lastSent (after .answerHanded (answering (entry11 0 1 .read 0x100000 8 4 (.done .timeout)))) =
        some (bytes [0x90, 1, 0x09, 4, 7, 7, 7, 7]) ∧
      lastSent (after .answerHanded (answering (entry11 0 1 .write 0x100000 8 8 (.done .ok)))) =
        some (bytes [0x90, 1, 0x00, 8]) ∧
      lastSent (after .answerHanded (answering ⟨0, 0, 1, 6, .flush none, .done .ok⟩)) = some (bytes [0x90, 6, 0, 0]) := by
  decide
theorem witness_AnswersAreHanded_entryless :
    let s : State :=
      { lastDropped with
        trk := { lastDropped.trk with entries := [], answers := [.detached 1, .refusal ⟨0, 1, .retry, 0, .nothing⟩] } }
    TrackerLaw s ∧ AnswerLaw s ∧ s.hlp.transmit.length < 4 ∧ s.hlp.contended = false ∧
      s.trk.detaches[(1 : Initiator)] = some ⟨9, 3⟩ ∧
      lastSent (after .answerHanded s) = some (bytes [0x90, 9, 0x0B, 0, 3]) ∧
      lastSent (after .answerHanded (after .answerHanded s)) = some (bytes [0x80, 1, 0x01, 0]) := by decide

/-! ## Targets and segments -/

/-- Outcomes handed for targets 9 and 5, target 5 in a state. -/
def outcome (t : TargetRecord) (ok : Bool) : State :=
  { running 0 t with handed := { Handed.nothing with outcomes := [(9, true), (5, ok)] } }

/-- The threshold is 3: consecutive counts 1 and 2 are SUSPECT, 3 is OFFLINE (R31). -/
theorem witness_OutcomesMoveHealth :
    (∀ o ∈ [((9 : TargetId), true)], o.1 ≠ 5) ∧
      (outcome { target5 with state := .suspect, consecutive := 2 } true).handed.outcomes = [(9, true)] ++ (5, true) :: [] ∧
      (after (.cycleCompletion 5) (outcome { target5 with state := .suspect, consecutive := 2 } true)).tgt[(5 : TargetId)] =
        { target5 with age := 0 } ∧
      (after (.cycleTimeout 5) (outcome { target5 with consecutive := 1 } false)).tgt[(5 : TargetId)].state = .suspect ∧
      (after (.cycleTimeout 5) (outcome { target5 with consecutive := 2 } false)).tgt[(5 : TargetId)].state = .offline ∧
      (after (.cycleTimeout 5) (outcome { target5 with consecutive := 2 } false)).handed.events = [.targetDown] ∧
      (after (.cycleTimeout 5) (outcome .powerOn false)).tgt[(5 : TargetId)] = .powerOn := by decide
theorem witness_AgeTickRaisesAges :
    (running 0 target5).power.boot ≠ .held ∧
      (after .ageTick (running 0 { target5 with age := 253 })).tgt[(5 : TargetId)].age = 254 ∧
      (after .ageTick (running 0 { target5 with age := 254 })).tgt[(5 : TargetId)].age = 254 ∧
      (after .ageTick (running 0 target5)).tgt[(5 : TargetId)].age = 255 := by decide
theorem witness_SegmentIsCut :
    (write20 0).snapshot.PortForced ∧ (write20 0).progress < (write20 0).length ∧ (write20 0).snapshot.ab = .none ∧
      (read20 0x10000E .linear .two .b16 2).snapshot.ab ≠ .none ∧ (read20 0x10000E .linear .two .b16 2).snapshot.PortForced ∧
      (read20 0x100000 .port .one .b8 19).snapshot.PortForced ∧
      (read20 0x100000 .port .one .b8 19).snapshot.mode ≠ .linear ∧
      (read20 0x100000 .port .one .b8 19).progress < (read20 0x100000 .port .one .b8 19).length := by decide
theorem witness_UnitRunsItsCycles :
    ∃ (addresses : List Nat) (target : Bool → Nat → Nat) (use : ByteUse → Nat → ByteUse),
      ((write20 18).snapshot.unit, 4) ∈ [(UnitSize.one, 1), (.two, 2), (.four, 4)] ∧ (write20 18).kind ≠ .read ∧
      (write20 18).snapshot.lane = .descending ∧ (addresses = (List.range 4).map fun j => 0x40006 * 4 + (4 - 1 - j)) ∧
      (write20 18).snapshot.mode = .linear ∧
      (∀ isWrite a, target isWrite a =
        ((write20 18).snapshot.targetBase.toNat + (a - (write20 18).snapshot.base.toNat)) % 65536) ∧
      ∀ other a, use other a =
        if (write20 18).address.toNat ≤ a ∧ a < (write20 18).address.toNat + (write20 18).length then
          .request (a - (write20 18).address.toNat)
        else other :=
  ⟨_, fun _ a => ((write20 18).snapshot.targetBase.toNat + (a - (write20 18).snapshot.base.toNat)) % 65536, fun other a =>
    if (write20 18).address.toNat ≤ a ∧ a < (write20 18).address.toNat + (write20 18).length then
      .request (a - (write20 18).address.toNat)
    else other, by decide, by decide, rfl, rfl, rfl, fun _ _ => rfl, fun _ _ => rfl⟩
/-- A READ of a port window: one cycle at the read port, its byte kept at its position (R3, R70, R72). -/
theorem test_port_read_cycles :
    let x := read20 0x100000 .port .one .b8 19
    x.kind = .read ∧ x.snapshot.lane = .ascending ∧
      (x.unitCycles 0x100013).map (fun c => (c.write, c.addr.toNat)) = [(false, x.snapshot.readPort.toNat)] ∧
      (x.unitCycles 0x100013).map (fun c => c.use) = [.request 19] := by decide
theorem witness_SegmentsCoverTransfer :
    ((write20 0).progress < (write20 0).length ∧ (write20 0).progress = 0) ∧
      ((write20 18).progress < (write20 18).length ∧ ((write20 18).first + (write20 18).progress) % (write20 18).unit = 0) ∧
      (write20 18).unitsLeft = (write20 18).segmentUnits 16 ++ [] ∧
      (write20 0).unitsLeft = (write20 0).segmentUnits 16 ++ (write20 14).unitsLeft := by decide

/-! ## The bus -/

/-- Section 11.2: W of initiator 1 and R of initiator 3, both WAITING, the pointer at initiator 2, target 5 at rest. -/
def twoWaiting : State :=
  let s := tracking [entry11 0 3 .write 0x100022 24 14 .waiting,
    { entry11 1 0 .read 0x100100 4 0 .waiting with initiator := 3 }]
  { s with pbe := { s.pbe with pointer := 2 } }

theorem witness_ArbiterDecides :
    TrackerLaw twoWaiting ∧ twoWaiting.power.boot = .running ∧ twoWaiting.pbe.bus = .idle ∧ twoWaiting.pins.extreq = false ∧
      (∀ e ∈ twoWaiting.trk.entries, twoWaiting.eligible e = true) ∧
      (∀ f ∈ twoWaiting.trk.entries, (f.initiator - twoWaiting.pbe.pointer).val < ((3 : Initiator) - 2).val →
        twoWaiting.eligible f = false) ∧
      twoWaiting.arbitrate.pbe.pointer = 0 ∧
      twoWaiting.arbitrate.trk.entries.map Entry.state = [.waiting, .inSegment false] := by decide
theorem witness_ArbiterDecides_others :
    State.reset.power.boot ≠ .running ∧ twoWaiting.arbitrate.pbe.bus ≠ .idle ∧
      ({ twoWaiting with pins := { twoWaiting.pins with extreq := true } } : State).pins.extreq = true ∧
      (∀ e ∈ posting.trk.entries, ({ posting with tgt := State.reset.tgt } : State).eligible e = false) := by decide

/-- The bus in a segment of `write20 18`, at cycle `n` in a phase, target 5 with recovery `r`. -/
def inCycle (n : Nat) (r : Nat) (phase : CyclePhase) : State :=
  let s := tracking [entry11 0 1 .write 0x100006 20 18 (.inSegment false)]
  let cycles := (write20 18).segmentCycles 16
  let spec := cycles.getD n ⟨false, 0, .discard, none⟩
  let c : SegmentContext :=
    ⟨0, 5, true, .linear, 0, 0, cycles, n, 18, 0, 0, [], [], false, some ⟨spec, 3, 10, none, phase⟩, none⟩
  { s with tgt := s.tgt.set 5 { target5 with recovery := r }, pbe := { s.pbe with bus := .segment c } }

/-- The phase of the running cycle. -/
def phaseOf (s : State) : Option CyclePhase :=
  match s.pbe.bus with
  | .segment c => c.run.map fun r => r.phase
  | .idle => none
  | .lent => none

/-- R99, R100: strobe width 3 and ready timeout 10 µs: clocks 3 to 400 complete the cycle, 2 and 401 do not. -/
theorem witness_StrobeEnds :
    ∃ (s : State) (c : SegmentContext) (r : CycleRun) (k : Nat),
      s.pbe.bus = .segment c ∧ c.run = some r ∧ r.phase = .strobe k ∧ k ≤ 3 ∧ r.strobeWidth ≤ 3 ∧
      400 ≤ 40 * r.readyTimeout ∧ 2 < r.strobeWidth ∧ 40 * r.readyTimeout < 401 :=
  ⟨inCycle 0 0 (.strobe 0), _, _, _, rfl, rfl, rfl, by decide, by decide, by decide, by decide, by decide⟩
theorem test_strobe_ends :
    phaseOf (inCycle 0 0 (.strobe 0)) = some (.strobe 0) ∧
      phaseOf (after (.prdySampledHigh 3 0xA5) (inCycle 0 0 (.strobe 0))) = some (.hold (.completed (some 0xA5))) ∧
      phaseOf (after (.prdySampledHigh 400 0xA5) (inCycle 2 0 (.strobe 399))) = some (.hold (.completed none)) ∧
      phaseOf (after (.prdySampledHigh 2 0xA5) (inCycle 0 0 (.strobe 0))) = some (.strobe 0) ∧
      phaseOf (after (.prdySampledHigh 401 0xA5) (inCycle 0 0 (.strobe 0))) = some (.strobe 0) ∧
      phaseOf (after .readyTimeout (inCycle 0 0 (.strobe 399))) = some (.hold .timedOut) := by decide

/-- The report of the running segment. -/
def reportOf (s : State) : Option (Nat × Nat × Bool) :=
  match s.pbe.bus with
  | .segment c => c.report.map fun r => (r.units, r.bytes, r.timedOut)
  | .idle => none
  | .lent => none

/-- The hypotheses of ByteCycleEnds. -/
def EndsCycle (s : State) (c : SegmentContext) (r : CycleRun) (result : CycleResult) : Prop :=
  s.pbe.bus = .segment c ∧ c.run = some r ∧ r.phase = .hold result ∧ c.timedOut = false ∧
    ∃ values : List (Nat × Byte) → Nat → List Byte, ∀ held n,
      values held n = if c.write then [] else (List.range n).map fun k => (held.lookup (c.start + k)).getD 0

/-- A cycle in the middle of the list with recovery 0 and 10, the last cycle, and a timed-out cycle (R101, R103, R106). -/
theorem witness_ByteCycleEnds :
    (∃ (s : State) (c : SegmentContext) (r : CycleRun) (spec : CycleSpec), EndsCycle s c r (.completed (some 9)) ∧
        c.cycles[c.next + 1]? = some spec ∧ s.tgt[c.target].recovery = 0) ∧
      (∃ (s : State) (c : SegmentContext) (r : CycleRun), EndsCycle s c r (.completed (some 9)) ∧
        c.next + 1 < c.cycles.length ∧ s.tgt[c.target].recovery ≠ 0) ∧
      (∃ (s : State) (c : SegmentContext) (r : CycleRun), EndsCycle s c r (.completed none) ∧
        c.cycles.length ≤ c.next + 1) ∧
      ∃ (s : State) (c : SegmentContext) (r : CycleRun), EndsCycle s c r .timedOut :=
  ⟨⟨inCycle 0 0 (.hold (.completed (some 9))), _, _, _, ⟨rfl, rfl, rfl, rfl, _, fun _ _ => rfl⟩, rfl, by decide⟩,
    ⟨inCycle 0 10 (.hold (.completed (some 9))), _, _, ⟨rfl, rfl, rfl, rfl, _, fun _ _ => rfl⟩, by decide, by decide⟩,
    ⟨inCycle 5 10 (.hold (.completed none)), _, _, ⟨rfl, rfl, rfl, rfl, _, fun _ _ => rfl⟩, by decide⟩,
    ⟨inCycle 4 10 (.hold .timedOut), _, _, rfl, rfl, rfl, rfl, _, fun _ _ => rfl⟩⟩
theorem test_byte_cycle_ends :
    phaseOf (after .byteCycleEnd (inCycle 0 0 (.hold (.completed (some 9))))) = some .setup ∧
      phaseOf (after .byteCycleEnd (inCycle 0 10 (.hold (.completed (some 9))))) = none ∧
      (after .byteCycleEnd (inCycle 0 10 (.hold (.completed (some 9))))).pbe.recovery[(5 : TargetId)] = 40 ∧
      reportOf (after .byteCycleEnd (inCycle 5 10 (.hold (.completed none)))) = some (1, 2, false) ∧
      reportOf (after .byteCycleEnd (inCycle 4 10 (.hold .timedOut))) = some (0, 0, true) ∧
      (after .byteCycleEnd (inCycle 4 10 (.hold .timedOut))).handed.outcomes = [(5, false)] := by decide

/-- The value driven in the running cycle. -/
def drivenOf (s : State) : Option Byte :=
  match s.pbe.bus with
  | .segment c => c.run.bind fun r => r.driven
  | .idle => none
  | .lent => none

/-- The segment of `inCycle` with the values of its merge held. -/
def merging (n : Nat) : State :=
  let s := inCycle n 0 (.hold (.completed none))
  match s.pbe.bus with
  | .segment c => { s with pbe := { s.pbe with bus := .segment { c with merged := [(0x10001B, 0xB1), (0x10001A, 0xA1)] } } }
  | .idle => s
  | .lent => s

/-- R75, R98: the write cycle at 001Ah drives the value that the merge read there, the one at 0019h byte 19 of the data. -/
theorem test_next_cycle_drives :
    drivenOf (after .byteCycleEnd (merging 2)) = some 0xA1 ∧ drivenOf (after .byteCycleEnd (merging 3)) = some 19 := by decide
theorem witness_Drives :
    (inCycle 0 0 .setup).Drives 0 [] ⟨false, 0x1B, .merge 0x10001B, none⟩ none ∧
      (inCycle 0 0 .setup).Drives 0 [(0x10001A, 0xA1)] ⟨true, 0x1A, .merge 0x10001A, none⟩ (some 0xA1) :=
  ⟨⟨fun _ => rfl, by simp, by simp⟩, by simp, by simp, by rintro _ _ - ⟨⟩ h; exact h⟩

/-- The last cycle of the READ of section 4.2, with the first requested byte held. -/
def lastRead : State :=
  let c : SegmentContext :=
    ⟨0, 5, false, .linear, 0, 0, readPartial.segmentCycles 16, 3, 0, 1, 1, [(0, 5)], [], false,
      some ⟨(readPartial.segmentCycles 16).getD 3 ⟨false, 0, .discard, none⟩, 3, 10, none, .hold (.completed (some 7))⟩, none⟩
  { running 0 target5 with pbe := { State.reset.pbe with bus := .segment c } }

/-- R72, R85: the value of the last cycle is reported at its position, behind the one held. -/
theorem test_read_values_are_reported :
    (match (after .byteCycleEnd lastRead).pbe.bus with
      | .segment c => c.report
      | _ => none) = some ⟨0, 2, 2, bytes [5, 7], false⟩ := by decide

/-- A bus state with the recovery timer of target 5 at its last clock. -/
def resting (b : BusState) : State :=
  let s := posting
  { s with pbe := { s.pbe with bus := b, recovery := s.pbe.recovery.set 5 1 } }

/-- The segment of `inCycle`, waiting for the timer of target 5. -/
def waitingForTimer : SegmentContext :=
  ⟨0, 5, true, .linear, 0, 0, (write20 18).segmentCycles 16, 1, 18, 0, 0, [], [], false, none, none⟩

theorem witness_RecoveryTimerExpires :
    (resting .idle).pbe.recovery[(5 : TargetId)] ≠ 0 ∧
      ((after (.recoveryTimerExpiry 5) (resting .idle)).trk.entries.map Entry.state = [.inSegment false, .waiting]) ∧
      (after (.recoveryTimerExpiry 5) (resting .lent)).pbe.bus = .lent ∧
      phaseOf (after (.recoveryTimerExpiry 5) (resting (.segment waitingForTimer))) = some .setup ∧
      drivenOf (after (.recoveryTimerExpiry 5) (resting (.segment { waitingForTimer with next := 5 }))) = some 0 ∧
      waitingForTimer.cycles[waitingForTimer.next]?.isSome = true ∧
      phaseOf (after (.recoveryTimerExpiry 5) (resting (.segment { waitingForTimer with target := 6 }))) = none := by decide

/-- The bus lent for `clocks` clocks, with a lend limit. -/
def lent (clocks limit : Nat) : State :=
  let s := running 0 target5
  { s with
    pins := { s.pins with extreq := true }
    pbe := { s.pbe with bus := .lent, lendTimer := some clocks, lendLimit := limit } }

theorem witness_BusReturnsFromLending :
    (lent 0 0).pins.extreq = true ∧ (lent 0 0).pbe.bus = .lent ∧ (lent 0 0).busPins.extgnt = true ∧
      (after (.extreqWithdrawn ⟨2, 1⟩) (lent 0 0)).pbe.bus = .idle ∧
      (after (.extreqWithdrawn ⟨2, 1⟩) (lent 0 0)).busPins = quietPins ∧
      (after (.extreqWithdrawn ⟨2, 0⟩) (lent 0 0)).pbe.recovery[(5 : TargetId)] = 40 ∧
      ({ resting .idle with pins := (lent 0 0).pins } : State).pbe.bus ≠ .lent := by decide
/-- R112: EXTREQ asserted again before the evaluation: the bus is lent again, with the timer at 0 and the mark clear, and
target 5's recovery runs through the new lending. -/
theorem test_regrant :
    let s := { lent 79 0 with pbe := { (lent 79 0).pbe with overrunMark := true } }
    let t := after (.extreqWithdrawn ⟨2, 2⟩) s
    s.power.boot = .running ∧ t.pbe.bus = .lent ∧ t.pbe.lendTimer = some 0 ∧ t.pbe.overrunMark = false ∧
      t.pins.extreq = true ∧ t.pbe.recovery[(5 : TargetId)] = 40 := by decide
theorem witness_LendingOverruns :
    ((lent 40 1).pbe.bus = .lent ∧ (lent 40 1).pbe.overrunMark = false ∧ (lent 40 1).pbe.lendLimit ≠ 0 ∧
        (lent 40 1).pbe.lendTimer = some 40) ∧
      (after .lendLimitReached (lent 40 1)).handed.events = [.lendOverrun] ∧
      (after .lendLimitReached (lent 40 0)) = lent 40 0 ∧ (lent 40 0).pbe.lendLimit = 0 ∧
      (after .lendLimitReached (lent 10200 255)).pbe.lendOverrun = true := by decide
/-- R110: the limit raised from 1 µs to 2 µs by a commit taken first: the command queued for the old limit reports
nothing. -/
theorem test_raised_limit_postpones :
    (lent 79 2).pbe.lendTimer = some 79 ∧ after .lendLimitReached (lent 79 2) = lent 79 2 ∧
      after .lendLimitReached (lent 10199 255) = lent 10199 255 := by decide
theorem witness_BusStatePassages :
    (∃ t, exec (.irqAsserted 3 2) (lent 0 0) = .next t) ∧ (lent 0 0).pbe.bus = .lent ∧
      (∃ t, exec .byteCycleEnd (inCycle 0 0 (.hold (.completed (some 9)))) = .next t) ∧
      (inCycle 0 0 (.hold (.completed (some 9)))).pbe.bus ≠ .idle :=
  ⟨⟨_, rfl⟩, by decide, ⟨_, rfl⟩, by decide⟩

/-! ## The Interrupt Relay -/

/-- Source 3 is routed with priority 5 to initiator 2, source 8 with priority 6; the pairs of source 3 at initiator 2 and of
source 8 at initiator 1 are in given states, and line 3 at a level. -/
def relaying (p3 p8 : PairState) (line : Bool) : State :=
  let s := running 0 target5
  { s with
    pins := { s.pins with irq := s.pins.irq.set 3 line }
    irl :=
      (({ s.irl with routes := (s.irl.routes.set 3 ⟨5, 2, 0x33⟩).set 8 ⟨6, 0, 0x80⟩ } : Relay).setPair 3 2 p3).setPair 8 1 p8 }

/-- R126: the place that the rotation was to give is free when the only pair that waited for it is withdrawn. -/
theorem test_withdrawal_settles_place :
    let s := relaying .pending .idle true
    let c : State := { s with hlp := { s.hlp with contended := true } }
    c.PacketWaits ∧ (after (.irqWithdrawn 3 2) c).hlp.contended = false ∧
      (after (.irqWithdrawn 4 2) { c with pins := { c.pins with irq := c.pins.irq.set 4 true } }).hlp.contended = true := by
  decide
theorem witness_IrqLinesMoveRoutedPair :
    (3 : Source).val = (3 : IrqLine).val ∧ (relaying .idle .idle false).irl.routes[(3 : Source)].destination = 2 ∧
      (relaying .idle .idle false).pins.irq[(3 : IrqLine)] = false ∧
      (relaying .pending .idle true).pins.irq[(3 : IrqLine)] = true ∧
      (after (.irqAsserted 3 2) (relaying .idle .idle false)).irl.pair 3 2 = .pending ∧
      (after (.irqWithdrawn 3 2) (relaying .pending .idle true)).irl.pair 3 2 = .idle ∧
      (after (.irqWithdrawn 3 2) (relaying .notified .idle true)).irl.pair 3 2 = .notified := by decide

/-- The relay with an event or a withdrawal or a detach or news handed to it. -/
def told (s : State) (events : List NoticeEvent) (withdrawals : List Clearing) (detaches : List Initiator)
    (news : List LinkNews) : State :=
  { s with handed := { Handed.nothing with events := events, withdrawals := withdrawals, irlDetaches := detaches, irlNews := news } }

theorem witness_EventsAndWithdrawalsMovePairs :
    (after (.eventSource (.postedFault 1)) (told (relaying .idle .idle false) [.postedFault 1] [] [] [])).irl.pair 8 1 =
        .pending ∧
      (after (.eventSource .targetDown) (told (relaying .idle .idle false) [.targetDown] [] [] [])).handed.events = [] ∧
      (after (.eventSource .lendOverrun) (told (relaying .idle .idle false) [.lendOverrun] [] [] [])).irl.pair 10 0 = .idle ∧
      (after (.eventSource (.mailboxResult 1)) (told (relaying .idle .idle false) [.mailboxResult 1] [] [] [])).irl.pair 11 1 =
        .idle ∧
      (after (.flushWithdrawal 1) (told (relaying .idle .pending false) [] [⟨1, 0⟩] [] [])).irl.pair 8 1 = .idle ∧
      (after (.flushWithdrawal 1) (told (relaying .idle .notified false) [] [⟨1, 0⟩] [] [])).irl.pair 8 1 = .notified := by decide
/-- R143: of three faults of initiator 1 two were recorded before the FLUSH response was built. With the first event taken
one is left before the clearing; the clearing takes it with it, and the third alone raises a notice after it. -/
theorem test_clearing_takes_older_events :
    let s := told (relaying .idle .idle false) [.postedFault 1, .lendOverrun, .postedFault 1, .postedFault 1]
      [⟨2, 0⟩, ⟨1, 2⟩] [] []
    let t := after (.eventSource (.postedFault 1)) s
    let u := after (.flushWithdrawal 1) t
    t.handed.events = [.lendOverrun, .postedFault 1, .postedFault 1] ∧ t.handed.withdrawals = [⟨2, 0⟩, ⟨1, 1⟩] ∧
      t.irl.pair 8 1 = .pending ∧ u.irl.pair 8 1 = .idle ∧ u.handed.events = [.lendOverrun, .postedFault 1] ∧
      u.handed.withdrawals = [⟨2, 0⟩] ∧ after (.flushWithdrawal 3) s = s ∧
      (after (.eventSource (.postedFault 1)) u).irl.pair 8 1 = .pending := by decide
theorem witness_ResetsReachRelay :
    (after .irlLinkReset (told (relaying .notified .pending true) [] [] [] [.reset])).irl.pair 3 2 = .pending ∧
      (after .irlLinkReset (told (relaying .notified .pending true) [] [] [] [.reset])).irl.pair 8 1 = .idle ∧
      (after .irlLinkReset (told (relaying .notified .pending true) [] [] [] [.reset, .up])).irl.linkUp = true ∧
      ([] : List LinkNews).head? ≠ some .up ∧
      (after (.irlDetach 2) (told (relaying .notified .pending false) [] [] [2] [])).irl.pair 3 2 = .idle ∧
      (after (.irlDetach 2) (told (relaying .notified .pending false) [] [] [2] [])).irl.pair 8 1 = .pending := by decide
/-- The pointer names initiator 0: initiator 1 comes first in turn and its notice carries vector 80h and priority 6. -/
theorem witness_NoticeIsHanded :
    let s := relaying .pending .pending true
    s.hlp.link = .up ∧ LinkNews.reset ∉ s.handed.irlNews ∧ s.hlp.transmit.length < 4 ∧ s.hlp.contended = false ∧
      s.irl.sendable 8 1 = true ∧
      (∀ (j : Initiator) (k : Source), (j - s.irl.pointer).val < ((1 : Initiator) - s.irl.pointer).val →
        s.irl.sendable k j = false) ∧
      (∀ k : Source, s.irl.sendable k 1 = true →
        s.irl.routes[k].priority < s.irl.routes[(8 : Source)].priority ∨
          (s.irl.routes[k].priority = s.irl.routes[(8 : Source)].priority ∧ (8 : Source) ≤ k)) ∧
      lastSent (after .noticeHanding s) = some (bytes [0xD0, 8, 0x80, 6]) := by decide
/-- A place that the rotation gives, the outbound pointer at the TRK, which like the MGB holds nothing (R126); and R117: a
pair is not handed while a link reset stands untaken, nor while the link is down. -/
theorem witness_NoticeIsHanded_contended :
    let s := relaying .pending .pending true
    let c : State := { s with hlp := { s.hlp with contended := true, pointer := .trk } }
    let reset : State := { s with handed := { s.handed with irlNews := [.reset, .up] } }
    let down : State := { s with hlp := { s.hlp with link := .down } }
    c.hlp.link = .up ∧ c.hlp.contended = true ∧ c.mgb.answers = [] ∧ c.trk.answers = [] ∧ c.irl.sendable 8 1 = true ∧
      (after .noticeHanding c).hlp.pointer = .trk ∧ (after .noticeHanding c).hlp.contended = false ∧
      (after .noticeHanding c).irl.pair 8 1 = .notified ∧
      LinkNews.reset ∈ reset.handed.irlNews ∧ after .noticeHanding reset = reset ∧
      (∀ (src : Source) (i : Initiator), (relaying .notified .idle true).irl.sendable src i = false) ∧
      after .noticeHanding (relaying .notified .idle true) = relaying .notified .idle true ∧
      down.hlp.link ≠ .up ∧ after .noticeHanding down = down := by decide

/-- A WRITE of four bytes at an offset of management space by an initiator. -/
def managementWrite4 (i : Initiator) (offset value : Nat) : Request :=
  ⟨i, .write, 7, BitVec.ofNat 24 (0xFFF000 + offset), 4, leBytes 4 value⟩

/-- A READ of `n` bytes at an offset of management space by an initiator. -/
def managementReadOf (i : Initiator) (offset n : Nat) : Request :=
  ⟨i, .read, 7, BitVec.ofNat 24 (0xFFF000 + offset), n, []⟩

/-- The statuses of the answers the MGB holds. -/
def held (s : State) : List Status := s.mgb.answers.map fun a => a.status

theorem witness_NoticeIsAcknowledged :
    HeadForManagement (asked (managementWrite4 2 0x50 3) (relaying .notified .idle true)) (managementWrite4 2 0x50 3) [] ∧
      (managementWrite4 2 0x50 3).IsManagementWrite 0x050 4 ∧
      (relaying .notified .idle true).irl.pair 3 2 = .notified ∧
      (after .noticeAck (asked (managementWrite4 2 0x50 3) (relaying .notified .idle true))).irl.pair 3 2 = .pending ∧
      (after .noticeAck (asked (managementWrite4 2 0x50 3) (relaying .notified .idle false))).irl.pair 3 2 = .idle ∧
      held (after .noticeAck (asked (managementWrite4 2 0x50 11) (relaying .notified .idle true))) = [.notOutstanding] ∧
      held (after .noticeAck (asked (managementWrite4 2 0x50 12) (relaying .notified .idle true))) = [.notOutstanding] := by
  decide

/-! ## The mailbox and management space -/

/-- The mailbox in a state, with the lease running where it does and the CFX started where it is BUSY. -/
def boxed (m : Mailbox) : State :=
  let s := running 0 target5
  { s with
    mgb :=
      { s.mgb with
        mailbox := m, claimMask := 0b0011, leaseTimer := if m.leased then some 1 else none
        requestBuffer := writeBytes [] 0 (record 0x50 0 []) }
    cfx := if m.isBusy then some (Executor.started 4) else none }

/-- R152: DENIED to initiator 2 under mask 0011b, GRANTED to 1, HELD with the owner 0 in each other state. -/
theorem witness_ClaimIsDecided :
    HeadForManagement (asked (managementReadOf 1 0x40 4) (boxed .free)) (managementReadOf 1 0x40 4) [] ∧
      (managementReadOf 1 0x40 4).IsManagementRead 0x040 4 ∧ (boxed .free).mgb.claimMask.getLsbD 2 = false ∧
      (boxed .free).mgb.claimMask.getLsbD 1 = true ∧
      held (after .claim (asked (managementReadOf 2 0x40 4) (boxed .free))) = [.denied] ∧
      (after .claim (asked (managementReadOf 1 0x40 4) (boxed .free))).mgb.leaseTimer = some 800000 ∧
      [Mailbox.claimed 0, .busy 0 false, .busy 0 true, .result 0].map
          (fun m => (after .claim (asked (managementReadOf 1 0x40 4) (boxed m))).mgb.answers.map fun a => a.carried) =
        [1, 2, 2, 3].map (fun code => [Carried.data (bytes [2, 0, code, 0])]) := by decide
/-- Chain lengths 3, 4, 512 and 513 B (R154). -/
theorem witness_SubmitIsDecided :
    (managementWrite4 1 0x44 4).IsManagementWrite 0x044 4 ∧
      HeadForManagement (asked (managementWrite4 1 0x44 4) (boxed (.claimed 1))) (managementWrite4 1 0x44 4) [] ∧
      [3, 4, 512, 513].map (fun n => held (after .submit (asked (managementWrite4 1 0x44 n) (boxed (.claimed 1))))) =
        [[.format], [.ok], [.ok], [.format]] ∧
      (after .submit (asked (managementWrite4 1 0x44 4) (boxed (.claimed 1)))).mgb.mailbox = .busy 1 false ∧
      [Mailbox.free, .claimed 0, .busy 1 false, .busy 0 true, .result 1].map
          (fun m => held (after .submit (asked (managementWrite4 1 0x44 4) (boxed m)))) =
        [[.notOwner], [.notOwner], [.mbxState], [.notOwner], [.mbxState]] := by decide
theorem witness_ReleaseIsDecided :
    (managementWrite4 1 0x48 0).IsManagementWrite 0x048 4 ∧
      HeadForManagement (asked (managementWrite4 1 0x48 0) (boxed (.result 1))) (managementWrite4 1 0x48 0) [] ∧
      [Mailbox.free, .claimed 1, .busy 1 true, .result 1, .result 0].map
          (fun m => held (after .release (asked (managementWrite4 1 0x48 0) (boxed m)))) =
        [[.notOwner], [.ok], [.mbxState], [.ok], [.notOwner]] := by decide

/-- A WRITE of `n` bytes at an offset. -/
def managementWriteOf (i : Initiator) (offset n : Nat) : Request :=
  ⟨i, .write, 7, BitVec.ofNat 24 (0xFFF000 + offset), n, bytes (List.replicate n 0xEE)⟩

theorem witness_ManagementWrites :
    BufferLaw (asked (managementWriteOf 1 0x2C0 64) (boxed (.claimed 1))) ∧
      (managementWriteOf 1 (0x100 + 0x1C0) 64).IsManagementWrite (0x100 + 0x1C0) 64 ∧
      (managementWriteOf 1 (0x100 + 511) 1).IsManagementWrite (0x100 + 511) 1 ∧
      readByte (after .requestBufferWrite (asked (managementWriteOf 1 0x2C0 64) (boxed (.claimed 1)))).mgb.requestBuffer 511 =
        0xEE ∧
      held (after .requestBufferWrite (asked (managementWriteOf 1 0x2FF 1) (boxed (.claimed 0)))) = [.notOwner] ∧
      held (after .requestBufferWrite (asked (managementWriteOf 1 0x100 1) (boxed (.result 1)))) = [.mbxState] ∧
      held (after .requestBufferWrite (asked (managementWriteOf 1 0x100 1) (boxed (.busy 1 false)))) = [.mbxState] ∧
      [0x054, 0x0FF, 0x500, 0xFFF].map
          (fun o => held (after .managementWrite (asked (managementWriteOf 1 o 1) (boxed .free)))) =
        List.replicate 4 [.miss] ∧
      [0x000, 0x043, 0x04C, 0x04F, 0x300, 0x4FF].map
          (fun o => held (after .managementWrite (asked (managementWriteOf 1 o 1) (boxed .free)))) =
        List.replicate 6 [.format] := by decide
/-- R148: malformed forms at SUBMIT, RELEASE, NOTICE ACK and across the end of the request buffer are FORMAT, and so is a
length that the payload does not have. -/
theorem witness_ManagementWrites_malformed :
    [(0x44, 3), (0x45, 4), (0x48, 8), (0x50, 1), (0x53, 1), (0x2FF, 2), (0x100, 65)].all (fun (o, n) =>
        decide (MappedOffset o ∧ ((managementWriteOf 1 o n).fieldsAgree = false ∨ ¬WriteAccepted o n) ∧
          held (after .managementWrite (asked (managementWriteOf 1 o n) (boxed (.claimed 1)))) = [.format])) = true ∧
      ({ managementWriteOf 1 0x44 4 with payload := [] } : Request).fieldsAgree = false ∧ WriteAccepted 0x2FE 2 := by decide
theorem witness_ManagementWrites_posted :
    let r : Request := ⟨1, .posted, 0, 0xFFF044, 4, bytes [0, 0, 0, 0]⟩
    HeadForManagement (asked r (boxed .free)) r [] ∧ 0xFFF000 ≤ r.address.toNat ∧
      (after .managementPostedWrite (asked r (boxed .free))).trk.faults[(1 : Initiator)] = some ⟨.format, 0xFFF044, 0, 1⟩ ∧
      held (after .managementPostedWrite (asked r (boxed .free))) = [] := by decide

/-- The data of the first answer the MGB holds. -/
def heldData (s : State) : Carried := (s.mgb.answers.map fun a => a.carried).headD .nothing

/-- Section 10.5: with the bus lent the flags byte is 06h and the checksum FBh; the owner reads the buffers at their first
and last bytes. -/
theorem witness_ManagementSpaceIsRead :
    (managementReadOf 1 0x00 64).IsManagementRead 0x00 64 ∧ (managementReadOf 1 0x3F 1).IsManagementRead 0x3F 1 ∧
      heldData (after .managementRead (asked (managementReadOf 1 0x01 2) (lent 0 0))) = .data (bytes [0x06, 0x00]) ∧
      heldData (after .managementRead (asked (managementReadOf 1 0x3F 1)
        { State.reset with hlp := (lent 0 0).hlp, pbe := (lent 0 0).pbe })) = .data [0xFB] ∧
      heldData (after .managementRead (asked (managementReadOf 1 0x4C 4) (boxed (.busy 0 true)))) =
        .data (bytes [2, 0, 1, 0]) ∧
      heldData (after .managementRead (asked (managementReadOf 1 0x100 4) (boxed (.claimed 1)))) =
        .data (bytes [0x50, 0, 0, 0xB0]) ∧
      heldData (after .managementRead (asked (managementReadOf 1 0x4FF 1) (boxed (.result 1)))) = .data [0] ∧
      held (after .managementRead (asked (managementReadOf 1 0x2FF 1) (boxed (.claimed 0)))) = [.notOwner] ∧
      held (after .managementRead (asked (managementReadOf 1 0x300 1) (boxed .free))) = [.notOwner] ∧
      held (after .managementRead (asked (managementReadOf 1 0x2FF 2) (boxed (.claimed 1)))) = [.format] := by decide

/-- MISS at unmapped offsets, FORMAT at the boundaries of the locations, MBX_STATE for the owner's result buffer before
RESULT. -/
theorem witness_ManagementSpaceIsRead_refusals :
    [0x054, 0x0FF, 0x500, 0xFFF].all (fun o =>
        decide (¬MappedOffset o ∧
          held (after .managementRead (asked (managementReadOf 1 o 1) (boxed .free))) = [.miss])) = true ∧
      [(0x00, 65), (0x3F, 2), (0x41, 1), (0x40, 3), (0x44, 4), (0x4D, 1), (0x50, 4), (0x53, 1), (0x2FF, 2), (0x4FF, 2)].all
          (fun (o, n) =>
            decide (MappedOffset o ∧ ((managementReadOf 1 o n).fieldsAgree = false ∨ ¬ReadAccepted o n) ∧
              held (after .managementRead (asked (managementReadOf 1 o n) (boxed (.claimed 1)))) = [.format])) = true ∧
      [Mailbox.claimed 1, .busy 1 false, .busy 1 true].map
          (fun m => held (after .managementRead (asked (managementReadOf 1 0x4FF 1) (boxed m)))) =
        List.replicate 3 [.mbxState] := by decide

/-- A mailbox state with a link reset and detaches handed to the MGB. -/
def takenFrom (m : Mailbox) : State :=
  { boxed m with handed := { Handed.nothing with mgbResets := 1, mgbDetaches := [1, 0] } }

theorem witness_MailboxIsTakenBack :
    (takenFrom (.result 1)).mgb.leaseTimer = some 1 ∧ (takenFrom (.result 1)).handed.mgbResets ≠ 0 ∧
      (after .leaseExpiry (takenFrom (.result 1))).mgb.lostLast = some 1 ∧
      (after .leaseExpiry (takenFrom (.claimed 1))).mgb.mailbox = .free ∧
      (after .mgbLinkReset (takenFrom (.claimed 1))).mgb.lostLast = none ∧
      (after .mgbLinkReset (takenFrom (.busy 1 false))).mgb.mailbox = .busy 1 true ∧
      (after (.mgbDetach 1) (takenFrom (.result 1))).mgb.mailbox = .free ∧
      (after (.mgbDetach 1) (takenFrom (.busy 1 false))).mgb.mailbox = .busy 1 true ∧
      (after (.mgbDetach 1) (takenFrom (.claimed 0))).mgb.mailbox = .claimed 0 := by decide

/-- The CFX with its results written, its mailbox BUSY. -/
def ended (pending : Bool) : State :=
  { boxed (.busy 1 pending) with cfx := some { Executor.started 4 with finished := true } }

theorem witness_ExecutionEnds :
    (ended false).cfx = some { Executor.started 4 with finished := true } ∧ (ended false).mgb.mailbox = .busy 1 false ∧
      (after .executionEnd (ended false)).mgb.mailbox = .result 1 ∧
      (after .executionEnd (ended false)).handed.events = [.mailboxResult 1] ∧
      (after .executionEnd (ended true)).mgb.mailbox = .free ∧ (after .executionEnd (ended true)).handed.events = [] := by
  decide

/-! ## Configuration -/

/-- The chain of section 11.1, of 70 B. -/
def chain11 : List Byte :=
  record 0x40 0 [16, 50, 0, 0b0011] ++ record 0x20 1 [5, 10, 10, 3, 3] ++
    record 0x10 2 [11, 1, 0, 0, 0x10, 16, 0, 5, 0, 0, 0, 0, 0, 0, 0, 4, 1, 0, 0, 15, 15] ++ record 0x30 3 [11, 5, 0, 0xB0] ++
    record 0x30 4 [8, 6, 0, 0x80] ++ record 0x30 5 [9, 8, 0, 0x90] ++ record 0x0F 6 []

/-- The records of `chain11`. -/
def records11 : List RecordRef :=
  [⟨0, .setLimits, 0⟩, ⟨8, .setTarget, 1⟩, ⟨17, .setWindow, 2⟩, ⟨42, .setRoute, 3⟩, ⟨50, .setRoute, 4⟩, ⟨58, .setRoute, 5⟩,
    ⟨66, .endRecord, 6⟩]

/-- The device with a chain submitted by initiator 0 in the request buffer, and the CFX as given. -/
def configuring (chain : List Byte) (x : Executor) (s : State) : State :=
  { s with mgb := { s.mgb with mailbox := .busy 0 false, requestBuffer := writeBytes [] 0 chain }, cfx := some x }

/-- The CFX in phase STRUCTURE at a walk position with a list of records. -/
def walking (chain : List Byte) (walk : Nat) (refs : List RecordRef) : Executor :=
  ⟨.structural, chain.length, walk, refs, none, [], false⟩

/-- The reason of a rejection in phase STRUCTURE, from the chain-outcome record at the start of the result buffer. -/
def structureReason (s : State) : Byte := readByte (after .structureCheck s).mgb.resultBuffer 5

theorem test_chain_length : chain11.length = 70 := by decide
/-- R166: the first record passes, END passes, and each of the reasons of the table from a chain that fails first there. -/
theorem witness_StructureIsChecked :
    (after .structureCheck (configuring chain11 (walking chain11 0 []) State.reset)).cfx =
        some (walking chain11 8 (records11.take 1)) ∧
      (after .structureCheck (configuring chain11 (walking chain11 66 (records11.take 6)) State.reset)).cfx =
        some { walking chain11 66 records11 with phase := .staging } ∧
      structureReason (configuring chain11 (walking chain11 70 records11) State.reset) = 0x24 ∧
      structureReason (configuring [0x0F, 0] ⟨.structural, 2, 0, [], none, [], false⟩ State.reset) = 0x21 ∧
      structureReason (configuring (bytes [0x0F, 61, 0, 0]) ⟨.structural, 512, 0, [], none, [], false⟩ State.reset) = 0x21 ∧
      structureReason (configuring (record 0x0F 0 []) ⟨.structural, 3, 0, [], none, [], false⟩ State.reset) = 0x21 ∧
      structureReason (configuring (bytes [0x0F, 0, 0, 0]) ⟨.structural, 4, 0, [], none, [], false⟩ State.reset) = 0x20 ∧
      structureReason (configuring (record 0x0E 0 []) ⟨.structural, 4, 0, [], none, [], false⟩ State.reset) = 0x22 ∧
      structureReason (configuring (record 0x0F 0 [0]) ⟨.structural, 5, 0, [], none, [], false⟩ State.reset) = 0x21 ∧
      structureReason (configuring (record 0x0F 1 []) ⟨.structural, 4, 0, [], none, [], false⟩ State.reset) = 0x23 := by
  decide
theorem witness_StructureIsChecked_end :
    8 + 4 + ((records11.take 6).map fun ref => 4 + ref.kind.resultLength).sum ≤ 512 ∧
      byteSum (record 0x0F 6 []) = 0 ∧ recordKind 0x0F = some .endRecord := by decide

/-- Twenty-one GET WINDOW records and END, the example of R167: 533 B at position 20, the failing position. -/
theorem witness_StructureIsChecked_too_large :
    let refs : List RecordRef := (List.range 21).map fun k => ⟨0, .getWindow, k⟩
    let s := configuring (record 0x0F 21 []) ⟨.structural, 4, 0, refs, none, [], false⟩ State.reset
    let size (p : Nat) := 8 + ((refs.take p).map fun f => 4 + f.kind.resultLength).sum
    size 20 = 508 ∧ size 21 = 533 ∧ structureReason s = 0x25 ∧
      readByte (after .structureCheck s).mgb.resultBuffer 4 = 20 := by decide

/-- The CFX in phase STAGING with one record of a kind, and the shadow formed from a state. -/
def stagingOne (k : RecordKind) (payload : List Nat) (s : State) : State :=
  configuring (record 0 0 payload) ⟨.staging, 4 + payload.length, 0, [⟨0, k, 0⟩, ⟨60, .endRecord, 1⟩], some s.shadow, [], false⟩ s

/-- The shadow, results and end of work of the CFX. -/
def statuses (s : State) : List RecordStatus :=
  match s.cfx with
  | some x => x.results.map fun r => r.status
  | none => []

/-- The reports of the results so far. -/
def reports (s : State) : List (List Byte) :=
  match s.cfx with
  | some x => x.results.map fun r => r.payload
  | none => []

theorem witness_ShadowIsFormed :
    ((configuring chain11 ⟨.staging, 70, 66, records11, none, [], false⟩ (running 3 target5)).cfx =
        some ⟨.staging, 70, 66, records11, none, [], false⟩) ∧
      (after .shadowFormation (configuring chain11 ⟨.staging, 70, 66, records11, none, [], false⟩ (running 3 target5))).cfx =
        some ⟨.staging, 70, 66, records11, some (running 3 target5).shadow, [], false⟩ := by decide

/-- The record of `stagingOne` stages next. -/
theorem stagesNext_one (k : RecordKind) (payload : List Nat) (s : State) :
    (stagingOne k payload s).StagesNext k
      ⟨.staging, 4 + payload.length, 0, [⟨0, k, 0⟩, ⟨60, .endRecord, 1⟩], some s.shadow, [], false⟩ s.shadow ⟨0, k, 0⟩
      (readBytes (writeBytes [] 0 (record 0 0 payload)) 3 k.payloadLength) :=
  ⟨rfl, rfl, rfl, rfl, rfl, rfl, rfl⟩

/-- The payload of SET WINDOW for window 12 at 200000h, with an enable flag and a size. -/
def setWindow12 (index enable size : Nat) : List Nat :=
  [index, enable, 0, 0, 0x20, size % 256, size / 256, 5, 0, 0, 0, 0, 0, 0, 0, 4, 1, 0, 0, 15, 15]

/-- The window records: each passes at the largest or least value its checks allow, and fails past it. -/
theorem witness_WindowRecordsStage :
    firstFailing ((running 0 target5).shadow.stagingChecks .setWindow (bytes (setWindow12 31 1 4096))) = none ∧
      firstFailing ((running 0 target5).shadow.stagingChecks .setWindow (bytes (setWindow12 31 1 4097))) = some .badField ∧
      statuses (after .setWindow (stagingOne .setWindow (setWindow12 31 1 4096) (running 0 target5))) = [.done] ∧
      firstFailing ((running 0 target5).shadow.stagingChecks .disableWindow (bytes [11])) = none ∧
      firstFailing ((running 0 target5).shadow.stagingChecks .getWindow (bytes [31])) = none ∧
      firstFailing ((running 0 target5).shadow.stagingChecks .clearWindow (bytes [0])) = none ∧
      statuses (after .disableWindow (stagingOne .disableWindow [11] (running 2 target5))) = [.done] ∧
      statuses (after .clearWindow (stagingOne .clearWindow [0] (running 2 target5))) = [.done] ∧
      statuses (after .getWindow (stagingOne .getWindow [31] (running 2 target5))) = [.done] := by decide

/-- Window 11 DRAINING with count 2. -/
def draining11 : State :=
  { running 0 target5 with wdc := State.reset.wdc.set 11 (.loaded .draining 2 profile11) }

theorem witness_WindowRecordsStage_enable :
    firstFailing (draining11.shadow.stagingChecks .enableWindow (bytes [11])) = none ∧
      draining11.shadow.windows[(11 : WindowIx)] = .loaded .draining 2 profile11 ∧
      statuses (after .enableWindow (stagingOne .enableWindow [11] draining11)) = [.done] ∧
      firstFailing (draining11.shadow.stagingChecks .disableWindow (bytes [11])) = none := by decide
/-- GET WINDOW of window 11 DRAINING, of a port window with every field other than the default, and of an EMPTY one
(section 10.2). -/
theorem test_window_report :
    reports (after .getWindow (stagingOne .getWindow [11] draining11)) =
        [bytes [3, 2, 0, 0, 0x10, 16, 0, 5, 0, 0, 0, 0, 0, 0, 0, 4, 1, 0, 0, 15, 15]] ∧
      reports (after .getWindow (stagingOne .getWindow [12] draining11)) = [bytes (List.replicate 21 0)] ∧
      (profileOf (bytes [12, 1, 0, 0x34, 0x12, 0, 1, 5, 2, 1, 2, 3, 4, 5, 6, 0xFF, 0xFF, 0xFF, 0x40, 1, 8])).map
          (fun p => windowReport (.loaded .active 7 p)) =
        some (bytes [2, 7, 0, 0x34, 0x12, 0, 1, 5, 2, 1, 2, 3, 4, 5, 6, 1, 0, 1, 0x40, 1, 8]) := by decide
/-- Check 5 of R16 at its bounds: a unit of 3 is refused in LINEAR mode and not judged in PORT mode. -/
theorem test_profile_fields :
    [(8, 3), (15, 3), (16, 2), (17, 2), (18, 2), (19, 16), (20, 16), (7, 16)].map
        (fun c : Nat × Nat => (profileOf (bytes ((setWindow12 12 0 1).set c.1 c.2))).isSome) = List.replicate 8 false ∧
      (profileOf (bytes (((setWindow12 12 0 1).set 15 3).set 8 1))).isSome = true := by decide
theorem witness_TargetRecordsStage :
    firstFailing ((running 0 target5).shadow.stagingChecks .setTarget (bytes [15, 255, 1, 2, 15])) = none ∧
      firstFailing ((running 0 target5).shadow.stagingChecks .setTarget (bytes [5, 0, 255, 15, 1])) = none ∧
      (running 0 target5).shadow.targets[(15 : TargetId)].state = .absent ∧
      (running 0 target5).shadow.targets[(5 : TargetId)].state ≠ .absent ∧
      firstFailing ((running 0 target5).shadow.stagingChecks .clearTarget (bytes [15])) = none ∧
      firstFailing ((running 0 target5).shadow.stagingChecks .reviveTarget (bytes [5])) = none ∧
      firstFailing ((running 0 target5).shadow.stagingChecks .getTarget (bytes [15])) = none ∧
      statuses (after .setTarget (stagingOne .setTarget [15, 255, 1, 2, 15] (running 0 target5))) = [.done] ∧
      statuses (after .clearTarget (stagingOne .clearTarget [15] (running 0 target5))) = [.done] ∧
      statuses (after .reviveTarget (stagingOne .reviveTarget [5] (running 0 target5))) = [.done] ∧
      statuses (after .getTarget (stagingOne .getTarget [15] (running 0 target5))) = [.done] ∧
      reports (after .getTarget (stagingOne .getTarget [15] (running 0 target5))) = [bytes [0, 0, 16, 3, 3, 0, 0, 255]] ∧
      reports (after .getTarget (stagingOne .getTarget [5] (running 0 { target5 with state := .suspect, errors := 9 }))) =
        [bytes [2, 10, 10, 3, 3, 0, 9, 255]] := by decide
theorem witness_RouteAndLimitRecordsStage :
    firstFailing (State.reset.shadow.stagingChecks .setRoute (bytes [11, 15, 3, 255])) = none ∧
      firstFailing (State.reset.shadow.stagingChecks .setThreshold (bytes [3, 15])) = none ∧
      firstFailing (State.reset.shadow.stagingChecks .setLimits (bytes [64, 255, 255, 15])) = none ∧
      firstFailing (State.reset.shadow.stagingChecks .setLimits (bytes [4, 1, 0, 1])) = none ∧
      statuses (after .setRoute (stagingOne .setRoute [11, 15, 3, 255] State.reset)) = [.done] ∧
      statuses (after .setThreshold (stagingOne .setThreshold [3, 15] State.reset)) = [.done] ∧
      statuses (after .setLimits (stagingOne .setLimits [64, 255, 255, 15] State.reset)) = [.done] := by decide
/-- R173: GET STATUS reports the limits of the shadow and clears the dropped-packet count that it reports. -/
theorem witness_GateStatusAndEndRecordsStage :
    let s : State := { State.reset with hlp := { LinkPort.powerOn with dropped := 7 } }
    (after .getStatus (stagingOne .getStatus [] s)).hlp.dropped = 0 ∧
      statusReport s s.shadow = bytes [0, 0, 0, 0, 16, 20, 0, 15, 7, 0xFF, 0] ∧
      statuses (after .quiesce (stagingOne .quiesce [] posting)) = [.done] ∧
      statuses (after .resume (stagingOne .resume [] posting)) = [.done] ∧
      statuses (after .endRecord (stagingOne .endRecord [] posting)) = [.done] := by decide
/-- Each kind that has checks, with a record that fails one: the status is its first failing check's (R16, R37, R138,
R172). -/
theorem witness_FailedRecordRejectsChain :
    BufferLaw (stagingOne .setWindow (setWindow12 11 1 1) (running 0 target5)) ∧
      statuses (after .setWindow (stagingOne .setWindow (setWindow12 11 1 1) (running 0 target5))) = [.indexBusy, .notRun] ∧
      statuses (after .enableWindow (stagingOne .enableWindow [12] (running 0 target5))) = [.badField, .notRun] ∧
      statuses (after .disableWindow (stagingOne .disableWindow [32] (running 0 target5))) = [.badField, .notRun] ∧
      statuses (after .clearWindow (stagingOne .clearWindow [11] (running 0 target5))) = [.indexBusy, .notRun] ∧
      statuses (after .getWindow (stagingOne .getWindow [32] (running 0 target5))) = [.badField, .notRun] ∧
      statuses (after .setTarget (stagingOne .setTarget [5, 0, 0, 2, 1] (running 0 target5))) = [.badField, .notRun] ∧
      statuses (after .clearTarget (stagingOne .clearTarget [5] (running 0 target5))) = [.targetInUse, .notRun] ∧
      statuses (after .reviveTarget (stagingOne .reviveTarget [6] (running 0 target5))) = [.badField, .notRun] ∧
      statuses (after .getTarget (stagingOne .getTarget [16] (running 0 target5))) = [.badField, .notRun] ∧
      statuses (after .setRoute (stagingOne .setRoute [12, 0, 0, 0] (running 0 target5))) = [.badField, .notRun] ∧
      statuses (after .setThreshold (stagingOne .setThreshold [4, 0] (running 0 target5))) = [.badField, .notRun] ∧
      statuses (after .setLimits (stagingOne .setLimits [6, 1, 0, 1] (running 0 target5))) = [.badField, .notRun] := by
  decide

/-- The CFX in phase COMMIT with `chain11`, every record staged with DONE. -/
def committing (s : State) : State :=
  configuring chain11 ⟨.committing, 70, 66, records11, some s.shadow, List.replicate 7 ⟨.done, []⟩, false⟩ s

/-- Section 11.1: the commit leaves target 5 ONLINE, window 11 ACTIVE with count 0, commit count 1 and flags 03h; a second
commit of the same chain meets INDEX_BUSY at record 2 and leaves the commit count as it was. -/
theorem witness_CommitIsAllOrNothing :
    BufferLaw (committing State.reset) ∧ (after .commit (committing State.reset)).mgb.commitCount = 1 ∧
      (after .commit (committing State.reset)).wdc[(11 : WindowIx)] = .loaded .active 0 profile11 ∧
      (after .commit (committing State.reset)).tgt[(5 : TargetId)] = target5 ∧
      (after .commit (committing State.reset)).flagsByte = 0x03 ∧
      (after .commit (committing State.reset)).mgb.lease = 50 ∧
      statuses (after .commit (committing (running 1 target5))) =
        [.done, .done, .indexBusy, .notRun, .notRun, .notRun, .notRun] ∧
      (after .commit (committing (running 1 target5))).mgb.commitCount = 0 := by decide
/-- R146, R189: the chain of section 11.1 gives the sources 8, 9 and 11 a priority. Their events raised before, at priority
0, raise no notice after its commit. An event of source 11 handed at priority 3 has made its pair PENDING, and that of
source 10 at priority 3 is still to be taken. Where the commit is rejected no event is taken. -/
theorem test_commit_takes_due_events :
    let events := [NoticeEvent.mailboxResult 1, .lendOverrun, .postedFault 1]
    let s := committing (told State.reset events [⟨1, 1⟩] [] [])
    let t := after .commit s
    let u :=
      after .commit
        { s with irl := { s.irl with routes := (s.irl.routes.set 10 ⟨3, 0, 0⟩).set 11 ⟨3, 0, 0⟩ } }
    let v := after .commit (committing (told (running 1 target5) events [⟨1, 1⟩] [] []))
    t.irl.priority 11 = 5 ∧ t.irl.pair 11 1 = .idle ∧ t.irl.pair 8 1 = .idle ∧ t.handed.events = [] ∧
      t.handed.withdrawals = [⟨1, 0⟩] ∧ u.irl.pair 11 1 = .pending ∧ u.irl.pair 11 0 = .idle ∧
      u.handed.events = [.lendOverrun] ∧ v.handed.events = events ∧ v.mgb.commitCount = 0 := by decide
/-- R178, R179: after the commit of section 11.1 the result buffer begins with the result record of record 0 and ends with
the chain-outcome record COMMITTED behind seven records of four bytes. -/
theorem test_commit_results :
    let t := after .commit (committing State.reset)
    readBytes t.mgb.resultBuffer 0 4 = bytes [0, 0, 0, 0] ∧
      readBytes t.mgb.resultBuffer 24 4 = bytes [6, 0, 0, 0xFA] ∧
      readBytes t.mgb.resultBuffer 28 8 = outcomeRecord .committed 7 ∧ readByte t.mgb.resultBuffer 36 = 0 := by decide
/-- The live state that a record leaves in the commit pass; the state itself where its recheck fails. -/
def applied (s : State) (k : RecordKind) (payload : List Nat) (later : List (RecordRef × List Byte)) : State :=
  match s.applyRecord k (bytes payload) later with
  | .ok u => u
  | .error _ => s

/-- The status with which the recheck of a record fails. -/
def recheck (s : State) (k : RecordKind) (payload : List Nat) : Option RecordStatus :=
  match s.applyRecord k (bytes payload) [] with
  | .ok _ => none
  | .error st => some st

/-- Window 12 of the same range as window 11, DISABLED. -/
def overlapping : State :=
  let s := running 1 target5
  { s with wdc := s.wdc.set 12 (.loaded .disabled 0 profile11) }

/-- R10 to R13, R176: SET and CLEAR meet INDEX_BUSY at a DRAINING entry, ENABLE and SET with its flag meet OVERLAP. -/
theorem witness_CommitReadsLiveValues_windows :
    overlapping.MeetsOther 12 profile11 ∧ recheck overlapping .enableWindow [12] = some .overlap ∧
      recheck overlapping .enableWindow [11] = none ∧
      recheck draining11 .setWindow (setWindow12 11 1 1) = some .indexBusy ∧ recheck draining11 .clearWindow [11] = some .indexBusy ∧
      recheck overlapping .setWindow ((setWindow12 13 1 1).set 4 0x10) = some .overlap ∧
      recheck overlapping .setWindow ((setWindow12 13 0 1).set 4 0x10) = none ∧
      (applied draining11 .enableWindow [11] []).wdc[(11 : WindowIx)] = .loaded .active 2 profile11 ∧
      (applied overlapping .clearWindow [12] []).wdc[(12 : WindowIx)] = .empty := by decide
/-- R34, R35: SET TARGET of an ABSENT target, CLEAR TARGET. -/
theorem witness_CommitReadsLiveValues_targets :
    State.reset.tgt[(15 : TargetId)].state = .absent ∧ timingLegal (bytes [15, 10, 10, 3, 3]) = true ∧
      (applied State.reset .setTarget [15, 10, 10, 3, 3] []).tgt[(15 : TargetId)] = target5 ∧
      (applied (running 0 target5) .clearTarget [5] []).tgt[(5 : TargetId)] = .powerOn := by decide
/-- R139, R140: source 3, PENDING at 2, moves with its route to 0; at priority 0 it returns to IDLE; NOTIFIED stays at 2
and the asserted line makes the pair at 0 PENDING. A later record for the source alone has effect (R175). -/
theorem witness_CommitReadsLiveValues_routes :
    let new : Route := ⟨5, 0, 0x33⟩
    (3 : Source).val = (byteAt (bytes [3, 5, 0, 0x33]) 0).toNat ∧ new.destination = 0 ∧
      (applied (relaying .pending .idle true) .setRoute [3, 5, 0, 0x33] []).irl.pair 3 0 = .pending ∧
      (applied (relaying .pending .idle true) .setRoute [3, 5, 0, 0x33] []).irl.pair 3 2 = .idle ∧
      (applied (relaying .pending .idle true) .setRoute [3, 0, 2, 0x33] []).irl.pair 3 2 = .idle ∧
      (applied (relaying .notified .idle true) .setRoute [3, 5, 0, 0x33] []).irl.pair 3 2 = .notified ∧
      (applied (relaying .notified .idle true) .setRoute [3, 5, 0, 0x33] []).irl.pair 3 0 = .pending ∧
      (relaying .pending .idle true).irl.pairAfterRoute (relaying .pending .idle true).pins 3 new 0 = .pending ∧
      applied (relaying .pending .idle true) .setRoute [3, 5, 0, 0x33] [(⟨0, .setRoute, 1⟩, bytes [3, 1, 1, 1])] =
        relaying .pending .idle true := by decide
/-- R110, R142: the limit committed below the timer of a lending overruns it in the step; a threshold moves no pair. -/
theorem witness_CommitReadsLiveValues_limits :
    (applied (lent 80 0) .setLimits [4, 1, 2, 1] []).handed.events = [.lendOverrun] ∧
      (applied (lent 79 0) .setLimits [4, 1, 2, 1] []).handed.events = [] ∧
      (applied (lent 80 0) .setLimits [4, 1, 0, 1] []).pbe.lendOverrun = false ∧
      (applied (relaying .pending .idle true) .setThreshold [2, 15] []).irl.pairs = (relaying .pending .idle true).irl.pairs ∧
      (applied (relaying .pending .idle true) .setThreshold [2, 15] []).irl.thresholds[(2 : Initiator)] = 15 := by decide
/-- DISABLE WINDOW at commit reads the live count: 0 leaves DISABLED, 1 leaves DRAINING (R12). -/
theorem witness_CommitReadsLiveValues :
    (byteAt (bytes [11]) 0).toNat = (11 : WindowIx).val ∧ (running 1 target5).wdc[(11 : WindowIx)] = .loaded .active 1 profile11 ∧
      (profileOf (bytes (setWindow12 11 1 1))).isSome = true ∧
      rangeLegal (payloadBase (bytes (setWindow12 11 1 1))) (payloadSize (bytes (setWindow12 11 1 1))) = true ∧
      (byteAt (bytes [5, 0, 1, 2, 1]) 0).toNat = (5 : TargetId).val ∧ timingLegal (bytes [5, 0, 1, 2, 1]) = true ∧
      (running 1 target5).tgt[(5 : TargetId)].state ≠ .absent ∧ limitsLegal (bytes [4, 1, 0, 1]) = true ∧
      (∀ r ∈ ([] : List (RecordRef × List Byte)), r.1.kind ≠ .setLimits) ∧
      (∃ r ∈ [((⟨0, .setLimits, 1⟩ : RecordRef), bytes [8, 1, 0, 1])], r.1.kind = .setLimits) := by decide
theorem witness_ConfigurationChangesOnlyAtCommit :
    ∃ t, exec .byteCycleEnd (inCycle 0 10 (.hold (.completed (some 9)))) = .next t := ⟨_, rfl⟩

/-! ## What the device drives -/

/-- R91: the write cycle at 001Ah in its strobe drives the select of target 5, its address and value, and PWR; in its
setup no strobe; between cycles nothing but the withdrawn strobes; a lent bus is released. -/
theorem witness_DeviceDrivesItsOutputs :
    (∃ c r, (merging 3).pbe.bus = .segment c ∧ c.run = some r) ∧
      (inCycle 3 0 (.strobe 1)).busPins.pwr = .value true ∧ (inCycle 3 0 (.strobe 1)).busPins.prd = .value false ∧
      (inCycle 0 0 (.strobe 1)).busPins.prd = .value true ∧ (inCycle 3 0 .setup).busPins.pwr = .value false ∧
      (inCycle 3 0 .setup).busPins.sel = .value (some 5) ∧ (inCycle 3 0 .setup).busPins.pa = .value 0x1A ∧
      (resting (.segment waitingForTimer)).busPins = quietPins ∧ waitingForTimer.run = none ∧
      (lent 0 0).busPins = ⟨.released, .released, .released, .released, .released, true⟩ ∧
      (sending 1 .trk false).linkOut = some (bytes [0x80, 0, 0, 1]) ∧ (linked .down none []).linkOut = none :=
  ⟨⟨_, _, rfl, rfl⟩, by decide⟩
/-- R183: a READ's response of three bytes, a DETACH's of its dropped count. -/
theorem test_response_layouts :
    packetBytes (.response ⟨2, 31, .timeout, 3, .data (bytes [1, 2, 3])⟩) = bytes [0xA0, 31, 9, 3, 1, 2, 3] ∧
      packetBytes (.response ⟨3, 9, .detached, 0, .dropped 5⟩) = bytes [0xB0, 9, 0x0B, 0, 5] ∧
      (Status.timeout, (0x09 : Byte)) ∈ [(Status.timeout, (0x09 : Byte))] := by decide

/-! ## The laws of the whole device: states that meet them, and a step from each -/

/-- The mixed tracker of initiator 1 with the bus in the segment of its IN_SEGMENT entry, whose report is handed. -/
def lawful : State :=
  let c : SegmentContext :=
    ⟨0, 5, false, .linear, 0, 0, [], 0, 4, 1, 4, [], [], false, none, some ⟨0, 1, 4, bytes [1, 2, 3, 4], false⟩⟩
  { mixed with pbe := { mixed.pbe with bus := .segment c }, pending := [.segmentEndReport] }

theorem witness_StepKeepsWindowLaw : WindowLaw lawful ∧ ∃ t, step lawful = .next t := ⟨by decide, _, rfl⟩
theorem witness_StepKeepsTrackerAndCounts : TrackerLaw lawful ∧ CountLaw lawful ∧ ∃ t, step lawful = .next t :=
  ⟨by decide, by decide, _, rfl⟩
theorem witness_StepKeepsAnswerLaw : TrackerLaw lawful ∧ AnswerLaw lawful ∧ ∃ t, step lawful = .next t :=
  ⟨by decide, by decide, _, rfl⟩
theorem witness_StepKeepsBusLaw : TrackerLaw lawful ∧ BusLaw lawful ∧ ∃ t, step lawful = .next t :=
  ⟨by decide, by decide, _, rfl⟩
theorem witness_StepKeepsMailboxLaw :
    MailboxLaw (boxed (.busy 1 false)) ∧ MailboxLaw (boxed (.result 1)) ∧
      (boxed (.busy 1 false)).mgb.mailbox.owner = some 1 ∧ ∃ t, step (boxed (.busy 1 false)) = .next t :=
  ⟨by decide, by decide, by decide, _, rfl⟩
theorem witness_StepKeepsCapacities :
    QueueLaw sevenReceived ∧ BufferLaw (committing State.reset) ∧ NoticeLaw (relaying .notified .notified true) ∧
      ∃ t, step sevenReceived = .next t := ⟨by decide, by decide, by decide, _, rfl⟩
theorem witness_StepKeepsRanges : RangeLaw lawful ∧ RangeLaw lastClock ∧ ∃ t, step lawful = .next t :=
  ⟨by decide, by decide, _, rfl⟩
theorem witness_StepKeepsAgeOrder : TrackerLaw lawful ∧ ∃ t, exec .segmentEndReport lawful = .next t := ⟨by decide, _, rfl⟩

end Sys2Proof.Tests
end

/-! Where a segment is cut (chapter 4, R77 to R80). The model cuts a segment with `takeWhile`; the units not yet run are in
ascending order and each cutting condition, once it fails, fails for every later unit, so the units taken are those that meet
the condition. -/

namespace Sys2Proof.Machine

/-! ## `takeWhile` as a filter -/

/-- A condition that each element passes back to the elements before it selects the first ones up to its first failure. -/
theorem takeWhile_eq_filter_of_pairwise {α : Type} {p : α → Bool} {l : List α}
    (h : l.Pairwise fun a b => p b = true → p a = true) : l.takeWhile p = l.filter p := by
  induction l with
  | nil => rfl
  | cons a l ih =>
    obtain ⟨ha, hl⟩ := List.pairwise_cons.mp h
    by_cases hpa : p a = true
    · rw [List.takeWhile_cons_of_pos hpa, List.filter_cons_of_pos hpa, ih hl]
    · have hnone : l.filter p = [] := List.filter_eq_nil_iff.mpr fun b hb hpb => hpa (ha b hb hpb)
      rw [List.takeWhile_cons_of_neg hpa, List.filter_cons_of_neg hpa, hnone]

/-! ## The units not yet run -/

section
variable {x : Transfer}

/-- The first unit not yet run is the one at the progress, and it is always there in an unfinished transfer. -/
theorem unitsLeft_eq_cons (hleft : x.progress < x.length) :
    ∃ later, x.unitsLeft = (x.first + x.progress) / x.unit :: later := by
  have hle : (x.first + x.progress) / x.unit ≤ x.last / x.unit :=
    Nat.div_le_div_right (by unfold Transfer.first Transfer.last; omega)
  refine ⟨List.range' ((x.first + x.progress) / x.unit + 1) (x.last / x.unit - (x.first + x.progress) / x.unit), ?_⟩
  simp only [Transfer.unitsLeft, Nat.sub_add_comm hle, List.range'_succ]

theorem unitsLeft_pairwise_lt : x.unitsLeft.Pairwise (· < ·) := List.pairwise_lt_range'

theorem le_of_mem_unitsLeft {k : Nat} (hk : k ∈ x.unitsLeft) : (x.first + x.progress) / x.unit ≤ k :=
  (List.mem_range'_1.mp hk).1

/-- In units of one byte the units not yet run are the addresses from the one at the progress to the last. -/
theorem unitsLeft_of_unit_one (hu : x.unit = 1) : x.unitsLeft = List.Ico (x.first + x.progress) (x.last + 1) := by
  simp only [Transfer.unitsLeft, hu, Nat.div_one, List.Ico]

/-! ## The cut point (R78, R80) -/

theorem progress_lt_cutPoint {m : Nat} (hm : 1 ≤ m) (hleft : x.progress < x.length) : x.progress < x.cutPoint m := by
  have hmultiple : x.progress < (x.progress / m + 1) * m := by
    rw [Nat.succ_mul]
    exact Nat.lt_div_mul_add hm
  exact lt_min hmultiple hleft

theorem lastPosition_mono {j k : Nat} (h : j ≤ k) : x.lastPosition j ≤ x.lastPosition k := by
  have : j * x.unit ≤ k * x.unit := Nat.mul_le_mul_right _ h
  unfold Transfer.lastPosition
  omega

/-- A position below a cut point, as an address below the address of the cut. -/
theorem lastPosition_lt_iff {k c : Nat} (hc : 0 < c) :
    x.lastPosition k < c ↔ min (k * x.unit + x.unit - 1) x.last < x.first + c := by
  unfold Transfer.lastPosition
  omega

/-- R78, the three steps in one condition: the units that end below the cut point, and the first one in any case. -/
theorem unitsToCut_eq_filter (m : Nat) (hleft : x.progress < x.length) :
    x.unitsToCut m =
      x.unitsLeft.filter fun k =>
        decide (x.lastPosition k < x.cutPoint m) || decide (k = (x.first + x.progress) / x.unit) := by
  obtain ⟨later, hunits⟩ := unitsLeft_eq_cons hleft
  have hsorted := unitsLeft_pairwise_lt (x := x)
  rw [Transfer.unitsToCut, hunits]
  rw [hunits] at hsorted
  have hlater := (List.pairwise_cons.mp hsorted).1
  by_cases hfirst : x.lastPosition ((x.first + x.progress) / x.unit) < x.cutPoint m
  · have htaken := takeWhile_eq_filter_of_pairwise (p := fun k => decide (x.lastPosition k < x.cutPoint m))
      (hsorted.imp fun hlt => by simpa using (lastPosition_mono hlt.le).trans_lt)
    rw [List.filter_congr (q := fun k => decide (x.lastPosition k < x.cutPoint m))
      fun k _ => by by_cases hk : k = (x.first + x.progress) / x.unit <;> simp [hk, hfirst]]
    rw [htaken, List.filter_cons_of_pos (by simpa using hfirst)]
  · rw [List.takeWhile_cons_of_neg (by simpa using hfirst), List.filter_cons_of_pos (by simp),
      List.filter_eq_nil_iff.mpr]
    · rfl
    · intro k hk
      have hlt := hlater k hk
      have hends := lastPosition_mono (x := x) hlt.le
      simp only [Bool.or_eq_true, decide_eq_true_eq]
      omega

/-! ## The cut by mode (R77) -/

theorem segmentUnits_of_ab_none {limit : Nat} (hab : x.snapshot.ab = .none) : x.segmentUnits limit = x.unitsToCut limit := by
  simp only [Transfer.segmentUnits, hab]

theorem segmentUnits_of_linear {limit : Nat} (hab : x.snapshot.ab ≠ .none) (hmode : x.snapshot.mode = .linear) :
    x.segmentUnits limit = x.unitsInBlock x.snapshot.ab.bytes := by
  simp only [Transfer.segmentUnits, hmode]

theorem segmentUnits_of_port {limit : Nat} (hab : x.snapshot.ab ≠ .none) (hmode : x.snapshot.mode ≠ .linear) :
    x.segmentUnits limit = x.unitsToCut x.snapshot.ab.bytes := by
  cases hm : x.snapshot.mode with
  | linear => exact absurd hm hmode
  | port => simp only [Transfer.segmentUnits, hm]
  | splitPort => simp only [Transfer.segmentUnits, hm]

theorem atomicBoundary_bytes_pos {ab : AtomicBoundary} (hab : ab ≠ .none) : 1 ≤ ab.bytes := by
  cases ab with
  | none => exact absurd rfl hab
  | b4 | b8 | b16 | b32 | b64 => decide

/-! ## The cut by the segment limit, the atomic block and the bytes of a port transfer -/

/-- R78, by addresses. -/
theorem unitsToCut_eq_filter_address {m : Nat} (hm : 1 ≤ m) (hleft : x.progress < x.length) :
    x.unitsToCut m =
      x.unitsLeft.filter fun k =>
        decide (min (k * x.unit + x.unit - 1) x.last < x.first + x.cutPoint m) ||
          decide (k = (x.first + x.progress) / x.unit) := by
  have hcut : 0 < x.cutPoint m := Nat.zero_lt_of_lt (progress_lt_cutPoint hm hleft)
  simp only [unitsToCut_eq_filter m hleft, lastPosition_lt_iff hcut]

/-- R79: block indexes rise with the units, so the units in the first one's block are the next ones. -/
theorem unitsInBlock_eq_filter (ab : Nat) (hleft : x.progress < x.length) :
    x.unitsInBlock ab =
      x.unitsLeft.filter fun k => decide (k * x.unit / ab = (x.first + x.progress) / x.unit * x.unit / ab) := by
  obtain ⟨later, hunits⟩ := unitsLeft_eq_cons hleft
  have hblock {j k : Nat} (h : j ≤ k) : j * x.unit / ab ≤ k * x.unit / ab :=
    Nat.div_le_div_right (Nat.mul_le_mul_right _ h)
  have hhead : x.unitsLeft.headD 0 = (x.first + x.progress) / x.unit := by rw [hunits]; rfl
  rw [Transfer.unitsInBlock, hhead]
  refine takeWhile_eq_filter_of_pairwise (unitsLeft_pairwise_lt.imp_of_mem fun {j k} hj _ hlt hk => ?_)
  have hfrom := hblock (le_of_mem_unitsLeft hj)
  have hto := hblock hlt.le
  simp only [decide_eq_true_eq] at hk ⊢
  omega

/-- R80: in units of one byte a cut takes exactly the bytes from the progress to the cut point. -/
theorem unitsToCut_of_unit_one {m : Nat} (hm : 1 ≤ m) (hu : x.unit = 1) (hleft : x.progress < x.length) :
    x.unitsToCut m = List.range' (x.first + x.progress) (x.cutPoint m - x.progress) := by
  have hcut := progress_lt_cutPoint hm hleft
  have hend : min (x.last + 1) (x.first + x.cutPoint m) - (x.first + x.progress) = x.cutPoint m - x.progress := by
    unfold Transfer.first Transfer.last Transfer.cutPoint
    omega
  have hcondition : ∀ k ∈ List.Ico (x.first + x.progress) (x.last + 1),
      (decide (min (k * 1 + 1 - 1) x.last < x.first + x.cutPoint m) || decide (k = (x.first + x.progress) / 1)) =
        decide (k < x.first + x.cutPoint m) := by
    intro k hk
    have hbounds := List.Ico.mem.mp hk
    rw [← Bool.decide_or, decide_eq_decide]
    omega
  rw [unitsToCut_eq_filter_address hm hleft, unitsLeft_of_unit_one hu, hu, List.filter_congr hcondition,
    List.Ico.filter_lt, List.Ico, hend]

end

/-- Settles O20: in each mode the segment is a cut of the units not yet run, whose condition is that of R78, R79 or R80. -/
theorem segmentIsCut : Obligations.SegmentIsCut := by
  intro x limit hlimit hport hleft
  refine ⟨fun hab => ?limit, fun hab hmode => ?block, fun hab hmode => ?bytes⟩
  case limit => exact (segmentUnits_of_ab_none hab).trans (unitsToCut_eq_filter_address hlimit hleft)
  case block => exact (segmentUnits_of_linear hab hmode).trans (unitsInBlock_eq_filter _ hleft)
  case bytes =>
    obtain ⟨hone, -, -⟩ := hport hmode
    have hunit : x.unit = 1 := by rw [Transfer.unit, hone]; rfl
    exact (segmentUnits_of_port hab hmode).trans
      (unitsToCut_of_unit_one (atomicBoundary_bytes_pos hab) hunit hleft)

end Sys2Proof.Machine

/-! The arrival of a packet (chapter 6, R121 and R182): which bytes spell a REQUEST and what its fields are, then what
PACKET_ARRIVAL does with a packet that spells one and with a packet that does not. -/

namespace Sys2Proof.Machine

/-! ## The bytes of a packet -/

@[simp] theorem byteAt_cons_zero (b : Byte) (bs : List Byte) : byteAt (b :: bs) 0 = b := rfl

@[simp] theorem byteAt_cons_succ (b : Byte) (bs : List Byte) (k : Nat) : byteAt (b :: bs) (k + 1) = byteAt bs k := rfl

/-- Three little-endian bytes fill an address of the upstream space, so none of their number is cut off. -/
theorem toNat_upAddr_of_leNat (a b c : Byte) :
    (BitVec.ofNat 24 (leNat [a, b, c])).toNat = a.toNat + 256 * b.toNat + 65536 * c.toNat := by
  simp only [leNat, BitVec.toNat_ofNat]
  omega

/-! ## The request kind (section 10.1) -/

theorem requestKind_of_mem {code : Nat} {k : RequestKind}
    (h : (code, k) ∈ [(0, RequestKind.read), (1, .write), (2, .posted), (3, .flush), (4, .detach)]) :
    requestKind code = k := by
  simp only [List.mem_cons, Prod.mk.injEq, List.not_mem_nil, or_false] at h
  obtain ⟨rfl, rfl⟩ | ⟨rfl, rfl⟩ | ⟨rfl, rfl⟩ | ⟨rfl, rfl⟩ | ⟨rfl, rfl⟩ := h <;> rfl

theorem requestKind_of_five_le {code : Nat} (h : 5 ≤ code) : requestKind code = .unknown := by
  match code, h with
  | _ + 5, _ => rfl

/-! ## The request of a packet (R182) -/

section
variable {bytes : List Byte} {r : Request}

theorem requestOf_eq_none_iff :
    requestOf bytes = none ↔ (byteAt bytes 0).toNat / 64 ≠ 1 ∨ bytes.length < 6 ∨ 133 < bytes.length := by
  simp only [requestOf, ite_eq_right_iff, reduceCtorEq, imp_false]
  omega

/-- The header of a request: its first byte holds the initiator and the kind's code, the second the tag, the next three the
address, the sixth the length. -/
theorem header_of_requestOf (h : requestOf bytes = some r) :
    r.initiator.val = (byteAt bytes 0).toNat / 16 % 4 ∧
      r.kind = requestKind ((byteAt bytes 0).toNat % 16) ∧
      r.tag.val = (byteAt bytes 1).toNat % 32 ∧
      r.address.toNat =
        (byteAt bytes 2).toNat + 256 * (byteAt bytes 3).toNat + 65536 * (byteAt bytes 4).toNat ∧
      r.length = (byteAt bytes 5).toNat % 128 := by
  simp only [requestOf, Option.ite_none_right_eq_some, Option.some.injEq] at h
  obtain ⟨-, rfl⟩ := h
  exact ⟨rfl, rfl, rfl, toNat_upAddr_of_leNat _ _ _, rfl⟩

theorem payload_of_requestOf (h : requestOf bytes = some r) : r.payload = bytes.drop 6 := by
  simp only [requestOf, Option.ite_none_right_eq_some, Option.some.injEq] at h
  obtain ⟨-, rfl⟩ := h
  rfl

end

/-! ## PACKET_ARRIVAL (R121) -/

section
variable {s : State} {ok : Bool} {bytes : List Byte}

theorem exec_packetArrival : exec (.packetArrival ok bytes) s = execPacketArrival ok bytes s := rfl

theorem exec_packetArrival_of_dropped (hup : s.hlp.link = .up) (hplace : s.hlp.receive.length < Config.receivePlaces)
    (hbad : ok = false ∨ requestOf bytes = none) :
    exec (.packetArrival ok bytes) s =
      .next { s with hlp := { s.hlp with dropped := saturate255 s.hlp.dropped } } := by
  have hnone : (if ok then requestOf bytes else none) = none := by
    obtain rfl | hform := hbad
    · rfl
    · rw [hform, ite_self]
  rw [exec_packetArrival, execPacketArrival, if_pos ⟨hup, hplace⟩, hnone]

theorem exec_packetArrival_of_request {r : Request} (hup : s.hlp.link = .up)
    (hplace : s.hlp.receive.length < Config.receivePlaces) (hr : requestOf bytes = some r) :
    exec (.packetArrival true bytes) s = .next { s with hlp := { s.hlp with receive := s.hlp.receive ++ [r] } } := by
  rw [exec_packetArrival, execPacketArrival, if_pos ⟨hup, hplace⟩, if_pos rfl, hr]

end

/-- Settles O6: `requestOf` is none exactly where R121 drops the packet, and elsewhere its fields are those of R182. -/
theorem packetArrives : Obligations.PacketArrives := by
  intro s ok b0 bytes hup hplace
  refine ⟨fun hbad => ?dropped, fun hok hkind hmin hmax => ?queued⟩
  case dropped => exact exec_packetArrival_of_dropped hup hplace (hbad.imp_right requestOf_eq_none_iff.mpr)
  case queued =>
    subst hok
    have hform : requestOf (b0 :: bytes) ≠ none := by
      simp only [ne_eq, requestOf_eq_none_iff, byteAt_cons_zero, List.length_cons]
      omega
    obtain ⟨r, hr⟩ := Option.ne_none_iff_exists'.mp hform
    obtain ⟨hinitiator, hcode, htag, haddress, hlength⟩ := header_of_requestOf hr
    simp only [byteAt_cons_zero, byteAt_cons_succ] at hinitiator hcode htag haddress hlength
    exact ⟨r, exec_packetArrival_of_request hup hplace hr, hinitiator,
      fun _ hk => hcode.trans (requestKind_of_mem hk), fun hk => hcode.trans (requestKind_of_five_le hk),
      htag, haddress, hlength, payload_of_requestOf hr⟩

end Sys2Proof.Machine

/-! The mailbox's claim, release and execution end (chapter 8, R152, R155 and R156). An access finds its command at the head
of the receive queue by its location and form; what the command then does depends on the mailbox alone, and, for a claim, on
the claim mask. -/

namespace Sys2Proof.Machine

/-! ## The answers of the MGB (R148) -/

section
variable {s : State} {r : Request} {rest : List Request}

theorem answerWith_eq (h : s.hlp.receive = r :: rest) (m : Management) (a : Response) :
    s.answerWith m a =
      { s with hlp := { s.hlp with receive := rest }, mgb := { m with answers := m.answers ++ [a] } } := by
  simp only [State.answerWith, State.popHead, h, List.tail_cons]

theorem refusedWith_eq_answer (st : Status) : r.refusedWith st = r.answer st 0 .nothing := rfl

theorem readOk_eq_answer {n : Nat} (hlen : r.length = n) (bytes : List Byte) :
    r.readOk bytes = r.answer .ok n (.data bytes) := by
  rw [Request.readOk, hlen, Request.answer]

theorem writeOk_eq_answer {n : Nat} (hlen : r.length = n) : r.writeOk = r.answer .ok n .nothing := by
  rw [Request.writeOk, hlen, Request.answer]

/-! ## CLAIM (R152) -/

theorem headFor_claim (h : HeadForManagement s r rest) (hread : r.IsManagementRead 0x040 4) :
    s.headFor .claim = some r :=
  (accepted_read .claim h hread (by decide) (by decide) rfl rfl).2

theorem exec_claim : exec .claim s = execClaim s := rfl

theorem exec_claim_of_denied (hhead : s.headFor .claim = some r) (hbit : s.mgb.claimMask.getLsbD r.initiator.val = false) :
    exec .claim s = .next (s.answerAccess (r.refusedWith .denied)) := by
  simp only [exec_claim, execClaim, hhead, hbit, Bool.not_false, if_true]

theorem exec_claim_of_free (hhead : s.headFor .claim = some r) (hbit : s.mgb.claimMask.getLsbD r.initiator.val = true)
    (hfree : s.mgb.mailbox = .free) :
    exec .claim s =
      .next
        (s.answerWith { s.mgb with mailbox := .claimed r.initiator, leaseTimer := s.mgb.startLease }
          (r.readOk (claimValue true (.claimed r.initiator)))) := by
  simp only [exec_claim, execClaim, hhead, hbit, hfree, Bool.not_true, Bool.false_eq_true, if_false, if_true]

theorem exec_claim_of_held (hhead : s.headFor .claim = some r) (hbit : s.mgb.claimMask.getLsbD r.initiator.val = true)
    (hheld : s.mgb.mailbox ≠ .free) :
    exec .claim s = .next (s.answerAccess (r.readOk (claimValue false s.mgb.mailbox))) := by
  simp only [exec_claim, execClaim, hhead, hbit, hheld, Bool.not_true, Bool.false_eq_true, if_false]

/-- In each state that has an owner the value of a refused claim names HELD, the owner and the state (R186). -/
theorem claimValue_of_held {m : Mailbox} {i : Initiator} {code : Byte}
    (hm : (m, code) ∈ [(Mailbox.claimed i, (1 : Byte)), (.busy i false, 2), (.busy i true, 2), (.result i, 3)]) :
    m ≠ .free ∧ claimValue false m = [2, BitVec.ofNat 8 i.val, code, 0] := by
  simp only [List.mem_cons, Prod.mk.injEq, List.not_mem_nil, or_false] at hm
  obtain ⟨rfl, rfl⟩ | ⟨rfl, rfl⟩ | ⟨rfl, rfl⟩ | ⟨rfl, rfl⟩ := hm <;> exact ⟨Mailbox.noConfusion, rfl⟩

/-! ## RELEASE (R156) -/

theorem headFor_release (h : HeadForManagement s r rest) (hwrite : r.IsManagementWrite 0x048 4) :
    s.headFor .release = some r :=
  (accepted_write .release h hwrite (by decide) (by decide) rfl rfl).2

theorem exec_release : exec .release s = execRelease s := rfl

theorem exec_release_of_not_owner (hhead : s.headFor .release = some r) (howner : s.mgb.mailbox.owner ≠ some r.initiator) :
    exec .release s = .next (s.answerAccess (r.refusedWith .notOwner)) := by
  rw [exec_release, execRelease, hhead]
  cases hm : s.mgb.mailbox with
  | free => rfl
  | claimed i | result i | busy i _ =>
    have hi : i ≠ r.initiator := by simpa only [hm, Mailbox.owner, ne_eq, Option.some.injEq] using howner
    simp only [hi, if_false]

theorem exec_release_of_owner (hhead : s.headFor .release = some r)
    (hm : s.mgb.mailbox = .claimed r.initiator ∨ s.mgb.mailbox = .result r.initiator) :
    exec .release s = .next (s.answerWith s.mgb.freed r.writeOk) := by
  obtain hm | hm := hm <;> simp only [exec_release, execRelease, hhead, hm, if_true]

theorem exec_release_of_busy {mark : Bool} (hhead : s.headFor .release = some r)
    (hm : s.mgb.mailbox = .busy r.initiator mark) :
    exec .release s = .next (s.answerAccess (r.refusedWith .mbxState)) := by
  simp only [exec_release, execRelease, hhead, hm, if_true]

end

/-- Settles O35: the mask decides first, then whether the mailbox is FREE. -/
theorem claimIsDecided : Obligations.ClaimIsDecided := by
  intro s r rest hqueue hread
  have hhead := headFor_claim hqueue hread
  obtain ⟨hreceive, -⟩ := hqueue
  obtain ⟨-, -, hlen, -⟩ := hread
  refine ⟨fun hbit => ?denied, fun hbit hfree => ?granted, fun i code hbit hm => ?held⟩
  case denied => rw [exec_claim_of_denied hhead hbit, answerAccess_eq hreceive, refusedWith_eq_answer]
  case granted =>
    rw [exec_claim_of_free hhead hbit hfree, answerWith_eq hreceive, readOk_eq_answer hlen]
    rfl
  case held =>
    obtain ⟨hheld, hvalue⟩ := claimValue_of_held hm
    rw [exec_claim_of_held hhead hbit hheld, answerAccess_eq hreceive, readOk_eq_answer hlen, hvalue]

/-- Settles O37: the owner decides first, then whether the mailbox is BUSY. -/
theorem releaseIsDecided : Obligations.ReleaseIsDecided := by
  intro s r rest hqueue hwrite
  have hhead := headFor_release hqueue hwrite
  obtain ⟨hreceive, -⟩ := hqueue
  obtain ⟨-, -, hlen, -⟩ := hwrite
  refine ⟨fun howner => ?notOwner, fun hm => ?freed, fun mark hm => ?busy⟩
  case notOwner => rw [exec_release_of_not_owner hhead howner, answerAccess_eq hreceive, refusedWith_eq_answer]
  case freed =>
    rw [exec_release_of_owner hhead hm, answerWith_eq hreceive, writeOk_eq_answer hlen]
    rfl
  case busy => rw [exec_release_of_busy hhead hm, answerAccess_eq hreceive, refusedWith_eq_answer]

/-! ## EXECUTION_END (R155, R161) -/

/-- Settles O41: the release-pending mark of the BUSY mailbox selects between RESULT and FREE. -/
theorem executionEnds : Obligations.ExecutionEnds := by
  intro s i x hcfx hfinished
  have hexec : exec .executionEnd s = execExecutionEnd s := rfl
  rw [hexec]
  refine ⟨fun hm => ?result, fun hm => ?freed⟩
  case result => simp only [execExecutionEnd, hcfx, hfinished, hm, if_true, State.handEvent, Management.startLease]
  case freed => simp only [execExecutionEnd, hcfx, hfinished, hm, if_true]

end Sys2Proof.Machine

/-! The structure phase (chapter 9, R164 to R168): the table of record types, what one examination of a record answers, at
which record the results grow past the result buffer, and what a rejection writes. -/

namespace Sys2Proof.Machine

/-! ## The record types (R164, section 10.2) -/

/-- Code, kind, payload length and result length of each record type, as section 10.2 lists them. -/
def recordTypes : List (Nat × RecordKind × Nat × Nat) :=
  [(0x10, .setWindow, 21, 0), (0x11, .enableWindow, 1, 0), (0x12, .disableWindow, 1, 0), (0x13, .clearWindow, 1, 0),
    (0x14, .getWindow, 1, 21), (0x20, .setTarget, 5, 0), (0x21, .clearTarget, 1, 0), (0x22, .reviveTarget, 1, 0),
    (0x23, .getTarget, 1, 8), (0x30, .setRoute, 4, 0), (0x31, .setThreshold, 2, 0), (0x40, .setLimits, 4, 0),
    (0x41, .quiesce, 0, 0), (0x42, .resume, 0, 0), (0x50, .getStatus, 0, 11), (0x0F, .endRecord, 0, 0)]

theorem recordKind_of_mem_recordTypes {code payload result : Nat} {k : RecordKind}
    (h : (code, k, payload, result) ∈ recordTypes) :
    recordKind code = some k ∧ k.payloadLength = payload ∧ k.resultLength = result := by
  have hrows : ∀ row ∈ recordTypes,
      recordKind row.1 = some row.2.1 ∧ row.2.1.payloadLength = row.2.2.1 ∧ row.2.1.resultLength = row.2.2.2 := by
    decide
  exact hrows _ h

theorem mem_recordTypes_of_recordKind {code : Nat} {k : RecordKind} (h : recordKind code = some k) :
    (code, k, k.payloadLength, k.resultLength) ∈ recordTypes := by
  unfold recordKind at h
  split at h <;> cases h <;> decide

theorem recordKind_of_notMem_recordTypes {code : Nat} (h : code ∉ recordTypes.map Prod.fst) : recordKind code = none :=
  Option.eq_none_iff_forall_ne_some.mpr fun _ hk => h (List.mem_map_of_mem (mem_recordTypes_of_recordKind hk))

/-! ## The rejection (R168, R179) -/

/-- The codes of the structure reasons (section 10.2). -/
def structureReasonCodes : List (StructureReason × Byte) :=
  [(.badChecksum, 0x20), (.badLength, 0x21), (.badType, 0x22), (.badSequence, 0x23), (.noEnd, 0x24),
    (.resultTooLarge, 0x25)]

theorem structureReasonCode_of_mem {reason : StructureReason} {code : Byte} (h : (reason, code) ∈ structureReasonCodes) :
    BitVec.ofNat 8 (structureReasonCode reason) = code := by
  have hrows : ∀ row ∈ structureReasonCodes, BitVec.ofNat 8 (structureReasonCode row.1) = row.2 := by decide
  exact hrows _ h

theorem outcomeRecord_rejectedStructure {reason : StructureReason} {code : Byte} (position n : Nat)
    (h : (reason, code) ∈ structureReasonCodes) :
    ∃ sum, outcomeRecord (.rejectedStructure position reason) n =
      [0xFF, 0x11, 4, 1, BitVec.ofNat 8 position, code, BitVec.ofNat 8 n, sum] := by
  rw [← structureReasonCode_of_mem h]
  exact ⟨_, rfl⟩

/-- Without results the chain-outcome record alone is written, at the start of the result buffer. -/
theorem finishChain_read_of_no_results {s : State} (h : Memory.wf s.mgb.resultBuffer = true) (x : Executor)
    {o : ChainOutcome} (hlen : (outcomeRecord o x.records.length).length = 8) (a : Nat) :
    readByte (s.finishChain x [] o).mgb.resultBuffer a =
      if a < 8 then byteAt (outcomeRecord o x.records.length) a else readByte s.mgb.resultBuffer a := by
  rw [finishChain_read h, resultRecords_nil, List.nil_append, hlen]
  rfl

/-! ## The result size (R167) -/

/-- The running total first exceeds 512 where it did not exceed it one record before: a record later, it stays above. -/
theorem resultOverflow_some {p : Nat} {ref : RecordRef} : ∀ {l : List RecordRef} {t : Nat}, l[p]? = some ref →
    t + ((l.take p).map fun f => 4 + f.kind.resultLength).sum ≤ 512 →
    512 < t + ((l.take (p + 1)).map fun f => 4 + f.kind.resultLength).sum →
    resultOverflow t l = some ref.sequence := by
  induction p with
  | zero =>
    intro l t hp _ hexceeds
    obtain ⟨later, rfl⟩ : ∃ later, l = ref :: later := by
      cases l with
      | nil => cases hp
      | cons first later => exact ⟨later, by rw [Option.some.inj hp]⟩
    have : Config.bufferBytes < t + 4 + ref.kind.resultLength := by
      simpa [Config.bufferBytes, Nat.add_assoc] using hexceeds
    rw [resultOverflow, if_pos this]
  | succ p ih =>
    intro l t hp hfits hexceeds
    cases l with
    | nil => cases hp
    | cons first later =>
      simp only [List.take_succ_cons, List.map_cons, List.sum_cons, ← Nat.add_assoc] at hfits hexceeds
      have : ¬ Config.bufferBytes < t + 4 + first.kind.resultLength := by
        show ¬ 512 < _
        omega
      rw [resultOverflow, if_neg this]
      exact ih hp hfits hexceeds

/-- END has no result payload, so it adds its 4 bytes to the total (R164, R167). -/
theorem resultOverflow_append_end {l : List RecordRef} {t offset sequence : Nat}
    (h : t + 4 + (l.map fun ref => 4 + ref.kind.resultLength).sum ≤ 512) :
    resultOverflow t (l ++ [⟨offset, .endRecord, sequence⟩]) = none := by
  have hend : RecordKind.endRecord.resultLength = 0 := rfl
  refine resultOverflow_none _ t ?_
  simp only [List.map_append, List.sum_append, List.map_cons, List.map_nil, List.sum_cons, List.sum_nil, hend]
  omega

/-! ## STRUCTURE_CHECK by the record at the walk position (R166, R167) -/

/-- A record that passes the eight checks answers with its kind and size. -/
theorem checkRecord_eq_ok {buffer : List Host.Cell} {chainLength walk expected length : Nat} {k : RecordKind}
    (hlength : length = (readByte buffer (walk + 1)).toNat) (hleft : 4 + length ≤ chainLength - walk) (hmax : length ≤ 60)
    (hsum : (readBytes buffer walk (4 + length)).sum = 0) (hkind : recordKind (readByte buffer walk).toNat = some k)
    (hpayload : length = k.payloadLength) (hsequence : (readByte buffer (walk + 2)).toNat = expected) :
    checkRecord buffer chainLength walk expected = .ok (k, 4 + length) := by
  have hnoEnd : ¬ chainLength - walk = 0 := by omega
  have hheader : ¬ chainLength - walk < 3 := by omega
  simp only [checkRecord, ← hlength, byteSum_eq_sum, if_neg hnoEnd, if_neg hheader, if_neg hmax.not_gt, if_neg hleft.not_gt,
    hsum, ne_eq, not_true_eq_false, if_false, hkind, hpayload.symm, hsequence]

theorem exec_structureCheck (s : State) : exec .structureCheck s = execStructureCheck s := rfl

section
variable {s : State} {x : Executor} (hcfx : s.cfx = some x) (hphase : x.phase = .structural) (hwork : x.finished = false)
include hcfx hphase hwork

theorem exec_structureCheck_of_error {reason : StructureReason}
    (h : checkRecord s.mgb.requestBuffer x.chainLength x.walk x.records.length = .error reason) :
    exec .structureCheck s = .next (s.finishChain x [] (.rejectedStructure x.records.length reason)) := by
  simp only [exec_structureCheck, execStructureCheck, hcfx, hphase, hwork, and_self, if_true, h]

theorem exec_structureCheck_of_record {k : RecordKind} {size : Nat} (hk : k ≠ .endRecord)
    (h : checkRecord s.mgb.requestBuffer x.chainLength x.walk x.records.length = .ok (k, size)) :
    exec .structureCheck s =
      .next
        { s with
          cfx := some { x with walk := x.walk + size, records := x.records ++ [⟨x.walk, k, x.records.length⟩] } } := by
  simp only [exec_structureCheck, execStructureCheck, hcfx, hphase, hwork, and_self, if_true, h, if_neg hk]

theorem exec_structureCheck_of_end {size : Nat}
    (h : checkRecord s.mgb.requestBuffer x.chainLength x.walk x.records.length = .ok (.endRecord, size))
    (hfits : resultOverflow outcomeRecordBytes (x.records ++ [⟨x.walk, .endRecord, x.records.length⟩]) = none) :
    exec .structureCheck s =
      .next
        { s with
          cfx := some { x with phase := .staging, records := x.records ++ [⟨x.walk, .endRecord, x.records.length⟩] } } := by
  simp only [exec_structureCheck, execStructureCheck, hcfx, hphase, hwork, and_self, if_true, h, hfits]

theorem exec_structureCheck_of_end_too_large {size position : Nat}
    (h : checkRecord s.mgb.requestBuffer x.chainLength x.walk x.records.length = .ok (.endRecord, size))
    (hlarge : resultOverflow outcomeRecordBytes (x.records ++ [⟨x.walk, .endRecord, x.records.length⟩]) = some position) :
    exec .structureCheck s =
      .next
        (s.finishChain { x with records := x.records ++ [⟨x.walk, .endRecord, x.records.length⟩] } []
          (.rejectedStructure position .resultTooLarge)) := by
  simp only [exec_structureCheck, execStructureCheck, hcfx, hphase, hwork, and_self, if_true, h, hlarge]

end

/-- Settles O42: the eight checks decide first, then whether the record is END, then the result size. -/
theorem structureIsChecked : Obligations.StructureIsChecked := by
  refine ⟨?types, ?rejection, ?check⟩
  case types =>
    rintro code kinds rfl
    exact ⟨fun _ _ _ => recordKind_of_mem_recordTypes, recordKind_of_notMem_recordTypes⟩
  case rejection =>
    rintro s x position reason code t hcode rfl
    obtain ⟨sum, hrecord⟩ := outcomeRecord_rejectedStructure position x.records.length hcode
    have hlen := congrArg List.length hrecord
    refine ⟨rfl, _, sum, hrecord, outcomeRecord_sum _ _, fun ⟨_, hresult⟩ a => ?_⟩
    exact finishChain_read_of_no_results hresult x hlen a
  case check =>
    rintro s x left length ty hcfx hphase hwork rfl rfl hlength
    refine ⟨fun reason hfails => ?fails, fun k hleft hmax hsum hkind hpayload hsequence => ?passes⟩
    case fails =>
      refine exec_structureCheck_of_error hcfx hphase hwork ?_
      subst hlength
      rw [checkRecord_eq, hfails]
    case passes =>
      have hok := checkRecord_eq_ok hlength hleft hmax hsum hkind hpayload hsequence
      refine ⟨fun hk => ?joins, fun hk hfits => ?staging, fun records p ref hk hrecords hp hbefore hexceeds => ?tooLarge⟩
      case joins =>
        rw [exec_structureCheck_of_record hcfx hphase hwork hk hok, Nat.add_assoc]
      case staging =>
        subst hk
        exact exec_structureCheck_of_end hcfx hphase hwork hok (resultOverflow_append_end hfits)
      case tooLarge =>
        subst hk hrecords
        exact exec_structureCheck_of_end_too_large hcfx hphase hwork hok (resultOverflow_some hp hbefore hexceeds)

end Sys2Proof.Machine

/-! What a command can do. `Effect s c t` lists, once, every outcome of the 68 commands, each with what its occasion was;
`exec_effect` says that there is no other. The laws of the whole device are proved by cases on it. -/

namespace Sys2Proof.Machine

/-- What command `c` can make of state `s`: nothing, or one of the changes below. -/
inductive Effect (s : State) : Instr → State → Prop
  | unchanged (c : Instr) : Effect s c s
  -- power-on reset and start-up
  | porstAsserted (ns : Nat) : Effect s (.porstAsserted ns) (.powerOn .held s.pins s.pending)
  | porstReleased : Effect s .porstReleased (.powerOn (.initializing Config.initializationCycles) s.pins s.pending)
  | initialized :
    Effect s .tableInitializationComplete
      (State.arbitrate
        { s with power := { s.power with boot := .running }, hlp := { s.hlp with link := .training } })
  -- the link port
  | linkMoved (c : Instr) (link : LinkState) (quiet : Option Nat) :
    Effect s c { s with hlp := { s.hlp with link := link, quiet := quiet } }
  | trained : Effect s .trainingComplete { s with hlp := { s.hlp with link := .up }, irl := s.irl.linkUpNews }
  | trainedBehind :
    Effect s .trainingComplete
      { s with hlp := { s.hlp with link := .up }, handed := { s.handed with irlNews := s.handed.irlNews ++ [.up] } }
  | linkLost :
    Effect s .linkLost
      (State.leaveTransmit
        { s with
          hlp := { s.hlp with link := .down, quiet := some Config.quietClocks, receive := [] }
          handed :=
            { s.handed with
              trkResets := s.handed.trkResets + 1
              mgbResets := s.handed.mgbResets + 1
              irlNews := s.handed.irlNews ++ [.reset] } }
        (s.hlp.transmit.filter OutPacket.isResponse))
  | joined (c : Instr) (r : Request) (place : s.hlp.receive.length < Config.receivePlaces) :
    Effect s c { s with hlp := { s.hlp with receive := s.hlp.receive ++ [r] } }
  | dropped (c : Instr) : Effect s c { s with hlp := { s.hlp with dropped := saturate255 s.hlp.dropped } }
  | sent : Effect s .packetTransmissionEnd (s.leaveTransmit s.hlp.transmit.tail)
  | mgbHanded (a : Response) (rest : List Response) (head : s.mgb.answers = a :: rest)
      (place : s.hlp.transmit.length < Config.transmitPlaces) :
    Effect s .mgbAnswerHanded
      { s with hlp := s.hlp.hand .mgb (.response a), mgb := { s.mgb with answers := rest } }
  | noticed (i : Initiator) (src : Source) (offered : s.irl.offer = some (i, src))
      (place : s.hlp.transmit.length < Config.transmitPlaces) :
    Effect s .noticeHanding
      { s with hlp := s.hlp.hand .irl (.notice (s.irl.noticeOf i src)), irl := s.irl.handed i src }
  -- admission
  | refused (c : Instr) (r : Request) (st : Status) (place : s.trk.entryless < Config.entrylessPlaces) :
    Effect s c (s.popHead.answerRefusal r st)
  | faulted (c : Instr) (r : Request) (st : Status) : Effect s c (s.popHead.recordFault r.initiator st r.address 0)
  | admitted (c : Instr) (r : Request) (k : TransferKind) (i : WindowIx) (p : Profile)
      (kind : r.kind.transferKind = some k) (passes : s.trk.refusal r = none)
      (decoded : decodeRequest s.wdc s.tgt r = .ok (i, p)) :
    Effect s c (s.popHead.admitTransfer r k i p)
  | flushed (r : Request) (kind : r.kind = .flush) (passes : s.trk.refusal r = none) :
    Effect s .flush ((s.popHead.addEntry r (.flush none)).judgeFlushes r.initiator).joinReady
  | detached (r : Request) (kind : r.kind = .detach) (passes : s.trk.refusal r = none)
      (place : s.trk.entryless < Config.entrylessPlaces) :
    Effect s .detach ((s.popHead.beginDetach r.initiator r.tag).joinReady.settlePlace).arbitrate
  -- answers of the tracker
  | refusalHanded (r : Response) (rest : List Answer) (head : s.trk.answers = .refusal r :: rest)
      (place : s.hlp.transmit.length < Config.transmitPlaces) :
    Effect s .answerHanded (s.handAnswer r)
  | detachHanded (i : Initiator) (d : DetachRecord) (r : Response) (rest : List Answer)
      (head : s.trk.answers = .detached i :: rest) (running : s.trk.detaches[i] = some d)
      (place : s.hlp.transmit.length < Config.transmitPlaces) :
    Effect s .answerHanded
      { s.handAnswer r with trk := { (s.handAnswer r).trk with detaches := s.trk.detaches.set i none } }
  | staleDetach (i : Initiator) (rest : List Answer) (head : s.trk.answers = .detached i :: rest)
      (ended : s.trk.detaches[i] = none) :
    Effect s .answerHanded (State.settlePlace { s with trk := { s.trk with answers := s.trk.answers.tail } })
  | entryHanded (e : Entry) (o : EntryOutcome) (rest : List Answer) (head : s.trk.answers = .entry e.slot :: rest)
      (mem : e ∈ s.trk.entries) (done : e.state = .done o) (place : s.hlp.transmit.length < Config.transmitPlaces) :
    Effect s .answerHanded (((s.handAnswer (e.response o)).depart e).joinReady).arbitrate
  | staleEntry (slot : Slot) (rest : List Answer) (head : s.trk.answers = .entry slot :: rest)
      (gone : ∀ e ∈ s.trk.entries, e.slot ≠ slot) :
    Effect s .answerHanded (State.settlePlace { s with trk := { s.trk with answers := s.trk.answers.tail } })
  -- link reset, the OFFLINE announcement and the segment end report
  | trkReset :
    Effect s .trkLinkReset
      ((State.dispose
        { s with
          trk := { s.trk with faults := Vector.replicate 4 none }
          handed := { s.handed with trkResets := s.handed.trkResets - 1 } } fun _ => true).joinReady.settlePlace).arbitrate
  | announced (t : TargetId) (a : Announcement) (left : List Announcement)
      (taken : takeAnnouncement t s.handed.announcements = some (a, left)) :
    Effect s (.offlineAnnouncement t)
      (((s.trk.entries.filter a.reaches).foldl State.failOffline
        { s with handed := { s.handed with announcements := left } }).joinReady).arbitrate
  | reportStale (x : SegmentContext) (report : SegmentReport) (bus : s.pbe.bus = .segment x)
      (handed : x.report = some report) (gone : ∀ e ∈ s.trk.entries, e.slot ≠ report.slot) :
    Effect s .segmentEndReport (State.arbitrate { s with pbe := { s.pbe with bus := .idle } })
  | reported (x : SegmentContext) (report : SegmentReport) (e : Entry) (bus : s.pbe.bus = .segment x)
      (handed : x.report = some report) (mem : e ∈ s.trk.entries) (slot : e.slot = report.slot) :
    Effect s .segmentEndReport
      ((State.endSegmentOf { s with pbe := { s.pbe with bus := .idle } } report e).joinReady).arbitrate
  -- the bus
  | runMoved (c : Instr) (x : SegmentContext) (r : CycleRun) (bus : s.pbe.bus = .segment x) (running : x.run.isSome = true) :
    Effect s c (s.withContext (x.withRun (some r)))
  | cycleEnded (x : SegmentContext) (r : CycleRun) (result : CycleResult) (bus : s.pbe.bus = .segment x)
      (running : x.run = some r) :
    Effect s .byteCycleEnd (s.endCycle x r result)
  | expired (t : TargetId) (notIdle : s.pbe.bus ≠ .idle) :
    Effect s (.recoveryTimerExpiry t) { s with pbe := { s.pbe with recovery := s.pbe.recovery.set t 0 } }
  | expiredIdle (t : TargetId) :
    Effect s (.recoveryTimerExpiry t)
      (State.arbitrate { s with pbe := { s.pbe with recovery := s.pbe.recovery.set t 0 } })
  | resumed (t : TargetId) (x : SegmentContext) (bus : s.pbe.bus = .segment x) (waits : x.waitsFor t = true) :
    Effect s (.recoveryTimerExpiry t)
      (State.withContext { s with pbe := { s.pbe with recovery := s.pbe.recovery.set t 0 } }
        (beginCycle s.tgt[t] (s.trk.dataAt x.slot) x))
  | extreqTaken (samples : Nat) : Effect s (.extreqAsserted samples) (s.withExtreq true).arbitrate
  | extreqGone (samples : ExtreqSamples) (notLent : s.pbe.bus ≠ .lent) :
    Effect s (.extreqWithdrawn samples) (s.withExtreq false)
  | busReturned (samples : ExtreqSamples) (again : Bool) (lent : s.pbe.bus = .lent) :
    Effect s (.extreqWithdrawn samples) (((s.withExtreq false).returnBus.withExtreq again).arbitrate)
  | overrun : Effect s .lendLimitReached s.reportOverrun
  -- targets
  | completed (t : TargetId) (left : List (TargetId × Bool)) :
    Effect s (.cycleCompletion t) (s.withOutcomeTaken t s.tgt[t].completed left).arbitrate
  | timedOut (t : TargetId) (left : List (TargetId × Bool)) :
    Effect s (.cycleTimeout t) (s.withOutcomeTaken t s.tgt[t].timedOut left).arbitrate
  | wentOffline (t : TargetId) (left : List (TargetId × Bool)) :
    Effect s (.cycleTimeout t) ((s.withOutcomeTaken t s.tgt[t].timedOut left).announceOffline t).arbitrate
  | aged : Effect s .ageTick { s with tgt := tabulate fun t => s.tgt[t].aged }
  -- the Interrupt Relay
  | lineAsserted (n : IrqLine) (samples : Nat) :
    Effect s (.irqAsserted n samples)
      { s with
        pins := { s.pins with irq := s.pins.irq.set n true }
        irl := s.irl.lineAsserted (sourceOfLine n) }
  | lineWithdrawn (n : IrqLine) (samples : Nat) :
    Effect s (.irqWithdrawn n samples)
      (State.settlePlace
        { s with
          pins := { s.pins with irq := s.pins.irq.set n false }
          irl := s.irl.lineWithdrawn (sourceOfLine n) })
  | eventTaken (e : NoticeEvent) : Effect s (.eventSource e) (s.takeEvent e)
  | clearingTaken (i : Initiator) (x : Clearing) :
    Effect s (.flushWithdrawal i)
      (State.settlePlace { s with irl := s.irl.withdrawFault i, handed := s.handed.takeClearing x })
  | irlDetached (i : Initiator) :
    Effect s (.irlDetach i)
      (State.settlePlace
        { s with
          irl := s.irl.detach s.pins i
          handed := { s.handed with irlDetaches := s.handed.irlDetaches.erase i } })
  | irlResetUp (rest : List LinkNews) :
    Effect s .irlLinkReset
      (State.settlePlace
        { s with irl := (s.irl.linkReset s.pins).linkUpNews, handed := { s.handed with irlNews := rest } })
  | irlReset (rest : List LinkNews) :
    Effect s .irlLinkReset
      (State.settlePlace { s with irl := s.irl.linkReset s.pins, handed := { s.handed with irlNews := rest } })
  | irlUp (rest : List LinkNews) :
    Effect s .irlLinkReset { s with irl := s.irl.linkUpNews, handed := { s.handed with irlNews := rest } }
  -- management space and the mailbox
  | answered (c : Instr) (a : Response) (place : s.mgb.answers.length < Config.heldAnswers) : Effect s c (s.answerAccess a)
  | acknowledged (r : Request) (src : Source) (irl : Relay) (place : s.mgb.answers.length < Config.heldAnswers)
      (ack : s.irl.acknowledge s.pins r.initiator src = some irl) :
    Effect s .noticeAck { s.answerAccess r.writeOk with irl := irl }
  | claimed (r : Request) (a : Response) (place : s.mgb.answers.length < Config.heldAnswers) (free : s.mgb.mailbox = .free) :
    Effect s .claim
      (s.answerWith { s.mgb with mailbox := .claimed r.initiator, leaseTimer := s.mgb.startLease } a)
  | submitted (r : Request) (place : s.mgb.answers.length < Config.heldAnswers) (i : Initiator) (chainLength : Nat)
      (owner : s.mgb.mailbox = .claimed i) :
    Effect s .submit
      { s.answerWith { s.mgb with mailbox := .busy i false, leaseTimer := none, resultBuffer := [] } r.writeOk with
        cfx := some (Executor.started chainLength) }
  | released (r : Request) (place : s.mgb.answers.length < Config.heldAnswers) (leased : s.mgb.mailbox.leased = true) :
    Effect s .release (s.answerWith s.mgb.freed r.writeOk)
  | written (r : Request) (place : s.mgb.answers.length < Config.heldAnswers)
      (inBuffer : r.offset - 0x100 + r.payload.length ≤ Config.bufferBytes) :
    Effect s .requestBufferWrite
      (s.answerWith
        { s.mgb with requestBuffer := writeBytes s.mgb.requestBuffer (r.offset - 0x100) r.payload } r.writeOk)
  | leaseLost (i : Initiator) (leased : s.mgb.mailbox.leased = true) :
    Effect s .leaseExpiry
      { s with mgb := { s.mgb.freed with lostLast := some i, lostCount := saturate255 s.mgb.lostCount } }
  | mgbReset :
    Effect s .mgbLinkReset
      { s with mgb := s.mgb.released, handed := { s.handed with mgbResets := s.handed.mgbResets - 1 } }
  | mgbDetached (i : Initiator) (m : Management) (left : List Initiator) (box : m = s.mgb.released ∨ m = s.mgb) :
    Effect s (.mgbDetach i) { s with mgb := m, handed := { s.handed with mgbDetaches := left } }
  | ended (i : Initiator) (x : Executor) (executing : s.cfx = some x) (busy : s.mgb.mailbox = .busy i false) :
    Effect s .executionEnd
      (State.handEvent
        { s with cfx := none, mgb := { s.mgb with mailbox := .result i, leaseTimer := s.mgb.startLease } }
        (.mailboxResult i))
  | endedReleased (i : Initiator) (x : Executor) (executing : s.cfx = some x) (busy : s.mgb.mailbox = .busy i true) :
    Effect s .executionEnd { s with cfx := none, mgb := { s.mgb with mailbox := .free } }
  | endedStale (x : Executor) (executing : s.cfx = some x) (notBusy : s.mgb.mailbox.isBusy = false) :
    Effect s .executionEnd { s with cfx := none }
  -- the Configuration Executor
  | executing (c : Instr) (x y : Executor) (runs : s.cfx = some x) : Effect s c { s with cfx := some y }
  | counted (x y : Executor) (runs : s.cfx = some x) : Effect s .getStatus { s.clearCounters with cfx := some y }
  | finished (c : Instr) (x y : Executor) (rs : List RecordResult) (o : ChainOutcome) (runs : s.cfx = some x) :
    Effect s c (s.finishChain y rs o)
  | committed (x : Executor) (records : List (RecordRef × List Byte)) (u : State) (runs : s.cfx = some x)
      (pass : s.takeDueEvents.commitPass records = .ok u) :
    Effect s .commit (u.countCommit.finishChain x x.results .committed).settlePlace.arbitrate

/-! ## Each command has one of these effects -/

section
variable {s t : State}

theorem mgb_place_of_headFor {r : Request} {c : HeadClass} (hc : c.isTracker = false) (h : s.headFor c = some r) :
    s.mgb.answers.length < Config.heldAnswers :=
  (canTake_management hc).mp (headFor_some h).2.2

theorem trk_place_of_headFor {r : Request} {c : HeadClass} (hc : c.isTracker = true) (h : s.headFor c = some r) :
    s.trk.entryless < Config.entrylessPlaces :=
  (canTake_tracker hc).mp (headFor_some h).2.2

theorem place_of_mayHand {b : OutBlock} (h : s.mayHand b = true) : s.hlp.transmit.length < Config.transmitPlaces := by
  simp only [State.mayHand, Bool.and_eq_true, decide_eq_true_eq] at h
  exact h.1.1

theorem cfx_of_staging {k : RecordKind} {x : Executor} {sh : Shadow} {ref : RecordRef}
    (h : s.staging k = some (x, sh, ref)) : s.cfx = some x := by
  unfold State.staging at h
  split at h
  · cases h
  · next y hy =>
    split at h
    · split at h <;> cases h
      exact hy
    · cases h

theorem stage_effect (c : Instr) (k : RecordKind)
    (rule : Shadow → List Byte → Except RecordStatus (Shadow × List Byte)) : Effect s c (s.stage k rule) := by
  unfold State.stage
  cases hs : s.staging k with
  | none => exact .unchanged c
  | some next =>
    obtain ⟨x, sh, ref⟩ := next
    have hx : s.cfx = some x := cfx_of_staging hs
    cases hr : rule sh (s.payloadOf ref) with
    | error st => simpa only [hr] using .finished c x x _ _ hx
    | ok v => simpa only [hr] using .executing c x _ hx

theorem admission_effect {c : Instr} {r : Request} {k : TransferKind} (place : s.trk.entryless < Config.entrylessPlaces)
    (kind : r.kind.transferKind = some k) : Effect s c (s.admission r k) := by
  unfold State.admission
  split
  · exact .refused c r _ place
  · next passes =>
    split
    · exact .refused c r _ place
    · next decoded => exact .admitted c r k _ _ kind passes decoded

theorem refusePosted_effect {c : Instr} {r : Request} (st : Status) (place : s.trk.entryless < Config.entrylessPlaces) :
    Effect s c (s.popHead.refusePosted r st) := by
  unfold State.refusePosted
  split
  · exact .refused c r _ place
  · exact .faulted c r st

theorem admissionPosted_effect {c : Instr} {r : Request} (place : s.trk.entryless < Config.entrylessPlaces)
    (kind : r.kind = .posted) : Effect s c (s.admissionPosted r) := by
  unfold State.admissionPosted
  split
  · exact refusePosted_effect _ place
  · next passes =>
    split
    · exact refusePosted_effect _ place
    · next decoded => exact .admitted c r .posted _ _ (by rw [kind]; rfl) passes decoded

theorem accessForm_of_requestBufferWrite {r : Request} (h : headClass r = .requestBufferWrite) :
    r.kind = .write ∧ accessForm r = .accepted .requestBuffer := by
  unfold headClass at h
  split at h
  case h_1 =>
    split at h
    · unfold managementReadClass at h; split at h <;> cases h
    · cases h
  case h_2 kind =>
    refine ⟨kind, ?_⟩
    split at h
    · unfold managementWriteClass at h
      split at h <;> cases h
      assumption
    · cases h
  case h_3 => split at h <;> cases h
  all_goals cases h

theorem requestBuffer_bounds {r : Request} (h : accessForm r = .accepted .requestBuffer) :
    r.consistent = true ∧ 0x100 ≤ r.offset ∧ r.offset + r.length ≤ 0x300 := by
  unfold accessForm at h
  split at h
  · cases h
  · next place hplace =>
    split at h
    · cases h
    · split at h <;> cases h
      next hconsistent haccepted =>
      refine ⟨by simpa using hconsistent, ?_, by simpa [acceptedForm] using haccepted⟩
      unfold placeAt at hplace
      split_ifs at hplace <;> cases hplace
      omega

/-- A request-buffer WRITE lies in the buffer, its payload being as long as its length field says (R48, R147). -/
theorem inBuffer_of_headFor {r : Request} (h : s.headFor .requestBufferWrite = some r) :
    r.offset - 0x100 + r.payload.length ≤ Config.bufferBytes := by
  obtain ⟨-, hclass, -⟩ := headFor_some h
  obtain ⟨hwrite, hform⟩ := accessForm_of_requestBufferWrite hclass
  obtain ⟨hconsistent, hlow, hhigh⟩ := requestBuffer_bounds hform
  rw [consistent_write hwrite] at hconsistent
  simp only [Bool.and_eq_true, decide_eq_true_eq] at hconsistent
  obtain ⟨-, hlen⟩ := hconsistent
  show _ ≤ 512
  omega

theorem answerHanded_effect (h : execAnswerHanded s = .next t) : Effect s .answerHanded t := by
  unfold execAnswerHanded at h
  split at h
  case isFalse => cases h; exact .unchanged _
  case isTrue hmay =>
    have place := place_of_mayHand hmay
    split at h
    · cases h; exact .unchanged _
    · next r rest head => cases h; exact .refusalHanded r rest head place
    · next i rest head =>
      split at h
      · next d running => cases h; exact .detachHanded i d _ rest head running place
      · next ended => cases h; exact .staleDetach i rest head ended
    · next slot rest head =>
      split at h
      · next e found =>
        have hslot : e.slot = slot := by simpa using List.find?_some found
        subst hslot
        split at h <;> cases h
        · next o done => exact .entryHanded e o rest head (List.mem_of_find?_eq_some found) done place
        · exact .unchanged _
        · exact .unchanged _
      · next gone => cases h; exact .staleEntry slot rest head (by simpa using gone)

theorem segmentEndReport_effect (h : execSegmentEndReport s = .next t) : Effect s .segmentEndReport t := by
  unfold execSegmentEndReport at h
  split at h
  case h_1 x bus =>
    split at h
    · cases h; exact .unchanged _
    · next report handed =>
      split at h
      · next gone => cases h; exact .reportStale x report bus handed (by simpa using gone)
      · next e found =>
        cases h
        exact .reported x report e bus handed (List.mem_of_find?_eq_some found) (by simpa using List.find?_some found)
  all_goals cases h; exact .unchanged _

theorem byteCycleEnd_effect (h : execByteCycleEnd s = .next t) : Effect s .byteCycleEnd t := by
  unfold execByteCycleEnd at h
  split at h
  case h_1 x bus =>
    split at h
    · next r running =>
      split at h <;> cases h
      · exact .cycleEnded x r _ bus running
      · exact .unchanged _
    · cases h; exact .unchanged _
  all_goals cases h; exact .unchanged _

theorem prdySampledHigh_effect {clock : Nat} {data : Byte} (h : execPrdySampledHigh clock data s = .next t) :
    Effect s (.prdySampledHigh clock data) t := by
  unfold execPrdySampledHigh at h
  split at h
  case h_1 x bus =>
    split at h <;> cases h
    · next r hr => exact .runMoved _ x r bus (by cases hx : x.run <;> simp_all)
    · exact .unchanged _
  all_goals cases h; exact .unchanged _

theorem readyTimeout_effect (h : execReadyTimeout s = .next t) : Effect s .readyTimeout t := by
  unfold execReadyTimeout at h
  split at h
  case h_1 x bus =>
    split at h <;> cases h
    · next r hr => exact .runMoved _ x r bus (by cases hx : x.run <;> simp_all)
    · exact .unchanged _
  all_goals cases h; exact .unchanged _

theorem recoveryTimerExpiry_effect {k : TargetId} (h : execRecoveryTimerExpiry k s = .next t) :
    Effect s (.recoveryTimerExpiry k) t := by
  unfold execRecoveryTimerExpiry at h
  split at h
  · cases h; exact .unchanged _
  · split at h
    · next x bus =>
      split at h <;> cases h
      · next waits => exact .resumed k x bus waits
      · exact .expired k (by simp [bus])
    · next bus => cases h; exact .expiredIdle k
    · next bus => cases h; exact .expired k (by simp [bus])

theorem extreqWithdrawn_effect {samples : ExtreqSamples} (h : execExtreqWithdrawn samples s = .next t) :
    Effect s (.extreqWithdrawn samples) t := by
  unfold execExtreqWithdrawn at h
  split at h
  · split at h <;> cases h
    · next bus => exact .busReturned samples _ bus
    · next bus => exact .extreqGone samples (by simp [bus])
    · next bus => exact .extreqGone samples (by simp [bus])
  · cases h; exact .unchanged _

theorem cycleTimeout_effect {k : TargetId} (h : execCycleTimeout k s = .next t) : Effect s (.cycleTimeout k) t := by
  unfold execCycleTimeout at h
  split at h
  · dsimp only at h
    split at h <;> cases h
    · exact .wentOffline k _
    · exact .timedOut k _
  all_goals cases h; exact .unchanged _

theorem submit_effect (h : execSubmit s = .next t) : Effect s .submit t := by
  unfold execSubmit at h
  split at h
  · cases h; exact .unchanged _
  · next r hr =>
    have place := mgb_place_of_headFor rfl hr
    split at h
    case h_2 i owner =>
      split at h
      · cases h; exact .answered _ _ place
      · dsimp only at h
        split at h <;> cases h
        · exact .answered _ _ place
        · exact .submitted r place i _ owner
    all_goals cases h; exact .answered _ _ place

theorem executionEnd_effect (h : execExecutionEnd s = .next t) : Effect s .executionEnd t := by
  unfold execExecutionEnd at h
  split at h
  · cases h; exact .unchanged _
  · next x executing =>
    split at h
    · split at h <;> cases h
      · next busy => exact .ended _ x executing busy
      · next busy => exact .endedReleased _ x executing busy
      all_goals next box => exact .endedStale x executing (by rw [box]; rfl)
    · cases h; exact .unchanged _

theorem structureCheck_effect (h : execStructureCheck s = .next t) : Effect s .structureCheck t := by
  unfold execStructureCheck at h
  split at h
  · cases h; exact .unchanged _
  · next x runs =>
    split at h
    · split at h
      · cases h; exact .finished _ x x _ _ runs
      · dsimp only at h
        split at h
        · split at h <;> cases h
          · exact .finished _ x _ _ _ runs
          · exact .executing _ x _ runs
        · cases h; exact .executing _ x _ runs
    · cases h; exact .unchanged _

theorem commit_effect (h : execCommit s = .next t) : Effect s .commit t := by
  unfold execCommit at h
  split at h
  · cases h; exact .unchanged _
  · next x runs =>
    split at h
    · split at h <;> cases h
      · next u pass => exact .committed x _ u runs pass
      · exact .finished _ x x _ _ runs
    · cases h; exact .unchanged _

theorem claim_effect (h : execClaim s = .next t) : Effect s .claim t := by
  unfold execClaim at h
  split at h
  · cases h; exact .unchanged _
  · next r hr =>
    have place := mgb_place_of_headFor rfl hr
    split at h
    · cases h; exact .answered _ _ place
    · split at h <;> cases h
      · next free => exact .claimed r _ place free
      · exact .answered _ _ place

theorem release_effect (h : execRelease s = .next t) : Effect s .release t := by
  unfold execRelease at h
  split at h
  · cases h; exact .unchanged _
  · next r hr =>
    have place := mgb_place_of_headFor rfl hr
    split at h
    case h_2 box | h_3 box =>
      split at h <;> cases h
      · exact .released r place (by rw [box]; rfl)
      · exact .answered _ _ place
    all_goals cases h; exact .answered _ _ place

theorem noticeAck_effect (h : execNoticeAck s = .next t) : Effect s .noticeAck t := by
  unfold execNoticeAck at h
  split at h
  · cases h; exact .unchanged _
  · next r hr =>
    have place := mgb_place_of_headFor rfl hr
    split at h <;> cases h
    · next irl hirl =>
      obtain ⟨src, -, ack⟩ := Option.bind_eq_some_iff.mp hirl
      exact .acknowledged r src irl place ack
    · exact .answered _ _ place

theorem requestBufferWrite_effect (h : execRequestBufferWrite s = .next t) : Effect s .requestBufferWrite t := by
  unfold execRequestBufferWrite at h
  split at h
  · cases h; exact .unchanged _
  · next r hr =>
    have place := mgb_place_of_headFor rfl hr
    split at h
    case h_2 =>
      split at h <;> cases h
      · exact .written r place (inBuffer_of_headFor hr)
      · exact .answered _ _ place
    all_goals cases h; exact .answered _ _ place

theorem leaseExpiry_effect (h : execLeaseExpiry s = .next t) : Effect s .leaseExpiry t := by
  unfold execLeaseExpiry at h
  split at h
  · cases h; exact .unchanged _
  · split at h <;> cases h
    · next box => exact .leaseLost _ (by rw [box]; rfl)
    · next box => exact .leaseLost _ (by rw [box]; rfl)
    · exact .unchanged _
    · exact .unchanged _

theorem mgbDetach_effect {i : Initiator} (h : execMgbDetach i s = .next t) : Effect s (.mgbDetach i) t := by
  unfold execMgbDetach at h
  split at h <;> cases h
  · exact .mgbDetached i _ _ (by split <;> simp)
  · exact .unchanged _

theorem trainingComplete_effect (h : execTrainingComplete s = .next t) : Effect s .trainingComplete t := by
  unfold execTrainingComplete at h
  split at h
  · dsimp only at h
    split at h <;> cases h
    · exact .trained
    · exact .trainedBehind
  · cases h; exact .unchanged _

theorem packetArrival_effect {ok : Bool} {bytes : List Byte} (h : execPacketArrival ok bytes s = .next t) :
    Effect s (.packetArrival ok bytes) t := by
  unfold execPacketArrival at h
  split at h
  · next hplace =>
    split at h <;> cases h
    · exact .joined _ _ hplace.2
    · exact .dropped _
  · cases h; exact .unchanged _

theorem irlLinkReset_effect (h : execIrlLinkReset s = .next t) : Effect s .irlLinkReset t := by
  unfold execIrlLinkReset at h
  split at h <;> cases h
  · exact .irlResetUp _
  · exact .irlReset _
  · exact .irlUp _
  · exact .unchanged _

theorem flush_effect (h : execFlush s = .next t) : Effect s .flush t := by
  unfold execFlush at h
  split at h
  · next r hr =>
    split at h <;> cases h
    · exact .refused _ r _ (trk_place_of_headFor rfl hr)
    · next passes => exact .flushed r (headClass_tracker.2.2.2.1 (headFor_some hr).2.1) passes
  · cases h; exact .unchanged _

theorem detach_effect (h : execDetach s = .next t) : Effect s .detach t := by
  unfold execDetach at h
  split at h
  · next r hr =>
    have place := trk_place_of_headFor rfl hr
    split at h <;> cases h
    · exact .refused _ r _ place
    · next passes => exact .detached r (headClass_tracker.2.2.2.2.1 (headFor_some hr).2.1) passes place
  · cases h; exact .unchanged _

theorem read_effect (h : execRead s = .next t) : Effect s .read t := by
  unfold execRead at h
  split at h <;> cases h
  · next r hr =>
    exact admission_effect (trk_place_of_headFor rfl hr) (by rw [(headClass_tracker.1 (headFor_some hr).2.1).1]; rfl)
  · exact .unchanged _

theorem write_effect (h : execWrite s = .next t) : Effect s .write t := by
  unfold execWrite at h
  split at h <;> cases h
  · next r hr =>
    exact admission_effect (trk_place_of_headFor rfl hr) (by rw [(headClass_tracker.2.1 (headFor_some hr).2.1).1]; rfl)
  · exact .unchanged _

theorem posted_effect (h : execPosted s = .next t) : Effect s .posted t := by
  unfold execPosted at h
  split at h <;> cases h
  · next r hr =>
    exact admissionPosted_effect (trk_place_of_headFor rfl hr) (headClass_tracker.2.2.1 (headFor_some hr).2.1).1
  · exact .unchanged _

theorem getStatus_effect (h : execGetStatus s = .next t) : Effect s .getStatus t := by
  unfold execGetStatus at h
  split at h <;> cases h
  · exact .unchanged _
  · next next => exact .counted _ _ (cfx_of_staging next)

theorem endRecord_effect (h : execEndRecord s = .next t) : Effect s .endRecord t := by
  unfold execEndRecord at h
  split at h <;> cases h
  · exact .unchanged _
  · next next => exact .executing _ _ _ (cfx_of_staging next)

theorem offlineAnnouncement_effect {k : TargetId} (h : execOfflineAnnouncement k s = .next t) :
    Effect s (.offlineAnnouncement k) t := by
  unfold execOfflineAnnouncement at h
  split at h <;> cases h
  · exact .unchanged _
  · next a left taken => exact .announced k a left taken

theorem noticeHanding_effect (h : execNoticeHanding s = .next t) : Effect s .noticeHanding t := by
  unfold execNoticeHanding at h
  split at h
  · next hmay =>
    split at h <;> cases h
    · next i src offered => exact .noticed i src offered (place_of_mayHand hmay)
    · exact .unchanged _
  · cases h; exact .unchanged _

theorem mgbAnswerHanded_effect (h : execMgbAnswerHanded s = .next t) : Effect s .mgbAnswerHanded t := by
  unfold execMgbAnswerHanded at h
  split at h
  · next hmay =>
    split at h <;> cases h
    · exact .unchanged _
    · next a rest head => exact .mgbHanded a rest head (place_of_mayHand hmay)
  · cases h; exact .unchanged _

/-- A command has no other outcome than an effect. -/
theorem exec_effect {c : Instr} (h : exec c s = .next t) : Effect s c t := by
  cases c with
  | porstAsserted ns =>
    change execPorstAsserted ns s = _ at h
    unfold execPorstAsserted at h
    split at h <;> cases h
    · exact .porstAsserted ns
    · exact .unchanged _
  | porstReleased =>
    change execPorstReleased s = _ at h
    unfold execPorstReleased at h
    split at h <;> cases h
    · exact .porstReleased
    · exact .unchanged _
  | tableInitializationComplete =>
    change execTableInitializationComplete s = _ at h
    unfold execTableInitializationComplete at h
    split at h <;> cases h
    · exact .initialized
    · exact .unchanged _
    · exact .unchanged _
  | quietTimeEnd =>
    change execQuietTimeEnd s = _ at h
    unfold execQuietTimeEnd at h
    split at h <;> cases h
    · exact .linkMoved _ _ _
    · exact .unchanged _
  | trainingComplete => exact trainingComplete_effect h
  | trainingFailed =>
    change execTrainingFailed s = _ at h
    unfold execTrainingFailed at h
    split at h <;> cases h
    · exact .linkMoved _ _ _
    · exact .unchanged _
  | linkLost =>
    change execLinkLost s = _ at h
    unfold execLinkLost at h
    split at h <;> cases h
    · exact .linkLost
    · exact .unchanged _
  | trkLinkReset =>
    change execTrkLinkReset s = _ at h
    unfold execTrkLinkReset at h
    split at h <;> cases h
    · exact .unchanged _
    · exact .trkReset
  | irlLinkReset => exact irlLinkReset_effect h
  | mgbLinkReset =>
    change execMgbLinkReset s = _ at h
    unfold execMgbLinkReset at h
    split at h <;> cases h
    · exact .unchanged _
    · exact .mgbReset
  | packetArrival ok bytes => exact packetArrival_effect h
  | read => exact read_effect h
  | write => exact write_effect h
  | posted => exact posted_effect h
  | flush => exact flush_effect h
  | detach => exact detach_effect h
  | unknownKind =>
    change execUnknownKind s = _ at h
    unfold execUnknownKind at h
    split at h <;> cases h
    · next r hr => exact .refused _ r _ (trk_place_of_headFor rfl hr)
    · exact .unchanged _
  | claim => exact claim_effect h
  | submit => exact submit_effect h
  | release => exact release_effect h
  | noticeAck => exact noticeAck_effect h
  | requestBufferWrite => exact requestBufferWrite_effect h
  | managementPostedWrite =>
    change execManagementPostedWrite s = _ at h
    unfold execManagementPostedWrite at h
    split at h <;> cases h
    · exact .unchanged _
    · exact .faulted _ _ _
  | managementWrite =>
    change execManagementWrite s = _ at h
    unfold execManagementWrite at h
    split at h <;> cases h
    · exact .unchanged _
    · next r hr => exact .answered _ _ (mgb_place_of_headFor rfl hr)
  | answerHanded => exact answerHanded_effect h
  | mgbAnswerHanded => exact mgbAnswerHanded_effect h
  | noticeHanding => exact noticeHanding_effect h
  | packetTransmissionEnd =>
    change execPacketTransmissionEnd s = _ at h
    unfold execPacketTransmissionEnd at h
    split at h <;> cases h
    · exact .sent
    · exact .unchanged _
  | readyTimeout => exact readyTimeout_effect h
  | byteCycleEnd => exact byteCycleEnd_effect h
  | cycleCompletion k =>
    change execCycleCompletion k s = _ at h
    unfold execCycleCompletion at h
    split at h <;> cases h
    · exact .completed k _
    · exact .unchanged _
    · exact .unchanged _
  | cycleTimeout k => exact cycleTimeout_effect h
  | offlineAnnouncement k => exact offlineAnnouncement_effect h
  | segmentEndReport => exact segmentEndReport_effect h
  | recoveryTimerExpiry k => exact recoveryTimerExpiry_effect h
  | ageTick =>
    change execAgeTick s = _ at h
    unfold execAgeTick at h
    split at h <;> cases h
    · exact .unchanged _
    · exact .aged
  | extreqAsserted samples =>
    change execExtreqAsserted samples s = _ at h
    unfold execExtreqAsserted at h
    split at h <;> cases h
    · exact .extreqTaken samples
    · exact .unchanged _
  | extreqWithdrawn samples => exact extreqWithdrawn_effect h
  | lendLimitReached =>
    change execLendLimitReached s = _ at h
    unfold execLendLimitReached at h
    split at h <;> cases h
    · exact .overrun
    · exact .unchanged _
  | irqAsserted n samples =>
    change execIrqAsserted n samples s = _ at h
    unfold execIrqAsserted at h
    split at h <;> cases h
    · exact .lineAsserted n samples
    · exact .unchanged _
  | irqWithdrawn n samples =>
    change execIrqWithdrawn n samples s = _ at h
    unfold execIrqWithdrawn at h
    split at h <;> cases h
    · exact .lineWithdrawn n samples
    · exact .unchanged _
  | eventSource e =>
    change execEventSource e s = _ at h
    unfold execEventSource at h
    split at h <;> cases h
    · exact .eventTaken e
    · exact .unchanged _
  | flushWithdrawal i =>
    change execFlushWithdrawal i s = _ at h
    unfold execFlushWithdrawal at h
    split at h <;> cases h
    · exact .clearingTaken i _
    · exact .unchanged _
  | irlDetach i =>
    change execIrlDetach i s = _ at h
    unfold execIrlDetach at h
    split at h <;> cases h
    · exact .irlDetached i
    · exact .unchanged _
  | mgbDetach i => exact mgbDetach_effect h
  | leaseExpiry => exact leaseExpiry_effect h
  | structureCheck => exact structureCheck_effect h
  | shadowFormation =>
    change execShadowFormation s = _ at h
    unfold execShadowFormation at h
    split at h
    · cases h; exact .unchanged _
    · next x runs =>
      split at h <;> cases h
      · exact .executing _ x _ runs
      · exact .unchanged _
  | getStatus => exact getStatus_effect h
  | endRecord => exact endRecord_effect h
  | commit => exact commit_effect h
  | executionEnd => exact executionEnd_effect h
  | managementRead =>
    change execManagementRead s = _ at h
    unfold execManagementRead at h
    split at h <;> cases h
    · exact .unchanged _
    · next r hr => exact .answered _ _ (mgb_place_of_headFor rfl hr)
  | prdySampledHigh clock data => exact prdySampledHigh_effect h
  | setWindow => cases h; exact stage_effect _ _ _
  | enableWindow => cases h; exact stage_effect _ _ _
  | disableWindow => cases h; exact stage_effect _ _ _
  | clearWindow => cases h; exact stage_effect _ _ _
  | getWindow => cases h; exact stage_effect _ _ _
  | setTarget => cases h; exact stage_effect _ _ _
  | clearTarget => cases h; exact stage_effect _ _ _
  | reviveTarget => cases h; exact stage_effect _ _ _
  | getTarget => cases h; exact stage_effect _ _ _
  | setRoute => cases h; exact stage_effect _ _ _
  | setThreshold => cases h; exact stage_effect _ _ _
  | setLimits => cases h; exact stage_effect _ _ _
  | quiesce => cases h; exact stage_effect _ _ _
  | resume => cases h; exact stage_effect _ _ _

end

end Sys2Proof.Machine

/-! What the operations on the tracker leave alone: every block but the Window Decoder, the tracker and what the tracker
hands on; and of those two the refusals, the detaches in progress and what the windows hold. -/

namespace Sys2Proof.Machine

/-- No posted-fault record counts beyond 255 (R58). -/
abbrev FaultCountLaw (s : State) : Prop := ∀ i : Initiator, ∀ f ∈ s.trk.faults[i], f.count ≤ 255

/-- A change of the tracker's entries: every block but the Window Decoder and the tracker is as it was (what has been handed
on is not of it), and so are the detaches in progress and the refusals; windows at most lose references. -/
structure TrackerMoves (s t : State) : Prop where
  power : t.power = s.power
  pins : t.pins = s.pins
  hlp : t.hlp = s.hlp
  tgt : t.tgt = s.tgt
  pbe : t.pbe = s.pbe
  irl : t.irl = s.irl
  mgb : t.mgb = s.mgb
  cfx : t.cfx = s.cfx
  detaches : t.trk.detaches = s.trk.detaches
  nextSerial : t.trk.nextSerial = s.trk.nextSerial
  refusals : t.trk.answers.filter Answer.isRefusal = s.trk.answers.filter Answer.isRefusal
  faults : FaultCountLaw s → FaultCountLaw t
  windows : ∀ w : WindowIx, s.wdc[w].Weakens t.wdc[w]

theorem faultCountLaw_set {s t : State} {i : Initiator} {r : Option FaultRecord}
    (hr : FaultCountLaw s → ∀ f ∈ r, f.count ≤ 255) (ht : t.trk.faults = s.trk.faults.set i r) (hs : FaultCountLaw s) :
    FaultCountLaw t := by
  intro j f hf
  rw [ht, table_set_get] at hf
  split at hf
  · exact hr hs f hf
  · exact hs j f hf

theorem takeFault_count_le {r : Option FaultRecord} (h : ∀ f ∈ r, f.count ≤ 255) (st : Status) (a : UpAddr) (n : Nat) :
    (takeFault r st a n).count ≤ 255 := by
  cases r with
  | none => simp [takeFault]
  | some f =>
    have := h f rfl
    simp only [takeFault, saturate255]
    split <;> omega

namespace TrackerMoves

variable {s t u : State}

theorem of_trk {wdc : Vector Window 32} {trk : Tracker} {handed : Handed} (detaches : trk.detaches = s.trk.detaches)
    (serial : trk.nextSerial = s.trk.nextSerial)
    (refusals : trk.answers.filter Answer.isRefusal = s.trk.answers.filter Answer.isRefusal)
    (faults : FaultCountLaw s → FaultCountLaw { s with trk := trk }) (windows : ∀ w : WindowIx, s.wdc[w].Weakens wdc[w]) :
    TrackerMoves s { s with wdc := wdc, trk := trk, handed := handed } :=
  ⟨rfl, rfl, rfl, rfl, rfl, rfl, rfl, rfl, detaches, serial, refusals, faults, windows⟩

theorem of_entries (es : List Entry) : TrackerMoves s { s with trk := { s.trk with entries := es } } :=
  of_trk rfl rfl rfl id fun _ => Window.Weakens.refl _

theorem refl (s : State) : TrackerMoves s s := of_entries s.trk.entries

theorem trans (h : TrackerMoves s t) (h2 : TrackerMoves t u) : TrackerMoves s u :=
  ⟨h2.power.trans h.power, h2.pins.trans h.pins, h2.hlp.trans h.hlp, h2.tgt.trans h.tgt, h2.pbe.trans h.pbe,
    h2.irl.trans h.irl, h2.mgb.trans h.mgb, h2.cfx.trans h.cfx, h2.detaches.trans h.detaches,
    h2.nextSerial.trans h.nextSerial, h2.refusals.trans h.refusals, h2.faults ∘ h.faults,
    fun w => (h.windows w).trans (h2.windows w)⟩

theorem foldl {α : Type} {f : State → α → State} (hf : ∀ s a, TrackerMoves s (f s a)) :
    ∀ (l : List α) (s : State), TrackerMoves s (l.foldl f s)
  | [], s => refl s
  | a :: l, s => (hf s a).trans (foldl hf l (f s a))

theorem depart (s : State) (e : Entry) : TrackerMoves s (s.depart e) :=
  of_trk rfl rfl rfl id (releaseWindow_weakens s.wdc e)

theorem recordFault (s : State) (i : Initiator) (st : Status) (a : UpAddr) (n : Nat) :
    TrackerMoves s (s.recordFault i st a n) :=
  of_trk rfl rfl rfl
    (faultCountLaw_set (fun hs f hf => by cases hf; exact takeFault_count_le (fun g hg => hs i g hg) st a n) rfl)
    fun _ => Window.Weakens.refl _

theorem completeFlush (s : State) (e : Entry) : TrackerMoves s (s.completeFlush e) :=
  of_trk rfl rfl rfl (faultCountLaw_set (fun _ f hf => by cases hf) rfl) fun _ => Window.Weakens.refl _

theorem judgeFlushes (s : State) (i : Initiator) : TrackerMoves s (s.judgeFlushes i) := foldl completeFlush _ s

theorem finishPosted (s : State) (e : Entry) (x : Transfer) (o : EntryOutcome) : TrackerMoves s (s.finishPosted e x o) := by
  cases o with
  | ok => exact (depart s e).trans (judgeFlushes _ _)
  | timeout | offline => exact (recordFault s _ _ _ _).trans ((depart _ e).trans (judgeFlushes _ _))

theorem failOffline (s : State) (e : Entry) : TrackerMoves s (s.failOffline e) := by
  unfold State.failOffline
  split
  · exact refl s
  · split
    · exact finishPosted s e _ .offline
    · exact of_entries _
    · exact of_entries _

theorem removeAnswers (s : State) {q : Answer → Bool} (hq : ∀ a, a.isRefusal = true → q a = true) :
    TrackerMoves s { s with trk := { s.trk with answers := s.trk.answers.filter q } } := by
  refine of_trk rfl rfl ?_ id fun _ => Window.Weakens.refl _
  rw [List.filter_filter]
  refine List.filter_congr fun a _ => ?_
  have := hq a
  cases h : a.isRefusal <;> simp_all

theorem dispose (s : State) (p : Entry → Bool) : TrackerMoves s (s.dispose p) := by
  refine (of_entries (s.trk.entries.map fun e => if p e && e.isInSegment then { e with state := .inSegment true } else e)).trans
    ((foldl depart ((s.trk.entries.map fun e =>
      if p e && e.isInSegment then { e with state := .inSegment true } else e).filter fun e => p e && !e.isInSegment) _).trans
      (removeAnswers _ fun a ha => ?_))
  cases a <;> simp_all [Answer.isRefusal]

theorem takeReport (s : State) (e : Entry) (x : Transfer) (r : SegmentReport) : TrackerMoves s (s.takeReport e x r) := by
  unfold State.takeReport
  dsimp only
  split
  · exact finishPosted s _ _ _
  · exact of_entries _

theorem removeDropped (s : State) (e : Entry) : TrackerMoves s (s.removeDropped e) := by
  unfold State.removeDropped
  split
  · exact (depart s e).trans (judgeFlushes _ _)
  · exact depart s e

theorem endSegmentOf (s : State) (r : SegmentReport) (e : Entry) : TrackerMoves s (s.endSegmentOf r e) := by
  unfold State.endSegmentOf
  split
  · exact removeDropped s e
  · exact takeReport s e _ r
  all_goals exact refl s

theorem filter_isRefusal_map {α : Type} (f : α → Answer) (l : List α) (hf : ∀ a, (f a).isRefusal = false) :
    (l.map f).filter Answer.isRefusal = [] :=
  List.filter_eq_nil_iff.mpr fun a ha => by
    obtain ⟨x, -, rfl⟩ := List.mem_map.mp ha
    simp [hf x]

theorem joinReady (s : State) : TrackerMoves s s.joinReady := by
  rw [joinReady_spec]
  refine of_trk rfl rfl ?_ id fun _ => Window.Weakens.refl _
  rw [List.filter_append, List.filter_append, filter_isRefusal_map (fun e : Entry => Answer.entry e.slot) _ fun _ => rfl,
    filter_isRefusal_map Answer.detached _ fun _ => rfl, List.append_nil, List.append_nil]

end TrackerMoves

/-- The state in which the entries of a detaching initiator are disposed of (R62). -/
def State.detachBegun (s : State) (i : Initiator) (tag : Tag) : State :=
  { s with
    trk :=
      { s.trk with
        detaches := s.trk.detaches.set i (some ⟨tag, (s.trk.entriesOf i).length⟩)
        faults := s.trk.faults.set i none }
    handed :=
      { s.handed with irlDetaches := s.handed.irlDetaches ++ [i], mgbDetaches := s.handed.mgbDetaches ++ [i] } }

theorem beginDetach_eq (s : State) (i : Initiator) (tag : Tag) :
    s.beginDetach i tag = (s.detachBegun i tag).dispose fun e => decide (e.initiator = i) := rfl

theorem TrackerMoves.beginDetach (s : State) (i : Initiator) (tag : Tag) :
    TrackerMoves (s.detachBegun i tag) (s.beginDetach i tag) := TrackerMoves.dispose _ _

section
variable (s : State)

@[simp] theorem State.judgeFlushes_hlp (i : Initiator) : (s.judgeFlushes i).hlp = s.hlp := (TrackerMoves.judgeFlushes s i).hlp
@[simp] theorem State.judgeFlushes_tgt (i : Initiator) : (s.judgeFlushes i).tgt = s.tgt := (TrackerMoves.judgeFlushes s i).tgt
@[simp] theorem State.judgeFlushes_pbe (i : Initiator) : (s.judgeFlushes i).pbe = s.pbe := (TrackerMoves.judgeFlushes s i).pbe
@[simp] theorem State.judgeFlushes_irl (i : Initiator) : (s.judgeFlushes i).irl = s.irl := (TrackerMoves.judgeFlushes s i).irl
@[simp] theorem State.judgeFlushes_mgb (i : Initiator) : (s.judgeFlushes i).mgb = s.mgb := (TrackerMoves.judgeFlushes s i).mgb
@[simp] theorem State.judgeFlushes_cfx (i : Initiator) : (s.judgeFlushes i).cfx = s.cfx := (TrackerMoves.judgeFlushes s i).cfx

@[simp] theorem State.dispose_hlp (p : Entry → Bool) : (s.dispose p).hlp = s.hlp := (TrackerMoves.dispose s p).hlp
@[simp] theorem State.dispose_tgt (p : Entry → Bool) : (s.dispose p).tgt = s.tgt := (TrackerMoves.dispose s p).tgt
@[simp] theorem State.dispose_pbe (p : Entry → Bool) : (s.dispose p).pbe = s.pbe := (TrackerMoves.dispose s p).pbe
@[simp] theorem State.dispose_irl (p : Entry → Bool) : (s.dispose p).irl = s.irl := (TrackerMoves.dispose s p).irl
@[simp] theorem State.dispose_mgb (p : Entry → Bool) : (s.dispose p).mgb = s.mgb := (TrackerMoves.dispose s p).mgb
@[simp] theorem State.dispose_cfx (p : Entry → Bool) : (s.dispose p).cfx = s.cfx := (TrackerMoves.dispose s p).cfx

@[simp] theorem State.beginDetach_hlp (i : Initiator) (tag : Tag) : (s.beginDetach i tag).hlp = s.hlp :=
  (TrackerMoves.beginDetach s i tag).hlp
@[simp] theorem State.beginDetach_tgt (i : Initiator) (tag : Tag) : (s.beginDetach i tag).tgt = s.tgt :=
  (TrackerMoves.beginDetach s i tag).tgt
@[simp] theorem State.beginDetach_pbe (i : Initiator) (tag : Tag) : (s.beginDetach i tag).pbe = s.pbe :=
  (TrackerMoves.beginDetach s i tag).pbe
@[simp] theorem State.beginDetach_irl (i : Initiator) (tag : Tag) : (s.beginDetach i tag).irl = s.irl :=
  (TrackerMoves.beginDetach s i tag).irl
@[simp] theorem State.beginDetach_mgb (i : Initiator) (tag : Tag) : (s.beginDetach i tag).mgb = s.mgb :=
  (TrackerMoves.beginDetach s i tag).mgb
@[simp] theorem State.beginDetach_cfx (i : Initiator) (tag : Tag) : (s.beginDetach i tag).cfx = s.cfx :=
  (TrackerMoves.beginDetach s i tag).cfx

@[simp] theorem failOffline_fold_hlp (l : List Entry) : (l.foldl State.failOffline s).hlp = s.hlp :=
  (TrackerMoves.foldl TrackerMoves.failOffline l s).hlp
@[simp] theorem failOffline_fold_tgt (l : List Entry) : (l.foldl State.failOffline s).tgt = s.tgt :=
  (TrackerMoves.foldl TrackerMoves.failOffline l s).tgt
@[simp] theorem failOffline_fold_pbe (l : List Entry) : (l.foldl State.failOffline s).pbe = s.pbe :=
  (TrackerMoves.foldl TrackerMoves.failOffline l s).pbe
@[simp] theorem failOffline_fold_irl (l : List Entry) : (l.foldl State.failOffline s).irl = s.irl :=
  (TrackerMoves.foldl TrackerMoves.failOffline l s).irl
@[simp] theorem failOffline_fold_mgb (l : List Entry) : (l.foldl State.failOffline s).mgb = s.mgb :=
  (TrackerMoves.foldl TrackerMoves.failOffline l s).mgb
@[simp] theorem failOffline_fold_cfx (l : List Entry) : (l.foldl State.failOffline s).cfx = s.cfx :=
  (TrackerMoves.foldl TrackerMoves.failOffline l s).cfx

@[simp] theorem State.endSegmentOf_hlp (r : SegmentReport) (e : Entry) : (s.endSegmentOf r e).hlp = s.hlp :=
  (TrackerMoves.endSegmentOf s r e).hlp
@[simp] theorem State.endSegmentOf_tgt (r : SegmentReport) (e : Entry) : (s.endSegmentOf r e).tgt = s.tgt :=
  (TrackerMoves.endSegmentOf s r e).tgt
@[simp] theorem State.endSegmentOf_pbe (r : SegmentReport) (e : Entry) : (s.endSegmentOf r e).pbe = s.pbe :=
  (TrackerMoves.endSegmentOf s r e).pbe
@[simp] theorem State.endSegmentOf_irl (r : SegmentReport) (e : Entry) : (s.endSegmentOf r e).irl = s.irl :=
  (TrackerMoves.endSegmentOf s r e).irl
@[simp] theorem State.endSegmentOf_mgb (r : SegmentReport) (e : Entry) : (s.endSegmentOf r e).mgb = s.mgb :=
  (TrackerMoves.endSegmentOf s r e).mgb
@[simp] theorem State.endSegmentOf_cfx (r : SegmentReport) (e : Entry) : (s.endSegmentOf r e).cfx = s.cfx :=
  (TrackerMoves.endSegmentOf s r e).cfx

@[simp] theorem State.takeEvent_hlp (e : NoticeEvent) : (s.takeEvent e).hlp = s.hlp := rfl
@[simp] theorem State.takeEvent_wdc (e : NoticeEvent) : (s.takeEvent e).wdc = s.wdc := rfl
@[simp] theorem State.takeEvent_tgt (e : NoticeEvent) : (s.takeEvent e).tgt = s.tgt := rfl
@[simp] theorem State.takeEvent_trk (e : NoticeEvent) : (s.takeEvent e).trk = s.trk := rfl
@[simp] theorem State.takeEvent_pbe (e : NoticeEvent) : (s.takeEvent e).pbe = s.pbe := rfl
@[simp] theorem State.takeEvent_mgb (e : NoticeEvent) : (s.takeEvent e).mgb = s.mgb := rfl
@[simp] theorem State.takeEvent_cfx (e : NoticeEvent) : (s.takeEvent e).cfx = s.cfx := rfl

/-! ## What an evaluation of the arbiter leaves of the PBE -/

@[simp] theorem arbitrate_pbe_recovery : s.arbitrate.pbe.recovery = s.pbe.recovery := by
  obtain h | ⟨-, -, -, h⟩ | ⟨e, x, -, -, -, -, -, -, -, h⟩ := arbitrate_cases s <;> rw [h]

@[simp] theorem arbitrate_pbe_segmentLimit : s.arbitrate.pbe.segmentLimit = s.pbe.segmentLimit := by
  obtain h | ⟨-, -, -, h⟩ | ⟨e, x, -, -, -, -, -, -, -, h⟩ := arbitrate_cases s <;> rw [h]

@[simp] theorem arbitrate_pbe_lendLimit : s.arbitrate.pbe.lendLimit = s.pbe.lendLimit := by
  obtain h | ⟨-, -, -, h⟩ | ⟨e, x, -, -, -, -, -, -, -, h⟩ := arbitrate_cases s <;> rw [h]

theorem arbitrate_pbe_lendTimer : s.arbitrate.pbe.lendTimer = s.pbe.lendTimer ∨ s.arbitrate.pbe.lendTimer = some 0 := by
  obtain h | ⟨-, -, -, h⟩ | ⟨e, x, -, -, -, -, -, -, -, h⟩ := arbitrate_cases s <;> rw [h]
  · exact .inl rfl
  · exact .inr rfl
  · exact .inl rfl

@[simp] theorem admitTransfer_hlp (r : Request) (k : TransferKind) (i : WindowIx) (p : Profile) :
    (s.admitTransfer r k i p).hlp = s.hlp := by simp [State.admitTransfer]
@[simp] theorem admitTransfer_tgt (r : Request) (k : TransferKind) (i : WindowIx) (p : Profile) :
    (s.admitTransfer r k i p).tgt = s.tgt := by simp [State.admitTransfer]
@[simp] theorem admitTransfer_irl (r : Request) (k : TransferKind) (i : WindowIx) (p : Profile) :
    (s.admitTransfer r k i p).irl = s.irl := by simp [State.admitTransfer]
@[simp] theorem admitTransfer_mgb (r : Request) (k : TransferKind) (i : WindowIx) (p : Profile) :
    (s.admitTransfer r k i p).mgb = s.mgb := by simp [State.admitTransfer]
@[simp] theorem admitTransfer_cfx (r : Request) (k : TransferKind) (i : WindowIx) (p : Profile) :
    (s.admitTransfer r k i p).cfx = s.cfx := by simp [State.admitTransfer]

end

/-! ## One step -/

/-- A step is one bus clock, or an effect of the command at the front of the queue. -/
theorem step_cases {s t : State} (h : step s = .next t) :
    t = s.clockTick ∨ ∃ c rest, Effect { s with pending := rest } c t := by
  unfold step at h
  split at h
  · cases h; exact .inl rfl
  · exact .inr ⟨_, _, exec_effect h⟩

theorem clockTick_cases (s : State) : s.clockTick = s ∨ s.clockTick = { s.counted with pending := s.dueCommands } := by
  unfold State.clockTick
  split
  · exact .inl rfl
  · exact .inr rfl
  · exact .inr rfl

end Sys2Proof.Machine

/-! The laws of the mailbox, the queues, the buffers, the notices and the ranges: each holds of what an effect leaves. -/

namespace Sys2Proof.Machine

/-! ## The mailbox (R151, R157, R161) -/

/-- The mailbox law, and no passage between owners. -/
abbrev MailboxKept (s t : State) : Prop :=
  MailboxLaw t ∧ ∀ i j : Initiator, s.mgb.mailbox.owner = some i → t.mgb.mailbox.owner = some j → i = j

theorem MailboxKept.of_eq {s t : State} (hs : MailboxLaw s) (hm : t.mgb.mailbox = s.mgb.mailbox)
    (hl : t.mgb.leaseTimer.isSome = s.mgb.leaseTimer.isSome) (hc : t.cfx.isSome = s.cfx.isSome) : MailboxKept s t := by
  refine ⟨⟨?_, ?_⟩, fun i j hi hj => ?_⟩
  · rw [hc, hm]; exact hs.1
  · rw [hl, hm]; exact hs.2
  · rw [hm, hi] at hj; exact Option.some.inj hj

theorem mailboxKept_of_free {s t : State} (hm : t.mgb.mailbox = .free) (hl : t.mgb.leaseTimer = none) (hc : t.cfx = none) :
    MailboxKept s t := by
  refine ⟨⟨by rw [hc, hm]; rfl, by rw [hl, hm]; rfl⟩, fun i j _ hj => ?_⟩
  rw [hm] at hj; cases hj

theorem idle_of_leased {s : State} (hs : MailboxLaw s) (h : s.mgb.mailbox.leased = true) : s.cfx = none := by
  obtain ⟨hc, -⟩ := hs
  cases hm : s.mgb.mailbox <;> rw [hm] at hc h <;> simp_all [Mailbox.leased, Mailbox.isBusy]

theorem released_kept {s t : State} (hs : MailboxLaw s) (hm : t.mgb = s.mgb.released) (hc : t.cfx = s.cfx) :
    MailboxKept s t := by
  obtain ⟨hcfx, hlease⟩ := hs
  cases box : s.mgb.mailbox with
  | free =>
    exact .of_eq ⟨hcfx, hlease⟩ (by rw [hm, Management.released, box]; exact box) (by rw [hm, Management.released, box])
      (by rw [hc])
  | claimed i | result i =>
    have idle : s.cfx = none := idle_of_leased ⟨hcfx, hlease⟩ (by rw [box]; rfl)
    exact mailboxKept_of_free (by rw [hm, Management.released, box]; rfl) (by rw [hm, Management.released, box]; rfl)
      (hc.trans idle)
  | busy i mark =>
    rw [box] at hcfx hlease
    have hbox : t.mgb = { s.mgb with mailbox := .busy i true } := by rw [hm, Management.released, box]
    refine ⟨⟨?_, ?_⟩, fun j k hj hk => ?_⟩
    · rw [hc, hcfx, hbox]; rfl
    · rw [hbox]; exact hlease
    · rw [box] at hj; rw [hbox] at hk
      exact Option.some.inj (hj.symm.trans hk)

theorem Effect.keeps_mailbox {s t : State} {c : Instr} (h : Effect s c t) (hs : MailboxLaw s) : MailboxKept s t := by
  cases h with
  | porstAsserted | porstReleased => exact mailboxKept_of_free rfl rfl rfl
  | claimed r a place free =>
    have idle : s.cfx = none := by simpa [free, Mailbox.isBusy] using hs.1
    exact ⟨⟨by simp [idle, Mailbox.isBusy], rfl⟩, fun i j hi _ => by rw [free] at hi; cases hi⟩
  | submitted r place i n owner =>
    exact ⟨⟨rfl, rfl⟩, fun j k hj hk => by rw [owner] at hj; exact Option.some.inj (hj.symm.trans hk)⟩
  | released r place leased | leaseLost i leased =>
    have idle := idle_of_leased hs leased
    exact mailboxKept_of_free rfl rfl idle
  | mgbReset => exact released_kept hs rfl rfl
  | mgbDetached i m left box =>
    obtain rfl | rfl := box
    · exact released_kept hs rfl rfl
    · exact .of_eq hs rfl rfl rfl
  | ended i x executing busy =>
    exact ⟨⟨rfl, rfl⟩, fun j k hj hk => by rw [busy] at hj; exact Option.some.inj (hj.symm.trans hk)⟩
  | endedReleased i x executing busy =>
    have stopped : s.mgb.leaseTimer = none := by simpa [busy, Mailbox.leased] using hs.2
    exact mailboxKept_of_free rfl stopped rfl
  | endedStale x executing notBusy =>
    have := hs.1
    rw [executing, notBusy] at this; cases this
  | executing c x y runs => exact .of_eq hs rfl rfl (by rw [runs]; rfl)
  | counted x y runs => exact .of_eq hs rfl rfl (by rw [runs]; rfl)
  | finished c x y rs o runs => exact .of_eq hs rfl rfl (by rw [runs]; rfl)
  | committed x records u runs pass =>
    have hu := commitPass_frame _ pass
    rw [takeDueEvents_eq] at hu
    refine .of_eq hs ?_ ?_ ?_
    · simp only [arbitrate_mgb, State.settlePlace_mgb, State.finishChain_mgb_mailbox, State.countCommit_mgb]; rw [hu]
    · simp only [arbitrate_mgb, State.settlePlace_mgb, State.finishChain_mgb_leaseTimer, State.countCommit_mgb]; rw [hu]
    · simp only [arbitrate_cfx, State.settlePlace_cfx, State.finishChain_cfx, runs, Option.isSome_some]
  | _ => exact .of_eq hs (by simp) (by simp) (by simp)

/-- Settles O56: no effect breaks the mailbox law or passes the mailbox on, and a bus clock counts the lease only. -/
theorem stepKeepsMailboxLaw : Obligations.StepKeepsMailboxLaw := by
  intro s t hs h
  obtain rfl | ⟨c, rest, heffect⟩ := step_cases h
  · obtain htick | htick := clockTick_cases s <;> rw [htick]
    · exact MailboxKept.of_eq hs rfl rfl rfl
    · exact MailboxKept.of_eq hs rfl (Option.isSome_map ..) rfl
  · exact heffect.keeps_mailbox hs

end Sys2Proof.Machine

/-! The passages of the bus state (R91), and what changes the live configuration (R175). -/

namespace Sys2Proof.Machine

/-! ## The passages of the bus state -/

/-- A lending and a running segment stay, the segment with its entry, its target and its cycle list. -/
abbrev BusStays (s t : State) : Prop :=
  (s.pbe.bus = .lent → t.pbe.bus = .lent) ∧
    ∀ d, s.pbe.bus = .segment d →
      ∃ d', t.pbe.bus = .segment d' ∧ d'.slot = d.slot ∧ d'.cycles = d.cycles ∧ d'.target = d.target

theorem BusStays.of_eq {s t : State} (h : t.pbe.bus = s.pbe.bus) : BusStays s t :=
  ⟨fun hs => h.trans hs, fun d hd => ⟨d, h.trans hd, rfl, rfl, rfl⟩⟩

theorem arbitrate_of_not_idle {s : State} (h : s.pbe.bus ≠ .idle) : s.arbitrate = s := by
  simp [State.arbitrate, h]

theorem BusStays.of_arbitrate {s u : State} (h : u.pbe.bus = s.pbe.bus) : BusStays s u.arbitrate := by
  by_cases hi : s.pbe.bus = .idle
  · exact ⟨fun hs => absurd (hi.symm.trans hs) (by decide), fun d hd => absurd (hi.symm.trans hd) nofun⟩
  · rw [arbitrate_of_not_idle (by rwa [h])]
    exact .of_eq h

theorem BusStays.of_segment {s t : State} {x y : SegmentContext} (hs : s.pbe.bus = .segment x)
    (ht : t.pbe.bus = .segment y) (slot : y.slot = x.slot) (cycles : y.cycles = x.cycles) (target : y.target = x.target) :
    BusStays s t := by
  refine ⟨fun h => absurd (hs.symm.trans h) nofun, fun d hd => ⟨y, ht, ?_⟩⟩
  rw [hs] at hd; cases hd
  exact ⟨slot, cycles, target⟩

theorem endCycle_proceed_kept (x : SegmentContext) (r : CycleRun) (v : CycleResult) (t : TargetRecord) (d : List Byte) :
    ((x.endCycle r v).proceed t d).slot = x.slot ∧ ((x.endCycle r v).proceed t d).cycles = x.cycles ∧
      ((x.endCycle r v).proceed t d).target = x.target := by
  obtain ⟨slot, target, cycles, -⟩ := endCycle_kept x r v
  obtain ⟨slot2, target2, cycles2, -⟩ := proceed_kept (x.endCycle r v) t d
  exact ⟨slot2.trans slot, cycles2.trans cycles, target2.trans target⟩

theorem committed_pbe {s u : State} {records : List (RecordRef × List Byte)}
    (h : s.takeDueEvents.commitPass records = .ok u) : u.pbe.bus = s.pbe.bus ∧ u.pbe.lendTimer = s.pbe.lendTimer := by
  have hu := commitPass_frame _ h
  rw [takeDueEvents_eq] at hu
  exact ⟨by rw [hu], by rw [hu]⟩

/-- The passages that R91 has: none out of LENT but by EXTREQ_WITHDRAWN, none out of SEGMENT but by SEGMENT_END_REPORT. -/
abbrev BusPasses (s : State) (c : Instr) (t : State) : Prop :=
  (s.pbe.bus = .lent → t.pbe.bus = .lent ∨ ∃ n, c = .extreqWithdrawn n) ∧
    ∀ d, s.pbe.bus = .segment d →
      (∃ d', t.pbe.bus = .segment d' ∧ d'.slot = d.slot ∧ d'.cycles = d.cycles ∧ d'.target = d.target) ∨
        c = .segmentEndReport

theorem BusStays.passes {s t : State} (h : BusStays s t) (c : Instr) : BusPasses s c t :=
  ⟨fun hs => .inl (h.1 hs), fun d hd => .inl (h.2 d hd)⟩

theorem Effect.bus_passes {s t : State} {c : Instr} (h : Effect s c t) (hp : ∀ ns, c ≠ .porstAsserted ns)
    (hr : c ≠ .porstReleased) : BusPasses s c t := by
  cases h with
  | porstAsserted ns => exact absurd rfl (hp ns)
  | porstReleased => exact absurd rfl hr
  | busReturned n again lent => exact ⟨fun _ => .inr ⟨n, rfl⟩, fun d hd => absurd (lent.symm.trans hd) nofun⟩
  | reported x report e bus | reportStale x report bus =>
    exact ⟨fun hs => absurd (bus.symm.trans hs) nofun, fun _ _ => .inr rfl⟩
  | runMoved c x r bus running => exact (BusStays.of_segment (y := x.withRun (some r)) bus rfl rfl rfl rfl).passes _
  | cycleEnded x r result bus running =>
    obtain ⟨slot, cycles, target⟩ := endCycle_proceed_kept x r result s.tgt[x.target] (s.trk.dataAt x.slot)
    exact (BusStays.of_segment bus rfl slot cycles target).passes _
  | resumed t x bus waits =>
    exact (BusStays.of_segment bus rfl (beginCycle_slot ..) (beginCycle_cycles ..) (beginCycle_target ..)).passes _
  | committed x records u runs pass => exact (BusStays.of_arbitrate (by simp [(committed_pbe pass).1])).passes _
  | initialized | admitted | detached | entryHanded | trkReset | announced | expiredIdle | extreqTaken | completed
  | timedOut | wentOffline => exact (BusStays.of_arbitrate (by simp)).passes _
  | _ => exact (BusStays.of_eq (by simp)).passes _

/-- Settles O29: of the commands that reach the bus state, EXTREQ_WITHDRAWN alone leaves LENT and SEGMENT_END_REPORT alone
leaves SEGMENT; the context keeps its entry and cycles in every other. -/
theorem busStatePassages : Obligations.BusStatePassages := fun _ _ _ h hp hr => (exec_effect h).bus_passes hp hr

/-! ## Routes and thresholds -/

theorem acknowledge_frame {r q : Relay} {pins : Pins} {i : Initiator} {src : Source}
    (h : r.acknowledge pins i src = some q) : r.pair src i = .notified ∧ q = r.setPair src i (r.idleOrPending pins src i) := by
  unfold Relay.acknowledge at h
  split at h <;> cases h
  exact ⟨‹_›, rfl⟩

theorem lineAsserted_frame (r : Relay) (src : Source) : r.lineAsserted src = { r with pairs := (r.lineAsserted src).pairs } := by
  unfold Relay.lineAsserted
  dsimp only
  split <;> rfl

theorem lineWithdrawn_frame (r : Relay) (src : Source) :
    r.lineWithdrawn src = { r with pairs := (r.lineWithdrawn src).pairs } := by
  unfold Relay.lineWithdrawn
  dsimp only
  split <;> rfl

/-- The routes and the thresholds are as they were (R175). -/
abbrev RoutesKept (s t : State) : Prop := t.irl.routes = s.irl.routes ∧ t.irl.thresholds = s.irl.thresholds

theorem RoutesKept.of_pairs {s t : State} {pairs : Vector (Vector PairState 4) 12} (h : t.irl = { s.irl with pairs := pairs }) :
    RoutesKept s t := ⟨by rw [h], by rw [h]⟩

theorem Effect.keeps_routes {s t : State} {c : Instr} (h : Effect s c t) (hp : ∀ ns, c ≠ .porstAsserted ns)
    (hr : c ≠ .porstReleased) (hc : c ≠ .commit) : RoutesKept s t := by
  cases h with
  | porstAsserted ns => exact absurd rfl (hp ns)
  | porstReleased => exact absurd rfl hr
  | committed => exact absurd rfl hc
  | lineAsserted n => exact .of_pairs (lineAsserted_frame s.irl _)
  | lineWithdrawn n => exact .of_pairs (lineWithdrawn_frame s.irl _)
  | eventTaken e => exact .of_pairs (Relay.takeEvent_frame s.irl e)
  | clearingTaken i => exact .of_pairs (Relay.withdrawFault_frame s.irl i)
  | acknowledged r src irl place ack =>
    obtain ⟨-, rfl⟩ := acknowledge_frame ack
    exact .of_pairs rfl
  | trained | noticed | irlDetached | irlResetUp | irlReset | irlUp => exact ⟨rfl, rfl⟩
  | _ => exact ⟨by simp, by simp⟩

/-! ## The limits, the commit count and CONFIG_LOADED -/

/-- The four limits, the commit count and CONFIG_LOADED are as they were (R150, R175). -/
abbrev LimitsKept (s t : State) : Prop :=
  (t.pbe.segmentLimit = s.pbe.segmentLimit ∧ t.pbe.lendLimit = s.pbe.lendLimit) ∧
    t.mgb.lease = s.mgb.lease ∧ t.mgb.claimMask = s.mgb.claimMask ∧ t.mgb.commitCount = s.mgb.commitCount ∧
      t.mgb.configLoaded = s.mgb.configLoaded

theorem released_limits (m : Management) :
    m.released.lease = m.lease ∧ m.released.claimMask = m.claimMask ∧ m.released.commitCount = m.commitCount ∧
      m.released.configLoaded = m.configLoaded := by
  unfold Management.released
  split <;> exact ⟨rfl, rfl, rfl, rfl⟩

/-- A COMMIT and power-on reset apart, they are kept. -/
theorem Effect.limits_cases {s t : State} {c : Instr} (h : Effect s c t) :
    (∃ boot, t = .powerOn boot s.pins s.pending ∧ ((∃ ns, c = .porstAsserted ns) ∨ c = .porstReleased)) ∨
      (∃ x records u, s.takeDueEvents.commitPass records = .ok u ∧ c = .commit ∧
        t = (u.countCommit.finishChain x x.results .committed).settlePlace.arbitrate) ∨
      LimitsKept s t := by
  cases h with
  | porstAsserted ns => exact .inl ⟨_, rfl, .inl ⟨ns, rfl⟩⟩
  | porstReleased => exact .inl ⟨_, rfl, .inr rfl⟩
  | committed x records u runs pass => exact .inr (.inl ⟨x, records, u, pass, rfl, rfl⟩)
  | mgbReset => exact .inr (.inr ⟨⟨rfl, rfl⟩, released_limits s.mgb⟩)
  | mgbDetached i m left box =>
    obtain rfl | rfl := box
    · exact .inr (.inr ⟨⟨rfl, rfl⟩, released_limits s.mgb⟩)
    · exact .inr (.inr ⟨⟨rfl, rfl⟩, rfl, rfl, rfl, rfl⟩)
  | claimed | submitted | released | written | leaseLost | ended | endedReleased | cycleEnded | runMoved =>
    exact .inr (.inr ⟨⟨rfl, rfl⟩, rfl, rfl, rfl, rfl⟩)
  | admitted => exact .inr (.inr (by simp [LimitsKept, State.admitTransfer]))
  | _ => exact .inr (.inr (by simp [LimitsKept]))

theorem Effect.keeps_limits {s t : State} {c : Instr} (h : Effect s c t) (hp : ∀ ns, c ≠ .porstAsserted ns)
    (hr : c ≠ .porstReleased) (hc : c ≠ .commit) : LimitsKept s t := by
  obtain ⟨-, -, ⟨ns, rfl⟩ | rfl⟩ | ⟨-, -, -, -, rfl, -⟩ | kept := h.limits_cases
  · exact absurd rfl (hp ns)
  · exact absurd rfl hr
  · exact absurd rfl hc
  · exact kept

/-! ## The target records -/

/-- The timing parameters of a target record and whether it is ABSENT are as they were (R34, R35). -/
abbrev TimingKept (r q : TargetRecord) : Prop :=
  q.recovery = r.recovery ∧ q.readyTimeout = r.readyTimeout ∧ q.strobeWidth = r.strobeWidth ∧
    q.threshold = r.threshold ∧ (q.state = .absent ↔ r.state = .absent)

theorem TimingKept.refl (r : TargetRecord) : TimingKept r r := ⟨rfl, rfl, rfl, rfl, Iff.rfl⟩

theorem TimingKept.completed (r : TargetRecord) : TimingKept r r.completed := by
  unfold TargetRecord.completed
  split
  · exact refl r
  all_goals next hstate => exact ⟨rfl, rfl, rfl, rfl, by simp [hstate]⟩

theorem TimingKept.timedOut (r : TargetRecord) : TimingKept r r.timedOut := by
  unfold TargetRecord.timedOut
  split
  · exact refl r
  · next present =>
    refine ⟨rfl, rfl, rfl, rfl, ?_⟩
    simp only [present, iff_false]
    unfold TargetRecord.stateAfterTimeout
    split
    · contradiction
    · simp
    all_goals split <;> simp

theorem TimingKept.aged (r : TargetRecord) : TimingKept r r.aged := by
  unfold TargetRecord.aged
  split
  · exact ⟨rfl, rfl, rfl, rfl, Iff.rfl⟩
  · exact refl r

theorem TimingKept.set {ts : Vector TargetRecord 16} {t : TargetId} {r : TargetRecord} (h : TimingKept ts[t] r)
    (k : TargetId) : TimingKept ts[k] (ts.set t r)[k] := by
  rw [table_set_get]
  split
  · next hk => rw [← hk]; exact h
  · exact refl _

theorem Effect.keeps_timing {s t : State} {c : Instr} (h : Effect s c t) (hp : ∀ ns, c ≠ .porstAsserted ns)
    (hr : c ≠ .porstReleased) (hc : c ≠ .commit) (k : TargetId) : TimingKept s.tgt[k] t.tgt[k] := by
  have same : ∀ {t : State}, t.tgt = s.tgt → TimingKept s.tgt[k] t.tgt[k] := fun h => by rw [h]; exact .refl _
  cases h with
  | porstAsserted ns => exact absurd rfl (hp ns)
  | porstReleased => exact absurd rfl hr
  | committed => exact absurd rfl hc
  | completed t left =>
    rw [arbitrate_tgt]
    exact (TimingKept.completed s.tgt[t]).set k
  | timedOut t left | wentOffline t left =>
    rw [arbitrate_tgt]
    exact (TimingKept.timedOut s.tgt[t]).set k
  | aged => rw [tabulate_get]; exact .aged _
  | _ => exact same (by simp)

/-! ## The windows -/

/-- What becomes of the windows: EMPTY by power-on reset, replaced by a COMMIT, and otherwise weakened at most. -/
theorem Effect.windows_cases {s t : State} {c : Instr} (h : Effect s c t) :
    (((∃ ns, c = .porstAsserted ns) ∨ c = .porstReleased) ∧ ∀ w : WindowIx, t.wdc[w] = .empty) ∨
      (c = .commit ∧ ∃ records u, s.takeDueEvents.commitPass records = .ok u ∧ t.wdc = u.wdc) ∨
      ∀ w : WindowIx, s.wdc[w].Weakens t.wdc[w] := by
  have same {t : State} (h : t.wdc = s.wdc) (w : WindowIx) : s.wdc[w].Weakens t.wdc[w] := by rw [h]; exact .refl _
  cases h with
  | porstAsserted ns => exact .inl ⟨.inl ⟨ns, rfl⟩, fun w => by simp [State.powerOn]⟩
  | porstReleased => exact .inl ⟨.inr rfl, fun w => by simp [State.powerOn]⟩
  | committed x records u runs pass => exact .inr (.inl ⟨rfl, records, u, pass, by simp⟩)
  | admitted c r k i p =>
    refine .inr (.inr fun w => ?_)
    simp only [State.admitTransfer, arbitrate_wdc, State.addEntry_wdc, State.popHead_wdc, table_set_get]
    split
    · next hi => rw [← hi]; exact addReference_weakens _
    · exact .refl _
  | flushed r =>
    refine .inr (.inr fun w => ?_)
    rw [State.joinReady_wdc]
    exact (TrackerMoves.judgeFlushes (s.popHead.addEntry r (.flush none)) r.initiator).windows w
  | detached r =>
    refine .inr (.inr fun w => ?_)
    rw [arbitrate_wdc, State.settlePlace_wdc, State.joinReady_wdc]
    exact (TrackerMoves.beginDetach s.popHead r.initiator r.tag).windows w
  | entryHanded e o =>
    refine .inr (.inr fun w => ?_)
    rw [arbitrate_wdc, State.joinReady_wdc]
    exact (TrackerMoves.depart (s.handAnswer (e.response o)) e).windows w
  | trkReset =>
    refine .inr (.inr fun w => ?_)
    rw [arbitrate_wdc, State.settlePlace_wdc, State.joinReady_wdc]
    exact (TrackerMoves.dispose _ _).windows w
  | announced t a left =>
    refine .inr (.inr fun w => ?_)
    rw [arbitrate_wdc, State.joinReady_wdc]
    exact (TrackerMoves.foldl TrackerMoves.failOffline _ _).windows w
  | reported x report e =>
    refine .inr (.inr fun w => ?_)
    rw [arbitrate_wdc, State.joinReady_wdc]
    exact (TrackerMoves.endSegmentOf _ _ _).windows w
  | _ => exact .inr (.inr (same (by simp)))

/-- Settles O51: no effect but that of COMMIT and of power-on reset reaches the configuration; windows lose and gain
references only. -/
theorem configurationChangesOnlyAtCommit : Obligations.ConfigurationChangesOnlyAtCommit := by
  intro c s t h hp hr hc
  have heffect := exec_effect h
  obtain ⟨routes, thresholds⟩ := heffect.keeps_routes hp hr hc
  obtain ⟨⟨segmentLimit, lendLimit⟩, lease, claimMask, commitCount, configLoaded⟩ := heffect.keeps_limits hp hr hc
  refine ⟨routes, thresholds, segmentLimit, lendLimit, lease, claimMask, commitCount, configLoaded,
    heffect.keeps_timing hp hr hc, fun w => ?_⟩
  obtain ⟨⟨ns, rfl⟩ | rfl, -⟩ | ⟨rfl, -⟩ | weakens := heffect.windows_cases
  · exact absurd rfl (hp ns)
  · exact absurd rfl hr
  · exact absurd rfl hc
  · obtain ⟨profile, decodes, -⟩ := weakens w
    exact ⟨profile, by rw [decodes]⟩

end Sys2Proof.Machine

/-! The window law (R2, R4, R15): an operation on a window keeps it where the window it leaves is legal and overlaps none
that another index reserves. -/

namespace Sys2Proof.Machine

theorem WindowLaw.set {s : State} {i : WindowIx} {w : Window} (hs : WindowLaw s)
    (legal : ∀ p ∈ w.profile, p.RangeLegal ∧ p.PortForced)
    (apart : ∀ p ∈ w.reserved, ∀ j : WindowIx, j ≠ i → ∀ q ∈ s.wdc[j].reserved, p.overlaps q = false) :
    WindowLaw { s with wdc := s.wdc.set i w } := by
  obtain ⟨hlegal, hapart⟩ := hs
  refine ⟨fun j p hp => ?_, fun j k hjk p hp q hq => ?_⟩
  · rw [table_set_get] at hp
    split at hp
    · exact legal p hp
    · exact hlegal j p hp
  · rw [table_set_get] at hp hq
    split at hp <;> split at hq
    · next hj hk => exact absurd (hj.symm.trans hk) hjk
    · next hj hk => exact apart p hp k (Ne.symm hk) q hq
    · next hj hk => rw [overlaps_comm]; exact apart q hq j (Ne.symm hj) p hp
    · exact hapart j k hjk p hp q hq

theorem WindowLaw.of_wdc {s t : State} (h : t.wdc = s.wdc) (hs : WindowLaw s) : WindowLaw t := by
  unfold WindowLaw
  rw [h]
  exact hs

theorem reserved_profile {w : Window} {p : Profile} (h : w.reserved = some p) : w.profile = some p := by
  cases w with
  | empty => cases h
  | loaded st n q => cases st <;> simp_all [Window.reserved, Window.profile]

/-- Nothing a window other than `i` reserves overlaps the range of `p`. -/
theorem apart_of_not_overlapsOther {ws : Vector Window 32} {i : WindowIx} {p : Profile}
    (h : overlapsOther ws i p = false) (j : WindowIx) (hj : j ≠ i) : ∀ q ∈ ws[j].reserved, p.overlaps q = false := by
  intro q hq
  simp only [overlapsOther, List.any_eq_false, List.mem_finRange, true_implies] at h
  have hjq := h j
  rw [Option.mem_def.mp hq] at hjq
  simpa [hj] using hjq

theorem windowPayload_legal {bs : List Byte} {i : WindowIx} {p : Profile} (h : windowPayload bs = some (i, p)) :
    p.RangeLegal ∧ p.PortForced := by
  unfold windowPayload at h
  split at h
  · next hindex hprofile =>
    split at h <;> cases h
    next hrange =>
    have spelled := profileOf_spelled hprofile
    have hbase := spelled.base
    have hsize := spelled.size
    have legal := of_decide_eq_true ((rangeLegal_iff _ _).symm.trans hrange)
    simp only [payloadBase, payloadSize, leNat] at legal
    refine ⟨?_, spelled.ports⟩
    have base : Config.managementBase = 0xFFF000 := rfl
    simp only [Profile.RangeLegal, Profile.limit, base]
    omega
  all_goals cases h

theorem disabled_reserved {w : Window} {p : Profile} (h : w.disabled.reserved = some p) : w.reserved = some p := by
  cases w with
  | empty => cases h
  | loaded st n q => cases st <;> cases n <;> simp_all [Window.disabled, Window.reserved]

theorem disabled_profile (w : Window) : w.disabled.profile = w.profile := by
  cases w with
  | empty => rfl
  | loaded st n q => cases st <;> cases n <;> rfl

theorem enabled_of_enabling {w : Window} {p : Profile} (h : w.enabling = some p) :
    w.profile = some p ∧ w.enabled.profile = some p ∧ w.enabled.reserved = some p := by
  cases w with
  | empty => cases h
  | loaded st n q => cases st <;> simp_all [Window.enabling, Window.enabled, Window.profile, Window.reserved]

theorem applyRecord_windowLaw {s u : State} {k : RecordKind} {bs : List Byte} {later : List (RecordRef × List Byte)}
    (hs : WindowLaw s) (h : s.applyRecord k bs later = .ok u) : WindowLaw u := by
  cases k with
  | setWindow =>
    simp only [State.applyRecord, State.withWindows, commitSetWindow] at h
    split at h
    · cases h; exact hs
    · next i p payload =>
      obtain legal := windowPayload_legal payload
      split_ifs at h with hbusy hoverlap <;> cases h
      refine hs.set (fun q hq => ?_) fun q hq => ?_
      · cases hq; exact legal
      · cases henable : enableFlag bs
        · rw [henable] at hq; cases hq
        · rw [henable] at hq hoverlap
          cases hq
          exact apart_of_not_overlapsOther (by simpa using hoverlap)
  | enableWindow =>
    simp only [State.applyRecord, State.withWindows, commitEnableWindow] at h
    split at h
    · cases h; exact hs
    · next i hi =>
      split at h
      · cases h; exact hs
      · next p enabling =>
        obtain ⟨profile, enabledProfile, enabledReserved⟩ := enabled_of_enabling enabling
        split_ifs at h with hoverlap <;> cases h
        refine hs.set (fun q hq => ?_) fun q hq => ?_
        · rw [enabledProfile] at hq; cases hq; exact hs.1 i p profile
        · rw [enabledReserved] at hq; cases hq; exact apart_of_not_overlapsOther (by simpa using hoverlap)
  | disableWindow =>
    simp only [State.applyRecord, commitDisableWindow] at h
    split at h <;> cases h
    · exact hs
    · next i hi =>
      refine hs.set (fun q hq => hs.1 i q (by rwa [disabled_profile] at hq)) fun q hq j hj => ?_
      exact hs.2 i j (Ne.symm hj) q (disabled_reserved hq)
  | clearWindow =>
    simp only [State.applyRecord, State.withWindows, commitClearWindow] at h
    split at h
    · cases h; exact hs
    · split_ifs at h <;> cases h
      exact hs.set nofun nofun
  | setRoute | setThreshold =>
    simp only [State.applyRecord] at h
    split at h <;> cases h
    · split <;> exact hs
    · exact hs
  | setLimits =>
    simp only [State.applyRecord, State.applyLimits] at h
    cases h
    split
    · exact hs
    · split <;> exact hs
  | _ => cases h; exact hs

theorem Effect.keeps_windowLaw {s t : State} {c : Instr} (h : Effect s c t) (hs : WindowLaw s) : WindowLaw t := by
  obtain ⟨-, empty⟩ | ⟨-, records, u, pass, hwdc⟩ | weakens := h.windows_cases
  · exact ⟨fun i p hp => by rw [empty] at hp; (cases hp), fun i j _ p hp => by rw [empty] at hp; (cases hp)⟩
  · have due : WindowLaw s.takeDueEvents := .of_wdc (by rw [takeDueEvents_eq]) hs
    exact .of_wdc hwdc (commitPass_induction (fun _ _ _ _ _ => applyRecord_windowLaw) _ due pass)
  · exact hs.of_weakens weakens

/-- Settles O52: windows change their profile or reserve a range in a commit pass only, which rechecks what it loads. -/
theorem stepKeepsWindowLaw : Obligations.StepKeepsWindowLaw := by
  intro s t hs h
  obtain rfl | ⟨c, rest, heffect⟩ := step_cases h
  · obtain htick | htick := clockTick_cases s <;> rw [htick] <;> exact hs
  · exact heffect.keeps_windowLaw hs

end Sys2Proof.Machine

/-! The entries of the tracker. An effect takes entries away, or puts one at the young end; the windows' counts go with
the entries decoded to them (R18, R19, R42, R44). -/

namespace Sys2Proof.Machine

/-- No two entries have one slot. -/
abbrev DistinctSlots (s : State) : Prop := (s.trk.entries.map Entry.slot).Nodup

/-- Entries may be gone, the others are what they were admitted as, and each window's count is still right if it was. -/
structure Thins (s t : State) : Prop where
  shrinks : Shrinks s t
  counts : CountLaw s → CountLaw t

namespace Thins

variable {s t u : State}

theorem trans (h : Thins s t) (h2 : Thins t u) : Thins s u := ⟨h.shrinks.trans h2.shrinks, h2.counts ∘ h.counts⟩

theorem of_identity (hw : t.wdc = s.wdc) (hi : t.trk.entries.map Entry.identity = s.trk.entries.map Entry.identity) :
    Thins s t := ⟨.of_eq hi, counts_of_eq hw hi⟩

theorem of_eq (hw : t.wdc = s.wdc) (he : t.trk.entries = s.trk.entries) : Thins s t := of_identity hw (by rw [he])

theorem refl (s : State) : Thins s s := of_eq rfl rfl

theorem slots (h : Thins s t) (hs : DistinctSlots s) : DistinctSlots t := h.shrinks.slots hs

theorem depart (hs : DistinctSlots s) {e f : Entry} (hf : f ∈ s.trk.entries) (slot : e.slot = f.slot)
    (refers : ∀ w, e.refersTo w = f.refersTo w) : Thins s (s.depart e) :=
  ⟨depart_shrinks s e, depart_counts hs hf slot refers⟩

theorem judgeFlushes (hs : DistinctSlots s) (i : Initiator) : Thins s (s.judgeFlushes i) :=
  of_identity (by rw [judgeFlushes_eq hs i rfl]) (judgeFlushes_identity hs i)

theorem finishPosted (hs : DistinctSlots s) {e f : Entry} (hf : f ∈ s.trk.entries) (slot : e.slot = f.slot)
    (refers : ∀ w, e.refersTo w = f.refersTo w) (x : Transfer) (o : EntryOutcome) : Thins s (s.finishPosted e x o) := by
  have leaves {u : State} (hu : Thins s u) (he : u.trk.entries = s.trk.entries) :
      Thins s ((u.depart e).judgeFlushes e.initiator) := by
    have hd : Thins s (u.depart e) := hu.trans (depart (hu.slots hs) (he ▸ hf) slot refers)
    exact hd.trans (judgeFlushes (hd.slots hs) _)
  cases o with
  | ok => exact leaves (refl s) rfl
  | timeout | offline => exact leaves (of_eq rfl rfl) rfl

theorem changeEntry {slot : Slot} {g : Entry → Entry}
    (hg : ∀ e ∈ s.trk.entries, e.slot = slot → (g e).identity = e.identity) :
    Thins s { s with trk := { s.trk with entries := Machine.changeEntry s.trk.entries slot g } } :=
  of_identity rfl (changeEntry_identity hg)

theorem failOffline (hs : DistinctSlots s) {e : Entry} (he : e ∈ s.trk.entries) : Thins s (s.failOffline e) := by
  unfold State.failOffline
  split
  · exact refl s
  · split
    · exact finishPosted hs he rfl (fun _ => rfl) _ _
    all_goals exact changeEntry fun f _ _ => rfl

theorem dispose (hs : DistinctSlots s) {p : Entry → Bool} (hp : ∀ (e : Entry) st, p { e with state := st } = p e) :
    Thins s (s.dispose p) := by
  obtain ⟨heq, -, -, -, counts⟩ := dispose_spec hs hp
  refine ⟨?_, counts⟩
  unfold Shrinks
  rw [heq]
  simp only [List.map_map]
  have same : (Entry.identity ∘ fun e => if p e then { e with state := .inSegment true } else e) = Entry.identity := by
    funext e
    simp only [Function.comp_apply]
    split <;> rfl
  rw [same]
  exact List.filter_sublist.map _

theorem refersTo_of_identity {e f : Entry} (h : e.identity = f.identity) (w : WindowIx) : e.refersTo w = f.refersTo w := by
  obtain ⟨-, -, -, -, -, -, -, -, refers⟩ := identity_eq h
  exact refers w

theorem takeReport (hs : DistinctSlots s) {e : Entry} (he : e ∈ s.trk.entries) {x : Transfer} (hx : e.body = .transfer x)
    (r : SegmentReport) : Thins s (s.takeReport e x r) := by
  have same := identity_progressed e hx r.bytes r.values
  unfold State.takeReport
  dsimp only
  split
  · refine finishPosted hs he ?_ (fun w => ?_) _ _
    · rfl
    · exact refersTo_of_identity (same _) w
  · refine changeEntry fun f hf slot => ?_
    rw [slot_inj hs he hf slot]
    exact same _

theorem removeDropped (hs : DistinctSlots s) {e : Entry} (he : e ∈ s.trk.entries) : Thins s (s.removeDropped e) := by
  have hd : Thins s (s.depart e) := depart hs he rfl fun _ => rfl
  unfold State.removeDropped
  split
  · exact hd.trans (judgeFlushes (hd.slots hs) _)
  · exact hd

theorem transfer_body {e : Entry} {x : Transfer} (h : e.transfer = some x) : e.body = .transfer x := by
  unfold Entry.transfer at h
  split at h <;> cases h
  assumption

theorem endSegmentOf (hs : DistinctSlots s) {e : Entry} (he : e ∈ s.trk.entries) (r : SegmentReport) :
    Thins s (s.endSegmentOf r e) := by
  unfold State.endSegmentOf
  split
  · exact removeDropped hs he
  · next x _ hx => exact takeReport hs he (transfer_body hx) r
  all_goals exact refl s

theorem joinReady (s : State) : Thins s s.joinReady := of_eq rfl (by rw [joinReady_spec])

theorem arbitrate (s : State) : Thins s s.arbitrate := by
  obtain ⟨f, hf⟩ := arbitrate_entries s
  exact of_identity (arbitrate_wdc s) (by rw [hf, List.map_map]; rfl)

end Thins

/-! ## The OFFLINE announcement, entry by entry (R65, log entry 11) -/

/-- The entries of `l` are in the tracker, WAITING, and of transfers. -/
abbrev AwaitTransfer (s : State) (l : List Entry) : Prop :=
  ∀ e ∈ l, e ∈ s.trk.entries ∧ e.state = .waiting ∧ e.transfer.isSome = true

theorem flushDone_of_transfer {due : List Entry} {r : Option FaultRecord} {f : Entry} (h : f.isFlush = false)
    (hd : ∀ e ∈ due, e.isFlush = true) : Entry.flushDone due r f = f := by
  unfold Entry.flushDone
  split
  · next hf => rw [hd f hf] at h; cases h
  · rfl

theorem isFlush_of_transfer {e : Entry} (h : e.transfer.isSome = true) : e.isFlush = false := by
  unfold Entry.transfer at h
  unfold Entry.isFlush
  split <;> simp_all

theorem flushesBehind_isFlush {t : Tracker} {e f : Entry} (h : f ∈ t.flushesBehind e) : f.isFlush = true := by
  simp only [Tracker.flushesBehind, List.mem_filter, Bool.and_eq_true] at h
  exact h.2.1.1.1

/-- The failing of one entry leaves the other transfers as they are. -/
theorem failOffline_keeps {s : State} (hs : DistinctSlots s) {e f : Entry} (he : e ∈ s.trk.entries)
    (hf : f ∈ s.trk.entries) (other : f.slot ≠ e.slot) (transfer : f.transfer.isSome = true) :
    f ∈ (s.failOffline e).trk.entries := by
  unfold State.failOffline
  split
  · exact hf
  · next x hx =>
    have changed (g : Entry → Entry) : f ∈ changeEntry s.trk.entries e.slot g :=
      List.mem_map.mpr ⟨f, hf, if_neg other⟩
    split
    · rw [finishPosted_eq hs he rfl (isFlush_of_transfer (by rw [hx]; rfl)) x .offline rfl rfl]
      refine List.mem_map.mpr ⟨f, List.mem_filter.mpr ⟨hf, by simpa using other⟩, ?_⟩
      exact flushDone_of_transfer (isFlush_of_transfer transfer) fun _ => flushesBehind_isFlush
    all_goals exact changed _

/-- What the failing of each entry keeps, the failing of several keeps. -/
theorem failOffline_fold_induction {P : State → Prop}
    (hp : ∀ (s : State) (e : Entry), DistinctSlots s → e ∈ s.trk.entries → e.state = .waiting → P s → P (s.failOffline e)) :
    ∀ (l : List Entry) (s : State), (l.map Entry.slot).Nodup → DistinctSlots s → AwaitTransfer s l → P s →
      P (l.foldl State.failOffline s)
  | [], _, _, _, _, h => h
  | e :: l, s, hl, hs, await, h => by
    obtain ⟨fresh, hl⟩ := List.nodup_cons.mp hl
    obtain ⟨he, waiting, -⟩ := await e List.mem_cons_self
    refine failOffline_fold_induction hp l _ hl ((Thins.failOffline hs he).slots hs) (fun f hf => ?_) (hp s e hs he waiting h)
    obtain ⟨hf', waiting, transfer⟩ := await f (List.mem_cons_of_mem _ hf)
    exact ⟨failOffline_keeps hs he hf' (fun h => fresh (h ▸ List.mem_map_of_mem hf)) transfer, waiting, transfer⟩

theorem reached_await {s : State} (hs : DistinctSlots s) (a : Announcement) :
    ((s.trk.entries.filter a.reaches).map Entry.slot).Nodup ∧ AwaitTransfer s (s.trk.entries.filter a.reaches) := by
  refine ⟨(List.filter_sublist.map _).nodup hs, fun e he => ?_⟩
  obtain ⟨mem, reaches⟩ := List.mem_filter.mp he
  simp only [Announcement.reaches, Bool.and_eq_true, decide_eq_true_eq] at reaches
  obtain ⟨⟨target, waiting⟩, -⟩ := reaches
  refine ⟨mem, waiting, ?_⟩
  unfold Entry.target at target
  cases h : e.transfer <;> simp_all

theorem Thins.announced {s : State} (hs : DistinctSlots s) (a : Announcement) (left : List Announcement) :
    Thins s ((s.trk.entries.filter a.reaches).foldl State.failOffline
      { s with handed := { s.handed with announcements := left } }) := by
  obtain ⟨distinct, await⟩ := reached_await hs a
  exact failOffline_fold_induction (P := Thins s) (fun u e hu he _ h => h.trans (.failOffline hu he)) _ _ distinct hs await
    (.of_eq rfl rfl)

/-! ## The commit pass -/

theorem applyRecord_counts {s u : State} {k : RecordKind} {bs : List Byte} {later : List (RecordRef × List Byte)}
    (hs : CountLaw s) (h : s.applyRecord k bs later = .ok u) : CountLaw u := by
  have set {i : WindowIx} {w : Window} (count : w.count = s.wdc[i].count) (agrees : w.countAgrees = true) :
      CountLaw { s with wdc := s.wdc.set i w } := fun j => by
    obtain ⟨hcount, hagrees⟩ := hs j
    simp only [table_set_get]
    split
    · next hij => subst hij; exact ⟨count.trans hcount, agrees⟩
    · exact ⟨hcount, hagrees⟩
  have unreserved {i : WindowIx} (h : ¬s.wdc[i].isReserved = true) : s.wdc[i].count = 0 := by
    have agrees := (hs i).2
    revert h agrees
    cases s.wdc[i] with
    | empty => exact fun _ _ => rfl
    | loaded st n p => cases st <;> simp [Window.isReserved, Window.reserved, Window.countAgrees, Window.count]
  cases k with
  | setWindow =>
    simp only [State.applyRecord, State.withWindows, commitSetWindow] at h
    split at h
    · cases h; exact hs
    · split_ifs at h with hbusy hoverlap <;> cases h
      refine set (unreserved hbusy).symm ?_
      unfold loadedWindow
      split <;> rfl
  | enableWindow =>
    simp only [State.applyRecord, State.withWindows, commitEnableWindow] at h
    split at h
    · cases h; exact hs
    · next i hi =>
      split at h
      · cases h; exact hs
      · split_ifs at h <;> cases h
        have enabled (w : Window) : w.enabled.count = w.count ∧ w.enabled.countAgrees = true := by
          cases w <;> exact ⟨rfl, rfl⟩
        exact set (enabled _).1 (enabled _).2
  | disableWindow =>
    simp only [State.applyRecord, commitDisableWindow] at h
    split at h <;> cases h
    · exact hs
    · next i hi =>
      have disabled (w : Window) (agrees : w.countAgrees = true) :
          w.disabled.count = w.count ∧ w.disabled.countAgrees = true := by
        cases w with
        | empty => exact ⟨rfl, rfl⟩
        | loaded st n p => cases st <;> cases n <;> simp_all [Window.disabled, Window.countAgrees, Window.count]
      obtain ⟨count, agrees⟩ := disabled _ (hs i).2
      exact set count agrees
  | clearWindow =>
    simp only [State.applyRecord, State.withWindows, commitClearWindow] at h
    split at h
    · cases h; exact hs
    · split_ifs at h with hbusy <;> cases h
      exact set (unreserved hbusy).symm rfl
  | setRoute | setThreshold =>
    simp only [State.applyRecord] at h
    split at h <;> cases h
    · split <;> exact hs
    · exact hs
  | setLimits =>
    simp only [State.applyRecord, State.applyLimits] at h
    cases h
    split
    · exact hs
    · split <;> exact hs
  | _ => cases h; exact hs

theorem commitPass_entries {s u : State} {records : List (RecordRef × List Byte)}
    (pass : s.takeDueEvents.commitPass records = .ok u) : u.trk.entries = s.trk.entries := by
  rw [commitPass_frame _ pass, takeDueEvents_eq]

theorem commitPass_thins {s u : State} {records : List (RecordRef × List Byte)}
    (pass : s.takeDueEvents.commitPass records = .ok u) : Thins s u := by
  refine ⟨.of_eq (by rw [commitPass_entries pass]), fun hs => ?_⟩
  have due : CountLaw s.takeDueEvents := by rw [takeDueEvents_eq]; exact hs
  exact commitPass_induction (fun _ _ _ _ _ => applyRecord_counts) _ due pass

/-! ## Admission (R42, R47, R50) -/

/-- `u` is `s` with an entry of the request `r`, whose checks 1 to 3 it passes, at the young end. -/
structure Admits (s : State) (r : Request) (body : EntryBody) (u : State) : Prop where
  passes : s.trk.refusal r = none
  kind : r.kind.transferKind.isSome = true ∨ r.kind = .flush
  posted : r.kind = .posted ↔ ∃ x, body = .transfer x ∧ x.kind = .posted
  entries : u.trk.entries = s.trk.entries ++ [⟨s.trk.freeSlot, s.trk.nextSerial, r.initiator, r.tag, body, .waiting⟩]
  counts : CountLaw s → CountLaw u

theorem refusal_none {t : Tracker} {r : Request} (h : t.refusal r = none) :
    r.consistent = true ∧ t.retry r = false ∧ t.tagBusy r = false := by
  unfold Tracker.refusal at h
  split_ifs at h
  simp_all

section
variable {s u : State} {r : Request} {body : EntryBody}

theorem Admits.room (h : Admits s r body u) :
    s.trk.entries.length < Config.trackerEntries ∧ (s.trk.entriesOf r.initiator).length < Config.entriesPerInitiator := by
  obtain ⟨-, retry, -⟩ := refusal_none h.passes
  have kind : r.kind ≠ .detach := by
    obtain hk | hk := h.kind
    · rintro hd; rw [hd] at hk; cases hk
    · rw [hk]; nofun
  simp only [Tracker.retry, Bool.or_eq_false_iff, Bool.and_eq_false_iff, decide_eq_false_iff_not, kind, not_not,
    ne_eq, not_false_eq_true, not_true_eq_false, false_or, not_le] at retry
  exact retry.1.2

theorem Admits.slot_free (h : Admits s r body u) : ∀ e ∈ s.trk.entries, e.slot ≠ s.trk.freeSlot := by
  obtain ⟨slot, free⟩ := exists_lowestFree (s := s) h.room.1
  rw [freeSlot_eq free]
  exact free.1

theorem Admits.slots (h : Admits s r body u) (hs : DistinctSlots s) : DistinctSlots u := by
  unfold DistinctSlots
  rw [h.entries, List.map_append, List.map_singleton]
  rw [← List.concat_eq_append]
  refine hs.concat fun hmem => ?_
  obtain ⟨e, he, slot⟩ := List.mem_map.mp hmem
  exact h.slot_free e he slot

theorem Admits.tag_free (h : Admits s r body u) (unposted : r.kind ≠ .posted) :
    ∀ e ∈ s.trk.entries, e.usedTag ≠ some (r.initiator, r.tag) := by
  obtain ⟨-, -, busy⟩ := refusal_none h.passes
  have kind : r.kind = .read ∨ r.kind = .write ∨ r.kind = .flush := by
    obtain hk | hk := h.kind
    · cases hr : r.kind <;> simp_all [RequestKind.transferKind]
    · exact .inr (.inr hk)
  have inUse : s.tagInUse r.initiator r.tag = false := by
    obtain hk | hk | hk := kind
    · simpa [tagBusy_transfer (.inl hk), hk] using busy
    · simpa [tagBusy_transfer (.inr (.inl hk)), hk] using busy
    · rwa [tagBusy_flush hk] at busy
  simpa [State.tagInUse] using inUse

theorem Admits.trackerLaw (h : Admits s r body u) (hs : TrackerLaw s) : TrackerLaw u := by
  obtain ⟨hlength, hof, hslots, htags⟩ := hs
  obtain ⟨room, roomOf⟩ := h.room
  refine ⟨?_, fun i => ?_, h.slots hslots, ?_⟩
  · rw [h.entries, List.length_append]
    exact room
  · simp only [Tracker.entriesOf, h.entries, List.filter_append, List.length_append, List.filter_singleton]
    by_cases hi : r.initiator = i
    · subst hi
      simpa [Tracker.entriesOf] using roomOf
    · simpa [hi, Tracker.entriesOf] using hof i
  · rw [h.entries, List.filterMap_append]
    by_cases hp : r.kind = .posted
    · obtain ⟨x, rfl, hx⟩ := h.posted.mp hp
      simpa [Entry.usedTag, Entry.isPosted, hx] using htags
    · have unposted : Entry.isPosted ⟨s.trk.freeSlot, s.trk.nextSerial, r.initiator, r.tag, body, .waiting⟩ = false := by
        cases hb : body with
        | flush _ => rfl
        | transfer x => exact decide_eq_false fun hx => hp (h.posted.mpr ⟨x, hb, hx⟩)
      simp only [Entry.usedTag, unposted, List.filterMap_cons, List.filterMap_nil, Bool.false_eq_true, if_false]
      rw [← List.concat_eq_append]
      refine htags.concat fun hmem => ?_
      obtain ⟨e, he, tag⟩ := List.mem_filterMap.mp hmem
      exact h.tag_free hp e he tag

end

/-- Where a request is decoded, its window is ACTIVE. -/
theorem decodeRequest_decodes {ws : Vector Window 32} {ts : Vector TargetRecord 16} {r : Request} {i : WindowIx} {p : Profile}
    (h : decodeRequest ws ts r = .ok (i, p)) : ws[i].decodes = some p := by
  unfold decodeRequest at h
  split at h
  · cases h
  · next j q found =>
    split_ifs at h
    cases h
    unfold decodeAddress at found
    obtain ⟨k, -, hk⟩ := List.exists_of_findSome?_eq_some found
    split at hk
    · next hd =>
      split_ifs at hk
      cases hk
      exact hd
    · cases hk

/-- The state in which a request that passes its checks has its entry, before the arbiter looks at it. -/
def State.withTransfer (s : State) (r : Request) (k : TransferKind) (i : WindowIx) (p : Profile) : State :=
  { s with wdc := s.wdc.set i s.wdc[i].addReference }.addEntry r (.transfer (r.transferOf k i p))

theorem admits_transfer {s : State} {r : Request} {k : TransferKind} {i : WindowIx} {p : Profile}
    (kind : r.kind.transferKind = some k) (passes : s.trk.refusal r = none)
    (decoded : decodeRequest s.wdc s.tgt r = .ok (i, p)) :
    Admits s r (.transfer (r.transferOf k i p)) (s.popHead.withTransfer r k i p) where
  passes := passes
  kind := .inl (by rw [kind]; rfl)
  posted := by
    cases hr : r.kind <;> rw [hr] at kind <;> cases kind <;> simp [Request.transferOf]
  entries := rfl
  counts hs w := by
    have active := decodeRequest_decodes decoded
    obtain ⟨count, agrees⟩ := hs w
    have refers : Entry.refersTo ⟨s.trk.freeSlot, s.trk.nextSerial, r.initiator, r.tag, .transfer (r.transferOf k i p),
        .waiting⟩ w = decide (i = w) := rfl
    simp only [State.withTransfer, State.addEntry_wdc, State.addEntry_trk_entries, State.popHead_wdc, State.popHead_trk,
      table_set_get, List.filter_append, List.length_append, List.filter_singleton, refers]
    by_cases hi : i = w
    · subst hi
      revert active count
      cases s.wdc[i] with
      | empty => nofun
      | loaded st n q =>
        cases st with
        | active => exact fun _ count => ⟨by simpa [Window.addReference, Window.count] using count, by simp [Window.addReference, Window.countAgrees]⟩
        | disabled | draining => nofun
    · simpa [hi] using ⟨count, agrees⟩

theorem admits_flush {s : State} {r : Request} (kind : r.kind = .flush) (passes : s.trk.refusal r = none) :
    Admits s r (.flush none) (s.popHead.addEntry r (.flush none)) where
  passes := passes
  kind := .inr kind
  posted := by simp [kind]
  entries := rfl
  counts hs w := by
    simpa [Entry.refersTo, Entry.transfer, List.filter_append, List.filter_singleton] using hs w

/-! ## Every effect -/

theorem powerOn_counts {boot : Boot} {pins : Pins} {pending : List Instr} : CountLaw (.powerOn boot pins pending) :=
  fun w => by simp [State.powerOn, Tracker.powerOn, Window.count, Window.countAgrees]

/-- An effect empties the tracker by power-on reset, thins its entries, or admits one. -/
theorem Effect.entries_cases {s t : State} {c : Instr} (h : Effect s c t) (hs : DistinctSlots s) :
    (((∃ ns, c = .porstAsserted ns) ∨ c = .porstReleased) ∧ t.trk.entries = [] ∧ CountLaw t) ∨ Thins s t ∨
      ∃ r body u, Admits s r body u ∧ Thins u t := by
  cases h with
  | porstAsserted ns =>
    exact .inl ⟨.inl ⟨ns, rfl⟩, rfl, powerOn_counts⟩
  | porstReleased =>
    exact .inl ⟨.inr rfl, rfl, powerOn_counts⟩
  | admitted c r k i p kind passes decoded =>
    exact .inr (.inr ⟨r, _, _, admits_transfer kind passes decoded, .arbitrate _⟩)
  | flushed r kind passes =>
    have admits := admits_flush kind passes
    exact .inr (.inr ⟨r, _, _, admits, (Thins.judgeFlushes (admits.slots hs) _).trans (.joinReady _)⟩)
  | detached r =>
    refine .inr (.inl (Thins.trans ?_ (.arbitrate _)))
    have begun : Thins s (s.popHead.detachBegun r.initiator r.tag) := .of_eq rfl rfl
    have disposed : Thins s (s.popHead.beginDetach r.initiator r.tag) :=
      begun.trans (.dispose (p := fun e => decide (e.initiator = r.initiator)) (begun.slots hs) fun _ _ => rfl)
    exact (disposed.trans (.joinReady _)).trans (.of_eq (by simp) (by simp))
  | entryHanded e o rest head mem =>
    refine .inr (.inl (Thins.trans ?_ (.arbitrate _)))
    have handed : Thins s (s.handAnswer (e.response o)) := .of_eq rfl rfl
    exact (handed.trans (.depart (handed.slots hs) mem rfl fun _ => rfl)).trans (.joinReady _)
  | trkReset =>
    refine .inr (.inl (Thins.trans ?_ (.arbitrate _)))
    have cleared : Thins s { s with
        trk := { s.trk with faults := Vector.replicate 4 none }
        handed := { s.handed with trkResets := s.handed.trkResets - 1 } } := .of_eq rfl rfl
    exact ((cleared.trans (.dispose (p := fun _ => true) (cleared.slots hs) fun _ _ => rfl)).trans (.joinReady _)).trans
      (.of_eq (by simp) (by simp))
  | announced t a left => exact .inr (.inl (((Thins.announced hs a left).trans (.joinReady _)).trans (.arbitrate _)))
  | reported x report e bus handed mem =>
    refine .inr (.inl (Thins.trans ?_ (.arbitrate _)))
    have idle : Thins s { s with pbe := { s.pbe with bus := .idle } } := .of_eq rfl rfl
    exact (idle.trans (.endSegmentOf (idle.slots hs) mem _)).trans (.joinReady _)
  | committed x records u runs pass =>
    refine .inr (.inl (Thins.trans ?_ (.arbitrate _)))
    exact (commitPass_thins pass).trans (.of_eq (by simp) (by simp))
  | initialized | reportStale | expiredIdle | extreqTaken | busReturned | completed | timedOut | wentOffline =>
    exact .inr (.inl (Thins.trans (.of_eq (by simp) (by simp)) (.arbitrate _)))
  | _ => exact .inr (.inl (.of_eq (by simp) (by simp)))

/-- Settles O53: what remains of the entries is within the limits, and an admission looks at them first (R49, R50). -/
theorem stepKeepsTrackerAndCounts : Obligations.StepKeepsTrackerAndCounts := by
  intro s t hs h
  obtain rfl | ⟨c, rest, heffect⟩ := step_cases h
  · obtain htick | htick := clockTick_cases s <;> rw [htick] <;> exact ⟨hs, id⟩
  · obtain ⟨-, empty, counts⟩ | thins | ⟨r, body, u, admits, thins⟩ := heffect.entries_cases hs.2.2.1
    · refine ⟨?_, fun _ => counts⟩
      simp [TrackerLaw, Tracker.entriesOf, empty]
    · exact ⟨thins.shrinks.trackerLaw hs, thins.counts⟩
    · exact ⟨thins.shrinks.trackerLaw (admits.trackerLaw hs), thins.counts ∘ admits.counts⟩

/-- Settles O59: entries leave or are admitted at the young end, and nothing else happens to what they were admitted
with. -/
theorem stepKeepsAgeOrder : Obligations.StepKeepsAgeOrder := by
  intro c s t hs h hp hr
  obtain ⟨reset, -⟩ | thins | ⟨r, body, u, admits, thins⟩ := (exec_effect h).entries_cases hs.2.2.1
  · obtain ⟨ns, rfl⟩ | rfl := reset
    · exact absurd rfl (hp ns)
    · exact absurd rfl hr
  · exact ⟨[], by simp, nofun, by rw [List.append_nil]; exact thins.shrinks⟩
  · exact ⟨[⟨s.trk.freeSlot, s.trk.nextSerial, r.initiator, r.tag, body, .waiting⟩], by simp, by simp,
      admits.entries ▸ thins.shrinks⟩

end Sys2Proof.Machine

/-! The law of the bus (R53, R91): which entries are IN_SEGMENT, and that none stands behind an older one of its pair. -/

namespace Sys2Proof.Machine

/-! ## Age order by identity -/

/-- In a list of distinct slots, older is before. -/
theorem mem_olderThan_iff {es : List Entry} (hn : (es.map Entry.slot).Nodup) {e f : Entry} (he : e ∈ es) :
    f ∈ olderThan es e.slot ↔ List.Sublist [f, e] es := by
  induction es with
  | nil => cases he
  | cons a es ih =>
    obtain ⟨fresh, hn⟩ := List.nodup_cons.mp hn
    by_cases ha : a.slot = e.slot
    · have hae : e = a := by
        obtain h | h := List.mem_cons.mp he
        · exact h
        · exact absurd (ha ▸ List.mem_map_of_mem h) fresh
      subst hae
      have behind : ¬List.Sublist [f, e] (e :: es) := by
        intro h
        obtain h | ⟨rest, h, sub⟩ := List.sublist_cons_iff.mp h
        · exact fresh (List.mem_map_of_mem (h.subset (by simp)))
        · obtain ⟨-, rfl⟩ := List.cons.inj h
          exact fresh (List.mem_map_of_mem (List.singleton_sublist.mp sub))
      simp [olderThan, List.takeWhile_cons_of_neg, behind]
    · have hes : e ∈ es := (List.mem_cons.mp he).resolve_left fun h => ha (h ▸ rfl)
      rw [olderThan, List.takeWhile_cons_of_pos (by simpa using ha), List.mem_cons]
      change f = a ∨ f ∈ olderThan es e.slot ↔ _
      rw [ih hn hes]
      constructor
      · rintro (rfl | h)
        · exact List.Sublist.cons_cons _ (List.singleton_sublist.mpr hes)
        · exact h.cons a
      · intro h
        obtain h | ⟨rest, h, -⟩ := List.sublist_cons_iff.mp h
        · exact .inr h
        · exact .inl (List.cons.inj h).1

/-- What is older after entries are gone was older before. -/
theorem Shrinks.older {s t : State} (h : Shrinks s t) (hs : DistinctSlots s) {e e' f' : Entry} (he : e ∈ s.trk.entries)
    (he' : e' ∈ t.trk.entries) (same : e'.identity = e.identity) (older : f' ∈ olderThan t.trk.entries e'.slot) :
    ∃ f ∈ olderThan s.trk.entries e.slot, f.identity = f'.identity := by
  have pair : List.Sublist [f'.identity, e'.identity] (s.trk.entries.map Entry.identity) :=
    (((mem_olderThan_iff (h.slots hs) he').mp older).map Entry.identity).trans h
  obtain ⟨l, hl, hmap⟩ := List.sublist_map_iff.mp pair
  obtain ⟨f, rest, rfl, hf, hrest⟩ := List.map_eq_cons_iff.mp hmap.symm
  obtain ⟨g, rest, rfl, hg, hrest⟩ := List.map_eq_cons_iff.mp hrest
  obtain rfl := List.map_eq_nil_iff.mp hrest
  have hge : g = e := by
    refine slot_inj hs he (hl.subset (by simp)) ?_
    exact (identity_eq (hg.trans same)).1
  subst hge
  exact ⟨f, (mem_olderThan_iff hs he).mpr hl, hf⟩

theorem Shrinks.heldBack {s t : State} (h : Shrinks s t) (hs : DistinctSlots s) {e e' : Entry} (he : e ∈ s.trk.entries)
    (he' : e' ∈ t.trk.entries) (same : e'.identity = e.identity) (free : s.trk.heldBack e = false) :
    t.trk.heldBack e' = false := by
  simp only [Tracker.heldBack, List.any_eq_false, Bool.and_eq_true, decide_eq_true_eq, not_and] at free ⊢
  intro f' hf' initiator target
  obtain ⟨f, hf, hsame⟩ := h.older hs he he' same hf'
  obtain ⟨-, -, finit, -, -, -, -, ftarget, -⟩ := identity_eq hsame
  obtain ⟨-, -, einit, -, -, -, -, etarget, -⟩ := identity_eq same
  exact free f hf (by rw [finit, initiator, einit]) (by rw [ftarget, target, etarget])

/-! ## The entries served -/

/-- The entries IN_SEGMENT, by identity. -/
def State.served (s : State) :
    List (Slot × Nat × Initiator × Tag × Option (TransferKind × UpAddr × Nat × WindowIx × Profile)) :=
  (s.trk.entries.filter Entry.isInSegment).map Entry.identity

theorem served_slots (s : State) : s.served.map Prod.fst = (s.trk.entries.filter Entry.isInSegment).map Entry.slot := by
  simp only [State.served, List.map_map]
  rfl

theorem served_of_entries {s t : State} (h : t.trk.entries = s.trk.entries) : t.served = s.served := by
  rw [State.served, h, State.served]

/-- A change of entries that moves none of them into or out of IN_SEGMENT. -/
theorem served_map {s t : State} {g : Entry → Entry} (h : t.trk.entries = s.trk.entries.map g)
    (hg : ∀ e ∈ s.trk.entries, (g e).identity = e.identity ∧ (g e).isInSegment = e.isInSegment) : t.served = s.served := by
  rw [State.served, h, List.filter_map, List.map_map, State.served]
  have same : s.trk.entries.filter (Entry.isInSegment ∘ g) = s.trk.entries.filter Entry.isInSegment :=
    List.filter_congr fun e he => (hg e he).2
  rw [same]
  exact List.map_congr_left fun e he => (hg e (List.mem_filter.mp he).1).1

/-- The departure of entries that are not IN_SEGMENT. -/
theorem served_filter {s t : State} {keep : Entry → Bool} (h : t.trk.entries = s.trk.entries.filter keep)
    (hk : ∀ e ∈ s.trk.entries, e.isInSegment = true → keep e = true) : t.served = s.served := by
  rw [State.served, h, List.filter_filter, State.served]
  congr 1
  refine List.filter_congr fun e he => ?_
  cases hi : e.isInSegment
  · rfl
  · rw [hk e he hi]; rfl

theorem served_depart {s : State} (hs : DistinctSlots s) {e : Entry} (he : e ∈ s.trk.entries) (idle : e.isInSegment = false) :
    (s.depart e).served = s.served :=
  served_filter (s.depart_trk_entries e) fun f hf hi => decide_eq_true fun hslot => by
    rw [slot_inj hs he hf hslot, idle] at hi
    cases hi

theorem not_inSegment_of_waiting {e : Entry} (h : e.state = .waiting) : e.isInSegment = false := by
  unfold Entry.isInSegment
  rw [h]

theorem not_inSegment_of_done {e : Entry} {o : EntryOutcome} (h : e.state = .done o) : e.isInSegment = false := by
  unfold Entry.isInSegment
  rw [h]

theorem flushDone_isInSegment {due : List Entry} {r : Option FaultRecord} {f : Entry} (h : ∀ e ∈ due, e.state = .waiting) :
    (Entry.flushDone due r f).isInSegment = f.isInSegment := by
  unfold Entry.flushDone
  split
  · next hf => rw [not_inSegment_of_waiting (h f hf)]; rfl
  · rfl

theorem served_judgeFlushes {s : State} (hs : DistinctSlots s) (i : Initiator) : (s.judgeFlushes i).served = s.served := by
  refine served_map (by rw [judgeFlushes_eq hs i rfl]) fun e _ => ?_
  have due : ∀ f ∈ s.trk.entries.filter fun e => decide (e.initiator = i) && s.trk.flushReady e,
      f.isFlush = true ∧ f.state = .waiting := fun f hf => by
    obtain ⟨-, ready⟩ := List.mem_filter.mp hf
    obtain ⟨flush, waiting, -⟩ := flushReady_spec (Bool.and_eq_true _ _ ▸ ready).2
    exact ⟨flush, waiting⟩
  refine ⟨?_, flushDone_isInSegment fun f hf => (due f hf).2⟩
  unfold Entry.flushDone
  split
  · next he => exact identity_flush e (due e he).1 _ _
  · rfl

theorem served_failOffline {s : State} (hs : DistinctSlots s) {e : Entry} (he : e ∈ s.trk.entries) (waiting : e.state = .waiting) :
    (s.failOffline e).served = s.served := by
  have leaves {u : State} (hu : u.trk.entries = s.trk.entries) (i : Initiator) :
      ((u.depart e).judgeFlushes i).served = s.served := by
    have hslots : DistinctSlots u := by rw [DistinctSlots, hu]; exact hs
    rw [served_judgeFlushes ((depart_shrinks u e).slots hslots),
      served_depart hslots (hu ▸ he) (not_inSegment_of_waiting waiting), served_of_entries hu]
  unfold State.failOffline
  split
  · rfl
  · split
    · exact leaves (u := s.recordFault _ _ _ _) rfl _
    all_goals
      refine served_map rfl fun f hf => ?_
      split
      · next hslot => rw [slot_inj hs he hf hslot, not_inSegment_of_waiting waiting]; exact ⟨rfl, rfl⟩
      · exact ⟨rfl, rfl⟩

theorem served_dispose {s : State} (hs : DistinctSlots s) {p : Entry → Bool}
    (hp : ∀ (e : Entry) st, p { e with state := st } = p e) : (s.dispose p).served = s.served := by
  obtain ⟨heq, -⟩ := dispose_spec hs hp
  have kept : State.served { s with trk := { s.trk with entries := s.trk.entries.filter fun e => !p e || e.isInSegment } } =
      s.served := served_filter rfl fun e _ hi => by simp [hi]
  rw [← kept]
  refine served_map (by rw [heq]) fun e he => ?_
  have stays := (List.mem_filter.mp he).2
  split
  · next hpe => exact ⟨rfl, by simpa [hpe, Entry.isInSegment] using stays.symm⟩
  · exact ⟨rfl, rfl⟩

theorem Admits.served {s u : State} {r : Request} {body : EntryBody} (h : Admits s r body u) : u.served = s.served := by
  rw [State.served, h.entries, List.filter_append, List.map_append]
  exact List.append_nil _

theorem announced_served {s : State} (hs : DistinctSlots s) (a : Announcement) (left : List Announcement) :
    ((s.trk.entries.filter a.reaches).foldl State.failOffline
      { s with handed := { s.handed with announcements := left } }).served = s.served := by
  obtain ⟨distinct, await⟩ := reached_await hs a
  exact failOffline_fold_induction (P := fun u => u.served = s.served)
    (fun u e hu he waiting h => (served_failOffline hu he waiting).trans h) _ _ distinct hs await rfl

/-! ## The law -/

/-- The law is about the entries served, what is older than they, and the bus. -/
theorem BusLaw.of_served {s t : State} (hs : BusLaw s) (served : t.served = s.served)
    (older : ∀ e ∈ s.trk.entries, ∀ e' ∈ t.trk.entries, e'.identity = e.identity → s.trk.heldBack e = false →
      t.trk.heldBack e' = false)
    (bus : t.pbe.bus.served = s.pbe.bus.served) (reported : ∀ slot ∈ t.pbe.bus.reported, slot ∈ t.pbe.bus.served)
    (lend : t.pbe.lendTimer.isSome = true ↔ t.pbe.bus = .lent) : BusLaw t := by
  obtain ⟨hserved, -, hfirst, -⟩ := hs
  refine ⟨?_, reported, fun e' he' hi => ?_, lend⟩
  · rw [← served_slots, served, served_slots, hserved, bus]
  · have mem : e'.identity ∈ s.served := by
      rw [← served]
      exact List.mem_map_of_mem (List.mem_filter.mpr ⟨he', hi⟩)
    obtain ⟨e, he, same⟩ := List.mem_map.mp mem
    obtain ⟨he, hei⟩ := List.mem_filter.mp he
    obtain ⟨flush, free⟩ := hfirst e he hei
    obtain ⟨-, -, -, -, -, hflush, -⟩ := identity_eq same
    exact ⟨by rw [← hflush, flush], older e he e' he' same.symm free⟩

theorem BusLaw.of_shrinks {s t : State} (hs : BusLaw s) (slots : DistinctSlots s) (served : t.served = s.served)
    (shrinks : Shrinks s t) (bus : t.pbe.bus = s.pbe.bus) (lend : t.pbe.lendTimer = s.pbe.lendTimer) : BusLaw t :=
  hs.of_served served (fun _ he _ he' same free => shrinks.heldBack slots he he' same free) (by rw [bus])
    (by rw [bus]; exact hs.2.1) (by rw [bus, lend]; exact hs.2.2.2)

theorem BusLaw.of_entries {s t : State} (hs : BusLaw s) (slots : DistinctSlots s) (entries : t.trk.entries = s.trk.entries)
    (bus : t.pbe.bus = s.pbe.bus) (lend : t.pbe.lendTimer = s.pbe.lendTimer) : BusLaw t :=
  hs.of_shrinks slots (served_of_entries entries) (.of_eq (by rw [entries])) bus lend

/-- The context of a running segment may change where it keeps its entry and reports no other. -/
theorem BusLaw.of_context {s t : State} (hs : BusLaw s) (slots : DistinctSlots s) (entries : t.trk.entries = s.trk.entries)
    {x y : SegmentContext} (hx : s.pbe.bus = .segment x) (hy : t.pbe.bus = .segment y) (slot : y.slot = x.slot)
    (report : y.report = x.report ∨ ∃ q, y.report = some q ∧ q.slot = x.slot)
    (lend : t.pbe.lendTimer.isSome = s.pbe.lendTimer.isSome) : BusLaw t := by
  have shrinks : Shrinks s t := .of_eq (by rw [entries])
  refine hs.of_served (served_of_entries entries) (fun _ he _ he' same free => shrinks.heldBack slots he he' same free)
    ?_ ?_ ?_
  · rw [hx, hy, BusState.served, BusState.served, slot]
  · have reported := hs.2.1
    rw [hx] at reported
    rw [hy]
    simp only [BusState.reported, BusState.served, slot] at reported ⊢
    obtain h | ⟨q, h, hq⟩ := report
    · rwa [h]
    · simp [h, hq]
  · have lend' := hs.2.2.2
    rw [hx] at lend'
    rw [hy, lend, lend']
    exact ⟨nofun, nofun⟩

theorem BusLaw.joinReady {s : State} (hs : BusLaw s) (slots : DistinctSlots s) : BusLaw s.joinReady :=
  hs.of_entries slots (by rw [joinReady_spec]) (by simp) (by simp)

theorem BusLaw.settlePlace {s : State} (hs : BusLaw s) (slots : DistinctSlots s) : BusLaw s.settlePlace :=
  hs.of_entries slots (by simp) (by simp) (by simp)

theorem BusLaw.dispose {s : State} (hs : BusLaw s) (slots : DistinctSlots s) {p : Entry → Bool}
    (hp : ∀ (e : Entry) st, p { e with state := st } = p e) : BusLaw (s.dispose p) :=
  hs.of_shrinks slots (served_dispose slots hp) (Thins.dispose slots hp).shrinks (by simp) (by simp)

theorem BusLaw.depart {s : State} (hs : BusLaw s) (slots : DistinctSlots s) {e : Entry} (he : e ∈ s.trk.entries)
    (idle : e.isInSegment = false) : BusLaw (s.depart e) :=
  hs.of_shrinks slots (served_depart slots he idle) (depart_shrinks s e) (by simp) (by simp)

theorem Admits.heldBack {s u : State} {r : Request} {body : EntryBody} (h : Admits s r body u) (hs : DistinctSlots s) {e e' : Entry}
    (he : e ∈ s.trk.entries) (he' : e' ∈ u.trk.entries) (same : e'.identity = e.identity) (free : s.trk.heldBack e = false) :
    u.trk.heldBack e' = false := by
  have slot := (identity_eq same).1
  have mem : e ∈ u.trk.entries := by rw [h.entries]; exact List.mem_append_left _ he
  have heq : e' = e := slot_inj (h.slots hs) mem he' slot
  subst heq
  rwa [Tracker.heldBack, h.entries, olderThan_append he]

theorem BusLaw.admits {s u : State} {r : Request} {body : EntryBody} (hs : BusLaw s) (slots : DistinctSlots s)
    (h : Admits s r body u) (bus : u.pbe = s.pbe) : BusLaw u :=
  hs.of_served h.served (fun _ he _ he' same free => h.heldBack slots he he' same free) (by rw [bus])
    (by rw [bus]; exact hs.2.1) (by rw [bus]; exact hs.2.2.2)

/-- An evaluation of the arbiter begins the segment of an eligible entry, which no older entry of its pair precedes (R94). -/
theorem BusLaw.arbitrate {s : State} (hs : BusLaw s) (slots : DistinctSlots s) : BusLaw s.arbitrate := by
  obtain h | ⟨-, idle, -, h⟩ | ⟨e, x, -, idle, -, chosen, body, waiting, mem, h⟩ := arbitrate_cases s
  · rwa [h]
  · obtain ⟨hserved, -, hfirst, -⟩ := hs
    rw [h]
    rw [idle] at hserved
    exact ⟨hserved, nofun, hfirst, by simp⟩
  · obtain ⟨hserved, -, -, hlend⟩ := hs
    rw [idle] at hserved hlend
    have none : ∀ f ∈ s.trk.entries, f.isInSegment = false := fun f hf => by
      by_contra hi
      have : f.slot ∈ ([] : List Slot) := by
        rw [← show _ = [] from hserved]
        exact List.mem_map_of_mem (List.mem_filter.mpr ⟨hf, by simpa using hi⟩)
      cases this
    have eligible := (chosen_spec chosen).2
    obtain ⟨y, hy, -, first, -⟩ := (eligible_iff s e).mp eligible
    rw [body] at hy
    cases hy
    have free : s.trk.heldBack e = false := by
      simp only [Tracker.heldBack, List.any_eq_false, Bool.and_eq_true, decide_eq_true_eq, not_and]
      intro f hf hi ht
      refine first f hf hi (ht.trans ?_)
      simp [Entry.target, Entry.transfer, body]
    have moved : ∀ f' ∈ s.arbitrate.trk.entries, f'.isInSegment = true → f' = { e with state := .inSegment false } := by
      intro f' hf' hi
      rw [h] at hf'
      obtain ⟨f, hf, rfl⟩ := List.mem_map.mp hf'
      split
      · next hslot => rw [slot_inj slots mem hf hslot]
      · next hslot => rw [if_neg hslot, none f hf] at hi; cases hi
    have shrinks : Shrinks s s.arbitrate := (Thins.arbitrate s).shrinks
    have here : { e with state := .inSegment false } ∈ s.arbitrate.trk.entries := by
      rw [h]
      exact List.mem_map.mpr ⟨e, mem, if_pos rfl⟩
    refine ⟨?_, ?_, fun f' hf' hi => ?_, ?_⟩
    · have only : (s.arbitrate.trk.entries.filter Entry.isInSegment) = [{ e with state := .inSegment false }] := by
        have distinct : (s.arbitrate.trk.entries.filter Entry.isInSegment).Nodup :=
          .of_map _ ((List.filter_sublist.map Entry.slot).nodup (shrinks.slots slots))
        refine List.perm_singleton.mp ((List.perm_ext_iff_of_nodup distinct (List.nodup_singleton _)).mpr fun f' => ?_)
        rw [List.mem_filter, List.mem_singleton]
        exact ⟨fun ⟨hf', hi⟩ => moved f' hf' hi, fun hf' => by rw [hf']; exact ⟨here, rfl⟩⟩
      rw [only, h]
      simp [BusState.served, contextOf]
    · rw [h]
      simp [BusState.reported, contextOf]
    · rw [moved f' hf' hi]
      exact ⟨by simp [Entry.isFlush, body], shrinks.heldBack slots mem here rfl free⟩
    · rw [h]
      simpa using hlend

/-- What disposal leaves is joined, settled and looked at by the arbiter. -/
theorem BusLaw.disposed {s : State} (hs : BusLaw s) (slots : DistinctSlots s) {p : Entry → Bool}
    (hp : ∀ (e : Entry) st, p { e with state := st } = p e) : BusLaw ((s.dispose p).joinReady.settlePlace).arbitrate := by
  have distinct : DistinctSlots (s.dispose p) := (Thins.dispose slots hp).slots slots
  have joined : DistinctSlots (s.dispose p).joinReady := (Thins.joinReady _).slots distinct
  exact (((hs.dispose slots hp).joinReady distinct).settlePlace joined).arbitrate (by simpa [DistinctSlots] using joined)

/-! ## The end of a segment (R106) -/

/-- No entry is IN_SEGMENT. -/
abbrev NoneServed (s : State) : Prop := ∀ f ∈ s.trk.entries, f.isInSegment = false

theorem noneServed_judgeFlushes {s : State} (hs : DistinctSlots s) (h : NoneServed s) (i : Initiator) :
    NoneServed (s.judgeFlushes i) := by
  intro f hf
  rw [judgeFlushes_eq hs i rfl] at hf
  obtain ⟨g, hg, rfl⟩ := List.mem_map.mp hf
  unfold Entry.flushDone
  split
  · rfl
  · exact h g hg

theorem noneServed_leaves {s : State} (hs : DistinctSlots s) {e : Entry}
    (others : ∀ f ∈ s.trk.entries, f.slot ≠ e.slot → f.isInSegment = false) (i : Initiator) :
    NoneServed ((s.depart e).judgeFlushes i) := by
  refine noneServed_judgeFlushes ((depart_shrinks s e).slots hs) (fun f hf => ?_) i
  obtain ⟨mem, slot⟩ := List.mem_filter.mp hf
  exact others f mem (of_decide_eq_true slot)

theorem noneServed_finishPosted {s : State} (hs : DistinctSlots s) {e : Entry}
    (others : ∀ f ∈ s.trk.entries, f.slot ≠ e.slot → f.isInSegment = false) (x : Transfer) (o : EntryOutcome) :
    NoneServed (s.finishPosted e x o) := by
  cases o with
  | ok => exact noneServed_leaves hs others _
  | timeout | offline => exact noneServed_leaves (s := s.recordFault _ _ _ _) hs others _

theorem stateAfterSegment_not_inSegment (x : Transfer) (timedOut : Bool) (e : Entry) (body : EntryBody) :
    Entry.isInSegment { e with body := body, state := stateAfterSegment x timedOut } = false := by
  unfold stateAfterSegment
  split_ifs <;> rfl

theorem noneServed_endSegmentOf {s : State} (hs : DistinctSlots s) {e : Entry} (inSegment : e.isInSegment = true)
    (flush : e.isFlush = false) (others : ∀ f ∈ s.trk.entries, f.slot ≠ e.slot → f.isInSegment = false) (r : SegmentReport) :
    NoneServed (s.endSegmentOf r e) := by
  unfold State.endSegmentOf
  split
  · unfold State.removeDropped
    split
    · exact noneServed_leaves hs others _
    · intro f hf
      obtain ⟨mem, slot⟩ := List.mem_filter.mp hf
      exact others f mem (of_decide_eq_true slot)
  · unfold State.takeReport
    dsimp only
    split
    · refine noneServed_finishPosted hs ?_ _ _
      exact others
    · intro f hf
      obtain ⟨g, hg, rfl⟩ := List.mem_map.mp hf
      split
      · exact stateAfterSegment_not_inSegment _ _ _ _
      · next slot => exact others g hg slot
  · next none =>
    unfold Entry.transfer at none
    unfold Entry.isFlush at flush
    split at none <;> simp_all
  · next waiting => rw [not_inSegment_of_waiting waiting] at inSegment; cases inSegment
  · next done => rw [not_inSegment_of_done done] at inSegment; cases inSegment

theorem BusLaw.of_noneServed {t : State} (nobody : NoneServed t) (bus : t.pbe.bus = .idle)
    (lend : t.pbe.lendTimer = none) : BusLaw t := by
  refine ⟨?_, by rw [bus]; exact nofun, fun e he hi => ?_, by simp [bus, lend]⟩
  · rw [bus, List.filter_eq_nil_iff.mpr fun e he => by simp [nobody e he]]
    rfl
  · rw [nobody e he] at hi; cases hi

/-- The report of a running segment names the entry IN_SEGMENT, and there is no other. -/
theorem BusLaw.reported {s : State} (hs : BusLaw s) {x : SegmentContext} {report : SegmentReport}
    (bus : s.pbe.bus = .segment x) (handed : x.report = some report) :
    s.pbe.lendTimer = none ∧ ∃ e ∈ s.trk.entries, e.slot = report.slot ∧ e.isInSegment = true ∧ e.isFlush = false ∧
      ∀ f ∈ s.trk.entries, f.slot ≠ e.slot → f.isInSegment = false := by
  obtain ⟨hserved, hreported, hfirst, hlend⟩ := hs
  rw [bus] at hserved hreported hlend
  have slot : report.slot = x.slot := by simpa [BusState.reported, BusState.served, handed] using hreported
  have mem : x.slot ∈ (s.trk.entries.filter Entry.isInSegment).map Entry.slot := by rw [hserved]; exact List.mem_singleton_self _
  obtain ⟨e, he, heslot⟩ := List.mem_map.mp mem
  obtain ⟨he, hi⟩ := List.mem_filter.mp he
  refine ⟨by simpa using hlend, e, he, heslot.trans slot.symm, hi, (hfirst e he hi).1, fun f hf other => ?_⟩
  by_contra hfi
  have : f.slot ∈ (s.trk.entries.filter Entry.isInSegment).map Entry.slot :=
    List.mem_map_of_mem (List.mem_filter.mpr ⟨hf, by simpa using hfi⟩)
  rw [hserved] at this
  exact other ((List.mem_singleton.mp this).trans heslot.symm)

theorem powerOn_busLaw {boot : Boot} {pins : Pins} {pending : List Instr} : BusLaw (.powerOn boot pins pending) :=
  .of_noneServed (fun f hf => by simp [State.powerOn, Tracker.powerOn] at hf) (by simp [State.powerOn, BusEngine.powerOn])
    (by simp [State.powerOn, BusEngine.powerOn])

/-! ## Every effect -/

theorem Effect.keeps_busLaw {s t : State} {c : Instr} (h : Effect s c t) (slots : DistinctSlots s) (hs : BusLaw s) :
    BusLaw t := by
  cases h with
  | porstAsserted ns => exact powerOn_busLaw
  | porstReleased => exact powerOn_busLaw
  | runMoved c x r bus running => exact hs.of_context (y := x.withRun (some r)) slots (by simp) bus rfl rfl (.inl rfl) (by simp)
  | cycleEnded x r result bus running =>
    obtain ⟨slot, -, -, report⟩ := endCycle_kept x r result
    obtain ⟨slot2, -, -, report2⟩ := proceed_kept (x.endCycle r result) s.tgt[x.target] (s.trk.dataAt x.slot)
    refine hs.of_context slots (by simp) bus (s.endCycle_pbe_bus x r result) (slot2.trans slot) ?_ (by simp)
    rwa [report, slot] at report2
  | resumed t x bus waits =>
    exact hs.of_context slots rfl bus rfl (beginCycle_slot ..) (.inl (beginCycle_report ..)) rfl
  | busReturned n again lent =>
    obtain ⟨hserved, -⟩ := hs
    rw [lent] at hserved
    refine BusLaw.arbitrate (.of_noneServed (fun f hf => ?_) rfl rfl) slots
    have := List.filter_eq_nil_iff.mp (List.map_eq_nil_iff.mp hserved) f hf
    simpa using this
  | reported x report e bus handed mem slot =>
    obtain ⟨lend, f, hf, hslot, inSegment, flush, others⟩ := hs.reported bus handed
    obtain rfl : e = f := slot_inj slots hf mem (slot.trans hslot.symm)
    have ended : NoneServed (State.endSegmentOf { s with pbe := { s.pbe with bus := .idle } } report e) :=
      noneServed_endSegmentOf (s := { s with pbe := { s.pbe with bus := .idle } }) slots inSegment flush others report
    have thins := Thins.endSegmentOf (s := { s with pbe := { s.pbe with bus := .idle } }) slots mem report
    exact (BusLaw.of_noneServed (t := State.joinReady _) ended (by simp) (by simpa using lend)).arbitrate (thins.slots slots)
  | reportStale x report bus handed gone =>
    obtain ⟨-, f, hf, hslot, -⟩ := hs.reported bus handed
    exact absurd hslot (gone f hf)
  | admitted c r k i p kind passes decoded =>
    have admits := admits_transfer kind passes decoded
    exact (hs.admits slots admits rfl).arbitrate (admits.slots slots)
  | flushed r kind passes =>
    have admits := admits_flush kind passes
    have thins := Thins.judgeFlushes (admits.slots slots) r.initiator
    exact (hs.admits slots admits rfl).of_shrinks (admits.slots slots) (served_judgeFlushes (admits.slots slots) _)
      thins.shrinks (by simp) (by simp)
  | detached r =>
    have begun : BusLaw (s.popHead.detachBegun r.initiator r.tag) := hs.of_entries slots rfl rfl rfl
    exact begun.disposed (p := fun e => decide (e.initiator = r.initiator)) slots fun _ _ => rfl
  | entryHanded e o rest head mem done =>
    have handed : BusLaw (s.handAnswer (e.response o)) := hs.of_entries slots rfl rfl rfl
    have thins := Thins.depart (s := s.handAnswer (e.response o)) slots mem rfl fun _ => rfl
    exact ((handed.depart slots mem (not_inSegment_of_done done)).joinReady (thins.slots slots)).arbitrate
      (((thins.trans (.joinReady _))).slots slots)
  | trkReset =>
    have cleared : BusLaw { s with
        trk := { s.trk with faults := Vector.replicate 4 none }
        handed := { s.handed with trkResets := s.handed.trkResets - 1 } } := hs.of_entries slots rfl rfl rfl
    exact cleared.disposed (p := fun _ => true) slots fun _ _ => rfl
  | announced t a left =>
    have thins := Thins.announced slots a left
    have failed := hs.of_shrinks slots (announced_served slots a left) thins.shrinks (by simp) (by simp)
    exact (failed.joinReady (thins.slots slots)).arbitrate ((thins.trans (.joinReady _)).slots slots)
  | committed x records u runs pass =>
    obtain ⟨bus, lend⟩ := committed_pbe pass
    have entries : u.trk.entries = s.trk.entries := commitPass_entries pass
    exact (hs.of_entries slots (by simp [entries]) (by simp [bus]) (by simp [lend])).arbitrate
      (by simpa [DistinctSlots, entries] using slots)
  | initialized | expiredIdle | extreqTaken | completed | timedOut | wentOffline =>
    exact (hs.of_entries slots (by simp) (by simp) (by simp)).arbitrate (by simpa [DistinctSlots] using slots)
  | _ => exact hs.of_entries slots (by simp) (by simp) (by simp)

theorem BusLaw.clocked {s : State} (hs : BusLaw s) (slots : DistinctSlots s) {due : List Instr} :
    BusLaw { s.counted with pending := due } := by
  have lend : (s.pbe.lendTimer.map lendClocked).isSome = s.pbe.lendTimer.isSome := Option.isSome_map
  cases bus : s.pbe.bus with
  | segment x =>
    exact hs.of_context (y := x.withRun (x.run.map CycleRun.clocked)) slots rfl bus
      (by simp [State.counted, BusEngine.clocked, BusState.clocked, bus]) rfl (.inl rfl) lend
  | idle | lent =>
    have hbus : s.counted.pbe.bus = s.pbe.bus := by simp [State.counted, BusEngine.clocked, BusState.clocked, bus]
    refine hs.of_served (served_of_entries rfl) (fun e he e' he' same free => ?_) (by rw [hbus]) (by rw [hbus, bus]; exact nofun) ?_
    · rw [slot_inj slots he he' (identity_eq same).1]
      exact free
    · rw [hbus]
      exact (Bool.eq_iff_iff.mp lend).trans hs.2.2.2

/-- Settles O55: the arbiter alone begins a segment, with the bus IDLE and for an entry that none of its pair precedes; the
entry served leaves IN_SEGMENT only with the report that takes the bus IDLE. -/
theorem stepKeepsBusLaw : Obligations.StepKeepsBusLaw := by
  intro s t htracker hs h
  obtain ⟨-, -, slots, -⟩ := htracker
  obtain rfl | ⟨c, rest, heffect⟩ := step_cases h
  · obtain htick | htick := clockTick_cases s <;> rw [htick]
    · exact hs
    · exact hs.clocked slots
  · exact heffect.keeps_busLaw slots hs

end Sys2Proof.Machine

/-! The law of the answer list (R53, R56, R60, R64, R127). What an operation on the tracker keeps of it is `AnswersSound`
and `FlushesWait`; the joining of ready answers completes it. -/

namespace Sys2Proof.Machine

/-! ## The law in parts -/

/-- Every place of the answer list is one that may be in it, and in its order. -/
structure AnswersSound (s : State) : Prop where
  places : (s.trk.answers.filter Answer.isPlace).Nodup
  named : ∀ slot, Answer.entry slot ∈ s.trk.answers →
    ∃ e ∈ s.trk.entries, e.slot = slot ∧ e.isDone = true ∧ s.trk.answerHeld e = false
  ordered : ∀ e ∈ s.trk.entries, ∀ f ∈ olderThan s.trk.entries e.slot, f.answersBefore e = true →
    Answer.entry e.slot ∈ s.trk.answers → [Answer.entry f.slot, Answer.entry e.slot].Sublist s.trk.answers
  detaches : ∀ i, Answer.detached i ∈ s.trk.answers → s.trk.detaches[i].isSome = true ∧ s.trk.entriesOf i = []
  posted : ∀ e ∈ s.trk.entries, e.isPosted = true → e.isDone = false

/-- A FLUSH waits behind an older POSTED entry of its initiator (R60). -/
abbrev BehindPosted (s : State) (e : Entry) : Prop :=
  ∃ f ∈ olderThan s.trk.entries e.slot, f.initiator = e.initiator ∧ f.isPosted = true

/-- Every waiting FLUSH does. -/
abbrev FlushesWait (s : State) : Prop :=
  ∀ e ∈ s.trk.entries, e.isFlush = true → e.state = .waiting → BehindPosted s e

/-- Every answer that is ready is in the list. -/
structure AnswersComplete (s : State) : Prop where
  entries : ∀ e ∈ s.trk.entries, e.isDone = true → s.trk.answerHeld e = false → Answer.entry e.slot ∈ s.trk.answers
  detaches : ∀ i : Initiator, s.trk.detaches[i].isSome = true → s.trk.entriesOf i = [] → Answer.detached i ∈ s.trk.answers

theorem answerLaw_iff (s : State) : AnswerLaw s ↔ AnswersSound s ∧ FlushesWait s ∧ AnswersComplete s := by
  constructor
  · rintro ⟨places, named, ordered, detaches, flushes, posted⟩
    exact ⟨⟨places, fun slot => (named slot).mp, ordered, fun i => (detaches i).mp, posted⟩, flushes,
      ⟨fun e he done free => (named e.slot).mpr ⟨e, he, rfl, done, free⟩, fun i some gone => (detaches i).mpr ⟨some, gone⟩⟩⟩
  · rintro ⟨⟨places, named, ordered, detaches, posted⟩, flushes, ⟨all, allDetaches⟩⟩
    refine ⟨places, fun slot => ⟨named slot, ?_⟩, ordered, fun i => ⟨detaches i, fun ⟨h, h2⟩ => allDetaches i h h2⟩, flushes,
      posted⟩
    rintro ⟨e, he, rfl, done, free⟩
    exact all e he done free

theorem AnswerLaw.of_trk {s t : State} (hs : AnswerLaw s) (entries : t.trk.entries = s.trk.entries)
    (answers : t.trk.answers = s.trk.answers) (detaches : t.trk.detaches = s.trk.detaches) : AnswerLaw t := by
  have htrk : t.trk =
      { s.trk with gate := t.trk.gate, faults := t.trk.faults, nextSerial := t.trk.nextSerial } := by
    cases ht : t.trk
    simp_all
  unfold AnswerLaw
  rw [htrk]
  exact hs

/-! ## Entries that leave -/

theorem older_mem {es : List Entry} {slot : Slot} {f : Entry} (h : f ∈ olderThan es slot) : f ∈ es :=
  List.takeWhile_subset _ h

theorem olderThan_trans {es : List Entry} {slot : Slot} {f g : Entry} (hf : f ∈ olderThan es slot)
    (hg : g ∈ olderThan es f.slot) : g ∈ olderThan es slot := by
  unfold olderThan at *
  induction es with
  | nil => cases hf
  | cons a es ih =>
    by_cases ha : a.slot = slot
    · simp [ha] at hf
    · rw [List.takeWhile_cons_of_pos (by simpa using ha)] at hf ⊢
      by_cases hfa : a.slot = f.slot
      · simp [hfa] at hg
      · rw [List.takeWhile_cons_of_pos (by simpa using hfa)] at hg
        have hf := (List.mem_cons.mp hf).resolve_left fun h => hfa (h ▸ rfl)
        obtain rfl | hg := List.mem_cons.mp hg
        · exact List.mem_cons_self
        · exact List.mem_cons_of_mem _ (ih hf hg)

theorem answerHeld_false_iff {t : Tracker} {e : Entry} :
    t.answerHeld e = false ↔
      ∀ f ∈ olderThan t.entries e.slot, f.initiator = e.initiator → f.target = e.target → f.owesAnswer = false := by
  rw [← Bool.not_eq_true, answerHeld_iff]
  simp only [not_exists, not_and, Bool.not_eq_true]

theorem AnswersSound.of_filter {s t : State} {keep : Entry → Bool} {q : Answer → Bool} (hs : AnswersSound s)
    (slots : DistinctSlots s) (entries : t.trk.entries = s.trk.entries.filter keep)
    (answers : t.trk.answers = s.trk.answers.filter q)
    (agree : ∀ e ∈ s.trk.entries, e.isDone = true → q (.entry e.slot) = keep e)
    (detaches : ∀ i : Initiator, q (.detached i) = true → s.trk.detaches[i].isSome = true → t.trk.detaches[i].isSome = true) :
    AnswersSound t := by
  have mem {e : Entry} : e ∈ t.trk.entries ↔ e ∈ s.trk.entries ∧ keep e = true := by rw [entries, List.mem_filter]
  have older {e : Entry} (he : e ∈ t.trk.entries) {f : Entry} (hf : f ∈ olderThan t.trk.entries e.slot) :
      f ∈ olderThan s.trk.entries e.slot := by
    obtain ⟨hes, hek⟩ := mem.mp he
    rw [entries, olderThan_filter fun g hg hslot => by rw [slot_inj slots hes hg hslot]; exact hek] at hf
    exact (List.mem_filter.mp hf).1
  have stays {e : Entry} (he : e ∈ t.trk.entries) (hans : Answer.entry e.slot ∈ s.trk.answers) : q (.entry e.slot) = true := by
    obtain ⟨hes, hek⟩ := mem.mp he
    obtain ⟨f, hf, hslot, done, -⟩ := hs.named _ hans
    rw [slot_inj slots hes hf hslot] at done
    rw [agree e hes done, hek]
  refine ⟨?_, fun slot hslot => ?_, fun e he f hf before hans => ?_, fun i hi => ?_, fun e he => hs.posted e (mem.mp he).1⟩
  · rw [answers, List.filter_filter, List.filter_congr fun a _ => Bool.and_comm .., ← List.filter_filter]
    exact hs.places.filter q
  · rw [answers] at hslot
    obtain ⟨hslot, hq⟩ := List.mem_filter.mp hslot
    obtain ⟨e, he, rfl, done, free⟩ := hs.named slot hslot
    have het := mem.mpr ⟨he, agree e he done ▸ hq⟩
    exact ⟨e, het, rfl, done, answerHeld_false_iff.mpr fun f hf => answerHeld_false_iff.mp free f (older het hf)⟩
  · rw [answers] at hans
    have sub := hs.ordered e (mem.mp he).1 f (older he hf) before (List.mem_filter.mp hans).1
    have hqe := stays he (sub.subset (by simp))
    have hqf := stays (older_mem hf) (sub.subset (by simp))
    have := sub.filter q
    rw [answers]
    simpa [hqe, hqf] using this
  · rw [answers] at hi
    obtain ⟨hi, hq⟩ := List.mem_filter.mp hi
    obtain ⟨some, gone⟩ := hs.detaches i hi
    refine ⟨detaches i hq some, ?_⟩
    rw [Tracker.entriesOf, List.filter_eq_nil_iff] at gone ⊢
    exact fun e he => gone e (mem.mp he).1

/-- An entry that is not DONE departs. -/
theorem AnswersSound.depart {s : State} (hs : AnswersSound s) (slots : DistinctSlots s) {e f : Entry} (hf : f ∈ s.trk.entries)
    (slot : f.slot = e.slot) (undone : f.isDone = false) : AnswersSound (s.depart e) := by
  refine hs.of_filter (q := fun _ => true) slots (s.depart_trk_entries e) (by simp) (fun g hg done => ?_) (by simp)
  have other : g.slot ≠ e.slot := fun hslot => by
    rw [slot_inj slots hf hg (hslot.trans slot.symm), undone] at done
    cases done
  simpa using other

/-! ## Entries that change -/

/-- What may become of an entry in the tracker between its admission and its departure, as its answer sees it. -/
structure EntryMoves (e e' : Entry) : Prop where
  identity : e'.identity = e.identity
  stays : e.isDone = true → e'.isDone = true
  becomes : e'.isDone = true → e.isDone = true ∨ e.owesAnswer = true ∨ e.isFlush = true
  owes : e'.owesAnswer = true → e.owesAnswer = true
  posted : e.isPosted = true → e.isDone = false → e'.isDone = false

theorem EntryMoves.refl (e : Entry) : EntryMoves e e := ⟨rfl, id, .inl, id, fun _ h => h⟩

theorem mem_olderThan_map {es : List Entry} {g : Entry → Entry} (hg : ∀ e ∈ es, (g e).slot = e.slot) {slot : Slot} {f' : Entry} :
    f' ∈ olderThan (es.map g) slot ↔ ∃ f ∈ olderThan es slot, g f = f' := by
  rw [olderThan_map hg, List.mem_map]

theorem AnswersSound.of_map {s t : State} {g : Entry → Entry} (hs : AnswersSound s)
    (slots : DistinctSlots s) (entries : t.trk.entries = s.trk.entries.map g) (answers : t.trk.answers = s.trk.answers)
    (detaches : t.trk.detaches = s.trk.detaches) (moves : ∀ e ∈ s.trk.entries, EntryMoves e (g e)) : AnswersSound t := by
  have gslot : ∀ e ∈ s.trk.entries, (g e).slot = e.slot := fun e he => (identity_eq (moves e he).identity).1
  have older {slot : Slot} {f' : Entry} : f' ∈ olderThan t.trk.entries slot ↔ ∃ f ∈ olderThan s.trk.entries slot, g f = f' := by
    rw [entries]; exact mem_olderThan_map gslot
  have pair {e : Entry} (he : e ∈ s.trk.entries) : (g e).initiator = e.initiator ∧ (g e).target = e.target ∧
      (g e).isFlush = e.isFlush := by
    obtain ⟨-, -, initiator, -, -, flush, -, target, -⟩ := identity_eq (moves e he).identity
    exact ⟨initiator, target, flush⟩
  refine ⟨by rw [answers]; exact hs.places, fun slot hslot => ?_, fun e' he' f' hf' before hans => ?_, fun i hi => ?_,
    fun e' he' hp => ?_⟩
  · obtain ⟨e, he, rfl, done, free⟩ := hs.named slot (answers ▸ hslot)
    refine ⟨g e, entries ▸ List.mem_map_of_mem he, gslot e he, (moves e he).stays done, answerHeld_false_iff.mpr ?_⟩
    intro f' hf' initiator target
    rw [gslot e he] at hf'
    obtain ⟨f, hf, rfl⟩ := older.mp hf'
    obtain ⟨fi, ft, -⟩ := pair (older_mem hf)
    obtain ⟨ei, et, -⟩ := pair he
    by_contra owes
    have := answerHeld_false_iff.mp free f hf (by rw [← fi, initiator, ei]) (by rw [← ft, target, et])
    rw [(moves f (older_mem hf)).owes (by simpa using owes)] at this
    cases this
  · rw [entries] at he'
    obtain ⟨e, he, rfl⟩ := List.mem_map.mp he'
    rw [gslot e he] at hf' hans ⊢
    obtain ⟨f, hf, rfl⟩ := older.mp hf'
    obtain ⟨fi, ft, fflush⟩ := pair (older_mem hf)
    obtain ⟨ei, et, -⟩ := pair he
    rw [gslot f (older_mem hf)]
    rw [answers] at hans ⊢
    simp only [Entry.answersBefore, Bool.and_eq_true, Bool.not_eq_true', decide_eq_true_eq, fi, ft, ei, et, fflush] at before
    obtain ⟨⟨⟨done, flush⟩, initiator⟩, target⟩ := before
    obtain ⟨e2, he2, hslot, edone, free⟩ := hs.named e.slot hans
    obtain rfl : e2 = e := slot_inj slots he he2 hslot
    have owes := answerHeld_false_iff.mp free f hf initiator target
    have fdone : f.isDone = true := by
      obtain h | h | h := (moves f (older_mem hf)).becomes done
      · exact h
      · rw [owes] at h; cases h
      · rw [flush] at h; cases h
    exact hs.ordered e2 he f hf (by simp [Entry.answersBefore, fdone, flush, initiator, target]) hans
  · rw [answers] at hi
    obtain ⟨some, gone⟩ := hs.detaches i hi
    refine ⟨by rw [detaches]; exact some, ?_⟩
    rw [Tracker.entriesOf, List.filter_eq_nil_iff] at gone ⊢
    intro e' he'
    rw [entries] at he'
    obtain ⟨e, he, rfl⟩ := List.mem_map.mp he'
    rw [(pair he).1]
    exact gone e he
  · rw [entries] at he'
    obtain ⟨e, he, rfl⟩ := List.mem_map.mp he'
    obtain ⟨-, -, -, -, posted, -⟩ := identity_eq (moves e he).identity
    rw [posted] at hp
    exact (moves e he).posted hp (hs.posted e he hp)

/-! ## The joining of ready answers -/

theorem sublist_pair_map_of_older {es : List Entry} (hn : (es.map Entry.slot).Nodup) {p : Entry → Bool} {e f : Entry} (he : e ∈ es)
    (hf : f ∈ olderThan es e.slot) (hpe : p e = true) (hpf : p f = true) :
    List.Sublist [Answer.entry f.slot, Answer.entry e.slot] ((es.filter p).map fun e => Answer.entry e.slot) := by
  have sub := ((mem_olderThan_iff hn he).mp hf).filter p
  simpa [hpe, hpf] using sub.map fun e => Answer.entry e.slot

theorem sublist_pair_append {α : Type} {l m : List α} {a b : α} (ha : a ∈ l) (hb : b ∈ m) : List.Sublist [a, b] (l ++ m) :=
  (List.singleton_sublist.mpr ha).append (List.singleton_sublist.mpr hb)

/-- The answers of entries that have become ready, in age order (R56). -/
def State.readyAnswers (s : State) : List Answer :=
  (s.trk.entries.filter fun e => e.isDone && !s.trk.answerHeld e && !answersEntry s.trk.answers e.slot).map
    fun e => Answer.entry e.slot

/-- The answers of detaches that have become ready (R64). -/
def State.readyDetaches (s : State) : List Answer :=
  ((List.finRange 4).filter fun i =>
    s.trk.detaches[i].isSome && (s.trk.entriesOf i).isEmpty && !s.trk.answers.contains (.detached i)).map Answer.detached

theorem joinReady_eq (s : State) :
    s.joinReady =
      { s with trk := { s.trk with answers := s.trk.answers ++ s.readyAnswers ++ s.readyDetaches } } := joinReady_spec s

theorem mem_readyAnswers {s : State} {slot : Slot} :
    Answer.entry slot ∈ s.readyAnswers ↔ ∃ e ∈ s.trk.entries, e.slot = slot ∧ e.isDone = true ∧
      s.trk.answerHeld e = false ∧ Answer.entry slot ∉ s.trk.answers := by
  simp only [State.readyAnswers, answersEntry, List.mem_map, List.mem_filter, Answer.entry.injEq, Bool.and_eq_true,
    Bool.not_eq_true', ← Bool.not_eq_true, List.contains_iff_mem]
  constructor
  · rintro ⟨e, ⟨he, ⟨done, free⟩, new⟩, rfl⟩
    exact ⟨e, he, rfl, done, free, new⟩
  · rintro ⟨e, he, rfl, done, free, new⟩
    exact ⟨e, ⟨he, ⟨done, free⟩, new⟩, rfl⟩

theorem mem_readyDetaches {s : State} {i : Initiator} :
    Answer.detached i ∈ s.readyDetaches ↔ s.trk.detaches[i].isSome = true ∧ s.trk.entriesOf i = [] ∧
      Answer.detached i ∉ s.trk.answers := by
  simp [State.readyDetaches, and_assoc, -Fin.getElem_fin]

theorem entry_of_readyAnswers {s : State} {a : Answer} (h : a ∈ s.readyAnswers) : ∃ slot, a = .entry slot := by
  obtain ⟨e, -, rfl⟩ := List.mem_map.mp h
  exact ⟨e.slot, rfl⟩

theorem detached_of_readyDetaches {s : State} {a : Answer} (h : a ∈ s.readyDetaches) : ∃ i, a = .detached i := by
  obtain ⟨i, -, rfl⟩ := List.mem_map.mp h
  exact ⟨i, rfl⟩

/-- The places of the list stay distinct. -/
theorem joined_places_nodup {s : State} (slots : DistinctSlots s) (places : (s.trk.answers.filter Answer.isPlace).Nodup) :
    ((s.trk.answers ++ s.readyAnswers ++ s.readyDetaches).filter Answer.isPlace).Nodup := by
  have entries : s.readyAnswers.filter Answer.isPlace = s.readyAnswers := List.filter_eq_self.mpr fun a ha => by
    obtain ⟨slot, rfl⟩ := entry_of_readyAnswers ha
    rfl
  have ends : s.readyDetaches.filter Answer.isPlace = s.readyDetaches := List.filter_eq_self.mpr fun a ha => by
    obtain ⟨i, rfl⟩ := detached_of_readyDetaches ha
    rfl
  have distinctReady : s.readyAnswers.Nodup := by
    have bySlot : s.readyAnswers = ((s.trk.entries.filter fun e =>
        e.isDone && !s.trk.answerHeld e && !answersEntry s.trk.answers e.slot).map Entry.slot).map Answer.entry := by
      rw [List.map_map]; rfl
    rw [bySlot]
    exact ((List.filter_sublist.map _).nodup slots).map fun a b h => Answer.entry.inj h
  have distinctEnds : s.readyDetaches.Nodup := ((List.nodup_finRange 4).filter _).map fun a b h => Answer.detached.inj h
  simp only [List.filter_append, entries, ends, List.nodup_append]
  refine ⟨⟨places, distinctReady, ?_⟩, distinctEnds, ?_⟩
  · rintro a ha _ hb rfl
    obtain ⟨slot, rfl⟩ := entry_of_readyAnswers hb
    obtain ⟨-, -, -, -, -, new⟩ := mem_readyAnswers.mp hb
    exact new (List.mem_filter.mp ha).1
  · rintro a ha _ hb rfl
    obtain ⟨i, rfl⟩ := detached_of_readyDetaches hb
    obtain ⟨-, -, new⟩ := mem_readyDetaches.mp hb
    obtain h | h := List.mem_append.mp ha
    · exact new (List.mem_filter.mp h).1
    · obtain ⟨slot, h⟩ := entry_of_readyAnswers h
      cases h

/-- The joining completes the list, and the answers it adds keep the order of admission (R53, R56, R64, R127). -/
theorem AnswersSound.joinReady {s : State} (hs : AnswersSound s) (slots : DistinctSlots s) (flushes : FlushesWait s) :
    AnswerLaw s.joinReady := by
  rw [answerLaw_iff, joinReady_eq]
  have entryMem {slot : Slot} : Answer.entry slot ∈ s.trk.answers ++ s.readyAnswers ++ s.readyDetaches ↔
      Answer.entry slot ∈ s.trk.answers ∨ Answer.entry slot ∈ s.readyAnswers := by
    simp [State.readyDetaches]
  have detachMem {i : Initiator} : Answer.detached i ∈ s.trk.answers ++ s.readyAnswers ++ s.readyDetaches ↔
      Answer.detached i ∈ s.trk.answers ∨ Answer.detached i ∈ s.readyDetaches := by
    simp [State.readyAnswers]
  refine ⟨⟨joined_places_nodup slots hs.places, fun slot hslot => ?_, fun e he f hf before hans => ?_, fun i hi => ?_,
    hs.posted⟩, flushes, ?_, ?_⟩
  · obtain h | h := entryMem.mp hslot
    · exact hs.named slot h
    · obtain ⟨e, he, hslot, done, free, -⟩ := mem_readyAnswers.mp h
      exact ⟨e, he, hslot, done, free⟩
  · obtain h | h := entryMem.mp hans
    · exact (hs.ordered e he f hf before h).trans (by rw [List.append_assoc]; exact List.sublist_append_left _ _)
    · obtain ⟨e2, he2, hslot, done, free, new⟩ := mem_readyAnswers.mp h
      obtain rfl : e2 = e := slot_inj slots he he2 hslot
      simp only [Entry.answersBefore, Bool.and_eq_true, decide_eq_true_eq] at before
      obtain ⟨⟨⟨fdone, -⟩, initiator⟩, target⟩ := before
      have ffree : s.trk.answerHeld f = false := answerHeld_false_iff.mpr fun g hg gi gt =>
        answerHeld_false_iff.mp free g (olderThan_trans hf hg) (gi.trans initiator) (gt.trans target)
      have isNew {slot : Slot} (h : Answer.entry slot ∉ s.trk.answers) : answersEntry s.trk.answers slot = false := by
        rw [answersEntry, ← Bool.not_eq_true, List.contains_iff_mem]
        exact h
      refine List.Sublist.trans ?_ (List.sublist_append_left _ s.readyDetaches)
      by_cases hfa : Answer.entry f.slot ∈ s.trk.answers
      · exact sublist_pair_append hfa h
      · exact (sublist_pair_map_of_older slots he hf (by simp [done, free, isNew new])
          (by simp [fdone, ffree, isNew hfa])).trans (List.sublist_append_right _ _)
  · obtain h | h := detachMem.mp hi
    · exact hs.detaches i h
    · obtain ⟨some, gone, -⟩ := mem_readyDetaches.mp h
      exact ⟨some, gone⟩
  · intro e he done free
    by_cases h : Answer.entry e.slot ∈ s.trk.answers
    · exact entryMem.mpr (.inl h)
    · exact entryMem.mpr (.inr (mem_readyAnswers.mpr ⟨e, he, rfl, done, free, h⟩))
  · intro i some gone
    by_cases h : Answer.detached i ∈ s.trk.answers
    · exact detachMem.mpr (.inl h)
    · exact detachMem.mpr (.inr (mem_readyDetaches.mpr ⟨some, gone, h⟩))

end Sys2Proof.Machine

/-! What each operation on the tracker keeps of the law of the answer list, and the law itself (R53, R56, R60, R64,
R127). -/

namespace Sys2Proof.Machine

/-! ## FLUSH entries that wait (R60) -/

theorem FlushesWait.of_filter {s t : State} {keep : Entry → Bool} (hs : FlushesWait s) (slots : DistinctSlots s)
    (entries : t.trk.entries = s.trk.entries.filter keep)
    (agree : ∀ e ∈ s.trk.entries, ∀ f ∈ s.trk.entries, e.isFlush = true → e.state = .waiting →
      keep e = true → f.isPosted = true → f.initiator = e.initiator → keep f = true) : FlushesWait t := by
  intro e he flush waiting
  rw [entries] at he
  obtain ⟨he, hk⟩ := List.mem_filter.mp he
  obtain ⟨f, hf, initiator, posted⟩ := hs e he flush waiting
  refine ⟨f, ?_, initiator, posted⟩
  rw [entries, olderThan_filter fun g hg hslot => by rw [slot_inj slots he hg hslot]; exact hk]
  exact List.mem_filter.mpr ⟨hf, agree e he f (older_mem hf) flush waiting hk posted initiator⟩

theorem behindPosted_of_map {s t : State} {g : Entry → Entry} (entries : t.trk.entries = s.trk.entries.map g)
    (same : ∀ e ∈ s.trk.entries, (g e).identity = e.identity) {e : Entry} (he : e ∈ s.trk.entries) (h : BehindPosted s e) :
    BehindPosted t (g e) := by
  obtain ⟨f, hf, initiator, posted⟩ := h
  have slot : ∀ e ∈ s.trk.entries, (g e).slot = e.slot := fun e he => (identity_eq (same e he)).1
  obtain ⟨-, -, finit, -, fposted, -⟩ := identity_eq (same f (older_mem hf))
  obtain ⟨-, -, einit, -⟩ := identity_eq (same e he)
  refine ⟨g f, ?_, by rw [finit, einit, initiator], by rw [fposted, posted]⟩
  rw [entries, slot e he, mem_olderThan_map slot]
  exact ⟨f, hf, rfl⟩

theorem FlushesWait.of_map {s t : State} {g : Entry → Entry} (hs : FlushesWait s)
    (entries : t.trk.entries = s.trk.entries.map g) (same : ∀ e ∈ s.trk.entries, (g e).identity = e.identity)
    (waits : ∀ e ∈ s.trk.entries, e.isFlush = true → (g e).state = .waiting → e.state = .waiting) : FlushesWait t := by
  intro e' he' flush waiting
  rw [entries] at he'
  obtain ⟨e, he, rfl⟩ := List.mem_map.mp he'
  obtain ⟨-, -, -, -, -, hflush, -⟩ := identity_eq (same e he)
  rw [hflush] at flush
  exact behindPosted_of_map entries same he (hs e he flush (waits e he flush waiting))

/-! ## The judging of FLUSH entries -/

/-- The FLUSH entries of an initiator that are ready (R60). -/
def Tracker.dueFlushes (t : Tracker) (i : Initiator) : List Entry :=
  t.entries.filter fun e => decide (e.initiator = i) && t.flushReady e

theorem mem_dueFlushes {t : Tracker} {i : Initiator} {e : Entry} :
    e ∈ t.dueFlushes i ↔ e ∈ t.entries ∧ e.initiator = i ∧ t.flushReady e = true := by
  simp [Tracker.dueFlushes]

theorem flushDone_identity {t : Tracker} {i : Initiator} {r : Option FaultRecord} (e : Entry) :
    (Entry.flushDone (t.dueFlushes i) r e).identity = e.identity := by
  unfold Entry.flushDone
  split
  · next he =>
    obtain ⟨-, -, ready⟩ := mem_dueFlushes.mp he
    obtain ⟨flush, -⟩ := flushReady_spec ready
    exact identity_flush e flush _ _
  · rfl

theorem flushDone_moves {t : Tracker} {i : Initiator} {r : Option FaultRecord} (e : Entry) :
    EntryMoves e (Entry.flushDone (t.dueFlushes i) r e) := by
  have same := flushDone_identity (t := t) (i := i) (r := r) e
  unfold Entry.flushDone at same ⊢
  split
  · next he =>
    obtain ⟨-, -, ready⟩ := mem_dueFlushes.mp he
    obtain ⟨flush, waiting, -⟩ := flushReady_spec ready
    refine ⟨by rwa [if_pos he] at same, fun _ => rfl, fun _ => .inr (.inr flush), nofun, fun posted => ?_⟩
    unfold Entry.isFlush at flush
    unfold Entry.isPosted at posted
    split at flush <;> simp_all
  · exact .refl e

theorem AnswersSound.judgeFlushes {s : State} (hs : AnswersSound s) (slots : DistinctSlots s) (i : Initiator) :
    AnswersSound (s.judgeFlushes i) := by
  rw [judgeFlushes_eq slots i (due := s.trk.dueFlushes i) rfl]
  exact hs.of_map slots rfl rfl rfl fun e _ => flushDone_moves e

/-- After the judging of an initiator's FLUSH entries, one that still waits does so behind a POSTED entry. -/
theorem flushesWait_judgeFlushes {s : State} (slots : DistinctSlots s) {i : Initiator}
    (others : ∀ e ∈ s.trk.entries, e.isFlush = true → e.state = .waiting → e.initiator ≠ i → BehindPosted s e) :
    FlushesWait (s.judgeFlushes i) := by
  rw [judgeFlushes_eq slots i (due := s.trk.dueFlushes i) rfl]
  intro e' he' flush waiting
  obtain ⟨e, he, rfl⟩ := List.mem_map.mp he'
  have same := fun e (_ : e ∈ s.trk.entries) => flushDone_identity (t := s.trk) (i := i) (r := s.trk.faults[i]) e
  refine behindPosted_of_map rfl same he ?_
  obtain ⟨-, -, -, -, -, hflush, -⟩ := identity_eq (same e he)
  by_cases due : e ∈ s.trk.dueFlushes i
  · rw [Entry.flushDone, if_pos due] at waiting
    cases waiting
  · rw [Entry.flushDone, if_neg due] at flush waiting
    by_cases hi : e.initiator = i
    · have notReady : s.trk.flushReady e = false := by
        by_contra h
        exact due (mem_dueFlushes.mpr ⟨he, hi, by simpa using h⟩)
      simp only [Tracker.flushReady, flush, waiting, decide_true, Bool.true_and, Bool.not_eq_false', List.any_eq_true,
        Bool.and_eq_true, decide_eq_true_eq] at notReady
      exact notReady
    · exact others e he flush waiting hi

/-! ## What operations keep -/

/-- The part of the law that holds between the parts of one command. -/
abbrev AnswersKept (s : State) : Prop := AnswersSound s ∧ FlushesWait s

theorem AnswersKept.joinReady {s : State} (hs : AnswersKept s) (slots : DistinctSlots s) : AnswerLaw s.joinReady :=
  hs.1.joinReady slots hs.2

theorem AnswersKept.of_trk {s t : State} (hs : AnswersKept s) (entries : t.trk.entries = s.trk.entries)
    (answers : t.trk.answers = s.trk.answers) (detaches : t.trk.detaches = s.trk.detaches) : AnswersKept t := by
  obtain ⟨gate, faults, serial, htrk⟩ : ∃ gate faults serial,
      t.trk = { s.trk with gate := gate, faults := faults, nextSerial := serial } :=
    ⟨t.trk.gate, t.trk.faults, t.trk.nextSerial, tracker_ext entries rfl rfl answers detaches rfl⟩
  obtain ⟨⟨places, named, ordered, hdetaches, posted⟩, flushes⟩ := hs
  refine ⟨⟨?_, ?_, ?_, ?_, ?_⟩, ?_⟩ <;> simp only [FlushesWait, BehindPosted, htrk] <;> assumption

/-- An entry that is not DONE departs, and with it its initiator's FLUSH entries are judged. -/
theorem AnswersKept.departJudge {s : State} (hs : AnswersKept s) (slots : DistinctSlots s) {e f : Entry} (hf : f ∈ s.trk.entries)
    (slot : f.slot = e.slot) (initiator : f.initiator = e.initiator) (undone : f.isDone = false) :
    AnswersKept ((s.depart e).judgeFlushes e.initiator) := by
  have distinct := (depart_shrinks s e).slots slots
  refine ⟨(hs.1.depart slots hf slot undone).judgeFlushes distinct _, flushesWait_judgeFlushes distinct ?_⟩
  intro g hg flush waiting other
  obtain ⟨hg, hgs⟩ := List.mem_filter.mp hg
  obtain ⟨h, hh, hinit, posted⟩ := hs.2 g hg flush waiting
  refine ⟨h, ?_, hinit, posted⟩
  rw [State.depart_trk_entries, olderThan_filter fun k hk hslot => by rw [slot_inj slots hg hk hslot]; exact hgs]
  refine List.mem_filter.mpr ⟨hh, decide_eq_true fun hslot => other ?_⟩
  rw [← hinit, slot_inj slots hf (older_mem hh) (hslot.trans slot.symm), initiator]

theorem AnswersKept.finishPosted {s : State} (hs : AnswersKept s) (slots : DistinctSlots s) {e f : Entry} (hf : f ∈ s.trk.entries)
    (slot : f.slot = e.slot) (initiator : f.initiator = e.initiator) (undone : f.isDone = false) (x : Transfer)
    (o : EntryOutcome) : AnswersKept (s.finishPosted e x o) := by
  cases o with
  | ok => exact hs.departJudge slots hf slot initiator undone
  | timeout | offline =>
    exact AnswersKept.departJudge (s := s.recordFault _ _ _ _) (hs.of_trk rfl rfl rfl) slots hf slot initiator undone

/-- One entry changes. -/
theorem AnswersKept.changeEntry {s : State} (hs : AnswersKept s) (slots : DistinctSlots s) {e : Entry} (he : e ∈ s.trk.entries)
    {g : Entry → Entry} (moves : EntryMoves e (g e)) (flush : e.isFlush = false) :
    AnswersKept { s with trk := { s.trk with entries := Machine.changeEntry s.trk.entries e.slot g } } := by
  have all : ∀ f ∈ s.trk.entries, EntryMoves f (if f.slot = e.slot then g f else f) := fun f hf => by
    split
    · next hslot => rw [slot_inj slots he hf hslot]; exact moves
    · exact .refl f
  refine ⟨hs.1.of_map slots rfl rfl rfl all, FlushesWait.of_map hs.2 rfl (fun f hf => (all f hf).identity) fun f hf hflush hw => ?_⟩
  split at hw
  · next hslot => rw [slot_inj slots he hf hslot, flush] at hflush; cases hflush
  · exact hw

theorem not_done_of_waiting {e : Entry} (h : e.state = .waiting) : e.isDone = false := by
  unfold Entry.isDone
  rw [h]

theorem not_done_of_inSegment {e : Entry} {dropped : Bool} (h : e.state = .inSegment dropped) : e.isDone = false := by
  unfold Entry.isDone
  rw [h]

theorem isPosted_of_body {e : Entry} {x : Transfer} (h : e.body = .transfer x) : e.isPosted = decide (x.kind = .posted) := by
  unfold Entry.isPosted
  rw [h]

theorem isFlush_of_body {e : Entry} {x : Transfer} (h : e.body = .transfer x) : e.isFlush = false := by
  unfold Entry.isFlush
  rw [h]

theorem AnswersKept.failOffline {s : State} (hs : AnswersKept s) (slots : DistinctSlots s) {e : Entry} (he : e ∈ s.trk.entries)
    (waiting : e.state = .waiting) : AnswersKept (s.failOffline e) := by
  have undone := not_done_of_waiting waiting
  have failed {x : Transfer} (hx : e.body = .transfer x) (hk : x.kind ≠ .posted) :
      EntryMoves e { e with state := .done .offline } := by
    have owes : e.owesAnswer = true := (owesAnswer_iff e).mpr ⟨.inl waiting, x, hx, hk⟩
    exact ⟨rfl, fun _ => rfl, fun _ => .inr (.inl owes), fun _ => owes, fun posted => by
      rw [isPosted_of_body hx] at posted
      exact absurd (of_decide_eq_true posted) hk⟩
  unfold State.failOffline
  split
  · exact hs
  · next x hx =>
    have body := Thins.transfer_body hx
    split
    · exact hs.finishPosted slots he rfl rfl undone _ _
    · next hk => exact hs.changeEntry slots he (failed body (by rw [hk]; nofun)) (isFlush_of_body body)
    · next hk => exact hs.changeEntry slots he (failed body (by rw [hk]; nofun)) (isFlush_of_body body)

/-- What a disposal leaves, before it marks the entries IN_SEGMENT as DROPPED (R63, R66). -/
def State.survivors (s : State) (p : Entry → Bool) : State :=
  { s with
    trk :=
      { s.trk with
        entries := s.trk.entries.filter fun e => !p e || e.isInSegment
        answers := s.trk.answers.filter fun a =>
          !s.trk.entries.any fun e => p e && !e.isInSegment && decide (a = .entry e.slot) } }

theorem AnswersSound.survivors {s : State} (hs : AnswersSound s) (slots : DistinctSlots s) (p : Entry → Bool) :
    AnswersSound (s.survivors p) := by
  refine hs.of_filter slots rfl rfl (fun e he _ => ?_) fun _ _ h => h
  rw [Bool.eq_iff_iff]
  simp only [Bool.not_eq_true', List.any_eq_false, Bool.and_eq_true, decide_eq_true_eq, Answer.entry.injEq, not_and,
    Bool.or_eq_true]
  constructor
  · intro h
    by_contra hgone
    simp only [not_or, Bool.not_eq_false, Bool.not_eq_true] at hgone
    exact h e he hgone rfl
  · rintro stays f hf ⟨hpf, idle⟩ hslot
    rw [slot_inj slots he hf hslot.symm] at hpf idle
    obtain h | h := stays
    · rw [h] at hpf; cases hpf
    · rw [h] at idle; cases idle

theorem droppedMark_moves {e : Entry} {p : Entry → Bool} (stays : (!p e || e.isInSegment) = true) :
    EntryMoves e (if p e then { e with state := .inSegment true } else e) := by
  split
  · next hp =>
    have served : e.isInSegment = true := by simpa [hp] using stays
    have undone : e.isDone = false := by
      unfold Entry.isInSegment at served
      split at served <;> simp_all [Entry.isDone]
    refine ⟨rfl, fun h => ?_, nofun, fun h => ?_, fun _ _ => rfl⟩
    · rw [undone] at h; cases h
    · obtain ⟨h | h, -⟩ := (owesAnswer_iff _).mp h <;> cases h
  · exact .refl e

theorem AnswersKept.dispose {s : State} (hs : AnswersKept s) (slots : DistinctSlots s) {p : Entry → Bool}
    (hp : ∀ (e : Entry) st, p { e with state := st } = p e)
    (byInitiator : ∀ e f : Entry, e.initiator = f.initiator → p e = p f) : AnswersKept (s.dispose p) := by
  obtain ⟨heq, -⟩ := dispose_spec slots hp
  rw [heq]
  have distinct : DistinctSlots (s.survivors p) := (List.filter_sublist.map _).nodup slots
  have wait : FlushesWait (s.survivors p) := by
    refine hs.2.of_filter slots rfl fun e _ f _ _ waiting stays _ initiator => ?_
    have spared : p e = false := by simpa [not_inSegment_of_waiting waiting] using stays
    rw [byInitiator f e initiator, spared]
    rfl
  have moves : ∀ e ∈ (s.survivors p).trk.entries, EntryMoves e (if p e then { e with state := .inSegment true } else e) :=
    fun e he => droppedMark_moves (List.mem_filter.mp he).2
  refine ⟨(hs.1.survivors slots p).of_map distinct rfl rfl rfl moves,
    FlushesWait.of_map wait rfl (fun e he => (moves e he).identity) fun e _ _ hw => ?_⟩
  split at hw
  · cases hw
  · exact hw

/-! ## The segment's end -/

theorem stateAfterSegment_cases (x : Transfer) (timedOut : Bool) :
    stateAfterSegment x timedOut = .waiting ∨ ∃ o, stateAfterSegment x timedOut = .done o := by
  unfold stateAfterSegment
  split_ifs
  · exact .inr ⟨_, rfl⟩
  · exact .inl rfl
  · exact .inr ⟨_, rfl⟩

theorem AnswersKept.takeReport {s : State} (hs : AnswersKept s) (slots : DistinctSlots s) {e : Entry} (he : e ∈ s.trk.entries)
    (served : e.state = .inSegment false) {x : Transfer} (hx : e.body = .transfer x) (r : SegmentReport) :
    AnswersKept (s.takeReport e x r) := by
  have undone := not_done_of_inSegment served
  unfold State.takeReport
  dsimp only
  split
  · refine hs.finishPosted slots he ?_ ?_ undone _ _ <;> rfl
  · next unposted =>
    have owes (hk : x.kind ≠ .posted) : e.owesAnswer = true := (owesAnswer_iff e).mpr ⟨.inr served, x, hx, hk⟩
    refine hs.changeEntry slots he ⟨identity_progressed e hx _ _ _, ?_, ?_, ?_, ?_⟩ (isFlush_of_body hx)
    · intro h; rw [undone] at h; cases h
    · intro done
      refine .inr (.inl (owes fun hk => ?_))
      obtain h | ⟨o, h⟩ := stateAfterSegment_cases (x.progressed r.bytes r.values) r.timedOut
      · rw [h] at done; cases done
      · exact unposted o hk h
    · intro h
      obtain ⟨-, y, hy, hk⟩ := (owesAnswer_iff _).mp h
      cases hy
      exact owes hk
    · intro posted _
      rw [isPosted_of_body hx] at posted
      obtain h | ⟨o, h⟩ := stateAfterSegment_cases (x.progressed r.bytes r.values) r.timedOut
      · rw [h]; rfl
      · exact absurd h (unposted o (of_decide_eq_true posted))

theorem AnswersKept.endSegmentOf {s : State} (hs : AnswersKept s) (slots : DistinctSlots s) {e : Entry} (he : e ∈ s.trk.entries)
    (r : SegmentReport) : AnswersKept (s.endSegmentOf r e) := by
  unfold State.endSegmentOf
  split
  · next served =>
    have undone := not_done_of_inSegment served
    unfold State.removeDropped
    split
    · exact hs.departJudge slots he rfl rfl undone
    · next posted =>
      refine ⟨hs.1.depart slots he rfl undone, hs.2.of_filter slots rfl fun _ _ f hf _ _ _ hposted _ => ?_⟩
      exact decide_eq_true fun hslot => posted (slot_inj slots he hf hslot ▸ hposted)
  · next x served hx => exact hs.takeReport slots he served (Thins.transfer_body hx) r
  all_goals exact hs

/-! ## Admission and the arbiter -/

theorem refused_of_detaching {t : Tracker} {r : Request} (h : t.detaches[r.initiator].isSome = true) :
    t.refusal r ≠ none := by
  intro passes
  obtain ⟨-, retry, -⟩ := refusal_none passes
  simp [Tracker.retry, h, -Fin.getElem_fin] at retry

theorem AnswersSound.admits {s u : State} {r : Request} {body : EntryBody} (hs : AnswersSound s) (slots : DistinctSlots s)
    (h : Admits s r body u) (answers : u.trk.answers = s.trk.answers) (detaches : u.trk.detaches = s.trk.detaches) :
    AnswersSound u := by
  have older {e : Entry} (he : e ∈ s.trk.entries) : olderThan u.trk.entries e.slot = olderThan s.trk.entries e.slot := by
    rw [h.entries, olderThan_append he]
  have mem {e : Entry} (he : e ∈ u.trk.entries) (hslot : e.slot ≠ s.trk.freeSlot) : e ∈ s.trk.entries := by
    rw [h.entries] at he
    exact (List.mem_append.mp he).resolve_right fun h => hslot (by rw [List.mem_singleton.mp h])
  have named {e : Entry} (he : e ∈ u.trk.entries) (hans : Answer.entry e.slot ∈ s.trk.answers) : e ∈ s.trk.entries := by
    obtain ⟨f, hf, hslot, -⟩ := hs.named _ hans
    exact mem he (hslot ▸ h.slot_free f hf)
  refine ⟨by rw [answers]; exact hs.places, fun slot hslot => ?_, fun e he f hf before hans => ?_, fun i hi => ?_,
    fun e he posted => ?_⟩
  · obtain ⟨e, he, rfl, done, free⟩ := hs.named slot (answers ▸ hslot)
    refine ⟨e, by rw [h.entries]; exact List.mem_append_left _ he, rfl, done, answerHeld_false_iff.mpr ?_⟩
    rw [older he]
    exact answerHeld_false_iff.mp free
  · rw [answers] at hans ⊢
    have he := named he hans
    exact hs.ordered e he f (older he ▸ hf) before hans
  · obtain ⟨some, gone⟩ := hs.detaches i (answers ▸ hi)
    refine ⟨by rw [detaches]; exact some, ?_⟩
    have other : r.initiator ≠ i := fun hi => refused_of_detaching (hi ▸ some) h.passes
    simpa [Tracker.entriesOf, h.entries, other] using gone
  · by_cases hslot : e.slot = s.trk.freeSlot
    · have new : e = ⟨s.trk.freeSlot, s.trk.nextSerial, r.initiator, r.tag, body, .waiting⟩ := by
        refine slot_inj (h.slots slots) ?_ he hslot
        rw [h.entries]
        exact List.mem_append_right _ (List.mem_singleton_self _)
      rw [new]
      rfl
    · exact hs.posted e (mem he hslot) posted

/-- The FLUSH entries that stood already wait as they did. -/
theorem Admits.behindPosted {s u : State} {r : Request} {body : EntryBody} (h : Admits s r body u) (hs : FlushesWait s) {e : Entry}
    (he : e ∈ s.trk.entries) (flush : e.isFlush = true) (waiting : e.state = .waiting) : BehindPosted u e := by
  unfold BehindPosted
  rw [h.entries, olderThan_append he]
  exact hs e he flush waiting

theorem Admits.cases {s u : State} {r : Request} {body : EntryBody} (h : Admits s r body u) {e : Entry} (he : e ∈ u.trk.entries) :
    e ∈ s.trk.entries ∨ e = ⟨s.trk.freeSlot, s.trk.nextSerial, r.initiator, r.tag, body, .waiting⟩ := by
  rw [h.entries] at he
  exact (List.mem_append.mp he).imp_right List.mem_singleton.mp

/-- Where no entry becomes DONE and no answer that was held comes free, the list stays complete. -/
theorem AnswersComplete.of_map {s t : State} {g : Entry → Entry} (hs : AnswersComplete s)
    (entries : t.trk.entries = s.trk.entries.map g) (answers : t.trk.answers = s.trk.answers)
    (detaches : t.trk.detaches = s.trk.detaches) (same : ∀ e ∈ s.trk.entries, (g e).identity = e.identity)
    (done : ∀ e ∈ s.trk.entries, (g e).isDone = true → e.isDone = true)
    (owes : ∀ e ∈ s.trk.entries, e.owesAnswer = true → (g e).owesAnswer = true) : AnswersComplete t := by
  have slot : ∀ e ∈ s.trk.entries, (g e).slot = e.slot := fun e he => (identity_eq (same e he)).1
  refine ⟨fun e' he' hdone free => ?_, fun i some gone => ?_⟩
  · rw [entries] at he'
    obtain ⟨e, he, rfl⟩ := List.mem_map.mp he'
    obtain ⟨-, -, einit, -, -, -, -, etarget, -⟩ := identity_eq (same e he)
    rw [slot e he, answers]
    refine hs.entries e he (done e he hdone) (answerHeld_false_iff.mpr fun f hf initiator target => ?_)
    obtain ⟨-, -, finit, -, -, -, -, ftarget, -⟩ := identity_eq (same f (older_mem hf))
    by_contra hf'
    have moved : g f ∈ olderThan t.trk.entries (g e).slot := by
      rw [entries, slot e he, mem_olderThan_map slot]
      exact ⟨f, hf, rfl⟩
    have := answerHeld_false_iff.mp free (g f) moved (by rw [finit, einit, initiator]) (by rw [ftarget, etarget, target])
    rw [owes f (older_mem hf) (by simpa using hf')] at this
    cases this
  · rw [answers]
    refine hs.detaches i (by rw [← detaches]; exact some) ?_
    rw [Tracker.entriesOf, List.filter_eq_nil_iff] at gone ⊢
    intro e he
    obtain ⟨-, -, einit, -⟩ := identity_eq (same e he)
    rw [← einit]
    exact gone (g e) (entries ▸ List.mem_map_of_mem he)

theorem AnswerLaw.arbitrate {s : State} (hs : AnswerLaw s) (slots : DistinctSlots s) : AnswerLaw s.arbitrate := by
  obtain h | ⟨-, -, -, h⟩ | ⟨e, x, -, -, -, -, body, waiting, mem, h⟩ := arbitrate_cases s
  · rwa [h]
  · exact hs.of_trk (by rw [h]) (by rw [h]) (by rw [h])
  · rw [answerLaw_iff] at hs ⊢
    obtain ⟨sound, flushes, complete⟩ := hs
    have undone := not_done_of_waiting waiting
    have moves : EntryMoves e { e with state := .inSegment false } := by
      refine ⟨rfl, fun h => absurd (undone.symm.trans h) nofun, nofun, fun h => ?_, fun _ _ => rfl⟩
      obtain ⟨-, hx⟩ := (owesAnswer_iff _).mp h
      exact (owesAnswer_iff e).mpr ⟨.inl waiting, hx⟩
    obtain ⟨sound', flushes'⟩ := AnswersKept.changeEntry (g := fun f => { f with state := .inSegment false })
      ⟨sound, flushes⟩ slots mem moves (isFlush_of_body body)
    have kept : AnswersKept s.arbitrate := by
      rw [h]
      exact AnswersKept.of_trk ⟨sound', flushes'⟩ rfl rfl rfl
    refine ⟨kept.1, kept.2, complete.of_map (by rw [h]; rfl) (by simp) (by simp) (fun f hf => ?_) (fun f hf done => ?_)
      fun f hf owes => ?_⟩
    · split <;> rfl
    · split at done
      · cases done
      · exact done
    · split
      · next hslot =>
        rw [slot_inj slots mem hf hslot] at owes ⊢
        obtain ⟨-, hx⟩ := (owesAnswer_iff e).mp owes
        exact (owesAnswer_iff _).mpr ⟨.inr rfl, hx⟩
      · exact owes

/-! ## Every effect -/

/-- Refusals are no places: the list may gain and lose them. -/
theorem AnswerLaw.of_places {s t : State} (hs : AnswerLaw s) (entries : t.trk.entries = s.trk.entries)
    (places : t.trk.answers.filter Answer.isPlace = s.trk.answers.filter Answer.isPlace)
    (detaches : t.trk.detaches = s.trk.detaches) : AnswerLaw t := by
  have mem {a : Answer} (h : a.isPlace = true) : a ∈ t.trk.answers ↔ a ∈ s.trk.answers := by
    have := congrArg (a ∈ ·) places
    simpa [List.mem_filter, h] using this
  have pair {a b : Slot} : [Answer.entry a, Answer.entry b].Sublist s.trk.answers →
      [Answer.entry a, Answer.entry b].Sublist t.trk.answers := fun h => by
    have := h.filter Answer.isPlace
    rw [← places] at this
    exact this.trans List.filter_sublist
  have held (e : Entry) : t.trk.answerHeld e = s.trk.answerHeld e := by rw [Tracker.answerHeld, entries, Tracker.answerHeld]
  have of (i : Initiator) : t.trk.entriesOf i = s.trk.entriesOf i := by rw [Tracker.entriesOf, entries, Tracker.entriesOf]
  obtain ⟨hplaces, named, ordered, hdetaches, flushes, posted⟩ := hs
  refine ⟨by rw [places]; exact hplaces, fun slot => ?_, fun e he f hf before hans => ?_, fun i => ?_, ?_, ?_⟩
  · rw [mem rfl, named slot, entries]
    simp only [held]
  · rw [entries] at he hf
    exact pair (ordered e he f hf before ((mem rfl).mp hans))
  · rw [mem rfl, hdetaches i, of, detaches]
  · rw [entries]; exact flushes
  · rw [entries]; exact posted

/-- The place at the head of the list is nowhere else in it. -/
theorem tail_eq_filter {s : State} (hs : AnswersSound s) {a : Answer} {rest : List Answer} (head : s.trk.answers = a :: rest)
    (place : a.isPlace = true) : rest = s.trk.answers.filter fun b => decide (b ≠ a) := by
  have distinct := hs.places
  rw [head] at distinct ⊢
  rw [List.filter_cons_of_pos place, List.nodup_cons] at distinct
  have fresh : ∀ b ∈ rest, decide (b ≠ a) = true := fun b hb => by
    refine decide_eq_true ?_
    rintro rfl
    exact distinct.1 (List.mem_filter.mpr ⟨hb, place⟩)
  rw [List.filter_cons_of_neg (by simp), List.filter_eq_self.mpr fresh]

/-- The answer at the head of the list is handed with its entry, which departs. -/
theorem AnswersKept.entryHanded {s : State} (hs : AnswersKept s) (slots : DistinctSlots s) {e : Entry} {o : EntryOutcome}
    {rest : List Answer} (head : s.trk.answers = .entry e.slot :: rest) (mem : e ∈ s.trk.entries) (done : e.state = .done o) :
    AnswersKept ((s.handAnswer (e.response o)).depart e) := by
  have isDone : e.isDone = true := by
    unfold Entry.isDone
    rw [done]
  refine ⟨hs.1.of_filter (q := fun a => decide (a ≠ .entry e.slot)) slots rfl ?_ (fun f _ _ => by simp) fun _ _ h => h,
    hs.2.of_filter slots rfl fun _ _ f hf _ _ _ posted _ => ?_⟩
  · rw [← tail_eq_filter hs.1 head rfl]
    simp [State.handAnswer, head]
  · refine decide_eq_true fun hslot => ?_
    rw [slot_inj slots mem hf hslot] at posted
    rw [hs.1.posted e mem posted] at isDone
    cases isDone

/-- The answer of a detach is handed, and the detach ends (R64). -/
theorem AnswerLaw.detachHanded {s : State} (hs : AnswerLaw s) (slots : DistinctSlots s) {i : Initiator} {rest : List Answer}
    (head : s.trk.answers = .detached i :: rest) {t : State} (entries : t.trk.entries = s.trk.entries)
    (answers : t.trk.answers = rest) (detaches : t.trk.detaches = s.trk.detaches.set i none) : AnswerLaw t := by
  obtain ⟨sound, flushes, complete⟩ := (answerLaw_iff s).mp hs
  have tail : t.trk.answers = s.trk.answers.filter fun b => decide (b ≠ .detached i) := by
    rw [answers]
    exact tail_eq_filter sound head rfl
  have others {j : Initiator} (h : j ≠ i) : t.trk.detaches[j] = s.trk.detaches[j] := by
    rw [detaches, table_set_other _ _ h.symm]
  refine (answerLaw_iff t).mpr ⟨?_, ?_, ?_, ?_⟩
  · refine sound.of_filter (keep := fun _ => true) slots (by simp [entries]) tail (fun e _ _ => by simp) fun j hj some => ?_
    rw [others (by simpa using hj)]
    exact some
  · exact FlushesWait.of_map (g := id) flushes (by simp [entries]) (fun _ _ => rfl) fun _ _ _ h => h
  · intro e he done free
    rw [entries] at he
    rw [Tracker.answerHeld, entries] at free
    rw [tail]
    exact List.mem_filter.mpr ⟨complete.entries e he done free, by simp⟩
  · intro j some gone
    rw [Tracker.entriesOf, entries] at gone
    have other : j ≠ i := by
      rintro rfl
      rw [detaches, table_set_same] at some
      cases some
    rw [others other] at some
    rw [tail]
    exact List.mem_filter.mpr ⟨complete.detaches j some gone, by simpa using other⟩

/-- A transfer is admitted: it is WAITING and no FLUSH. -/
theorem AnswerLaw.admits {s u : State} {r : Request} {x : Transfer} (hs : AnswerLaw s) (slots : DistinctSlots s)
    (h : Admits s r (.transfer x) u) (answers : u.trk.answers = s.trk.answers) (detaches : u.trk.detaches = s.trk.detaches) :
    AnswerLaw u := by
  obtain ⟨sound, flushes, complete⟩ := (answerLaw_iff s).mp hs
  refine (answerLaw_iff u).mpr ⟨sound.admits slots h answers detaches, fun e he flush waiting => ?_, fun e he done free => ?_,
    fun i some gone => ?_⟩
  · obtain he | rfl := h.cases he
    · exact h.behindPosted flushes he flush waiting
    · cases flush
  · obtain he | rfl := h.cases he
    · rw [answers]
      refine complete.entries e he done ?_
      rwa [Tracker.answerHeld, h.entries, olderThan_append he] at free
    · cases done
  · rw [answers]
    refine complete.detaches i (detaches ▸ some) ?_
    rw [Tracker.entriesOf, h.entries, List.filter_append, List.append_eq_nil_iff] at gone
    exact gone.1

theorem powerOn_answerLaw {boot : Boot} {pins : Pins} {pending : List Instr} : AnswerLaw (.powerOn boot pins pending) := by
  simp [AnswerLaw, State.powerOn, Tracker.powerOn]

/-- What a disposal leaves is joined, settled and looked at by the arbiter. -/
theorem AnswersKept.disposed {s : State} (hs : AnswersKept s) (slots : DistinctSlots s) {p : Entry → Bool}
    (hp : ∀ (e : Entry) st, p { e with state := st } = p e)
    (byInitiator : ∀ e f : Entry, e.initiator = f.initiator → p e = p f) :
    AnswerLaw ((s.dispose p).joinReady.settlePlace).arbitrate := by
  have distinct : DistinctSlots (s.dispose p) := (Thins.dispose slots hp).slots slots
  have joined : DistinctSlots (s.dispose p).joinReady := (Thins.joinReady _).slots distinct
  have settled : AnswerLaw (s.dispose p).joinReady.settlePlace :=
    ((hs.dispose slots hp byInitiator).joinReady distinct).of_trk (by simp) (by simp) (by simp)
  exact settled.arbitrate (by simpa [DistinctSlots] using joined)

theorem AnswersKept.detachBegun {s : State} (hs : AnswersKept s) (slots : DistinctSlots s) (i : Initiator) (tag : Tag) :
    AnswersKept (s.detachBegun i tag) := by
  refine ⟨hs.1.of_filter (keep := fun _ => true) (q := fun _ => true) slots (by simp [State.detachBegun])
    (by simp [State.detachBegun]) (fun _ _ _ => rfl) fun j _ some => ?_, hs.2⟩
  simp only [State.detachBegun, table_set_get]
  split
  · rfl
  · exact some

theorem commitPass_answers {s u : State} {records : List (RecordRef × List Byte)}
    (pass : s.takeDueEvents.commitPass records = .ok u) :
    u.trk.answers = s.trk.answers ∧ u.trk.detaches = s.trk.detaches := by
  have hu := commitPass_frame _ pass
  rw [takeDueEvents_eq] at hu
  exact ⟨by rw [hu], by rw [hu]⟩

theorem Effect.keeps_answerLaw {s t : State} {c : Instr} (h : Effect s c t) (slots : DistinctSlots s) (hs : AnswerLaw s) :
    AnswerLaw t := by
  obtain ⟨sound, flushes, complete⟩ := (answerLaw_iff s).mp hs
  have kept : AnswersKept s := ⟨sound, flushes⟩
  cases h with
  | porstAsserted ns => exact powerOn_answerLaw
  | porstReleased => exact powerOn_answerLaw
  | refused c r st => exact hs.of_places rfl (by simp [List.filter_append, Answer.isPlace]) rfl
  | admitted c r k i p kind passes decoded =>
    have admits := admits_transfer kind passes decoded
    exact (hs.admits slots admits rfl rfl).arbitrate (admits.slots slots)
  | flushed r kind passes =>
    have admits := admits_flush kind passes
    have distinct := admits.slots slots
    have sound := (sound.admits slots admits rfl rfl).judgeFlushes distinct r.initiator
    refine sound.joinReady ((Thins.judgeFlushes distinct _).slots distinct) (flushesWait_judgeFlushes distinct ?_)
    intro e he flush waiting other
    obtain h | rfl := admits.cases he
    · exact admits.behindPosted flushes h flush waiting
    · exact absurd rfl other
  | detached r =>
    exact (AnswersKept.detachBegun (s := s.popHead) (kept.of_trk rfl rfl rfl) slots r.initiator r.tag).disposed
      (p := fun e => decide (e.initiator = r.initiator)) slots (fun _ _ => rfl) fun e f h => by simp only [h]
  | refusalHanded r rest head => exact hs.of_places rfl (by simp [State.handAnswer, head, Answer.isPlace]) rfl
  | detachHanded i d r rest head running =>
    exact hs.detachHanded slots head rfl (by simp [State.handAnswer, head]) rfl
  | staleDetach i rest head ended =>
    obtain ⟨some, -⟩ := sound.detaches i (by rw [head]; exact List.mem_cons_self)
    rw [ended] at some
    cases some
  | entryHanded e o rest head mem done =>
    have thins := Thins.depart (s := s.handAnswer (e.response o)) slots mem rfl fun _ => rfl
    exact ((kept.entryHanded slots head mem done).joinReady (thins.slots slots)).arbitrate
      ((thins.trans (.joinReady _)).slots slots)
  | staleEntry slot rest head gone =>
    obtain ⟨e, he, hslot, -⟩ := sound.named slot (by rw [head]; exact List.mem_cons_self)
    exact absurd hslot (gone e he)
  | trkReset =>
    exact AnswersKept.disposed (s := { s with
      trk := { s.trk with faults := Vector.replicate 4 none }
      handed := { s.handed with trkResets := s.handed.trkResets - 1 } })
      (kept.of_trk rfl rfl rfl) (p := fun _ => true) slots (fun _ _ => rfl) fun _ _ _ => rfl
  | announced t a left =>
    have thins := Thins.announced slots a left
    obtain ⟨distinct, await⟩ := reached_await slots a
    have failed := failOffline_fold_induction (P := AnswersKept) (fun u e hu he waiting h => h.failOffline hu he waiting) _
      { s with handed := { s.handed with announcements := left } } distinct slots await (kept.of_trk rfl rfl rfl)
    exact (failed.joinReady (thins.slots slots)).arbitrate ((thins.trans (.joinReady _)).slots slots)
  | reported x report e bus handed mem slot =>
    have thins := Thins.endSegmentOf (s := { s with pbe := { s.pbe with bus := .idle } }) slots mem report
    have ended := AnswersKept.endSegmentOf (s := { s with pbe := { s.pbe with bus := .idle } }) (kept.of_trk rfl rfl rfl) slots mem
      report
    exact (ended.joinReady (thins.slots slots)).arbitrate ((thins.trans (.joinReady _)).slots slots)
  | committed x records u runs pass =>
    have entries := commitPass_entries pass
    obtain ⟨answers, detaches⟩ := commitPass_answers pass
    exact (hs.of_trk (by simp [entries]) (by simp [answers]) (by simp [detaches])).arbitrate
      (by simpa [DistinctSlots, entries] using slots)
  | initialized | reportStale | expiredIdle | extreqTaken | busReturned | completed | timedOut | wentOffline =>
    exact (hs.of_trk (by simp) (by simp) (by simp)).arbitrate (by simpa [DistinctSlots] using slots)
  | _ => exact hs.of_trk (by simp) (by simp) (by simp)

/-- Settles O54: an entry's answer joins when the entry is DONE and no older one of its pair owes its own, behind theirs;
and a FLUSH is judged with each departure of a POSTED entry. -/
theorem stepKeepsAnswerLaw : Obligations.StepKeepsAnswerLaw := by
  intro s t htracker hs h
  obtain ⟨-, -, slots, -⟩ := htracker
  obtain rfl | ⟨c, rest, heffect⟩ := step_cases h
  · obtain htick | htick := clockTick_cases s <;> rw [htick]
    · exact hs
    · exact hs.of_trk rfl rfl rfl
  · exact heffect.keeps_answerLaw slots hs

end Sys2Proof.Machine

/-! The Interrupt Relay (chapter 7): which pair a line, an event, a clearing, a reset, a notice or an acknowledgement
moves, and that it moves no other. -/

namespace Sys2Proof.Machine

/-! ## A pair that moves where a condition holds -/

theorem moveIf_same (r : Relay) (src : Source) (i : Initiator) (p : PairState) (c : Prop) [Decidable c] :
    (if c then r.setPair src i p else r).pair src i = if c then p else r.pair src i := by
  split
  · rw [pair_setPair, if_pos ⟨rfl, rfl⟩]
  · rfl

theorem setPair_other (r : Relay) {src k : Source} {i j : Initiator} (p : PairState) (h : (k, j) ≠ (src, i)) :
    (r.setPair src i p).pair k j = r.pair k j := by
  rw [pair_setPair, if_neg fun hc => h (by rw [hc.1, hc.2])]

theorem moveIf_other (r : Relay) {src k : Source} {i j : Initiator} (p : PairState) (c : Prop) [Decidable c]
    (h : (k, j) ≠ (src, i)) : (if c then r.setPair src i p else r).pair k j = r.pair k j := by
  split
  · exact setPair_other r p h
  · rfl

/-! ## Lines (R132, R187) -/

section
variable {s : State} {n : IrqLine} {samples : Nat}

theorem exec_irqAsserted_short (h : samples < 2) : exec (.irqAsserted n samples) s = .next s := by
  change execIrqAsserted n samples s = _
  rw [execIrqAsserted, if_neg fun hc => absurd hc.1 (Nat.not_le.mpr h)]

theorem exec_irqWithdrawn_short (h : samples < 2) : exec (.irqWithdrawn n samples) s = .next s := by
  change execIrqWithdrawn n samples s = _
  rw [execIrqWithdrawn, if_neg fun hc => absurd hc.1 (Nat.not_le.mpr h)]

theorem exec_irqAsserted_taken (h : 2 ≤ samples) (low : s.pins.irq[n] = false) :
    exec (.irqAsserted n samples) s =
      .next
        { s with
          pins := { s.pins with irq := s.pins.irq.set n true }
          irl := s.irl.lineAsserted (sourceOfLine n) } := by
  change execIrqAsserted n samples s = _
  rw [execIrqAsserted, if_pos ⟨h, low⟩]

theorem exec_irqWithdrawn_taken (h : 2 ≤ samples) (high : s.pins.irq[n] = true) :
    exec (.irqWithdrawn n samples) s =
      .next
        (State.settlePlace
          { s with
            pins := { s.pins with irq := s.pins.irq.set n false }
            irl := s.irl.lineWithdrawn (sourceOfLine n) }) := by
  change execIrqWithdrawn n samples s = _
  rw [execIrqWithdrawn, if_pos ⟨h, high⟩]

end

/-- Settles O30: a line is the line of one source, and its route names one initiator. -/
theorem irqLinesMoveRoutedPair : Obligations.IrqLinesMoveRoutedPair := by
  rintro s n samples src d hsrc rfl
  obtain rfl : sourceOfLine n = src := Fin.ext hsrc.symm
  refine ⟨fun short => ⟨exec_irqAsserted_short short, exec_irqWithdrawn_short short⟩, fun long low => ?asserted,
    fun long high => ?withdrawn⟩
  case asserted =>
    refine ⟨_, exec_irqAsserted_taken long low, ?_, moveIf_same .., fun k i other => moveIf_other _ _ _ other⟩
    rw [lineAsserted_frame]
  case withdrawn =>
    refine ⟨_, exec_irqWithdrawn_taken long high, ?_, settlePlace_settled _, moveIf_same .., fun k i other =>
      moveIf_other _ _ _ other⟩
    simp only [State.settlePlace]
    rw [lineWithdrawn_frame]

/-! ## Events and clearings (R133, R143) -/

theorem exec_eventSource_handed {s : State} {e : NoticeEvent} (h : e ∈ s.handed.events) :
    exec (.eventSource e) s = .next (s.takeEvent e) := by
  change execEventSource e s = _
  rw [execEventSource, if_pos h]

theorem exec_flushWithdrawal_oldest {s : State} {i : Initiator} {n : Nat} {before rest : List Clearing}
    (handed : s.handed.withdrawals = before ++ ⟨i, n⟩ :: rest) (oldest : ∀ c ∈ before, c.initiator ≠ i) :
    exec (.flushWithdrawal i) s =
      .next (State.settlePlace { s with irl := s.irl.withdrawFault i, handed := s.handed.takeClearing ⟨i, n⟩ }) := by
  change execFlushWithdrawal i s = _
  have found := (find_clearing (n := n) (rest := rest) oldest).1
  simp only [execFlushWithdrawal, handed, found]

/-- What an event names: its source, and the initiator whose pair it reaches (R131). -/
theorem event_reaches {r : Relay} {e : NoticeEvent} {src : Source} {i : Initiator}
    (h : (e, src, i) ∈
      [(.postedFault i, 8, i), (.targetDown, 9, r.routes[(9 : Source)].destination),
        (.lendOverrun, 10, r.routes[(10 : Source)].destination), (.mailboxResult i, 11, i)]) :
    src = eventSourceOf e ∧ i = r.reached e := by
  simp only [List.mem_cons, List.not_mem_nil, or_false, Prod.mk.injEq] at h
  obtain ⟨rfl, rfl, -⟩ | ⟨rfl, rfl, rfl⟩ | ⟨rfl, rfl, rfl⟩ | ⟨rfl, rfl, -⟩ := h <;> exact ⟨rfl, rfl⟩

/-- Settles O31. -/
theorem eventsAndWithdrawalsMovePairs : Obligations.EventsAndWithdrawalsMovePairs := by
  intro s
  refine ⟨fun e before rest src i handed first named => ?event, fun i n before rest old new handed oldest events count => ?clearing⟩
  case event =>
    obtain ⟨rfl, rfl⟩ := event_reaches (r := s.irl) named
    refine ⟨_, exec_eventSource_handed (by rw [handed]; simp), ?_, moveIf_same .., fun k j other => moveIf_other _ _ _ other⟩
    rw [State.takeEvent, takeEvent_eq s.handed handed first, Relay.takeEvent_frame]
    rfl
  case clearing =>
    refine ⟨_, exec_flushWithdrawal_oldest handed oldest, ?_, settlePlace_settled _, moveIf_same .., fun k j other =>
      moveIf_other _ _ _ other⟩
    simp only [State.settlePlace]
    rw [takeClearing_eq s.handed handed oldest events count, Relay.withdrawFault_frame]

/-! ## Link reset and detach (R144, R145) -/

theorem linkReset_pair (r : Relay) (pins : Pins) (src : Source) (i : Initiator) :
    (r.linkReset pins).pair src i = r.idleOrPending pins src i := by
  simp [Relay.linkReset, Relay.pair]

theorem detach_pair (r : Relay) (pins : Pins) (src : Source) (i j : Initiator) :
    (r.detach pins i).pair src j = if i = j then r.idleOrPending pins src i else r.pair src j := by
  have row : (r.detach pins i).pairs[src] = r.pairs[src].set i (r.idleOrPending pins src i) := tabulate_get ..
  rw [Relay.pair, row, table_set_get, Relay.pair]

theorem exec_irlDetach_handed {s : State} {i : Initiator} (h : i ∈ s.handed.irlDetaches) :
    exec (.irlDetach i) s =
      .next
        (State.settlePlace
          { s with
            irl := s.irl.detach s.pins i
            handed := { s.handed with irlDetaches := s.handed.irlDetaches.erase i } }) := by
  change execIrlDetach i s = _
  rw [execIrlDetach, if_pos h]

theorem exec_irlLinkReset_alone {s : State} {rest : List LinkNews} (news : s.handed.irlNews = .reset :: rest)
    (alone : rest.head? ≠ some .up) :
    exec .irlLinkReset s =
      .next (State.settlePlace { s with irl := s.irl.linkReset s.pins, handed := { s.handed with irlNews := rest } }) := by
  change execIrlLinkReset s = _
  rw [execIrlLinkReset, news]
  cases rest with
  | nil => rfl
  | cons x rest =>
    cases x with
    | reset => rfl
    | up => exact absurd rfl alone

theorem exec_irlLinkReset_up {s : State} {rest : List LinkNews} (news : s.handed.irlNews = .reset :: .up :: rest) :
    exec .irlLinkReset s =
      .next
        (State.settlePlace
          { s with irl := (s.irl.linkReset s.pins).linkUpNews, handed := { s.handed with irlNews := rest } }) := by
  change execIrlLinkReset s = _
  rw [execIrlLinkReset, news]

/-- Settles O32: both resets look at each pair's line again; the news that the link is UP moves no pair. -/
theorem resetsReachRelay : Obligations.ResetsReachRelay := by
  intro s
  refine ⟨fun rest after up news alone behind => ?reset, fun i rest detaches => ?detach⟩
  case reset =>
    have pairs (src : Source) (i : Initiator) := (linkReset_pair s.irl s.pins src i).trans (idleOrPending_eq ..)
    by_cases hup : rest.head? = some .up
    · obtain ⟨rfl, rfl⟩ := behind hup
      obtain ⟨tail, rfl⟩ := List.head?_eq_some_iff.mp hup
      exact ⟨_, exec_irlLinkReset_up news, rfl, settlePlace_settled _, pairs⟩
    · obtain ⟨rfl, rfl⟩ := alone hup
      exact ⟨_, exec_irlLinkReset_alone news hup, rfl, settlePlace_settled _, pairs⟩
  case detach =>
    refine ⟨_, exec_irlDetach_handed (by rw [detaches]; exact List.mem_cons_self), ?_, settlePlace_settled _, fun src => ?_,
      fun src j other => ?_⟩
    · simp [State.settlePlace, detaches, Relay.detach]
    · exact ((detach_pair s.irl s.pins src i i).trans (if_pos rfl)).trans (idleOrPending_eq ..)
    · exact (detach_pair s.irl s.pins src i j).trans (if_neg other.symm)

/-! ## Notices (R134 to R136) -/

/-- The rotation gives the IRL a place where no block before it, from the pointer on, is ready (R126). -/
theorem placeWinner_irl {s : State} (ready : s.ready .irl = true) (noMgb : s.hlp.pointer ≠ .irl → s.mgb.answers = [])
    (noTrk : s.hlp.pointer = .trk → s.trk.answers = []) : s.placeWinner = some .irl := by
  have mgb (h : s.hlp.pointer ≠ .irl) : s.ready .mgb = false := by simp [State.ready, noMgb h]
  have trk (h : s.hlp.pointer = .trk) : s.ready .trk = false := by simp [State.ready, noTrk h]
  unfold State.placeWinner
  cases hp : s.hlp.pointer with
  | irl => simp [ready]
  | mgb => simp [OutBlock.next, ready, mgb (by rw [hp]; decide)]
  | trk => simp [OutBlock.next, ready, mgb (by rw [hp]; decide), trk hp]

theorem irl_ready_iff (s : State) :
    s.ready .irl = true ↔ s.hlp.link = .up ∧ LinkNews.reset ∉ s.handed.irlNews ∧ s.irl.offer.isSome = true := by
  simp [State.ready, and_assoc]

theorem exec_noticeHanding_unready {s : State} (h : s.ready .irl = false) : exec .noticeHanding s = .next s := by
  change execNoticeHanding s = _
  rw [execNoticeHanding, if_neg]
  simp [State.mayHand, h]

theorem exec_noticeHanding_offered {s : State} {i : Initiator} {src : Source} (may : s.mayHand .irl = true)
    (offered : s.irl.offer = some (i, src)) :
    exec .noticeHanding s =
      .next { s with hlp := s.hlp.hand .irl (.notice (s.irl.noticeOf i src)), irl := s.irl.handed i src } := by
  change execNoticeHanding s = _
  rw [execNoticeHanding, if_pos may, offered]

/-- The offer: of the first initiator in turn with a sendable pair, the pair of highest priority, the lowest-numbered source
among equals (R135). -/
theorem offer_eq {r : Relay} {i : Initiator} {src : Source} (sendable : r.sendable src i = true)
    (first : ∀ (j : Initiator) (k : Source), (j - r.pointer).val < (i - r.pointer).val → r.sendable k j = false)
    (best : ∀ k : Source, r.sendable k i = true →
      r.priority k < r.priority src ∨ (r.priority k = r.priority src ∧ src ≤ k)) : r.offer = some (i, src) := by
  have chosen : r.bestSource i = some src := by
    obtain ⟨-, none⟩ | ⟨c, hc, hsend, hbest⟩ := bestSource_spec r i
    · rw [none src] at sendable; cases sendable
    · have h1 := hbest src sendable
      have h2 := best c hsend
      have : c = src := by
        simp only [Fin.lt_def, Fin.ext_iff, Fin.le_def] at *
        omega
      rw [hc, this]
  refine rotation_findSome? r.pointer _ (by rw [chosen]; rfl) fun j hj => ?_
  obtain ⟨hnone, -⟩ | ⟨c, -, hsend, -⟩ := bestSource_spec r j
  · rw [hnone]; rfl
  · rw [first j c hj] at hsend; cases hsend

/-- Settles O33. -/
theorem noticeIsHanded : Obligations.NoticeIsHanded := by
  intro s
  refine ⟨fun src i => sendable_iff s.irl src i, fun none => ?none, fun notUp => ?notUp,
    fun i src up noReset place turn sendable first best => ?handed⟩
  case none =>
    refine exec_noticeHanding_unready (Bool.eq_false_iff.mpr fun ready => ?_)
    obtain ⟨-, -, offered⟩ := (irl_ready_iff s).mp ready
    rw [offer_none none] at offered
    cases offered
  case notUp =>
    refine exec_noticeHanding_unready (Bool.eq_false_iff.mpr fun ready => ?_)
    obtain ⟨up, noReset, -⟩ := (irl_ready_iff s).mp ready
    exact notUp.elim (· up) noReset
  case handed =>
    have offered := offer_eq sendable first best
    have ready : s.ready .irl = true := (irl_ready_iff s).mpr ⟨up, noReset, by rw [offered]; rfl⟩
    have may : s.mayHand .irl = true := by
      simp only [State.mayHand, ready, Bool.and_true, Bool.and_eq_true, Bool.or_eq_true, Bool.not_eq_true', decide_eq_true_eq]
      refine ⟨place, ?_⟩
      cases contended : s.hlp.contended
      · exact .inl rfl
      · obtain ⟨noMgb, noTrk⟩ := turn contended
        exact .inr (placeWinner_irl ready noMgb noTrk)
    refine ⟨_, exec_noticeHanding_offered may offered, rfl, ?_, fun k j other => ?_⟩
    · exact (pair_setPair ..).trans (if_pos ⟨rfl, rfl⟩)
    · exact setPair_other s.irl .notified other

/-! ## Acknowledgement (R136) -/

section
variable {s : State} {r : Request} {rest : List Request}

theorem headFor_noticeAck (head : HeadForManagement s r rest) (write : r.IsManagementWrite 0x050 4) :
    s.headFor .noticeAck = some r :=
  (accepted_write .noticeAck head write (by decide) (by decide) rfl rfl).2

theorem noticeSource_eq {src : Source} (h : (byteAt r.payload 0).toNat = src.val) : noticeSource r = some src := by
  rw [noticeSource, dif_pos (by omega)]
  exact congrArg some (Fin.ext h)

theorem exec_noticeAck_notified (head : HeadForManagement s r rest) (write : r.IsManagementWrite 0x050 4) {src : Source}
    (named : (byteAt r.payload 0).toNat = src.val) (notified : s.irl.pair src r.initiator = .notified) :
    exec .noticeAck s =
      .next
        { s.managementAnswered rest (r.answer .ok 4 .nothing) with
          irl := s.irl.setPair src r.initiator (s.irl.idleOrPending s.pins src r.initiator) } := by
  change execNoticeAck s = _
  have ⟨_, _, length, _⟩ := write
  simp only [execNoticeAck, headFor_noticeAck head write, noticeSource_eq named, Option.bind_some, Relay.acknowledge,
    notified, if_true]
  rw [answerAccess_eq head.1, writeOk_eq_answer length]

theorem exec_noticeAck_refused (head : HeadForManagement s r rest) (write : r.IsManagementWrite 0x050 4)
    (moves : ((noticeSource r).bind fun src => s.irl.acknowledge s.pins r.initiator src) = none) :
    exec .noticeAck s = .next (s.managementAnswered rest (r.answer .notOutstanding 0 .nothing)) := by
  change execNoticeAck s = _
  simp only [execNoticeAck, headFor_noticeAck head write, moves]
  rw [answerAccess_eq head.1, refusedWith_eq_answer]

end

/-- Settles O34. -/
theorem noticeIsAcknowledged : Obligations.NoticeIsAcknowledged := by
  intro s r rest head write
  refine ⟨fun src named notified => ?ok, fun src named other => ?notOutstanding, fun beyond => ?noSource⟩
  case ok =>
    refine ⟨_, exec_noticeAck_notified head write named notified, rfl, ?_, fun k j other => setPair_other s.irl _ other⟩
    exact (pair_setPair ..).trans ((if_pos ⟨rfl, rfl⟩).trans (idleOrPending_eq ..))
  case notOutstanding =>
    refine exec_noticeAck_refused head write ?_
    rw [noticeSource_eq named, Option.bind_some, Relay.acknowledge, if_neg other]
  case noSource =>
    refine exec_noticeAck_refused head write ?_
    rw [noticeSource, dif_neg (by omega), Option.bind_none]

end Sys2Proof.Machine

/-! The commit of a route (R138 to R141): the table of R140, then that of R139. -/

namespace Sys2Proof.Machine

section
variable (r : Relay) (pins : Pins) (src : Source) (route : Route)

theorem isLevel_of_line {pins : Pins} {src : Source} (h : lineOf pins src = true) : isLevel src = true := by
  unfold lineOf at h
  split at h
  · next hlow => exact decide_eq_true hlow
  · cases h

theorem pendAtNew_pair (k : Source) (j : Initiator) :
    (r.pendAtNew pins src route).pair k j =
      if k = src ∧ j = route.destination ∧ lineOf pins src = true ∧ route.priority ≠ 0 ∧ r.pair k j = .idle then .pending
      else r.pair k j := by
  unfold Relay.pendAtNew
  split
  · next h =>
    obtain ⟨-, line, priority, idle⟩ := h
    rw [pair_setPair]
    by_cases hkj : k = src ∧ j = route.destination
    · obtain ⟨rfl, rfl⟩ := hkj
      rw [if_pos ⟨rfl, rfl⟩, if_pos ⟨rfl, rfl, line, priority, idle⟩]
    · rw [if_neg hkj, if_neg fun hc => hkj ⟨hc.1, hc.2.1⟩]
  · next h =>
    rw [if_neg]
    rintro ⟨rfl, rfl, line, priority, idle⟩
    exact h ⟨isLevel_of_line line, line, priority, idle⟩

theorem movePending_pair {d e : Initiator} (hde : d ≠ e) (j : Initiator) :
    (r.movePending src d e).pair src j =
      if j = d then .idle else if j = e ∧ r.pair src e = .idle then .pending else r.pair src j := by
  have cleared (i : Initiator) : (r.setPair src d .idle).pair src i = if i = d then .idle else r.pair src i := by
    rw [pair_setPair]
    simp only [true_and]
  unfold Relay.movePending
  simp only [cleared, if_neg hde.symm]
  split
  · next idle =>
    rw [pair_setPair, cleared]
    simp only [true_and, idle, and_true]
    by_cases hj : j = e
    · rw [if_pos hj, if_neg (by rw [hj]; exact hde.symm), if_pos hj]
    · rw [if_neg hj, if_neg hj]
  · next busy =>
    rw [cleared]
    simp only [busy, and_false, if_false]

theorem isRouted_iff : isRouted src = true ↔ ¬(src = 8 ∨ src = 11) := by
  revert src
  decide

theorem changeDestination_kept (h : ¬(isRouted src = true ∧ r.destination src ≠ route.destination)) :
    r.changeDestination pins src route = r := if_neg h

theorem changeDestination_pending (routed : isRouted src = true) (moves : r.destination src ≠ route.destination)
    (pending : r.pair src (r.destination src) = .pending) :
    r.changeDestination pins src route = r.movePending src (r.destination src) route.destination := by
  unfold Relay.changeDestination
  dsimp only
  rw [if_pos ⟨routed, moves⟩, pending]

theorem changeDestination_still (routed : isRouted src = true) (moves : r.destination src ≠ route.destination)
    (still : r.pair src (r.destination src) ≠ .pending) :
    r.changeDestination pins src route = r.pendAtNew pins src route := by
  unfold Relay.changeDestination
  dsimp only
  rw [if_pos ⟨routed, moves⟩]
  split
  · rfl
  · next h => exact absurd h still
  · rfl

/-- The table of R140. -/
theorem changeDestination_pair (j : Initiator) :
    (r.changeDestination pins src route).pair src j = r.movedPair pins src route j := by
  change _ =
    if r.destination src = route.destination ∨ src = 8 ∨ src = 11 then r.pair src j
    else if j = r.destination src then
      (if r.pair src (r.destination src) = .pending then .idle else r.pair src (r.destination src))
    else if j = route.destination ∧ r.pair src j = .idle ∧
        (r.pair src (r.destination src) = .pending ∨ (lineOf pins src = true ∧ route.priority ≠ 0)) then .pending
    else r.pair src j
  by_cases changes : isRouted src = true ∧ r.destination src ≠ route.destination
  · obtain ⟨routed, moves⟩ := changes
    have notKept : ¬(r.destination src = route.destination ∨ src = 8 ∨ src = 11) := fun hc =>
      hc.elim moves ((isRouted_iff src).mp routed)
    rw [if_neg notKept]
    by_cases pending : r.pair src (r.destination src) = .pending
    · rw [changeDestination_pending r pins src route routed moves pending, movePending_pair r src moves, if_pos pending]
      by_cases hj : j = r.destination src
      · rw [if_pos hj, if_pos hj]
      · rw [if_neg hj, if_neg hj]
        exact if_congr ⟨fun ⟨h, idle⟩ => ⟨h, h ▸ idle, .inl pending⟩, fun ⟨h, idle, _⟩ => ⟨h, h ▸ idle⟩⟩ rfl rfl
    · rw [changeDestination_still r pins src route routed moves pending, pendAtNew_pair, if_neg pending]
      by_cases hj : j = r.destination src
      · rw [if_neg fun hc => moves (hj.symm.trans hc.2.1), if_pos hj, hj]
      · rw [if_neg hj]
        exact if_congr (by tauto) rfl rfl
  · rw [changeDestination_kept r pins src route changes, if_pos]
    rw [isRouted_iff] at changes
    tauto

theorem cancelPending_pair (k : Source) (j : Initiator) :
    (r.cancelPending src).pair k j = if k = src ∧ r.pair k j = .pending then .idle else r.pair k j := by
  have row : (r.cancelPending src).pairs[k] =
      if src = k then tabulate fun i => if r.pair src i = .pending then .idle else r.pair src i else r.pairs[k] :=
    table_set_get ..
  rw [Relay.pair, row]
  by_cases hk : src = k
  · subst hk
    rw [if_pos rfl, tabulate_get]
    simp only [true_and]
  · rw [if_neg hk, if_neg fun hc => hk hc.1.symm]
    rfl

/-- The table of R139, after that of R140. -/
theorem commitRoute_pair (j : Initiator) : (r.commitRoute pins src route).pair src j = r.pairAfterRoute pins src route j := by
  have moved := changeDestination_pair r pins src route
  change ((r.changeDestination pins src route).changePriority pins src route r.routes[src].priority).pair src j = _
  unfold Relay.changePriority Relay.pairAfterRoute
  dsimp only
  rw [← moved]
  by_cases same : route.priority = r.routes[src].priority
  · rw [if_pos same, if_neg fun hc => hc.1 (same ▸ hc.2), if_neg fun hc => hc.2.1 (same.trans hc.1)]
  · rw [if_neg same]
    by_cases off : route.priority = 0
    · rw [if_pos off, if_pos ⟨fun hc => same (off.trans hc.symm), off⟩, cancelPending_pair]
      simp only [true_and]
    · have notCancelled : ¬(r.routes[src].priority ≠ 0 ∧ route.priority = 0) := fun hc => off hc.2
      by_cases was : r.routes[src].priority = 0
      · rw [if_neg off, if_pos was, if_neg notCancelled, pendAtNew_pair]
        exact if_congr (by tauto) rfl rfl
      · rw [if_neg off, if_neg was, if_neg notCancelled, if_neg fun hc => was hc.1]

theorem movePending_other {d e : Initiator} {k : Source} (hk : k ≠ src) (j : Initiator) :
    (r.movePending src d e).pair k j = r.pair k j := by
  have other {q : Relay} {i : Initiator} {p : PairState} : (q.setPair src i p).pair k j = q.pair k j :=
    setPair_other q p fun hc => hk (congrArg Prod.fst hc)
  unfold Relay.movePending
  dsimp only
  split
  · rw [other, other]
  · rw [other]

/-- A change of destination moves a pair, or makes the pair at the new one PENDING, or does nothing. -/
theorem changeDestination_cases :
    r.changeDestination pins src route = r ∨ r.changeDestination pins src route = r.pendAtNew pins src route ∨
      r.changeDestination pins src route = r.movePending src (r.destination src) route.destination := by
  by_cases changes : isRouted src = true ∧ r.destination src ≠ route.destination
  · by_cases pending : r.pair src (r.destination src) = .pending
    · exact .inr (.inr (changeDestination_pending r pins src route changes.1 changes.2 pending))
    · exact .inr (.inl (changeDestination_still r pins src route changes.1 changes.2 pending))
  · exact .inl (changeDestination_kept r pins src route changes)

theorem changeDestination_other {k : Source} (hk : k ≠ src) (j : Initiator) :
    (r.changeDestination pins src route).pair k j = r.pair k j := by
  obtain h | h | h := changeDestination_cases r pins src route <;> rw [h]
  · rw [pendAtNew_pair, if_neg fun hc => hk hc.1]
  · exact movePending_other r src hk j

theorem commitRoute_other {k : Source} (hk : k ≠ src) (j : Initiator) :
    (r.commitRoute pins src route).pair k j = r.pair k j := by
  rw [← changeDestination_other r pins src route hk j]
  change ((r.changeDestination pins src route).changePriority pins src route r.routes[src].priority).pair k j = _
  unfold Relay.changePriority
  split_ifs
  · rfl
  · rw [cancelPending_pair, if_neg fun hc => hk hc.1]
  · rw [pendAtNew_pair, if_neg fun hc => hk hc.1]
  · rfl

theorem pendAtNew_frame : r.pendAtNew pins src route = { r with pairs := (r.pendAtNew pins src route).pairs } := by
  unfold Relay.pendAtNew
  split <;> rfl

theorem changeDestination_frame :
    r.changeDestination pins src route = { r with pairs := (r.changeDestination pins src route).pairs } := by
  obtain h | h | h := changeDestination_cases r pins src route <;> rw [h]
  · exact pendAtNew_frame r pins src route
  · unfold Relay.movePending
    dsimp only
    split <;> rfl

theorem changePriority_frame (old : Fin 16) :
    r.changePriority pins src route old = { r with pairs := (r.changePriority pins src route old).pairs } := by
  unfold Relay.changePriority
  split_ifs
  · rfl
  · rfl
  · exact pendAtNew_frame r pins src route
  · rfl

theorem commitRoute_frame :
    r.commitRoute pins src route =
      { r with routes := r.routes.set src route, pairs := (r.commitRoute pins src route).pairs } := by
  unfold Relay.commitRoute
  dsimp only
  rw [changePriority_frame, changeDestination_frame]

end

end Sys2Proof.Machine

/-! The capacities of queues and buffers, the four notices outstanding (R56, R122, R126, R134, R148). -/

namespace Sys2Proof.Machine

/-! ## Queues -/

theorem QueueLaw.of_eq {s t : State} (hs : QueueLaw s) (receive : t.hlp.receive = s.hlp.receive)
    (transmit : t.hlp.transmit = s.hlp.transmit) (held : t.mgb.answers = s.mgb.answers)
    (entryless : t.trk.entryless = s.trk.entryless) : QueueLaw t := by
  rw [QueueLaw, receive, transmit, held, entryless]
  exact hs

/-- The entryless places are refusals and detaches in progress (R56). -/
theorem entryless_of_eq {t u : Tracker} (refusals : u.answers.filter Answer.isRefusal = t.answers.filter Answer.isRefusal)
    (detaches : u.detaches = t.detaches) : u.entryless = t.entryless := by
  rw [Tracker.entryless, refusals, detaches, Tracker.entryless]

theorem TrackerMoves.entryless {s t : State} (h : TrackerMoves s t) : t.trk.entryless = s.trk.entryless :=
  entryless_of_eq h.refusals h.detaches

theorem TrackerMoves.keeps_queueLaw {s t : State} (h : TrackerMoves s t) (hs : QueueLaw s) : QueueLaw t :=
  hs.of_eq (by rw [h.hlp]) (by rw [h.hlp]) (by rw [h.mgb]) h.entryless

theorem QueueLaw.arbitrate {s : State} (hs : QueueLaw s) : QueueLaw s.arbitrate :=
  hs.of_eq (by simp) (by simp) (by simp) (entryless_of_eq (by simp) (by simp))

theorem QueueLaw.settlePlace {s : State} (hs : QueueLaw s) : QueueLaw s.settlePlace :=
  hs.of_eq (by simp) (by simp) (by simp) (by simp)

theorem QueueLaw.popHead {s : State} (hs : QueueLaw s) : QueueLaw s.popHead := by
  obtain ⟨receive, transmit, held, entryless⟩ := hs
  exact ⟨(List.tail_sublist _).length_le.trans receive, transmit, held, entryless⟩

/-- A packet is handed where a place is free. -/
theorem QueueLaw.handed {s t : State} (hs : QueueLaw s) {b : OutBlock} {p : OutPacket} (hlp : t.hlp = s.hlp.hand b p)
    (place : s.hlp.transmit.length < Config.transmitPlaces) (held : t.mgb.answers.length ≤ s.mgb.answers.length)
    (entryless : t.trk.entryless ≤ s.trk.entryless) : QueueLaw t := by
  obtain ⟨receive, -, hheld, hentryless⟩ := hs
  refine ⟨by rw [hlp]; exact receive, ?_, held.trans hheld, entryless.trans hentryless⟩
  rw [hlp, LinkPort.hand, List.length_append]
  exact place

theorem entryless_tail (t : Tracker) : ({ t with answers := t.answers.tail } : Tracker).entryless ≤ t.entryless :=
  Nat.add_le_add_right ((List.tail_sublist _).filter _).length_le _

theorem QueueLaw.answerHanded {s : State} (hs : QueueLaw s) (r : Response)
    (place : s.hlp.transmit.length < Config.transmitPlaces) : QueueLaw (s.handAnswer r) :=
  hs.handed (b := .trk) (p := .response r) rfl place le_rfl (entryless_tail _)

theorem QueueLaw.stale {s : State} (hs : QueueLaw s) :
    QueueLaw (State.settlePlace { s with trk := { s.trk with answers := s.trk.answers.tail } }) := by
  obtain ⟨receive, transmit, held, entryless⟩ := hs
  exact QueueLaw.settlePlace (s := { s with trk := { s.trk with answers := s.trk.answers.tail } })
    ⟨receive, transmit, held, (entryless_tail _).trans entryless⟩

/-- An access is answered where the MGB can hold the answer. -/
theorem QueueLaw.answered {s t : State} (hs : QueueLaw s) {a : Response} (receive : t.hlp = s.popHead.hlp)
    (held : t.mgb.answers = s.mgb.answers ++ [a]) (place : s.mgb.answers.length < Config.heldAnswers) (trk : t.trk = s.trk) :
    QueueLaw t := by
  obtain ⟨hreceive, transmit, -, entryless⟩ := hs.popHead
  refine ⟨by rw [receive]; exact hreceive, by rw [receive]; exact transmit, ?_, by rw [trk]; exact entryless⟩
  rw [held, List.length_append]
  exact place

theorem detaches_count_set (v : Vector (Option DetachRecord) 4) (i : Initiator) (d : Option DetachRecord) :
    ((List.finRange 4).filter fun j => (v.set i d)[j].isSome).length ≤
      ((List.finRange 4).filter fun j => v[j].isSome).length + if d.isSome then 1 else 0 := by
  have sub : ((List.finRange 4).filter fun j => (v.set i d)[j].isSome).Subperm
      (((List.finRange 4).filter fun j => v[j].isSome) ++ if d.isSome then [i] else []) := by
    refine List.subperm_of_subset ((List.nodup_finRange 4).filter _) fun j hj => ?_
    have hj := (List.mem_filter.mp hj).2
    rw [table_set_get] at hj
    split at hj
    · next hij => rw [if_pos hj, hij]; simp
    · exact List.mem_append_left _ (List.mem_filter.mpr ⟨List.mem_finRange j, hj⟩)
  have := sub.length_le
  rw [List.length_append] at this
  cases d <;> exact this

theorem QueueLaw.detachBegun {s : State} (hs : QueueLaw s) (i : Initiator) (tag : Tag)
    (place : s.trk.entryless < Config.entrylessPlaces) : QueueLaw (s.detachBegun i tag) := by
  obtain ⟨receive, transmit, held, -⟩ := hs
  refine ⟨receive, transmit, held, le_trans ?_ place⟩
  exact Nat.add_le_add_left (detaches_count_set s.trk.detaches i (some _)) _

theorem powerOn_queueLaw {boot : Boot} {pins : Pins} {pending : List Instr} : QueueLaw (.powerOn boot pins pending) := by
  simp [QueueLaw, State.powerOn, LinkPort.powerOn, Management.powerOn, Tracker.powerOn, Tracker.entryless]

theorem released_answers (m : Management) : m.released.answers = m.answers := by
  unfold Management.released
  split <;> rfl

theorem commitPass_queues {s u : State} {records : List (RecordRef × List Byte)}
    (pass : s.takeDueEvents.commitPass records = .ok u) : u.hlp = s.hlp ∧ u.mgb.answers = s.mgb.answers := by
  have hu := commitPass_frame _ pass
  rw [takeDueEvents_eq] at hu
  exact ⟨by rw [hu], by rw [hu]⟩

theorem Effect.keeps_queueLaw {s t : State} {c : Instr} (h : Effect s c t) (hs : QueueLaw s) : QueueLaw t := by
  have disposed {u : State} (hu : QueueLaw u) (p : Entry → Bool) :
      QueueLaw ((u.dispose p).joinReady.settlePlace).arbitrate :=
    ((((TrackerMoves.dispose u p).trans (.joinReady _)).keeps_queueLaw hu).settlePlace).arbitrate
  cases h with
  | porstAsserted ns => exact powerOn_queueLaw
  | porstReleased => exact powerOn_queueLaw
  | joined c r place =>
    obtain ⟨-, transmit, held, entryless⟩ := hs
    exact ⟨by rw [List.length_append]; exact place, transmit, held, entryless⟩
  | linkLost =>
    obtain ⟨-, transmit, held, entryless⟩ := hs
    exact ⟨Nat.zero_le _, (List.length_filter_le _ _).trans transmit, held, entryless⟩
  | sent =>
    obtain ⟨receive, transmit, held, entryless⟩ := hs
    exact ⟨receive, (List.tail_sublist _).length_le.trans transmit, held, entryless⟩
  | mgbHanded a rest head place =>
    exact hs.handed rfl place (by rw [head]; exact Nat.le_succ _) le_rfl
  | noticed i src offered place => exact hs.handed rfl place le_rfl le_rfl
  | refused c r st place =>
    obtain ⟨receive, transmit, held, -⟩ := hs.popHead
    refine ⟨receive, transmit, held, ?_⟩
    have one : (s.popHead.answerRefusal r st).trk.entryless = s.trk.entryless + 1 := by
      simp only [Tracker.entryless, State.answerRefusal_trk, State.popHead_trk, List.filter_append, List.length_append,
        Nat.add_right_comm]
      rfl
    rw [one]
    exact place
  | faulted c r st => exact hs.popHead.of_eq (by simp) (by simp) (by simp) (by simp [Tracker.entryless])
  | admitted c r k i p =>
    have added : QueueLaw (s.popHead.withTransfer r k i p) := hs.popHead.of_eq rfl rfl rfl rfl
    exact added.arbitrate
  | flushed r =>
    have added : QueueLaw (s.popHead.addEntry r (.flush none)) := hs.popHead.of_eq rfl rfl rfl rfl
    exact ((TrackerMoves.judgeFlushes _ r.initiator).trans (.joinReady _)).keeps_queueLaw added
  | detached r kind passes place => exact disposed (hs.popHead.detachBegun r.initiator r.tag place) _
  | refusalHanded r rest head place => exact hs.answerHanded r place
  | detachHanded i d r rest head running place =>
    obtain ⟨receive, transmit, held, entryless⟩ := hs.answerHanded r place
    refine ⟨receive, transmit, held, le_trans ?_ entryless⟩
    exact Nat.add_le_add_left (detaches_count_set s.trk.detaches i none) _
  | staleDetach | staleEntry => exact hs.stale
  | entryHanded e o rest head mem done place =>
    exact (((TrackerMoves.depart _ e).trans (.joinReady _)).keeps_queueLaw (hs.answerHanded (e.response o) place)).arbitrate
  | trkReset => exact disposed (u := { s with
      trk := { s.trk with faults := Vector.replicate 4 none }
      handed := { s.handed with trkResets := s.handed.trkResets - 1 } }) hs _
  | announced t a left =>
    exact (((TrackerMoves.foldl TrackerMoves.failOffline _
      { s with handed := { s.handed with announcements := left } }).trans (.joinReady _)).keeps_queueLaw hs).arbitrate
  | reported x report e =>
    exact (((TrackerMoves.endSegmentOf { s with pbe := { s.pbe with bus := .idle } } report e).trans
      (.joinReady _)).keeps_queueLaw hs).arbitrate
  | answered c a place => exact hs.answered rfl rfl place rfl
  | acknowledged r src irl place => exact hs.answered rfl rfl place rfl
  | claimed r a place => exact hs.answered rfl rfl place rfl
  | submitted r place => exact hs.answered rfl rfl place rfl
  | released r place => exact hs.answered rfl rfl place rfl
  | written r place => exact hs.answered rfl rfl place rfl
  | mgbReset => exact hs.of_eq rfl rfl (released_answers _) rfl
  | mgbDetached i m left box =>
    obtain rfl | rfl := box
    · exact hs.of_eq rfl rfl (released_answers _) rfl
    · exact hs
  | committed x records u runs pass =>
    obtain ⟨answers, detaches⟩ := commitPass_answers pass
    obtain ⟨hlp, held⟩ := commitPass_queues pass
    have live : QueueLaw u := hs.of_eq (by rw [hlp]) (by rw [hlp]) held (entryless_of_eq (by rw [answers]) detaches)
    have written : QueueLaw (u.countCommit.finishChain x x.results .committed) := live.of_eq rfl rfl rfl rfl
    exact written.settlePlace.arbitrate
  | initialized | reportStale | expiredIdle | extreqTaken | busReturned | completed | timedOut | wentOffline =>
    exact (hs.of_eq (by rfl) (by rfl) (by rfl) (by rfl)).arbitrate
  | lineWithdrawn | clearingTaken | irlDetached | irlResetUp | irlReset => exact (hs.of_eq (by rfl) (by rfl) (by rfl) (by rfl)).settlePlace
  | _ => exact hs.of_eq rfl rfl rfl rfl

/-! ## Buffers -/

theorem BufferLaw.of_eq {s t : State} (hs : BufferLaw s) (request : t.mgb.requestBuffer = s.mgb.requestBuffer)
    (result : t.mgb.resultBuffer = s.mgb.resultBuffer) : BufferLaw t := by
  rw [BufferLaw, request, result]
  exact hs

theorem BufferLaw.finishChain {s : State} (hs : BufferLaw s) (x : Executor) (rs : List RecordResult) (o : ChainOutcome) :
    BufferLaw (s.finishChain x rs o) :=
  ⟨hs.1, finishChain_wf hs.2 x rs o⟩

theorem powerOn_bufferLaw {boot : Boot} {pins : Pins} {pending : List Instr} : BufferLaw (.powerOn boot pins pending) := by
  exact ⟨rfl, rfl⟩

theorem released_buffers (m : Management) :
    m.released.requestBuffer = m.requestBuffer ∧ m.released.resultBuffer = m.resultBuffer := by
  unfold Management.released
  split <;> exact ⟨rfl, rfl⟩

theorem commitPass_buffers {s u : State} {records : List (RecordRef × List Byte)}
    (pass : s.takeDueEvents.commitPass records = .ok u) :
    u.mgb.requestBuffer = s.mgb.requestBuffer ∧ u.mgb.resultBuffer = s.mgb.resultBuffer := by
  have hu := commitPass_frame _ pass
  rw [takeDueEvents_eq] at hu
  exact ⟨by rw [hu], by rw [hu]⟩

theorem Effect.keeps_bufferLaw {s t : State} {c : Instr} (h : Effect s c t) (hs : BufferLaw s) : BufferLaw t := by
  cases h with
  | porstAsserted ns => exact powerOn_bufferLaw
  | porstReleased => exact powerOn_bufferLaw
  | submitted r place i chainLength owner => exact ⟨hs.1, rfl⟩
  | written r place inBuffer => exact ⟨Memory.wf_writeBytes inBuffer hs.1, hs.2⟩
  | released | leaseLost => exact hs.of_eq rfl rfl
  | mgbReset => exact hs.of_eq (released_buffers _).1 (released_buffers _).2
  | mgbDetached i m left box =>
    obtain rfl | rfl := box
    · exact hs.of_eq (released_buffers _).1 (released_buffers _).2
    · exact hs
  | finished c x y rs o => exact hs.finishChain y rs o
  | committed x records u runs pass =>
    obtain ⟨request, result⟩ := commitPass_buffers pass
    have live : BufferLaw u.countCommit := hs.of_eq request result
    exact (live.finishChain x x.results .committed).of_eq (by simp) (by simp)
  | _ => exact hs.of_eq (by simp) (by simp)

/-! ## Notices outstanding -/

/-- No pair becomes NOTIFIED. -/
abbrev Relay.Calms (r q : Relay) : Prop := ∀ k j, q.pair k j = .notified → r.pair k j = .notified

theorem Relay.Calms.noticeLaw {s t : State} (h : s.irl.Calms t.irl) (hs : NoticeLaw s) : NoticeLaw t := fun i =>
  (outstanding_mono fun k => h k i).trans (hs i)

/-- Neither does one that moves to another state where a condition holds. -/
theorem notified_of_ite {c : Prop} [Decidable c] {p q : PairState} (h : (if c then q else p) = .notified) (hq : q ≠ .notified) :
    p = .notified := by
  split at h
  · exact absurd h hq
  · exact h

section
variable (r : Relay)

theorem setPair_calms (src : Source) (i : Initiator) {p : PairState} (hp : p ≠ .notified) : r.Calms (r.setPair src i p) :=
  fun _ _ h => notified_of_ite ((pair_setPair ..).symm.trans h) hp

theorem moveIf_calms (src : Source) (i : Initiator) {p : PairState} (hp : p ≠ .notified) (c : Prop) [Decidable c] :
    r.Calms (if c then r.setPair src i p else r) := by
  split
  · exact setPair_calms r src i hp
  · exact fun _ _ h => h

theorem linkReset_calms (pins : Pins) : r.Calms (r.linkReset pins) := fun _ _ h =>
  absurd ((linkReset_pair ..).symm.trans h) (idleOrPending_ne _ _ _ _)

theorem detach_calms (pins : Pins) (i : Initiator) : r.Calms (r.detach pins i) := fun _ _ h =>
  notified_of_ite ((detach_pair ..).symm.trans h) (idleOrPending_ne _ _ _ _)

theorem takeEvent_calms (e : NoticeEvent) : r.Calms (r.takeEvent e) := moveIf_calms r _ _ (p := .pending) nofun _

theorem takeEvents_calms : ∀ (l : List NoticeEvent) (s : State), s.irl.Calms (l.foldl State.takeEvent s).irl
  | [], _ => fun _ _ h => h
  | e :: l, s => fun k j h => takeEvent_calms s.irl e k j (takeEvents_calms l (s.takeEvent e) k j h)

theorem commitRoute_calms (pins : Pins) (src : Source) (route : Route) : r.Calms (r.commitRoute pins src route) := by
  intro k j h
  by_cases hk : k = src
  · subst hk
    rw [commitRoute_pair] at h
    unfold Relay.pairAfterRoute at h
    have moved : r.movedPair pins k route j = .notified := by
      dsimp only at h
      split at h
      · exact notified_of_ite h nofun
      · exact notified_of_ite h nofun
    unfold Relay.movedPair at moved
    dsimp only at moved
    split at moved
    · exact moved
    · split at moved
      · next hj => rw [hj]; exact notified_of_ite moved nofun
      · exact notified_of_ite moved nofun
  · rwa [commitRoute_other r pins src route hk] at h

end

theorem withWindows_ok {s u : State} {ws : Except RecordStatus (Vector Window 32)} (h : s.withWindows ws = .ok u) :
    ∃ w, ws = .ok w ∧ u = { s with wdc := w } := by
  cases ws with
  | error st => cases h
  | ok w => cases h; exact ⟨w, rfl, rfl⟩

theorem applyRecord_calms {s u : State} {k : RecordKind} {bs : List Byte} {later : List (RecordRef × List Byte)}
    (h : s.applyRecord k bs later = .ok u) : s.irl.Calms u.irl := by
  cases k with
  | setRoute =>
    simp only [State.applyRecord] at h
    split at h <;> cases h
    · split
      · exact fun _ _ h => h
      · exact commitRoute_calms s.irl s.pins _ _
    · exact fun _ _ h => h
  | setThreshold =>
    simp only [State.applyRecord] at h
    split at h <;> cases h
    · split <;> exact fun _ _ h => h
    · exact fun _ _ h => h
  | setLimits =>
    simp only [State.applyRecord, State.applyLimits] at h
    cases h
    split
    · exact fun _ _ h => h
    · split <;> exact fun _ _ h => h
  | setWindow | enableWindow | clearWindow =>
    obtain ⟨w, -, rfl⟩ := withWindows_ok h
    exact fun _ _ h => h
  | _ => cases h; exact fun _ _ h => h

theorem commitPass_calms {s u : State} {records : List (RecordRef × List Byte)}
    (pass : s.takeDueEvents.commitPass records = .ok u) : s.irl.Calms u.irl :=
  commitPass_induction (P := fun u => s.irl.Calms u.irl)
    (fun _ _ _ _ _ hv h k j hk => hv k j (applyRecord_calms h k j hk)) _ (takeEvents_calms _ s) pass

theorem powerOn_noticeLaw {boot : Boot} {pins : Pins} {pending : List Instr} : NoticeLaw (.powerOn boot pins pending) := by
  intro i
  simp [Relay.outstanding, Relay.pair, State.powerOn, Relay.powerOn]

theorem Effect.keeps_noticeLaw {s t : State} {c : Instr} (h : Effect s c t) (hs : NoticeLaw s) : NoticeLaw t := by
  have still {t : State} (h : t.irl = s.irl) : NoticeLaw t := Relay.Calms.noticeLaw (fun k j hk => by rwa [h] at hk) hs
  cases h with
  | porstAsserted ns => exact powerOn_noticeLaw
  | porstReleased => exact powerOn_noticeLaw
  | noticed i src offered place =>
    obtain ⟨-, -, room, -⟩ := (sendable_iff s.irl src i).mp (offer_sendable offered)
    intro j
    refine (outstanding_handed s.irl i j src).trans ?_
    by_cases hj : j = i
    · rw [if_pos hj, hj]; exact room
    · rw [if_neg hj]; exact hs j
  | trained | irlUp => exact Relay.Calms.noticeLaw (s := s) (fun _ _ h => h) hs
  | lineAsserted n samples => exact Relay.Calms.noticeLaw (s := s) (moveIf_calms s.irl _ _ (p := .pending) nofun _) hs
  | lineWithdrawn n samples => exact Relay.Calms.noticeLaw (s := s) (moveIf_calms s.irl _ _ (p := .idle) nofun _) hs
  | eventTaken e => exact Relay.Calms.noticeLaw (s := s) (takeEvent_calms s.irl e) hs
  | clearingTaken i x => exact Relay.Calms.noticeLaw (s := s) (moveIf_calms s.irl _ _ (p := .idle) nofun _) hs
  | irlDetached i => exact Relay.Calms.noticeLaw (s := s) (detach_calms s.irl s.pins i) hs
  | irlResetUp rest | irlReset rest => exact Relay.Calms.noticeLaw (s := s) (linkReset_calms s.irl s.pins) hs
  | acknowledged r src irl place ack =>
    obtain ⟨-, rfl⟩ := acknowledge_frame ack
    exact Relay.Calms.noticeLaw (s := s) (setPair_calms s.irl _ _ (idleOrPending_ne _ _ _ _)) hs
  | committed x records u runs pass =>
    refine Relay.Calms.noticeLaw (s := s) (fun k j hk => commitPass_calms pass k j ?_) hs
    simpa using hk
  | _ => exact still (by simp)

/-- Settles O57. -/
theorem stepKeepsCapacities : Obligations.StepKeepsCapacities := by
  intro s t h
  obtain rfl | ⟨c, rest, heffect⟩ := step_cases h
  · obtain htick | htick := clockTick_cases s <;> rw [htick] <;> exact ⟨id, id, id⟩
  · exact ⟨heffect.keeps_queueLaw, heffect.keeps_bufferLaw, heffect.keeps_noticeLaw⟩

end Sys2Proof.Machine

/-! The ranges of target records, timers, limits and counts (R25, R29, R58, R90, R109, R123, R157, R158). -/

namespace Sys2Proof.Machine

theorem saturate255_le (n : Nat) (h : n ≤ 255) : saturate255 n ≤ 255 := by
  unfold saturate255
  split <;> omega

/-! ## Target records -/

abbrev TargetsLegal (s : State) : Prop := ∀ t : TargetId, s.tgt[t].Legal

theorem powerOn_legal : TargetRecord.powerOn.Legal := by decide

section
variable {r : TargetRecord}

/-- An ABSENT record has its power-on values; any other has its parameters and counts in range. -/
theorem TargetRecord.Legal.cases (h : r.Legal) : r = TargetRecord.powerOn ∨ r.state ≠ .absent := by
  by_cases hs : r.state = .absent
  · exact .inl (h.2.2.2.2.2.2.2.2.2.2 hs)
  · exact .inr hs

theorem TargetRecord.Legal.completed (h : r.Legal) : r.completed.Legal := by
  unfold TargetRecord.completed
  split
  · exact h
  all_goals
    next hs =>
    obtain ⟨h1, h2, h3, h4, h5, h6, h7, -, h9, -, -⟩ := h
    exact ⟨h1, h2, h3, h4, h5, h6, h7, Nat.zero_le _, h9, Nat.zero_le _, fun hc => by simp [hs] at hc⟩

theorem TargetRecord.Legal.timedOut (h : r.Legal) : r.timedOut.Legal := by
  have kept := (TimingKept.timedOut r).2.2.2.2
  unfold TargetRecord.timedOut at kept ⊢
  split
  · exact h
  · next present =>
    rw [if_neg present] at kept
    obtain ⟨h1, h2, h3, h4, h5, h6, h7, -, h9, h10, -⟩ := h
    exact ⟨h1, h2, h3, h4, h5, h6, h7, Nat.min_le_left _ _, saturate255_le _ h9, h10, fun hc => absurd (kept.mp hc) present⟩

theorem TargetRecord.Legal.aged (h : r.Legal) : r.aged.Legal := by
  unfold TargetRecord.aged
  split
  · next young =>
    obtain rfl | present := h.cases
    · exact absurd young (by decide)
    · obtain ⟨h1, h2, h3, h4, h5, h6, h7, h8, h9, -, -⟩ := h
      exact ⟨h1, h2, h3, h4, h5, h6, h7, h8, h9, Nat.succ_le_succ (young.trans (by decide)), fun hc => absurd hc present⟩
  · exact h

theorem TargetRecord.Legal.revived (h : r.Legal) : r.revived.Legal := by
  obtain ⟨h1, h2, h3, h4, h5, h6, h7, -, h9, h10, -⟩ := h
  exact ⟨h1, h2, h3, h4, h5, h6, h7, Nat.zero_le _, h9, h10, nofun⟩

theorem withTiming_legal (h : r.Legal) {bs : List Byte} (legal : timingLegal bs = true) {st : TargetState} (present : st ≠ .absent) :
    ({ r.withTiming bs with state := st } : TargetRecord).Legal := by
  rw [timingLegal_iff, decide_eq_true_eq] at legal
  obtain ⟨h1, h2, h3, h4, h5⟩ := legal
  obtain ⟨-, -, -, -, -, -, -, consecutive, errors, age, -⟩ := h
  exact ⟨Nat.le_of_lt_succ (byteAt bs 1).isLt, h1, Nat.le_of_lt_succ (byteAt bs 2).isLt, h2, h3, h4, h5, consecutive, errors, age,
    fun hc => absurd hc present⟩

theorem TargetRecord.Legal.configured (h : r.Legal) {bs : List Byte} (legal : timingLegal bs = true) : (r.configured bs).Legal := by
  unfold TargetRecord.configured
  split
  · exact withTiming_legal powerOn_legal legal nofun
  · next present => exact withTiming_legal h legal present

end

theorem TargetsLegal.set {s t : State} (hs : TargetsLegal s) {k : TargetId} {r : TargetRecord} (hr : r.Legal)
    (h : t.tgt = s.tgt.set k r) : TargetsLegal t := by
  intro j
  rw [h, table_set_get]
  split
  · exact hr
  · exact hs j

theorem TargetsLegal.of_eq {s t : State} (hs : TargetsLegal s) (h : t.tgt = s.tgt) : TargetsLegal t := by
  rw [TargetsLegal, h]
  exact hs

/-! ## Limits -/

/-- The ranges of R90 and R172. -/
abbrev LimitsLegal (s : State) : Prop :=
  (4 ≤ s.pbe.segmentLimit ∧ s.pbe.segmentLimit ≤ 64 ∧ s.pbe.segmentLimit % 4 = 0) ∧ s.pbe.lendLimit ≤ 255 ∧
    (1 ≤ s.mgb.lease ∧ s.mgb.lease ≤ 255) ∧ s.mgb.claimMask ≠ 0

theorem LimitsLegal.of_kept {s t : State} (hs : LimitsLegal s) (h : LimitsKept s t) : LimitsLegal t := by
  obtain ⟨⟨segment, lend⟩, lease, mask, -⟩ := h
  rw [LimitsLegal, segment, lend, lease, mask]
  exact hs

theorem limitsLegal_cases {bs : List Byte} (h : limitsLegal bs = true) :
    (4 ≤ (byteAt bs 0).toNat ∧ (byteAt bs 0).toNat ≤ 64 ∧ (byteAt bs 0).toNat % 4 = 0) ∧ 1 ≤ (byteAt bs 1).toNat ∧
      1 ≤ (byteAt bs 3).toNat ∧ (byteAt bs 3).toNat < 16 := by
  simpa [limitsLegal, and_assoc] using h

/-- What SET LIMITS writes, with or without the overrun of a lending. -/
theorem applyLimits_fields (s : State) (bs : List Byte) :
    (s.applyLimits bs).pbe.segmentLimit = (byteAt bs 0).toNat ∧ (s.applyLimits bs).pbe.lendLimit = (byteAt bs 2).toNat ∧
      (s.applyLimits bs).mgb.lease = (byteAt bs 1).toNat ∧
      (s.applyLimits bs).mgb.claimMask = BitVec.ofNat 4 (byteAt bs 3).toNat ∧ (s.applyLimits bs).tgt = s.tgt := by
  unfold State.applyLimits
  dsimp only
  split <;> exact ⟨rfl, rfl, rfl, rfl, rfl⟩

theorem applyLimits_legal {s : State} {bs : List Byte} (h : limitsLegal bs = true) : LimitsLegal (s.applyLimits bs) := by
  obtain ⟨segment, lend, lease, mask, -⟩ := applyLimits_fields s bs
  obtain ⟨hsegment, hlease, hmask, hmask'⟩ := limitsLegal_cases h
  rw [LimitsLegal, segment, lend, lease, mask]
  refine ⟨hsegment, Nat.le_of_lt_succ (byteAt bs 2).isLt, ⟨hlease, Nat.le_of_lt_succ (byteAt bs 1).isLt⟩, fun hc => ?_⟩
  have := congrArg BitVec.toNat hc
  rw [BitVec.toNat_ofNat] at this
  simp at this
  omega

/-! ## The commit pass -/

theorem applyRecord_ranges {s u : State} {k : RecordKind} {bs : List Byte} {later : List (RecordRef × List Byte)}
    (hs : TargetsLegal s ∧ LimitsLegal s) (h : s.applyRecord k bs later = .ok u) : TargetsLegal u ∧ LimitsLegal u := by
  obtain ⟨targets, limits⟩ := hs
  cases k with
  | setTarget =>
    cases h
    refine ⟨?_, limits⟩
    simp only [commitSetTarget]
    split
    · exact targets
    · split
      · next t ht legal => exact targets.set ((targets t).configured legal) rfl
      · exact targets
  | clearTarget =>
    cases h
    refine ⟨?_, limits⟩
    simp only [commitClearTarget]
    split
    · exact targets
    · exact targets.set powerOn_legal rfl
  | reviveTarget =>
    cases h
    refine ⟨?_, limits⟩
    simp only [commitReviveTarget]
    split
    · exact targets
    · next t ht => exact targets.set (targets t).revived rfl
  | setLimits =>
    cases h
    split
    · exact ⟨targets, limits⟩
    · next hc =>
      simp only [Bool.or_eq_true, Bool.not_eq_true', not_or, Bool.not_eq_false] at hc
      exact ⟨targets.of_eq (applyLimits_fields s bs).2.2.2.2, applyLimits_legal hc.2⟩
  | setRoute | setThreshold =>
    simp only [State.applyRecord] at h
    split at h <;> cases h
    · split <;> exact ⟨targets, limits⟩
    · exact ⟨targets, limits⟩
  | setWindow | enableWindow | clearWindow =>
    obtain ⟨w, -, rfl⟩ := withWindows_ok h
    exact ⟨targets, limits⟩
  | _ => cases h; exact ⟨targets, limits⟩

theorem commitPass_ranges {s u : State} {records : List (RecordRef × List Byte)}
    (pass : s.takeDueEvents.commitPass records = .ok u) (hs : TargetsLegal s ∧ LimitsLegal s) :
    TargetsLegal u ∧ LimitsLegal u := by
  have due : TargetsLegal s.takeDueEvents ∧ LimitsLegal s.takeDueEvents := by
    rw [takeDueEvents_eq]
    exact hs
  exact commitPass_induction (fun _ _ _ _ _ => applyRecord_ranges) _ due pass

/-- What the pass leaves of the timers and the counts. -/
theorem commitPass_counts {s u : State} {records : List (RecordRef × List Byte)}
    (pass : s.takeDueEvents.commitPass records = .ok u) :
    u.pbe.recovery = s.pbe.recovery ∧ u.pbe.lendTimer = s.pbe.lendTimer ∧ u.mgb.lostCount = s.mgb.lostCount ∧
      u.hlp = s.hlp ∧ u.trk.faults = s.trk.faults := by
  have hu := commitPass_frame _ pass
  rw [takeDueEvents_eq] at hu
  exact ⟨by rw [hu], by rw [hu], by rw [hu], by rw [hu], by rw [hu]⟩

/-! ## Each part of the law, by effect -/

section
variable {s t : State} {c : Instr}

theorem powerOn_targets {boot : Boot} {pins : Pins} {pending : List Instr} : TargetsLegal (.powerOn boot pins pending) := by
  intro t
  simpa [State.powerOn] using powerOn_legal

theorem Effect.keeps_targets (h : Effect s c t) (hs : TargetsLegal s ∧ LimitsLegal s) : TargetsLegal t := by
  obtain ⟨targets, limits⟩ := hs
  cases h with
  | porstAsserted ns => exact powerOn_targets
  | porstReleased => exact powerOn_targets
  | completed t left => exact targets.set (targets t).completed (arbitrate_tgt _)
  | timedOut t left => exact targets.set (targets t).timedOut (arbitrate_tgt _)
  | wentOffline t left => exact targets.set (targets t).timedOut (arbitrate_tgt _)
  | aged => exact fun k => by rw [tabulate_get]; exact (targets k).aged
  | committed x records u runs pass => exact (commitPass_ranges pass ⟨targets, limits⟩).1.of_eq (by simp)
  | _ => exact targets.of_eq (by simp)

theorem powerOn_limits {boot : Boot} {pins : Pins} {pending : List Instr} : LimitsLegal (.powerOn boot pins pending) := by
  simp [LimitsLegal, State.powerOn, BusEngine.powerOn, Management.powerOn]

theorem Effect.keeps_limitsLegal (h : Effect s c t) (hs : TargetsLegal s ∧ LimitsLegal s) : LimitsLegal t := by
  obtain ⟨boot, rfl, -⟩ | ⟨x, records, u, pass, -, rfl⟩ | kept := h.limits_cases
  · exact powerOn_limits
  · simpa [LimitsLegal, State.countCommit] using (commitPass_ranges pass hs).2
  · exact hs.2.of_kept kept

/-- No recovery timer counts more than the longest recovery (R103). -/
abbrev RecoveryLaw (s : State) : Prop := ∀ t : TargetId, s.pbe.recovery[t] ≤ Config.clocksPerTick * 255

theorem RecoveryLaw.set (hs : RecoveryLaw s) {k : TargetId} {n : Nat} (hn : n ≤ Config.clocksPerTick * 255)
    (h : t.pbe.recovery = s.pbe.recovery.set k n) : RecoveryLaw t := by
  intro j
  rw [h, table_set_get]
  split
  · exact hn
  · exact hs j

theorem RecoveryLaw.of_eq (hs : RecoveryLaw s) (h : t.pbe.recovery = s.pbe.recovery) : RecoveryLaw t := by
  rw [RecoveryLaw, h]
  exact hs

theorem recovery_le (hs : TargetsLegal s) (k : TargetId) : Config.clocksPerTick * s.tgt[k].recovery ≤ Config.clocksPerTick * 255 :=
  Nat.mul_le_mul_left _ (hs k).1

theorem powerOn_recovery {boot : Boot} {pins : Pins} {pending : List Instr} : RecoveryLaw (.powerOn boot pins pending) := by
  intro t
  simp [State.powerOn, BusEngine.powerOn]

theorem Effect.keeps_recovery (h : Effect s c t) (targets : TargetsLegal s) (hs : RecoveryLaw s) : RecoveryLaw t := by
  cases h with
  | porstAsserted ns => exact powerOn_recovery
  | porstReleased => exact powerOn_recovery
  | cycleEnded x r result => exact hs.set (k := x.target) (recovery_le targets x.target) (by simp)
  | expired k notIdle => exact hs.set (k := k) (Nat.zero_le _) rfl
  | expiredIdle k => exact hs.set (k := k) (Nat.zero_le _) (by simp)
  | resumed k x => exact hs.set (k := k) (Nat.zero_le _) (by simp)
  | busReturned samples again lent =>
    intro k
    simpa using recovery_le targets k
  | admitted c r k i p => exact hs.of_eq (by simp [State.admitTransfer])
  | committed x records u runs pass =>
    obtain ⟨recovery, -⟩ := commitPass_counts pass
    exact hs.of_eq (by simp [recovery])
  | _ => exact hs.of_eq (by simp)

/-- The lend timer stays at 255 µs (R109). -/
abbrev LendLaw (s : State) : Prop := ∀ n ∈ s.pbe.lendTimer, n ≤ Config.clocksPerMicrosecond * 255

theorem LendLaw.of_eq (hs : LendLaw s) (h : t.pbe.lendTimer = s.pbe.lendTimer) : LendLaw t := by
  rw [LendLaw, h]
  exact hs

theorem LendLaw.arbitrate (hs : LendLaw s) : LendLaw s.arbitrate := by
  obtain h | h := arbitrate_pbe_lendTimer s
  · exact hs.of_eq h
  · intro n hn
    rw [h] at hn
    cases hn
    exact Nat.zero_le _

theorem Effect.keeps_lendTimer (h : Effect s c t) (hs : LendLaw s) : LendLaw t := by
  cases h with
  | porstAsserted ns => exact fun n hn => by simp [State.powerOn, BusEngine.powerOn] at hn
  | porstReleased => exact fun n hn => by simp [State.powerOn, BusEngine.powerOn] at hn
  | busReturned samples again lent => exact LendLaw.arbitrate fun n hn => by simp at hn
  | admitted c r k i p =>
    exact LendLaw.arbitrate (s := s.popHead.withTransfer r k i p) hs
  | committed x records u runs pass =>
    obtain ⟨-, lend, -⟩ := commitPass_counts pass
    exact (hs.of_eq (by simp [lend])).arbitrate
  | initialized | reportStale | reported | detached | entryHanded | trkReset | announced | expiredIdle | extreqTaken
  | completed | timedOut | wentOffline => exact (hs.of_eq (by simp)).arbitrate
  | _ => exact hs.of_eq (by simp)

/-- The counts that stay at 255, and the commit count, which passes from 65535 to 0 (R123, R158, R175). -/
abbrev CountsLaw (s : State) : Prop := s.mgb.lostCount ≤ 255 ∧ s.mgb.commitCount < 65536 ∧ s.hlp.dropped ≤ 255

theorem CountsLaw.of_eq (hs : CountsLaw s) (lost : t.mgb.lostCount = s.mgb.lostCount)
    (commits : t.mgb.commitCount = s.mgb.commitCount) (dropped : t.hlp.dropped = s.hlp.dropped) : CountsLaw t := by
  rw [CountsLaw, lost, commits, dropped]
  exact hs

theorem released_lostCount (m : Management) : m.released.lostCount = m.lostCount := by
  unfold Management.released
  split <;> rfl

theorem powerOn_countsLaw {boot : Boot} {pins : Pins} {pending : List Instr} : CountsLaw (.powerOn boot pins pending) := by
  simp [CountsLaw, State.powerOn, Management.powerOn, LinkPort.powerOn]

theorem Effect.keeps_counts (h : Effect s c t) (hs : CountsLaw s) : CountsLaw t := by
  obtain ⟨lost, commits, dropped⟩ := id hs
  cases h with
  | porstAsserted ns => exact powerOn_countsLaw
  | porstReleased => exact powerOn_countsLaw
  | dropped c => exact ⟨lost, commits, saturate255_le _ ‹_›⟩
  | leaseLost i leased => exact ⟨saturate255_le _ lost, commits, dropped⟩
  | counted x y runs => exact ⟨Nat.zero_le _, commits, Nat.zero_le _⟩
  | mgbReset => exact hs.of_eq (released_lostCount _) (released_limits _).2.2.1 rfl
  | mgbDetached i m left box =>
    obtain rfl | rfl := box
    · exact hs.of_eq (released_lostCount _) (released_limits _).2.2.1 rfl
    · exact hs
  | committed x records u runs pass =>
    obtain ⟨-, -, hlost, hhlp, -⟩ := commitPass_counts pass
    refine ⟨by simpa [hlost] using lost, ?_, by simpa [hhlp] using dropped⟩
    simpa [State.countCommit] using Nat.mod_lt (u.mgb.commitCount + 1) (by decide)
  | mgbHanded | noticed | refusalHanded | detachHanded | answered | claimed | submitted | released | written | ended
  | endedReleased => exact hs.of_eq rfl rfl rfl
  | entryHanded => exact hs.of_eq (by simp) (by simp) (by simp [LinkPort.hand])
  | _ => exact hs.of_eq (by simp) (by simp) (by simp)

theorem FaultCountLaw.of_eq (hs : FaultCountLaw s) (h : t.trk.faults = s.trk.faults) : FaultCountLaw t := by
  rw [FaultCountLaw, h]
  exact hs

theorem FaultCountLaw.arbitrate (hs : FaultCountLaw s) : FaultCountLaw s.arbitrate := hs.of_eq (by simp)

theorem powerOn_faults {boot : Boot} {pins : Pins} {pending : List Instr} : FaultCountLaw (.powerOn boot pins pending) := by
  intro i f hf
  simp [State.powerOn, Tracker.powerOn] at hf

theorem Effect.keeps_faults (h : Effect s c t) (hs : FaultCountLaw s) : FaultCountLaw t := by
  have disposed {u : State} (hu : FaultCountLaw u) (p : Entry → Bool) :
      FaultCountLaw ((u.dispose p).joinReady.settlePlace).arbitrate :=
    FaultCountLaw.arbitrate ((((TrackerMoves.dispose u p).trans (.joinReady _)).faults hu).of_eq (by simp))
  cases h with
  | porstAsserted ns => exact powerOn_faults
  | porstReleased => exact powerOn_faults
  | faulted c r st => exact (TrackerMoves.recordFault _ _ _ _ _).faults hs
  | admitted c r k i p => exact FaultCountLaw.arbitrate (s := s.popHead.withTransfer r k i p) hs
  | flushed r =>
    exact ((TrackerMoves.judgeFlushes (s.popHead.addEntry r (.flush none)) r.initiator).trans (.joinReady _)).faults hs
  | detached r =>
    refine disposed (u := s.popHead.detachBegun r.initiator r.tag) ?_ _
    exact faultCountLaw_set (s := s) (i := r.initiator) (r := none) (fun _ f hf => nomatch hf) rfl hs
  | entryHanded e o =>
    exact (((TrackerMoves.depart (s.handAnswer (e.response o)) e).trans (.joinReady _)).faults hs).arbitrate
  | trkReset =>
    refine disposed (u := { s with
      trk := { s.trk with faults := Vector.replicate 4 none }
      handed := { s.handed with trkResets := s.handed.trkResets - 1 } }) (fun i f hf => ?_) _
    simp at hf
  | announced t a left =>
    exact (((TrackerMoves.foldl TrackerMoves.failOffline _
      { s with handed := { s.handed with announcements := left } }).trans (.joinReady _)).faults hs).arbitrate
  | reported x report e =>
    exact (((TrackerMoves.endSegmentOf { s with pbe := { s.pbe with bus := .idle } } report e).trans
      (.joinReady _)).faults hs).arbitrate
  | committed x records u runs pass =>
    obtain ⟨-, -, -, -, faults⟩ := commitPass_counts pass
    exact hs.of_eq (by simp [faults])
  | _ => exact hs.of_eq (by simp)

end

/-! ## The law -/

theorem rangeLaw_iff (s : State) :
    RangeLaw s ↔ (TargetsLegal s ∧ LimitsLegal s) ∧ RecoveryLaw s ∧ CountsLaw s ∧ FaultCountLaw s ∧ LendLaw s := by
  constructor
  · rintro ⟨targets, recovery, segment, lend, lease, mask, lost, commits, dropped, faults, timer⟩
    exact ⟨⟨targets, segment, lend, lease, mask⟩, recovery, ⟨lost, commits, dropped⟩, faults, timer⟩
  · rintro ⟨⟨targets, segment, lend, lease, mask⟩, recovery, ⟨lost, commits, dropped⟩, faults, timer⟩
    exact ⟨targets, recovery, segment, lend, lease, mask, lost, commits, dropped, faults, timer⟩

/-- One bus clock counts the recovery timers down, and the lend timer up to 255 µs. -/
theorem RangeLaw.clocked {s : State} (hs : RangeLaw s) {due : List Instr} : RangeLaw { s.counted with pending := due } := by
  rw [rangeLaw_iff] at hs ⊢
  obtain ⟨limits, recovery, counts, faults, -⟩ := hs
  refine ⟨limits, fun t => ?_, counts, faults, fun n hn => ?_⟩
  · have : s.counted.pbe.recovery[t] = countDown s.pbe.recovery[t] := tabulate_get ..
    rw [show (State.pbe _).recovery[t] = _ from this, countDown]
    have := recovery t
    split <;> omega
  · obtain ⟨m, -, rfl⟩ := Option.mem_map.mp hn
    exact Nat.min_le_right _ _

/-- Settles O58. -/
theorem stepKeepsRanges : Obligations.StepKeepsRanges := by
  intro s t hs h
  obtain rfl | ⟨c, rest, heffect⟩ := step_cases h
  · obtain htick | htick := clockTick_cases s <;> rw [htick]
    · exact hs
    · exact hs.clocked
  · rw [rangeLaw_iff] at hs ⊢
    obtain ⟨limits, recovery, counts, faults, lend⟩ := hs
    exact ⟨⟨heffect.keeps_targets limits, heffect.keeps_limitsLegal limits⟩, heffect.keeps_recovery limits.1 recovery,
      heffect.keeps_counts counts, heffect.keeps_faults faults, heffect.keeps_lendTimer lend⟩

end Sys2Proof.Machine

/-! What a record of each kind does in the commit pass (R10 to R13, R34 to R36, R45, R110, R138 to R142, R175, R176). -/

namespace Sys2Proof.Machine

section
variable {s : State} {bs : List Byte} {later : List (RecordRef × List Byte)} {i : WindowIx}

theorem overlapsOther_iff (p : Profile) : overlapsOther s.wdc i p = true ↔ s.MeetsOther i p := by
  simp only [overlapsOther, List.any_eq_true, List.mem_finRange, true_and, Bool.and_eq_true, decide_eq_true_eq,
    State.MeetsOther]
  refine exists_congr fun j => and_congr_right fun _ => ?_
  cases s.wdc[j].reserved with
  | none => simp
  | some q => simp [Profile.overlaps]

theorem overlapsOther_false {p : Profile} (h : ¬s.MeetsOther i p) : overlapsOther s.wdc i p = false :=
  Bool.eq_false_iff.mpr fun hc => h ((overlapsOther_iff p).mp hc)

theorem disabled_of_active (n : Nat) (p : Profile) :
    (Window.loaded .active n p).disabled = .loaded (if n = 0 then .disabled else .draining) n p := by
  cases n <;> rfl

theorem disabled_of_not_active {st : LoadedStatus} (h : st ≠ .active) (n : Nat) (p : Profile) :
    (Window.loaded st n p).disabled = .loaded st n p := by
  cases st with
  | active => exact absurd rfl h
  | disabled => rfl
  | draining => rfl

theorem enabling_of_not_active {st : LoadedStatus} (h : st ≠ .active) (n : Nat) (p : Profile) :
    (Window.loaded st n p).enabling = some p := by
  cases st with
  | active => exact absurd rfl h
  | disabled => rfl
  | draining => rfl

theorem isReserved_of_not_disabled {st : LoadedStatus} (h : st ≠ .disabled) (n : Nat) (p : Profile) :
    (Window.loaded st n p).isReserved = true := by
  cases st with
  | active => rfl
  | disabled => exact absurd rfl h
  | draining => rfl

theorem not_isReserved_iff (w : Window) : w.isReserved = false ↔ w = .empty ∨ ∃ n p, w = .loaded .disabled n p := by
  cases w with
  | empty => simp [Window.isReserved, Window.reserved]
  | loaded st n p => cases st <;> simp [Window.isReserved, Window.reserved]

/-! ## Window records -/

theorem applyRecord_disableWindow (hi : (byteAt bs 0).toNat = i.val) :
    s.applyRecord .disableWindow bs later = .ok { s with wdc := s.wdc.set i s.wdc[i].disabled } := by
  change Except.ok { s with wdc := commitDisableWindow s.wdc bs } = _
  rw [commitDisableWindow, windowIndex_eq hi]

theorem applyRecord_enableWindow (hi : (byteAt bs 0).toNat = i.val) :
    s.applyRecord .enableWindow bs later =
      match s.wdc[i].enabling with
      | none => .ok s
      | some p =>
        if overlapsOther s.wdc i p then .error .overlap else .ok { s with wdc := s.wdc.set i s.wdc[i].enabled } := by
  change s.withWindows (commitEnableWindow s.wdc bs) = _
  rw [commitEnableWindow, windowIndex_eq hi]
  cases henabling : s.wdc[i].enabling with
  | none => simp only [henabling]; rfl
  | some p => simp only [henabling]; split <;> rfl

theorem applyRecord_clearWindow (hi : (byteAt bs 0).toNat = i.val) :
    s.applyRecord .clearWindow bs later =
      if s.wdc[i].isReserved then .error .indexBusy else .ok { s with wdc := s.wdc.set i .empty } := by
  change s.withWindows (commitClearWindow s.wdc bs) = _
  rw [commitClearWindow, windowIndex_eq hi]
  dsimp only
  split <;> rfl

theorem applyRecord_setWindow (hi : (byteAt bs 0).toNat = i.val) {p : Profile} (hp : profileOf bs = some p)
    (range : rangeLegal (payloadBase bs) (payloadSize bs) = true) :
    s.applyRecord .setWindow bs later =
      if s.wdc[i].isReserved then .error .indexBusy
      else if enableFlag bs && overlapsOther s.wdc i p then .error .overlap
      else .ok { s with wdc := s.wdc.set i (loadedWindow (enableFlag bs) p) } := by
  have payload : windowPayload bs = some (i, p) := by
    rw [windowPayload, windowIndex_eq hi, hp]
    exact if_pos range
  change s.withWindows (commitSetWindow s.wdc bs) = _
  rw [commitSetWindow, payload]
  dsimp only
  split_ifs <;> rfl

/-! ## Target records -/

theorem applyRecord_reviveTarget {t : TargetId} (ht : (byteAt bs 0).toNat = t.val) :
    s.applyRecord .reviveTarget bs later = .ok { s with tgt := s.tgt.set t s.tgt[t].revived } := by
  change Except.ok { s with tgt := commitReviveTarget s.tgt bs } = _
  rw [commitReviveTarget, targetNumber_eq ht]

theorem applyRecord_clearTarget {t : TargetId} (ht : (byteAt bs 0).toNat = t.val) :
    s.applyRecord .clearTarget bs later = .ok { s with tgt := s.tgt.set t TargetRecord.powerOn } := by
  change Except.ok { s with tgt := commitClearTarget s.tgt bs } = _
  rw [commitClearTarget, targetNumber_eq ht]

theorem applyRecord_setTarget {t : TargetId} (ht : (byteAt bs 0).toNat = t.val) (timing : timingLegal bs = true) :
    s.applyRecord .setTarget bs later = .ok { s with tgt := s.tgt.set t (s.tgt[t].configured bs) } := by
  change Except.ok { s with tgt := commitSetTarget s.tgt bs } = _
  rw [commitSetTarget, targetNumber_eq ht]
  exact congrArg (fun ts => Except.ok { s with tgt := ts }) (if_pos timing)

/-! ## The records of which the last of a chain has effect -/

theorem superseded_setRoute :
    superseded .setRoute bs later = true ↔ ∃ r ∈ later, r.1.kind = .setRoute ∧ byteAt r.2 0 = byteAt bs 0 := by
  simp only [superseded, List.any_eq_true, Bool.and_eq_true, decide_eq_true_eq]

theorem superseded_setThreshold :
    superseded .setThreshold bs later = true ↔ ∃ r ∈ later, r.1.kind = .setThreshold ∧ byteAt r.2 0 = byteAt bs 0 := by
  simp only [superseded, List.any_eq_true, Bool.and_eq_true, decide_eq_true_eq]

theorem superseded_setLimits : superseded .setLimits bs later = true ↔ ∃ r ∈ later, r.1.kind = .setLimits := by
  simp only [superseded, List.any_eq_true, Bool.and_true, decide_eq_true_eq]

theorem applyRecord_setRoute {src : Source} {new : Route} (hsrc : (byteAt bs 0).toNat = src.val)
    (hprio : (byteAt bs 1).toNat = new.priority.val) (hdest : (byteAt bs 2).toNat = new.destination.val)
    (hvec : byteAt bs 3 = new.vector) :
    s.applyRecord .setRoute bs later =
      .ok (if superseded .setRoute bs later then s else { s with irl := s.irl.commitRoute s.pins src new }) := by
  have route : routeOf bs = some (src, new) := by rw [routeOf_some hsrc hprio hdest, hvec]
  simp only [State.applyRecord, route]

theorem applyRecord_setThreshold {j : Initiator} {threshold : Fin 16} (hj : (byteAt bs 0).toNat = j.val)
    (ht : (byteAt bs 1).toNat = threshold.val) :
    s.applyRecord .setThreshold bs later =
      .ok (if superseded .setThreshold bs later then s else { s with irl := s.irl.commitThreshold j threshold }) := by
  simp only [State.applyRecord, thresholdOf_some hj ht]

theorem applyRecord_setLimits :
    s.applyRecord .setLimits bs later =
      .ok (if superseded .setLimits bs later || !limitsLegal bs then s else s.applyLimits bs) := rfl

/-! ## The overrun that a new lend limit brings about (R110) -/

/-- The lend timer counts clocks, 40 to the µs, and stays at 255 µs, which no limit exceeds. -/
theorem overrunDue_iff {p : BusEngine} {limit : Nat} (hlimit : p.lendLimit = limit) (byte : limit < 256) :
    p.overrunDue = true ↔
      p.bus = .lent ∧ p.overrunMark = false ∧ limit ≠ 0 ∧ ∃ n, p.lendTimer = some n ∧ 40 * limit ≤ n := by
  have clocks : Config.clocksPerMicrosecond = 40 := rfl
  simp only [BusEngine.overrunDue, BusEngine.lendMicroseconds, Bool.and_eq_true, decide_eq_true_eq, hlimit,
    Bool.not_eq_true', and_assoc, clocks]
  refine and_congr_right fun _ => and_congr_right fun _ => and_congr_right fun positive => ?_
  cases p.lendTimer with
  | none => simpa using positive
  | some n => simp only [Option.some.injEq, exists_eq_left']; omega

theorem applyLimits_eq {overrun : Bool}
    (h : overrun = true ↔
      s.pbe.bus = .lent ∧ s.pbe.overrunMark = false ∧ (byteAt bs 2).toNat ≠ 0 ∧
        ∃ n, s.pbe.lendTimer = some n ∧ 40 * (byteAt bs 2).toNat ≤ n) :
    s.applyLimits bs =
      { s with
        pbe :=
          { s.pbe with
            segmentLimit := (byteAt bs 0).toNat
            lendLimit := (byteAt bs 2).toNat
            overrunMark := s.pbe.overrunMark || overrun
            lendOverrun := s.pbe.lendOverrun || overrun }
        mgb := { s.mgb with lease := (byteAt bs 1).toNat, claimMask := BitVec.ofNat 4 (byteAt bs 3).toNat }
        handed := { s.handed with events := s.handed.events ++ if overrun then [.lendOverrun] else [] } } := by
  have due := overrunDue_iff
    (p := { s.pbe with segmentLimit := (byteAt bs 0).toNat, lendLimit := (byteAt bs 2).toNat }) rfl (byteAt bs 2).isLt
  rw [← h] at due
  unfold State.applyLimits
  dsimp only
  cases overrun with
  | true =>
    rw [if_pos (due.mpr rfl), Bool.or_true, Bool.or_true]
    rfl
  | false =>
    rw [if_neg fun hc => Bool.noConfusion (due.mp hc), Bool.or_false, Bool.or_false]
    simp only [Bool.false_eq_true, if_false, List.append_nil]

theorem quiescedBy_eq (g : Gate) (entries : List Entry) :
    g.quiescedBy entries.length = if g = .opened then (if entries = [] then .quiesced else .quiescing) else g := by
  cases g with
  | opened => simp only [Gate.quiescedBy, List.length_eq_zero_iff, if_true]
  | quiescing => rfl
  | quiesced => rfl

end

/-- Settles O50, kind by kind. -/
theorem commitReadsLiveValues : Obligations.CommitReadsLiveValues := by
  intro s bs later
  refine ⟨fun i hi => ⟨?active, ?inactive, ?busy, ?free⟩, fun t ht => ⟨?revive, ?clear, ?set, ?setAbsent⟩, ?route,
    ?threshold, ?laterLimits, ?limits, ?quiesce, rfl, ?reports⟩
  case active =>
    intro n p hw
    refine ⟨?_, ?_⟩
    · rw [applyRecord_disableWindow hi, hw, disabled_of_active]
    · rw [applyRecord_enableWindow hi, hw]; rfl
  case inactive =>
    intro st n p hw inactive
    have enable := applyRecord_enableWindow (s := s) (later := later) hi
    rw [hw, enabling_of_not_active inactive] at enable
    refine ⟨?_, fun meets => ?_, fun apart => ?_⟩
    · rw [applyRecord_disableWindow hi, hw, disabled_of_not_active inactive, ← hw, table_set_self _ _ rfl]
    · rw [enable]; exact if_pos ((overlapsOther_iff p).mpr meets)
    · rw [enable]; exact if_neg (Bool.eq_false_iff.mp (overlapsOther_false apart))
  case busy =>
    intro st n p hw reserved
    have busy : s.wdc[i].isReserved = true := by rw [hw, isReserved_of_not_disabled reserved]
    refine ⟨?_, fun hq range => ?_⟩
    · rw [applyRecord_clearWindow hi, if_pos busy]
    · obtain ⟨q, hq⟩ := Option.isSome_iff_exists.mp hq
      rw [applyRecord_setWindow hi hq range, if_pos busy]
  case free =>
    intro unreserved
    have free := Bool.eq_false_iff.mp ((not_isReserved_iff _).mpr unreserved)
    refine ⟨?_, fun q hq range => ?_⟩
    · rw [applyRecord_clearWindow hi, if_neg free]
    · rw [applyRecord_setWindow hi hq range, if_neg free, ← overlapsOther_iff, ← Bool.and_eq_true]
      exact ⟨fun meets => if_pos meets, fun apart => if_neg apart⟩
  case revive => exact applyRecord_reviveTarget ht
  case clear => exact applyRecord_clearTarget ht
  case set =>
    intro timing present
    rw [applyRecord_setTarget ht timing, TargetRecord.configured, if_neg present]
    rfl
  case setAbsent =>
    intro timing absent
    rw [applyRecord_setTarget ht timing, TargetRecord.configured, if_pos absent]
    rfl
  case route =>
    intro src new hsrc hprio hdest hvec
    rw [applyRecord_setRoute hsrc hprio hdest hvec]
    refine ⟨fun replaced => by rw [if_pos (superseded_setRoute.mpr replaced)], fun last => ?_⟩
    rw [if_neg fun hc => have ⟨r, hr, kind, source⟩ := superseded_setRoute.mp hc; last r hr kind source]
    exact ⟨_, rfl, congrArg (fun r => { s with irl := r }) (commitRoute_frame ..),
      fun j => commitRoute_pair s.irl s.pins src new j, fun k j hk => commitRoute_other s.irl s.pins src new hk j⟩
  case threshold =>
    intro j threshold hj ht
    rw [applyRecord_setThreshold hj ht]
    refine ⟨fun replaced => by rw [if_pos (superseded_setThreshold.mpr replaced)], fun last => ?_⟩
    rw [if_neg fun hc => have ⟨r, hr, kind, initiator⟩ := superseded_setThreshold.mp hc; last r hr kind initiator]
    rfl
  case laterLimits =>
    intro replaced
    rw [applyRecord_setLimits, superseded_setLimits.mpr replaced]
    rfl
  case limits =>
    intro overrun last legal due
    have notReplaced : superseded .setLimits bs later = false :=
      Bool.eq_false_iff.mpr fun hc => have ⟨r, hr, kind⟩ := superseded_setLimits.mp hc; last r hr kind
    rw [applyRecord_setLimits, notReplaced, legal]
    exact congrArg Except.ok (applyLimits_eq due)
  case quiesce => rw [← quiescedBy_eq]; rfl
  case reports =>
    intro k hk
    simp only [List.mem_cons, List.not_mem_nil, or_false] at hk
    obtain rfl | rfl | rfl | rfl := hk <;> rfl

end Sys2Proof.Machine

/-! Staging (R170): a record whose checks pass stages with DONE by the rule of its kind, and one whose checks fail rejects
its chain. -/

namespace Sys2Proof.Machine

/-! ## The rule of each kind -/

/-- The rule by which a record of a kind stages: what it makes of the shadow, and its report. -/
def RecordKind.stagingRule : RecordKind → Shadow → List Byte → Except RecordStatus (Shadow × List Byte)
  | .setWindow => fun sh => onWindows (fun ws => stageSetWindow ws sh.targets) sh
  | .enableWindow => onWindows stageEnableWindow
  | .disableWindow => onWindows stageDisableWindow
  | .clearWindow => onWindows stageClearWindow
  | .getWindow => stageGetWindow
  | .setTarget => onTargets stageSetTarget
  | .clearTarget => fun sh => onTargets (stageClearTarget sh.windows) sh
  | .reviveTarget => onTargets stageReviveTarget
  | .getTarget => stageGetTarget
  | .setRoute => stageSetRoute
  | .setThreshold => stageSetThreshold
  | .setLimits => stageSetLimits
  | .quiesce => stageQuiesce
  | .resume => stageResume
  | .getStatus => fun sh _ => .ok (sh, [])
  | .endRecord => fun sh _ => .ok (sh, [])

/-- The kinds with the command that stages each by its rule; GET_STATUS and END have commands of their own shape. -/
def stagingCommands : List (RecordKind × Instr) :=
  [(.setWindow, .setWindow), (.enableWindow, .enableWindow), (.disableWindow, .disableWindow),
    (.clearWindow, .clearWindow), (.getWindow, .getWindow), (.setTarget, .setTarget), (.clearTarget, .clearTarget),
    (.reviveTarget, .reviveTarget), (.getTarget, .getTarget), (.setRoute, .setRoute), (.setThreshold, .setThreshold),
    (.setLimits, .setLimits), (.quiesce, .quiesce), (.resume, .resume)]

theorem exec_staging {k : RecordKind} {c : Instr} (h : (k, c) ∈ stagingCommands) (s : State) :
    exec c s = .next (s.stage k k.stagingRule) := by
  simp only [stagingCommands, List.mem_cons, Prod.mk.injEq, List.not_mem_nil, or_false] at h
  obtain ⟨rfl, rfl⟩ | ⟨rfl, rfl⟩ | ⟨rfl, rfl⟩ | ⟨rfl, rfl⟩ | ⟨rfl, rfl⟩ | ⟨rfl, rfl⟩ | ⟨rfl, rfl⟩ | ⟨rfl, rfl⟩ |
    ⟨rfl, rfl⟩ | ⟨rfl, rfl⟩ | ⟨rfl, rfl⟩ | ⟨rfl, rfl⟩ | ⟨rfl, rfl⟩ | ⟨rfl, rfl⟩ := h
  all_goals rfl

section
variable {s : State} {k : RecordKind} {x : Executor} {sh : Shadow} {ref : RecordRef} {bs : List Byte}

theorem State.StagesNext.stage_done {rule : Shadow → List Byte → Except RecordStatus (Shadow × List Byte)} {sh1 : Shadow}
    {report : List Byte} (h : s.StagesNext k x sh ref bs) (done : rule sh bs = .ok (sh1, report)) :
    s.stage k rule = s.recordDone x sh1 report := by
  obtain ⟨staging, payload⟩ := Machine.StagesNext.staging h
  simp only [State.stage, staging, payload, done]
  rfl

theorem State.StagesNext.stage_failed {rule : Shadow → List Byte → Except RecordStatus (Shadow × List Byte)}
    {st : RecordStatus} (h : s.StagesNext k x sh ref bs) (failed : rule sh bs = .error st) :
    s.stage k rule = s.stagingFailed x ref st := by
  obtain ⟨staging, payload⟩ := Machine.StagesNext.staging h
  simp only [State.stage, staging, payload, failed]

theorem State.StagesNext.exec_done {c : Instr} {sh1 : Shadow} {report : List Byte} (h : s.StagesNext k x sh ref bs)
    (command : (k, c) ∈ stagingCommands) (done : k.stagingRule sh bs = .ok (sh1, report)) :
    exec c s = .next (s.recordDone x sh1 report) :=
  (exec_staging command s).trans (congrArg _ (h.stage_done done))

/-! ## Window records -/

theorem onWindows_ok {rule : Vector Window 32 → List Byte → Except RecordStatus (Vector Window 32)}
    {ws : Vector Window 32} (h : rule sh.windows bs = .ok ws) : onWindows rule sh bs = .ok ({ sh with windows := ws }, []) := by
  rw [onWindows, h]
  rfl

theorem onWindows_error {rule : Vector Window 32 → List Byte → Except RecordStatus (Vector Window 32)}
    {st : RecordStatus} (h : rule sh.windows bs = .error st) : onWindows rule sh bs = .error st := by
  rw [onWindows, h]
  rfl

theorem onTargets_ok {rule : Vector TargetRecord 16 → List Byte → Except RecordStatus (Vector TargetRecord 16)}
    {ts : Vector TargetRecord 16} (h : rule sh.targets bs = .ok ts) :
    onTargets rule sh bs = .ok ({ sh with targets := ts }, []) := by
  rw [onTargets, h]
  rfl

theorem onTargets_error {rule : Vector TargetRecord 16 → List Byte → Except RecordStatus (Vector TargetRecord 16)}
    {st : RecordStatus} (h : rule sh.targets bs = .error st) : onTargets rule sh bs = .error st := by
  rw [onTargets, h]
  rfl

theorem stageGetWindow_eq {i : WindowIx} (hi : (byteAt bs 0).toNat = i.val) :
    stageGetWindow sh bs = .ok (sh, windowReport sh.windows[i]) := by
  rw [stageGetWindow, windowIndex_eq hi]

theorem stageGetTarget_eq {t : TargetId} (ht : (byteAt bs 0).toNat = t.val) :
    stageGetTarget sh bs = .ok (sh, targetReport sh.targets[t]) := by
  rw [stageGetTarget, targetNumber_eq ht]

end

/-- ENABLE WINDOW leaves an entry that is loaded ACTIVE, whatever it was. -/
theorem enabled_windows (ws : Vector Window 32) {i : WindowIx} {st : LoadedStatus} {n : Nat} {p : Profile}
    (h : ws[i] = .loaded st n p) :
    (if ws[i].enabling.isSome then ws.set i ws[i].enabled else ws) = ws.set i (.loaded .active n p) := by
  by_cases active : st = .active
  · subst active
    rw [h, ← h, table_set_self _ _ rfl]
    exact if_neg (by rw [h]; exact Bool.false_ne_true)
  · rw [h, enabling_of_not_active active]
    rfl

/-- Settles O44. -/
theorem windowRecordsStage : Obligations.WindowRecordsStage := by
  intro s k x sh ref bs i h passed hi
  refine ⟨?set, ?enable, ?disableActive, ?disable, ?clear, ?getEmpty, ?getLoaded⟩
  case set =>
    rintro rfl
    obtain ⟨p, profile, staged⟩ := (stageSetWindow_eq sh bs).2 passed i hi
    refine ⟨p, profile, profileOf_spelled profile, ?_⟩
    rw [h.exec_done (by decide) (onWindows_ok (rule := fun ws => stageSetWindow ws sh.targets) staged), loadedWindow,
      enableFlag]
    simp only [decide_eq_true_eq]
  case enable =>
    rintro st n p rfl hw
    obtain ⟨-, staged⟩ := (stageEnableWindow_eq sh bs).2 passed i hi
    rw [enabled_windows _ hw] at staged
    exact h.exec_done (by decide) (onWindows_ok staged)
  case disableActive =>
    rintro n p rfl hw
    have staged := (stageDisableWindow_eq sh bs).2 passed i hi
    rw [hw, disabled_of_active] at staged
    exact h.exec_done (by decide) (onWindows_ok staged)
  case disable =>
    rintro st n p rfl hw inactive
    have staged := (stageDisableWindow_eq sh bs).2 passed i hi
    rw [hw, disabled_of_not_active inactive, ← hw, table_set_self _ _ rfl] at staged
    exact h.exec_done (by decide) (onWindows_ok staged)
  case clear =>
    rintro rfl
    exact h.exec_done (by decide) (onWindows_ok ((stageClearWindow_eq sh bs).2 passed i hi))
  case getEmpty =>
    rintro rfl hw
    rw [h.exec_done (by decide) (stageGetWindow_eq hi), hw]
    rfl
  case getLoaded =>
    rintro st n p code mode unit lane ab rfl hw hcode hmode hunit hlane hab
    rw [h.exec_done (by decide) (stageGetWindow_eq hi), hw, windowReport_loaded hcode hmode hunit hlane hab]

/-- Settles O45. -/
theorem targetRecordsStage : Obligations.TargetRecordsStage := by
  intro s k x sh ref bs t h passed ht
  obtain ⟨⟨-, set⟩, ⟨-, clear⟩, -, revive⟩ := stageTarget_eq sh bs
  refine ⟨?setAbsent, ?set, ?clear, ?revive, ?get⟩
  case setAbsent =>
    rintro rfl absent
    rw [h.exec_done (by decide) (onTargets_ok (set passed t ht)), TargetRecord.configured, if_pos absent]
    rfl
  case set =>
    rintro rfl present
    rw [h.exec_done (by decide) (onTargets_ok (set passed t ht)), TargetRecord.configured, if_neg present]
    rfl
  case clear =>
    rintro rfl
    exact h.exec_done (by decide) (onTargets_ok (rule := stageClearTarget sh.windows) (clear passed t ht))
  case revive =>
    rintro rfl
    exact h.exec_done (by decide) (onTargets_ok (revive passed t ht))
  case get =>
    rintro code r rfl rfl hcode
    rw [h.exec_done (by decide) (stageGetTarget_eq ht), targetReport_eq hcode]

/-- Settles O46. -/
theorem routeAndLimitRecordsStage : Obligations.RouteAndLimitRecordsStage := by
  intro s k x sh ref bs h passed
  refine ⟨?route, ?threshold, ?limits⟩
  case route =>
    rintro rfl src prio d hsrc hprio hdest
    refine h.exec_done (by decide) ?_
    change stageSetRoute sh bs = _
    rw [stageSetRoute, routeOf_some hsrc hprio hdest]
  case threshold =>
    rintro rfl i threshold hi ht
    refine h.exec_done (by decide) ?_
    change stageSetThreshold sh bs = _
    rw [stageSetThreshold, thresholdOf_some hi ht]
  case limits =>
    rintro rfl
    have legal : limitsLegal bs = true := by
      rw [limitsLegal_iff]
      simpa [Shadow.stagingChecks, firstFailing_cons, firstFailing_nil] using passed
    refine h.exec_done (by decide) ?_
    change stageSetLimits sh bs = _
    rw [stageSetLimits, if_pos legal]

theorem quiescedBy_occupancy (g : Gate) (occupancy : Nat) :
    g.quiescedBy occupancy = if g = .opened then (if occupancy = 0 then .quiesced else .quiescing) else g := by
  cases g <;> rfl

/-- Settles O47. -/
theorem gateStatusAndEndRecordsStage : Obligations.GateStatusAndEndRecordsStage := by
  intro s k x sh ref bs h
  obtain ⟨staging, -⟩ := Machine.StagesNext.staging h
  refine ⟨?quiesce, ?resume, ?status, ?endRecord⟩
  case quiesce =>
    rintro rfl
    refine h.exec_done (by decide) ?_
    change stageQuiesce sh bs = _
    rw [stageQuiesce, quiescedBy_occupancy]
  case resume =>
    rintro rfl
    exact h.exec_done (by decide) rfl
  case status =>
    rintro gate last rfl hgate none some
    change execGetStatus s = _
    rw [execGetStatus, staging]
    dsimp only
    rw [statusReport_eq hgate none some]
    rfl
  case endRecord =>
    rintro rfl
    change execEndRecord s = _
    rw [execEndRecord, staging]
    rfl

/-! ## A record that fails -/

section
variable {s : State} {sh : Shadow} {bs : List Byte} {st : RecordStatus}

theorem failing_of_single {b : Bool} {st' : RecordStatus} (h : firstFailing [(b, st')] = some st) : b = true ∧ st' = st := by
  cases b
  · cases h
  · exact ⟨rfl, Option.some.inj h⟩

/-- The rule of a kind gives the status of the first check of its table that fails. -/
theorem stagingRule_error {k : RecordKind} (h : firstFailing (sh.stagingChecks k bs) = some st) :
    k.stagingRule sh bs = .error st := by
  obtain ⟨⟨set, -⟩, ⟨clear, -⟩, revive, -⟩ := stageTarget_eq sh bs
  cases k with
  | setWindow =>
    exact onWindows_error (rule := fun ws => stageSetWindow ws sh.targets) ((stageSetWindow_eq sh bs).1 st h)
  | enableWindow => exact onWindows_error ((stageEnableWindow_eq sh bs).1 st h)
  | disableWindow => exact onWindows_error ((stageDisableWindow_eq sh bs).1 st h)
  | clearWindow => exact onWindows_error ((stageClearWindow_eq sh bs).1 st h)
  | getWindow =>
    obtain ⟨index, rfl⟩ := failing_of_single h
    change stageGetWindow sh bs = _
    rw [stageGetWindow, windowIndex_none (of_decide_eq_true index)]
  | setTarget => exact onTargets_error (set st h)
  | clearTarget => exact onTargets_error (rule := stageClearTarget sh.windows) (clear st h)
  | reviveTarget => exact onTargets_error (revive st h)
  | getTarget =>
    obtain ⟨number, rfl⟩ := failing_of_single h
    change stageGetTarget sh bs = _
    rw [stageGetTarget, targetNumber_none (of_decide_eq_true number)]
  | setRoute =>
    obtain ⟨range, rfl⟩ := failing_of_single h
    change stageSetRoute sh bs = _
    rw [stageSetRoute, routeOf_none (of_decide_eq_true range)]
  | setThreshold =>
    obtain ⟨range, rfl⟩ := failing_of_single h
    change stageSetThreshold sh bs = _
    rw [stageSetThreshold, thresholdOf_none (of_decide_eq_true range)]
  | setLimits =>
    obtain ⟨range, rfl⟩ := failing_of_single h
    change stageSetLimits sh bs = _
    rw [stageSetLimits, limitsLegal_iff, range]
    rfl
  | quiesce | resume | getStatus | endRecord => cases h

theorem finishChain_rejectedAt (hs : BufferLaw s) (x : Executor) (results : List RecordResult) (o : ChainOutcome) :
    s.RejectedAt (s.finishChain x results o) x results o :=
  ⟨rfl, finishChain_read hs.2 x results o⟩

end

/-- Settles O48: the first check that fails gives the status, and the chain ends there. -/
theorem failedRecordRejectsChain : Obligations.FailedRecordRejectsChain := by
  refine ⟨fun ref payload position n st code hcode => ?records, ?staging⟩
  case records =>
    simp only [List.mem_cons, Prod.mk.injEq, List.not_mem_nil, or_false] at hcode
    obtain ⟨rfl, rfl⟩ | ⟨rfl, rfl⟩ | ⟨rfl, rfl⟩ | ⟨rfl, rfl⟩ | ⟨rfl, rfl⟩ := hcode
    all_goals exact ⟨⟨_, rfl, resultRecord_sum _ _⟩, _, rfl, outcomeRecord_sum _ _⟩
  case staging =>
    intro s k c x sh ref bs st command buffers h failed
    have isCommand : (k, c) ∈ stagingCommands :=
      List.mem_append_left [(RecordKind.quiesce, Instr.quiesce), (.resume, .resume)] command
    refine ⟨s.stagingFailed x ref st, ?_, finishChain_rejectedAt buffers x _ _⟩
    rw [exec_staging isCommand s, h.stage_failed (stagingRule_error failed)]

end Sys2Proof.Machine

/-! COMMIT (R175 to R179, R189): the pass, and what the step makes live. -/

namespace Sys2Proof.Machine

theorem commitPass_nil (s : State) : s.commitPass [] = .ok s := rfl

theorem commitPass_ok {s u : State} {ref : RecordRef} {bs : List Byte} {rest : List (RecordRef × List Byte)}
    (h : s.applyRecord ref.kind bs rest = .ok u) : s.commitPass ((ref, bs) :: rest) = u.commitPass rest := by
  simp only [State.commitPass, h]

theorem commitPass_error {s : State} {ref : RecordRef} {bs : List Byte} {rest : List (RecordRef × List Byte)}
    {st : RecordStatus} (h : s.applyRecord ref.kind bs rest = .error st) :
    s.commitPass ((ref, bs) :: rest) = .error (ref.sequence, st) := by
  simp only [State.commitPass, h]

section
variable {s u : State} {x : Executor} (executing : s.cfx = some x) (phase : x.phase = .committing)
  (unfinished : x.finished = false)
include executing phase unfinished

theorem exec_commit_ok (pass : s.takeDueEvents.commitPass (x.records.map fun ref => (ref, s.payloadOf ref)) = .ok u) :
    exec .commit s = .next (u.countCommit.finishChain x x.results .committed).settlePlace.arbitrate := by
  change execCommit s = _
  simp only [execCommit, executing, phase, unfinished, and_self, if_true, pass]

theorem exec_commit_error {n : Nat} {st : RecordStatus}
    (pass : s.takeDueEvents.commitPass (x.records.map fun ref => (ref, s.payloadOf ref)) = .error (n, st)) :
    exec .commit s =
      .next
        (s.finishChain x (failedResults (x.results.take n) st x.records.length) (.rejectedCommit n st)) := by
  change execCommit s = _
  simp only [execCommit, executing, phase, unfinished, and_self, if_true, pass]

end

/-- What the pass leaves of what it does not write, the events due taken before it. -/
theorem commitPass_kept {s u : State} {records : List (RecordRef × List Byte)}
    (pass : s.takeDueEvents.commitPass records = .ok u) :
    u.hlp = s.hlp ∧ u.trk.entries = s.trk.entries ∧ u.mgb.mailbox = s.mgb.mailbox ∧ u.power = s.power ∧
      u.mgb.commitCount = s.mgb.commitCount ∧ u.mgb.resultBuffer = s.mgb.resultBuffer := by
  have frame := commitPass_frame _ pass
  rw [takeDueEvents_eq] at frame
  rw [frame]
  exact ⟨rfl, rfl, rfl, rfl, rfl, rfl⟩

/-- Settles O49. -/
theorem commitIsAllOrNothing : Obligations.CommitIsAllOrNothing := by
  refine ⟨fun s ref bs rest => ⟨commitPass_nil s, fun u => commitPass_ok, fun st => commitPass_error⟩,
    fun ref payload n => ⟨⟨_, rfl, resultRecord_sum _ _⟩, _, rfl, outcomeRecord_sum _ _⟩, ?rejected,
    fun ref r refs rs => ⟨resultRecords_nil _, resultRecords_cons ..⟩, ?commit⟩
  case rejected =>
    intro position n st code hcode
    simp only [List.mem_cons, Prod.mk.injEq, List.not_mem_nil, or_false] at hcode
    obtain ⟨rfl, rfl⟩ | ⟨rfl, rfl⟩ := hcode
    all_goals exact ⟨_, rfl, outcomeRecord_sum _ _⟩
  case commit =>
    rintro s v x records buffers executing phase unfinished rfl hv
    obtain rfl : v = s.takeDueEvents := hv.trans (takeDueEvents_eq s).symm
    refine ⟨fun u pass => ?_, fun n st pass => ?_⟩
    · obtain ⟨hlp, entries, mailbox, power, count, buffer⟩ := commitPass_kept pass
      have settled := settlePlace_settled (u.countCommit.finishChain x x.results .committed)
      refine ⟨_, exec_commit_ok executing phase unfinished pass, ?_, ?_, ?_, hlp, entries, mailbox, power⟩
      · rw [← count]
        rfl
      · intro a
        have written := finishChain_read (s := u.countCommit) (buffer ▸ buffers.2) x x.results .committed a
        rw [show u.countCommit.mgb.resultBuffer = s.mgb.resultBuffer from buffer] at written
        exact written
      · rw [State.PlaceSettled, ← hlp]
        exact settled
    · exact ⟨_, exec_commit_error executing phase unfinished pass, finishChain_rejectedAt buffers x _ _⟩

end Sys2Proof.Machine

/-! Admission and refusal of requests (R47 to R52), and the FLUSH (R60, R61). -/

namespace Sys2Proof.Machine

section
variable {s : State} {r : Request} {rest : List Request}

/-! ## The request at the head -/

/-- A READ, WRITE or POSTED request below management space is the TRK's. -/
theorem headClass_transfer {c : HeadClass} (below : r.address.toNat < 0xFFF000)
    (h : (r.kind, c) ∈ [(RequestKind.read, HeadClass.read), (.write, .write), (.posted, .posted)]) :
    headClass r = c := by
  have outside : r.inManagement = false := decide_eq_false (Nat.not_le.mpr below)
  simp only [List.mem_cons, Prod.mk.injEq, List.not_mem_nil, or_false] at h
  obtain ⟨hk, rfl⟩ | ⟨hk, rfl⟩ | ⟨hk, rfl⟩ := h
  all_goals
    rw [headClass, hk, outside]
    rfl

theorem HeadForTracker.headFor {c : HeadClass} (h : HeadForTracker s r rest) (tracker : c.isTracker = true)
    (hc : headClass r = c) : s.headFor c = some r :=
  headFor_eq h.1 hc ((canTake_tracker tracker).mpr h.2)

theorem popHead_eq (h : s.hlp.receive = r :: rest) : s.popHead = { s with hlp := { s.hlp with receive := rest } } := by
  rw [State.popHead, h]
  rfl

theorem answerRefusal_popHead (h : s.hlp.receive = r :: rest) (st : Status) :
    s.popHead.answerRefusal r st = s.refused rest r st := by
  rw [popHead_eq h]
  rfl

/-! ## The decision on a READ, WRITE or POSTED request -/

/-- What the eight checks of R47 decide. -/
def State.decision (s : State) (r : Request) : Except Status (WindowIx × Profile) :=
  match s.trk.refusal r with
  | some st => .error st
  | none => decodeRequest s.wdc s.tgt r

theorem admission_eq_decision (k : TransferKind) :
    s.admission r k =
      match s.decision r with
      | .error st => s.popHead.answerRefusal r st
      | .ok (i, p) => s.popHead.admitTransfer r k i p := by
  unfold State.admission State.decision
  cases s.trk.refusal r with
  | some st => rfl
  | none => rfl

theorem admissionPosted_eq_decision :
    s.admissionPosted r =
      match s.decision r with
      | .error st => s.popHead.refusePosted r st
      | .ok (i, p) => s.popHead.admitTransfer r .posted i p := by
  unfold State.admissionPosted State.decision
  cases s.trk.refusal r with
  | some st => rfl
  | none => rfl

theorem decision_error {w : Option (WindowIx × Nat × Profile)} {st : Status}
    (kind : r.kind = .read ∨ r.kind = .write ∨ r.kind = .posted) (windows : WindowLaw s)
    (decodes : s.DecodesTo r.address.toNat w)
    (failing : firstFailing (s.admissionChecks r (w.map fun x => x.2.2)) = some st) : s.decision r = .error st := by
  have decided := admission_eq kind windows decodes
  rw [failing] at decided
  exact decided

theorem decision_ok {i : WindowIx} {n : Nat} {p : Profile} (kind : r.kind = .read ∨ r.kind = .write ∨ r.kind = .posted)
    (windows : WindowLaw s) (decodes : s.DecodesTo r.address.toNat (some (i, n, p)))
    (passes : firstFailing (s.admissionChecks r (some p)) = none) : s.decision r = .ok (i, p) := by
  have decided := admission_eq kind windows decodes
  rw [Option.map_some, passes] at decided
  exact decided

theorem exec_read_of_decision (hread : r.kind = .read) (head : HeadForTracker s r rest)
    (below : r.address.toNat < 0xFFF000) : exec .read s = .next (s.admission r .read) := by
  change execRead s = _
  rw [execRead, head.headFor rfl (headClass_transfer below (by rw [hread]; decide))]

theorem exec_write_of_decision (hwrite : r.kind = .write) (head : HeadForTracker s r rest)
    (below : r.address.toNat < 0xFFF000) : exec .write s = .next (s.admission r .write) := by
  change execWrite s = _
  rw [execWrite, head.headFor rfl (headClass_transfer below (by rw [hwrite]; decide))]

theorem exec_posted_of_decision (hposted : r.kind = .posted) (head : HeadForTracker s r rest)
    (below : r.address.toNat < 0xFFF000) : exec .posted s = .next (s.admissionPosted r) := by
  change execPosted s = _
  rw [execPosted, head.headFor rfl (headClass_transfer below (by rw [hposted]; decide))]

theorem refusePosted_recorded {st : Status} (h : s.hlp.receive = r :: rest) (unanswered : st ≠ .retry) :
    s.popHead.refusePosted r st =
      { s with
        hlp := { s.hlp with receive := rest }
        trk :=
          { s.trk with
            faults := s.trk.faults.set r.initiator (some (takeFault s.trk.faults[r.initiator] st r.address 0)) }
        handed := { s.handed with events := s.handed.events ++ [.postedFault r.initiator] } } := by
  rw [State.refusePosted, if_neg unanswered, popHead_eq h]
  rfl

theorem admitTransfer_eq {i : WindowIx} {n : Nat} {p : Profile} {slot : Slot} (h : s.hlp.receive = r :: rest)
    (active : s.wdc[i] = .loaded .active n p) (free : s.LowestFree slot) (k : TransferKind) :
    s.popHead.admitTransfer r k i p =
      State.arbitrate
        { s with
          hlp := { s.hlp with receive := rest }
          wdc := s.wdc.set i (.loaded .active (n + 1) p)
          trk :=
            { s.trk with
              entries :=
                s.trk.entries ++
                  [{ slot := slot, serial := s.trk.nextSerial, initiator := r.initiator, tag := r.tag
                     body := .transfer ⟨k, r.address, r.length, i, p, 0, r.payload⟩, state := .waiting }]
              nextSerial := s.trk.nextSerial + 1 } } := by
  rw [popHead_eq h, State.admitTransfer, ← freeSlot_eq free]
  dsimp only
  rw [active]
  rfl

/-- A window that is ACTIVE ends below management space (R2). -/
theorem DecodesTo.below {i : WindowIx} {n : Nat} {p : Profile} {a : Nat} (windows : WindowLaw s)
    (decodes : s.DecodesTo a (some (i, n, p))) : a < 0xFFF000 := by
  obtain ⟨active, -, inside⟩ := decodes
  have range := (windows.1 i p (by rw [active]; rfl)).1
  have base : Config.managementBase = 0xFFF000 := rfl
  simp only [Profile.RangeLegal, base] at range
  omega

end

/-- Settles O8: what the checks decide, and for a POSTED the fault it leaves. -/
theorem admissionRefuses : Obligations.AdmissionRefuses := by
  intro s r rest w st windows head below decodes failing
  refine ⟨fun hread => ?_, fun hwrite => ?_, fun hposted retry => ?_, fun hposted unanswered => ?_⟩
  · rw [exec_read_of_decision hread head below, admission_eq_decision,
      decision_error (.inl hread) windows decodes failing, ← answerRefusal_popHead head.1]
  · rw [exec_write_of_decision hwrite head below, admission_eq_decision,
      decision_error (.inr (.inl hwrite)) windows decodes failing, ← answerRefusal_popHead head.1]
  · rw [exec_posted_of_decision hposted head below, admissionPosted_eq_decision,
      decision_error (.inr (.inr hposted)) windows decodes failing, ← answerRefusal_popHead head.1]
    exact congrArg _ (if_pos retry)
  · refine ⟨takeFault s.trk.faults[r.initiator] st r.address 0, ?_, fun hnone => ?_, fun g hsome => ?_⟩
    · rw [exec_posted_of_decision hposted head below, admissionPosted_eq_decision,
        decision_error (.inr (.inr hposted)) windows decodes failing]
      exact congrArg _ (refusePosted_recorded head.1 unanswered)
    · rw [hnone]; rfl
    · rw [hsome]; rfl

/-- Settles O9. -/
theorem admissionAdmits : Obligations.AdmissionAdmits := by
  intro s r rest i n p slot c k windows head decodes passes free hkind
  have below := DecodesTo.below windows decodes
  have admitted := admitTransfer_eq head.1 decodes.1 free
  simp only [List.mem_cons, Prod.mk.injEq, List.not_mem_nil, or_false] at hkind
  obtain ⟨hread, rfl, rfl⟩ | ⟨hwrite, rfl, rfl⟩ | ⟨hposted, rfl, rfl⟩ := hkind
  · rw [exec_read_of_decision hread head below, admission_eq_decision, decision_ok (.inl hread) windows decodes passes]
    exact congrArg _ (admitted .read)
  · rw [exec_write_of_decision hwrite head below, admission_eq_decision,
      decision_ok (.inr (.inl hwrite)) windows decodes passes]
    exact congrArg _ (admitted .write)
  · rw [exec_posted_of_decision hposted head below, admissionPosted_eq_decision,
      decision_ok (.inr (.inr hposted)) windows decodes passes]
    exact congrArg _ (admitted .posted)

/-! ## FLUSH, DETACH and unknown kinds -/

section
variable {s : State} {r : Request} {rest : List Request}

theorem headFor_flush (hflush : r.kind = .flush) (head : HeadForTracker s r rest) : s.headFor .flush = some r :=
  head.headFor rfl (by rw [headClass, hflush])

theorem headFor_detach (hdetach : r.kind = .detach) (head : HeadForTracker s r rest) : s.headFor .detach = some r :=
  head.headFor rfl (by rw [headClass, hdetach])

theorem exec_flush_refused {st : Status} (hflush : r.kind = .flush) (head : HeadForTracker s r rest)
    (refusal : s.trk.refusal r = some st) : exec .flush s = .next (s.refused rest r st) := by
  change execFlush s = _
  rw [execFlush, headFor_flush hflush head]
  simp only [refusal, answerRefusal_popHead head.1]

theorem exec_flush_admitted (hflush : r.kind = .flush) (head : HeadForTracker s r rest)
    (refusal : s.trk.refusal r = none) :
    exec .flush s = .next ((s.popHead.addEntry r (.flush none)).judgeFlushes r.initiator).joinReady := by
  change execFlush s = _
  rw [execFlush, headFor_flush hflush head]
  simp only [refusal]

theorem exec_detach_refused {st : Status} (hdetach : r.kind = .detach) (head : HeadForTracker s r rest)
    (refusal : s.trk.refusal r = some st) : exec .detach s = .next (s.refused rest r st) := by
  change execDetach s = _
  rw [execDetach, headFor_detach hdetach head]
  simp only [refusal, answerRefusal_popHead head.1]

theorem refusal_flush (hflush : r.kind = .flush) :
    s.trk.refusal r =
      if r.payload ≠ [] then some .format else if s.full r.initiator then some .retry
      else if s.tagInUse r.initiator r.tag then some .tagBusy else none := by
  rw [refusal_entryless (.inl hflush), retry_flush hflush, tagBusy_flush hflush]

theorem tagBusy_detach (hdetach : r.kind = .detach) : s.trk.tagBusy r = false := by
  rw [Tracker.tagBusy, hdetach]
  rfl

theorem refusal_detach (hdetach : r.kind = .detach) :
    s.trk.refusal r =
      if r.payload ≠ [] then some .format else if s.trk.detaches[r.initiator].isSome then some .retry else none := by
  rw [refusal_entryless (.inr hdetach), retry_detach hdetach, tagBusy_detach hdetach]
  rfl

end

/-- Settles O10. -/
theorem otherRequestsRefused : Obligations.OtherRequestsRefused := by
  intro s r rest head
  refine ⟨fun hunknown => ?_, fun hflush payload => ?_, fun hflush empty full => ?_, fun hflush empty room busy => ?_,
    fun hdetach payload => ?_, fun hdetach empty detaching => ?_⟩
  · change execUnknownKind s = _
    rw [execUnknownKind, head.headFor (c := .unknownKind) rfl (by rw [headClass, hunknown])]
    exact congrArg _ (answerRefusal_popHead head.1 .format)
  · exact exec_flush_refused hflush head (by rw [refusal_flush hflush, if_pos payload])
  · exact exec_flush_refused hflush head (by rw [refusal_flush hflush, if_neg (not_not.mpr empty), if_pos full])
  · refine exec_flush_refused hflush head ?_
    rw [refusal_flush hflush, if_neg (not_not.mpr empty), room, if_neg Bool.false_ne_true, if_pos busy]
  · exact exec_detach_refused hdetach head (by rw [refusal_detach hdetach, if_pos payload])
  · exact exec_detach_refused hdetach head (by rw [refusal_detach hdetach, if_neg (not_not.mpr empty), if_pos detaching])

/-! ## A FLUSH is admitted -/

section
variable {s t : State} {e : Entry}

/-- With one new entry behind those of a state whose answers are complete, its answer alone can become ready. -/
theorem joinReady_appended (complete : AnswersComplete s) (entries : t.trk.entries = s.trk.entries ++ [e])
    (answers : t.trk.answers = s.trk.answers) (detaches : t.trk.detaches = s.trk.detaches) :
    t.joinReady =
      { t with
        trk :=
          { t.trk with
            answers :=
              s.trk.answers ++
                if e.isDone && !t.trk.answerHeld e && !answersEntry s.trk.answers e.slot then [.entry e.slot] else [] } } := by
  have old : (s.trk.entries.filter fun f =>
      f.isDone && !t.trk.answerHeld f && !answersEntry s.trk.answers f.slot) = [] := by
    refine List.filter_eq_nil_iff.mpr fun f hf ready => ?_
    simp only [Bool.and_eq_true, Bool.not_eq_true', answersEntry, ← Bool.not_eq_true, List.contains_iff_mem] at ready
    obtain ⟨⟨done, unheld⟩, unanswered⟩ := ready
    refine unanswered (complete.entries f hf done ?_)
    simpa only [Tracker.answerHeld, entries, olderThan_append hf, Bool.not_eq_true] using unheld
  have noDetach : ((List.finRange 4).filter fun i =>
      t.trk.detaches[i].isSome && (t.trk.entriesOf i).isEmpty && !t.trk.answers.contains (.detached i)) = [] := by
    refine List.filter_eq_nil_iff.mpr fun i _ ready => ?_
    simp only [Bool.and_eq_true, Bool.not_eq_true', ← Bool.not_eq_true, List.contains_iff_mem, List.isEmpty_iff,
      detaches, answers, Tracker.entriesOf, entries, List.filter_append, List.append_eq_nil_iff] at ready
    obtain ⟨⟨detaching, gone, -⟩, unanswered⟩ := ready
    exact unanswered (complete.detaches i detaching gone)
  rw [joinReady_spec, noDetach]
  simp only [entries, answers, List.filter_append, old, List.nil_append, List.map_nil, List.append_nil,
    List.filter_singleton]
  cases e.isDone && !t.trk.answerHeld e && !answersEntry s.trk.answers e.slot <;> simp

theorem answerHeld_flush {t : Tracker} {e : Entry} (h : e.isFlush = true) : t.answerHeld e = false := by
  refine answerHeld_false_iff.mpr fun f _ _ target => ?_
  have noTarget : e.target = none := by
    cases hb : e.body with
    | transfer x => rw [isFlush_of_body hb] at h; cases h
    | flush g => simp [Entry.target, Entry.transfer, hb]
  rw [noTarget] at target
  by_contra owes
  obtain ⟨-, x, hx, -⟩ := (owesAnswer_iff f).mp (Bool.eq_true_of_not_eq_false owes)
  simp [Entry.target, Entry.transfer, hx] at target

/-- An older FLUSH entry that still waits is behind a POSTED one. -/
theorem not_flushReady_of_waits (waits : FlushesWait s) (entries : t.trk.entries = s.trk.entries ++ [e]) {f : Entry}
    (hf : f ∈ s.trk.entries) : t.trk.flushReady f = false := by
  by_contra ready
  obtain ⟨flush, waiting, unposted⟩ := flushReady_spec (Bool.eq_true_of_not_eq_false ready)
  obtain ⟨g, hg, initiator, posted⟩ := waits f hf flush waiting
  rw [entries, olderThan_append hf] at unposted
  rw [unposted g hg initiator] at posted
  cases posted

end

section
variable {s : State} {r : Request} {rest : List Request} {slot : Slot}

/-- The tracker with the entry of a FLUSH at its young end. -/
def State.withFlush (s : State) (r : Request) (rest : List Request) (slot : Slot) : State :=
  { s with
    hlp := { s.hlp with receive := rest }
    trk :=
      { s.trk with
        entries := s.trk.entries ++ [⟨slot, s.trk.nextSerial, r.initiator, r.tag, .flush none, .waiting⟩]
        nextSerial := s.trk.nextSerial + 1 } }

/-- The tracker with the entry of a FLUSH at its young end, DONE with the posted-fault record, which is cleared. -/
def State.withFlushDone (s : State) (r : Request) (rest : List Request) (slot : Slot) : State :=
  { s with
    hlp := { s.hlp with receive := rest }
    trk :=
      { s.trk with
        entries :=
          s.trk.entries ++ [⟨slot, s.trk.nextSerial, r.initiator, r.tag, .flush s.trk.faults[r.initiator], .done .ok⟩]
        faults := s.trk.faults.set r.initiator none
        nextSerial := s.trk.nextSerial + 1 }
    handed :=
      { s.handed with
        withdrawals :=
          s.handed.withdrawals ++
            if s.trk.faults[r.initiator].isSome then
              [⟨r.initiator, s.handed.events.count (.postedFault r.initiator)⟩]
            else [] } }

theorem withFlush_slots (slots : DistinctSlots s) (free : s.LowestFree slot) : DistinctSlots (s.withFlush r rest slot) := by
  simp only [DistinctSlots, State.withFlush, List.map_append, List.map_singleton, List.nodup_append, List.nodup_singleton,
    List.mem_map, List.mem_singleton, ne_eq]
  refine ⟨slots, trivial, ?_⟩
  rintro _ ⟨e, he, rfl⟩ _ rfl
  exact free.1 e he

theorem withFlush_waits (slots : DistinctSlots s) (waits : FlushesWait s) (free : s.LowestFree slot)
    (posted : ∃ e ∈ s.trk.entries, e.initiator = r.initiator ∧ e.isPosted = true) :
    (s.withFlush r rest slot).judgeFlushes r.initiator = s.withFlush r rest slot := by
  refine judgeFlushes_none (withFlush_slots slots free) fun f hf _ => ?_
  obtain hf | hf := List.mem_append.mp hf
  · exact not_flushReady_of_waits waits rfl hf
  · obtain rfl := List.mem_singleton.mp hf
    obtain ⟨e, he, initiator, isPosted⟩ := posted
    by_contra ready
    obtain ⟨-, -, unposted⟩ := flushReady_spec (Bool.eq_true_of_not_eq_false ready)
    rw [unposted e (by rw [State.withFlush, olderThan_new free.1]; exact he) initiator] at isPosted
    cases isPosted

theorem withFlush_done (slots : DistinctSlots s) (waits : FlushesWait s) (free : s.LowestFree slot)
    (unposted : ∀ e ∈ s.trk.entries, e.initiator = r.initiator → e.isPosted = false) :
    (s.withFlush r rest slot).judgeFlushes r.initiator = s.withFlushDone r rest slot := by
  have due : ((s.withFlush r rest slot).trk.entries.filter fun e =>
      decide (e.initiator = r.initiator) && (s.withFlush r rest slot).trk.flushReady e) =
      [⟨slot, s.trk.nextSerial, r.initiator, r.tag, .flush none, .waiting⟩] := by
    change (s.trk.entries ++ [_]).filter _ = _
    rw [List.filter_append, List.filter_eq_nil_iff.mpr, List.nil_append, List.filter_singleton]
    · have ready : ((olderThan (s.withFlush r rest slot).trk.entries slot).any fun f =>
          decide (f.initiator = r.initiator) && f.isPosted) = false := by
        rw [State.withFlush, olderThan_new free.1, List.any_eq_false]
        intro f hf
        simpa using unposted f hf
      simp only [Tracker.flushReady, Entry.isFlush, decide_true, Bool.true_and, ready, Bool.not_false, cond_true]
    · intro f hf
      rw [not_flushReady_of_waits waits rfl hf, Bool.and_false]
      exact Bool.false_ne_true
  have others : ∀ f ∈ s.trk.entries,
      Entry.flushDone [⟨slot, s.trk.nextSerial, r.initiator, r.tag, .flush none, .waiting⟩]
        s.trk.faults[r.initiator] f = f := by
    intro f hf
    refine if_neg fun hc => free.1 f hf ?_
    rw [List.mem_singleton.mp hc]
  rw [judgeFlushes_eq (withFlush_slots slots free) r.initiator due]
  simp only [State.withFlush, State.withFlushDone, List.map_append, List.map_congr_left others, List.map_id',
    List.map_singleton, Entry.flushDone, List.mem_singleton, List.head?_cons, if_true, if_false, ne_eq, not_false_eq_true,
    true_and, List.cons_ne_self]

end

/-- Settles O11. -/
theorem flushAdmitted : Obligations.FlushAdmitted := by
  intro s r rest slot tracker law head hflush empty room unused free
  obtain ⟨-, -, slots, -⟩ := tracker
  obtain ⟨sound, waits, complete⟩ := (answerLaw_iff s).mp law
  have refusal : s.trk.refusal r = none := by
    rw [refusal_flush hflush, if_neg (not_not.mpr empty), room, unused]
    rfl
  have added : s.popHead.addEntry r (.flush none) = s.withFlush r rest slot := by
    rw [popHead_eq head.1, ← freeSlot_eq free]
    rfl
  rw [exec_flush_admitted hflush head refusal, added]
  refine ⟨fun unposted => ?_, fun posted => ?_⟩
  · have unanswered : answersEntry s.trk.answers slot = false := by
      by_contra answered
      obtain ⟨e, he, hslot, -⟩ := sound.named slot (List.contains_iff_mem.mp (Bool.eq_true_of_not_eq_false answered))
      exact free.1 e he hslot
    rw [withFlush_done slots waits free unposted,
      joinReady_appended (t := s.withFlushDone r rest slot) complete rfl rfl rfl, answerHeld_flush rfl, unanswered]
    rfl
  · rw [withFlush_waits slots waits free posted,
      joinReady_appended (t := s.withFlush r rest slot) complete rfl rfl rfl]
    exact congrArg
      (fun answers => Host.Outcome.next { s.withFlush r rest slot with
        trk := { (s.withFlush r rest slot).trk with answers := answers } })
      (List.append_nil s.trk.answers)

end Sys2Proof.Machine

/-! DETACH (R62 to R64) and the link reset that reaches the tracker (R66). -/

namespace Sys2Proof.Machine

section
variable {s : State} {p : Entry → Bool}

theorem joinReady_trk (s : State) : s.joinReady = { s with trk := { s.trk with answers := s.joinReady.trk.answers } } := by
  rw [joinReady_spec]

/-- The gate passes where the entries disposed of were the last ones (R46). -/
theorem dispose_gate (slots : DistinctSlots s) (hp : ∀ (e : Entry) st, p { e with state := st } = p e) :
    (s.dispose p).trk.gate =
      if s.trk.gate = .quiescing ∧ (s.dispose p).trk.entries = [] ∧ s.trk.entries ≠ [] then .quiesced
      else s.trk.gate := by
  obtain ⟨heq, gate, -⟩ := dispose_spec slots hp
  have entries := congrArg (fun t => t.trk.entries) heq
  dsimp only at entries
  rw [gate, afterDeparture_eq]
  by_cases spared : ∀ e ∈ s.trk.entries, p e = true → e.isInSegment = true
  · rw [if_pos spared, if_neg]
    rintro ⟨-, none, some⟩
    rw [entries, List.map_eq_nil_iff, List.filter_eq_nil_iff] at none
    obtain ⟨e, he⟩ := List.exists_mem_of_ne_nil _ some
    have gone := none e he
    simp only [Bool.or_eq_true, Bool.not_eq_true', not_or, Bool.not_eq_false, Bool.not_eq_true] at gone
    rw [spared e he gone.1] at gone
    cases gone.2
  · rw [if_neg spared]
    have some : s.trk.entries ≠ [] := by
      rintro none
      exact spared (by simp [none])
    exact if_congr ⟨fun ⟨h, gone⟩ => ⟨h, gone, some⟩, fun ⟨h, gone, _⟩ => ⟨h, gone⟩⟩ rfl rfl

/-- A disposal takes no answer that belongs to another entry or to none. -/
theorem dispose_complete
    (complete : ∀ e ∈ s.trk.entries, e.isDone = true → s.trk.answerHeld e = false → Answer.entry e.slot ∈ s.trk.answers)
    (slots : DistinctSlots s)
    (hp : ∀ (e : Entry) st, p { e with state := st } = p e)
    (byInitiator : ∀ e f : Entry, e.initiator = f.initiator → p e = p f) {e : Entry}
    (he : e ∈ (s.dispose p).trk.entries) (done : e.isDone = true) (unheld : (s.dispose p).trk.answerHeld e = false) :
    Answer.entry e.slot ∈ (s.dispose p).trk.answers := by
  obtain ⟨heq, -⟩ := dispose_spec slots hp
  rw [heq] at he unheld ⊢
  obtain ⟨e0, he0, rfl⟩ := List.mem_map.mp he
  obtain ⟨mem, -⟩ := List.mem_filter.mp he0
  by_cases taken : p e0 = true
  · rw [if_pos taken] at done
    cases done
  · rw [if_neg taken] at done unheld ⊢
    have spared : ∀ f : Entry, f.initiator = e0.initiator → p f = false := fun f hf =>
      (byInitiator f e0 hf).trans (Bool.eq_false_iff.mpr taken)
    refine List.mem_filter.mpr ⟨complete e0 mem done (answerHeld_false_iff.mpr fun f hf hi ht => ?_), ?_⟩
    · refine answerHeld_false_iff.mp unheld f ?_ hi ht
      have slotKept : ∀ g ∈ s.trk.entries.filter fun e => !p e || e.isInSegment,
          (if p g then { g with state := .inSegment true } else g).slot = g.slot := fun g _ => by split <;> rfl
      refine (mem_olderThan_map slotKept).mpr ⟨f, ?_, by rw [spared f hi]; rfl⟩
      rw [olderThan_filter fun g hg hslot => by rw [slot_inj slots mem hg hslot, spared e0 rfl]; rfl]
      exact List.mem_filter.mpr ⟨hf, by rw [spared f hi]; rfl⟩
    · simp only [Bool.not_eq_true', List.any_eq_false, Bool.and_eq_true, decide_eq_true_eq, Answer.entry.injEq]
      rintro f hf ⟨⟨hpf, -⟩, hslot⟩
      exact taken (slot_inj slots mem hf hslot.symm ▸ hpf)

end

/-! ## DETACH -/

section
variable {s : State} {r : Request} {rest : List Request}

theorem exec_detach_begins (hdetach : r.kind = .detach) (head : HeadForTracker s r rest)
    (refusal : s.trk.refusal r = none) :
    exec .detach s = .next ((s.popHead.beginDetach r.initiator r.tag).joinReady.settlePlace).arbitrate := by
  change execDetach s = _
  rw [execDetach, headFor_detach hdetach head]
  simp only [refusal]

/-- The answers that a disposal takes are those of the initiator's entries: one IN_SEGMENT has none. -/
theorem disposed_answers (sound : AnswersSound s) (slots : DistinctSlots s) (p : Entry → Bool) :
    (s.trk.answers.filter fun a => !s.trk.entries.any fun e => p e && !e.isInSegment && decide (a = .entry e.slot)) =
      s.trk.answers.filter fun a => !s.trk.entries.any fun e => p e && decide (a = .entry e.slot) := by
  refine List.filter_congr fun a ha => congrArg _ ?_
  rw [Bool.eq_iff_iff]
  simp only [List.any_eq_true, Bool.and_eq_true, Bool.not_eq_true', decide_eq_true_eq]
  refine exists_congr fun e => and_congr_right fun he => ?_
  constructor
  · rintro ⟨⟨hpe, -⟩, rfl⟩
    exact ⟨hpe, rfl⟩
  · rintro ⟨hpe, rfl⟩
    obtain ⟨f, hf, hslot, done, -⟩ := sound.named _ ha
    rw [slot_inj slots he hf hslot] at done
    refine ⟨⟨hpe, ?_⟩, rfl⟩
    cases hstate : e.state with
    | inSegment dropped => rw [not_done_of_inSegment hstate] at done; cases done
    | waiting => simp [Entry.isInSegment, hstate]
    | done o => simp [Entry.isInSegment, hstate]

/-- What is left of a detaching initiator's entries is those IN_SEGMENT. -/
theorem beginDetach_entriesOf_nil (slots : DistinctSlots s) (i : Initiator) (tag : Tag) :
    (s.beginDetach i tag).trk.entriesOf i = [] ↔ (s.trk.entriesOf i).any Entry.isInSegment = false := by
  obtain ⟨heq, -⟩ := dispose_spec (s := s.detachBegun i tag) (p := fun e => decide (e.initiator = i)) slots fun _ _ => rfl
  rw [beginDetach_eq, heq]
  simp only [Tracker.entriesOf, State.detachBegun, List.filter_eq_nil_iff, List.any_eq_false, List.mem_map,
    List.mem_filter, Bool.or_eq_true, Bool.not_eq_true', decide_eq_false_iff_not, decide_eq_true_eq, Bool.not_eq_true]
  constructor
  · rintro gone e ⟨he, hi⟩
    by_contra busy
    have busy := Bool.eq_true_of_not_eq_false busy
    exact gone _ ⟨e, ⟨he, .inr busy⟩, rfl⟩ (by rw [if_pos hi]; exact hi)
  · rintro idle _ ⟨e, ⟨he, kept⟩, rfl⟩ hi
    have hi : e.initiator = i := by split at hi <;> exact hi
    have busy := kept.resolve_left (not_not.mpr hi)
    rw [idle e ⟨he, hi⟩] at busy
    cases busy

/-- The answer of the detach is the only one that its beginning can make ready (R64). -/
theorem beginDetach_joinReady (slots : DistinctSlots s) (law : AnswerLaw s) (i : Initiator)
    (attached : s.trk.detaches[i] = none) (tag : Tag) :
    (s.beginDetach i tag).joinReady.trk.answers =
      (s.trk.answers.filter fun a =>
          !s.trk.entries.any fun e => decide (e.initiator = i) && decide (a = .entry e.slot)) ++
        (if (s.trk.entriesOf i).any Entry.isInSegment then [] else [.detached i]) := by
  obtain ⟨sound, -, complete⟩ := (answerLaw_iff s).mp law
  obtain ⟨heq, -⟩ := dispose_spec (s := s.detachBegun i tag) (p := fun e => decide (e.initiator = i)) slots fun _ _ => rfl
  have answers : (s.beginDetach i tag).trk.answers = s.trk.answers.filter fun a =>
      !s.trk.entries.any fun e => decide (e.initiator = i) && decide (a = .entry e.slot) := by
    rw [← disposed_answers sound slots, beginDetach_eq, heq]
    rfl
  have detaches : (s.beginDetach i tag).trk.detaches =
      s.trk.detaches.set i (some ⟨tag, (s.trk.entriesOf i).length⟩) := by
    rw [beginDetach_eq, heq]
    rfl
  have fresh : Answer.detached i ∉ (s.beginDetach i tag).trk.answers := by
    rw [answers]
    intro ready
    obtain ⟨some, -⟩ := sound.detaches i (List.mem_filter.mp ready).1
    rw [attached] at some
    cases some
  rw [joinReady_one (s := s.beginDetach i tag) ?entries i ?others]
  case entries =>
    exact fun e he done unheld =>
      dispose_complete (s := s.detachBegun i tag) complete.entries slots (fun _ _ => rfl) (fun e f h => by rw [h]) he done unheld
  case others =>
    intro j hj detaching gone
    rw [detaches, table_set_get, if_neg (Ne.symm hj)] at detaching
    rw [answers]
    refine List.mem_filter.mpr ⟨complete.detaches j detaching ?_, by simp⟩
    rw [beginDetach_eq, heq] at gone
    simp only [Tracker.entriesOf, State.detachBegun, List.filter_eq_nil_iff, List.mem_map, List.mem_filter] at gone ⊢
    intro e he hej
    have other : e.initiator ≠ i := fun hc => hj ((of_decide_eq_true hej).symm.trans hc)
    exact gone e ⟨e, ⟨he, by simp [other]⟩, by simp [other]⟩ hej
  dsimp only
  rw [answers, detaches, table_set_same]
  rw [answers] at fresh
  refine congrArg _ ?_
  by_cases busy : (s.trk.entriesOf i).any Entry.isInSegment = true
  · rw [if_pos busy, if_neg]
    rintro ⟨-, gone, -⟩
    rw [(beginDetach_entriesOf_nil slots i tag).mp gone] at busy
    cases busy
  · rw [if_neg busy, if_pos]
    exact ⟨rfl, (beginDetach_entriesOf_nil slots i tag).mpr (Bool.eq_false_iff.mpr busy), fresh⟩

end

/-- Settles O12. -/
theorem detachBegins : Obligations.DetachBegins := by
  intro s r rest tracker law head hdetach empty attached
  obtain ⟨-, -, slots, -⟩ := tracker
  have refusal : s.trk.refusal r = none := by
    rw [refusal_detach hdetach, if_neg (not_not.mpr empty), attached]
    rfl
  have popped := popHead_eq head.1
  have slots0 : DistinctSlots s.popHead := slots
  have law0 : AnswerLaw s.popHead := law.of_trk rfl rfl rfl
  obtain ⟨heq, -, -, windows, -⟩ := dispose_spec (s := s.popHead.detachBegun r.initiator r.tag)
    (p := fun e => decide (e.initiator = r.initiator)) slots fun _ _ => rfl
  rw [← beginDetach_eq] at heq windows
  have gate := dispose_gate (s := s.popHead.detachBegun r.initiator r.tag)
    (p := fun e => decide (e.initiator = r.initiator)) slots fun _ _ => rfl
  rw [← beginDetach_eq] at gate
  have joined := joinReady_trk (s.popHead.beginDetach r.initiator r.tag)
  have answers := beginDetach_joinReady slots0 law0 r.initiator attached r.tag
  have settled := settlePlace_settled (s.popHead.beginDetach r.initiator r.tag).joinReady
  refine ⟨_, exec_detach_begins hdetach head refusal, ?entries, ?detaches, ?faults, answers, ?windows, ?gate, ?settled,
    ?frame⟩
  case entries =>
    change (s.popHead.beginDetach r.initiator r.tag).joinReady.trk.entries = _
    rw [joined, heq]
    simp [State.detachBegun]
  case detaches =>
    change (s.popHead.beginDetach r.initiator r.tag).joinReady.trk.detaches = _
    rw [joined, heq]
    rfl
  case faults =>
    change (s.popHead.beginDetach r.initiator r.tag).joinReady.trk.faults = _
    rw [joined, heq]
    rfl
  case windows =>
    intro w
    change (s.popHead.beginDetach r.initiator r.tag).joinReady.wdc[w] = _
    rw [joined, Tracker.entriesOf, List.filter_filter]
    refine (windows w).trans (congrArg (fun l => Window.losing (List.length l) s.wdc[w]) (List.filter_congr fun e _ => ?_))
    rw [← Bool.and_assoc, Bool.and_right_comm]
  case gate =>
    change (s.popHead.beginDetach r.initiator r.tag).joinReady.trk.gate =
      if _ ∧ (s.popHead.beginDetach r.initiator r.tag).joinReady.trk.entries = [] ∧ _ then _ else _
    rw [joined]
    exact gate
  case settled =>
    have contended : (s.popHead.beginDetach r.initiator r.tag).joinReady.hlp.contended = s.hlp.contended := by
      rw [joined, heq]
      rfl
    rwa [State.PlaceSettled, contended] at settled
  case frame =>
    rw [State.settlePlace, joined, heq, popped]
    rfl

/-! ## TRK_LINK_RESET -/

/-- The state in which a link reset disposes of the entries (R66). -/
def State.trkReset (s : State) : State :=
  { s with
    trk := { s.trk with faults := Vector.replicate 4 none }
    handed := { s.handed with trkResets := s.handed.trkResets - 1 } }

theorem exec_trkLinkReset {s : State} (reset : s.handed.trkResets ≠ 0) :
    exec .trkLinkReset s = .next ((s.trkReset.dispose fun _ => true).joinReady.settlePlace).arbitrate := by
  change execTrkLinkReset s = _
  rw [execTrkLinkReset, if_neg reset]
  rfl

/-- Of the answer list, what no entry answers for and no detach joins is the refusals. -/
theorem refusals_kept (v s : State) :
    (((s.trk.answers.filter fun a => !s.trk.entries.any fun e => decide (a = Answer.entry e.slot)) ++ [] ++
        v.readyDetaches).filter fun a => !a.isPlace) = s.trk.answers.filter fun a => !a.isPlace := by
  have detaches : (v.readyDetaches.filter fun a => !a.isPlace) = [] := by
    refine List.filter_eq_nil_iff.mpr fun a ha => ?_
    obtain ⟨i, rfl⟩ := detached_of_readyDetaches ha
    simp [Answer.isPlace]
  rw [List.append_nil, List.filter_append, detaches, List.append_nil, List.filter_filter]
  refine List.filter_congr fun a _ => ?_
  cases a with
  | refusal r => simp [Answer.isPlace]
  | entry slot => rfl
  | detached i => rfl

/-- Settles O13. -/
theorem linkResetReachesTracker : Obligations.LinkResetReachesTracker := by
  intro s tracker law reset
  obtain ⟨-, -, slots, -⟩ := tracker
  obtain ⟨sound, -, -⟩ := (answerLaw_iff s).mp law
  obtain ⟨heq, -, -, windows, -⟩ := dispose_spec (s := s.trkReset) (p := fun _ => true) slots fun _ _ => rfl
  have gate := dispose_gate (s := s.trkReset) (p := fun _ => true) slots fun _ _ => rfl
  set v := s.trkReset.dispose fun _ => true
  have joined := joinReady_eq v
  have entries : v.trk.entries = (s.trk.entries.filter Entry.isInSegment).map fun e => { e with state := .inSegment true } := by
    rw [heq]
    simp [State.trkReset]
  have answers : v.trk.answers = s.trk.answers.filter fun a => !s.trk.entries.any fun e => decide (a = .entry e.slot) := by
    have kept := disposed_answers sound slots fun _ => true
    simp only [Bool.true_and] at kept
    rw [heq, ← kept]
    simp [State.trkReset]
  have noneReady : v.readyAnswers = [] := by
    refine List.map_eq_nil_iff.mpr (List.filter_eq_nil_iff.mpr fun e he ready => ?_)
    rw [entries] at he
    obtain ⟨f, -, rfl⟩ := List.mem_map.mp he
    cases ready
  have settled := settlePlace_settled v.joinReady
  refine ⟨_, exec_trkLinkReset reset, ?_, fun i => ?_, ?_, ?_, fun slot => ?_, fun w => ?_, ?_, ?_, ?_⟩
  · change v.joinReady.trk.entries = _
    rw [joined]
    exact entries
  · change v.joinReady.trk.faults[i] = _
    rw [joined, heq]
    simp [State.trkReset]
  · change v.joinReady.trk.detaches = _
    rw [joined, heq]
    rfl
  · change v.joinReady.trk.answers.filter _ = _
    rw [joined, noneReady, answers]
    exact refusals_kept v s
  · change _ ∉ v.joinReady.trk.answers
    rw [joined, noneReady, answers]
    simp only [List.append_nil, List.mem_append, not_or]
    refine ⟨fun kept => ?_, fun ready => ?_⟩
    · obtain ⟨answered, unowned⟩ := List.mem_filter.mp kept
      obtain ⟨e, he, hslot, -⟩ := sound.named slot answered
      simp only [Bool.not_eq_true', List.any_eq_false, decide_eq_true_eq] at unowned
      exact unowned e he (by rw [hslot])
    · obtain ⟨i, hi⟩ := detached_of_readyDetaches ready
      cases hi
  · change v.joinReady.wdc[w] = _
    rw [joined]
    refine (windows w).trans ?_
    simp [State.trkReset]
  · change v.joinReady.trk.gate = if _ ∧ v.joinReady.trk.entries = [] ∧ _ then _ else _
    rw [joined]
    exact gate
  · have contended : v.joinReady.hlp.contended = s.hlp.contended := by
      rw [joined, heq]
      rfl
    rwa [State.PlaceSettled, contended] at settled
  · rw [State.settlePlace, joined, heq]
    rfl

end Sys2Proof.Machine

/-! ANSWER_HANDED (R56, R64, R126). -/

namespace Sys2Proof.Machine

section
variable {s : State}

theorem placeWinner_trk (ready : s.trk.answers ≠ []) (noMgb : s.hlp.pointer = .mgb → s.mgb.answers = [])
    (noIrl : s.hlp.pointer ≠ .trk → s.ready .irl = false) : s.placeWinner = some .trk := by
  have trk : s.ready .trk = true := by simpa [State.ready] using ready
  have mgb (h : s.hlp.pointer = .mgb) : s.ready .mgb = false := by simp [State.ready, noMgb h]
  unfold State.placeWinner
  cases hp : s.hlp.pointer with
  | trk => simp [trk]
  | mgb => simp [OutBlock.next, trk, mgb hp, noIrl (by rw [hp]; decide)]
  | irl => simp [OutBlock.next, trk, noIrl (by rw [hp]; decide)]

theorem mayHand_iff (b : OutBlock) :
    s.mayHand b = true ↔
      s.hlp.transmit.length < 4 ∧ s.ready b = true ∧ (s.hlp.contended = true → s.placeWinner = some b) := by
  have places : Config.transmitPlaces = 4 := rfl
  simp only [State.mayHand, Bool.and_eq_true, decide_eq_true_eq, Bool.or_eq_true, Bool.not_eq_true', places, and_assoc]
  refine and_congr_right fun _ => and_congr_right fun _ => ?_
  cases s.hlp.contended <;> simp

theorem mayHand_trk (ready : s.trk.answers ≠ []) (room : s.hlp.transmit.length < 4)
    (place : s.hlp.contended = true →
      (s.hlp.pointer = .mgb → s.mgb.answers = []) ∧ (s.hlp.pointer ≠ .trk → s.ready .irl = false)) :
    s.mayHand .trk = true :=
  (mayHand_iff .trk).mpr
    ⟨room, by simpa [State.ready] using ready, fun h => placeWinner_trk ready (place h).1 (place h).2⟩

theorem handAnswer_eq {a : Answer} {rest : List Answer} (head : s.trk.answers = a :: rest) (p : Response) :
    s.handAnswer p = { s with hlp := s.trackerSends p, trk := { s.trk with answers := rest } } := by
  rw [State.handAnswer, head]
  rfl

/-- An initiator's entries without one of them are none where it was the only one. -/
theorem entriesOf_without_nil_iff (slots : DistinctSlots s) {e : Entry} (he : e ∈ s.trk.entries) :
    ((s.trk.entries.filter fun f => decide (f.slot ≠ e.slot)).filter fun f => decide (f.initiator = e.initiator)) = [] ↔
      s.trk.entriesOf e.initiator = [e] := by
  have mem : e ∈ s.trk.entriesOf e.initiator := List.mem_filter.mpr ⟨he, decide_eq_true rfl⟩
  constructor
  · intro gone
    have alone : ∀ f ∈ s.trk.entriesOf e.initiator, f = e := by
      intro f hf
      obtain ⟨hfs, hfi⟩ := List.mem_filter.mp hf
      by_contra hne
      refine List.filter_eq_nil_iff.mp gone f (List.mem_filter.mpr ⟨hfs, decide_eq_true fun hslot => ?_⟩) hfi
      exact hne (slot_inj slots he hfs hslot)
    have nodup : (s.trk.entriesOf e.initiator).Nodup := (List.Nodup.of_map _ slots).filter _
    exact List.perm_singleton.mp ((List.perm_ext_iff_of_nodup nodup (List.nodup_singleton e)).mpr fun f =>
      ⟨fun hf => List.mem_singleton.mpr (alone f hf), fun hf => List.mem_singleton.mp hf ▸ mem⟩)
  · intro only
    rw [List.filter_filter]
    refine List.filter_eq_nil_iff.mpr fun f hf both => ?_
    simp only [Bool.and_eq_true, decide_eq_true_eq] at both
    have : f ∈ s.trk.entriesOf e.initiator := List.mem_filter.mpr ⟨hf, decide_eq_true both.1⟩
    rw [only, List.mem_singleton] at this
    exact both.2 (congrArg Entry.slot this)

/-! ## The answer of an entry -/

/-- What is left when the answer of a DONE entry has been handed and the entry has left: the answer of its initiator's
detach alone can become ready. -/
theorem joinReady_handed (slots : DistinctSlots s) (law : AnswerLaw s) {e : Entry} {o : EntryOutcome} {rest : List Answer}
    (head : s.trk.answers = .entry e.slot :: rest) (mem : e ∈ s.trk.entries) (done : e.state = .done o) (p : Response) :
    ((s.handAnswer p).depart e).joinReady =
      { s with
        hlp := s.trackerSends p
        wdc := releaseWindow s.wdc e
        trk :=
          { s.trk with
            entries := s.trk.entries.filter fun f => decide (f.slot ≠ e.slot)
            gate := s.trk.gate.afterDeparture (s.trk.entries.filter fun f => decide (f.slot ≠ e.slot))
            answers :=
              rest ++
                if s.trk.detaches[e.initiator].isSome ∧ s.trk.entriesOf e.initiator = [e] then [.detached e.initiator]
                else [] } } := by
  obtain ⟨sound, -, complete⟩ := (answerLaw_iff s).mp law
  have noDetach : Answer.detached e.initiator ∉ rest := fun ready => by
    obtain ⟨-, gone⟩ := sound.detaches e.initiator (by rw [head]; exact List.mem_cons_of_mem _ ready)
    exact List.filter_eq_nil_iff.mp gone e mem (decide_eq_true rfl)
  rw [handAnswer_eq head, joinReady_one ?entries e.initiator ?detaches]
  case entries =>
    intro f hf fdone unheld
    obtain ⟨hfs, hslot⟩ := List.mem_filter.mp hf
    have hslot := of_decide_eq_true hslot
    have answered := complete.entries f hfs fdone (answerHeld_false_iff.mpr fun g hg hi ht => ?_)
    · rw [head] at answered
      exact (List.mem_cons.mp answered).resolve_left fun h => hslot (Answer.entry.inj h)
    · by_cases hge : g = e
      · subst hge
        rw [Bool.eq_false_iff]
        intro owes
        obtain ⟨h | h, -⟩ := (owesAnswer_iff g).mp owes <;> rw [done] at h <;> cases h
      · refine answerHeld_false_iff.mp unheld g ?_ hi ht
        change g ∈ olderThan (s.trk.entries.filter fun f => decide (f.slot ≠ e.slot)) f.slot
        rw [olderThan_filter fun h hh heq => by rw [slot_inj slots hfs hh heq]; exact decide_eq_true hslot]
        exact List.mem_filter.mpr ⟨hg, decide_eq_true fun h => hge (slot_inj slots mem (older_mem hg) h)⟩
  case detaches =>
    intro j hj detaching gone
    have answered := complete.detaches j detaching ?_
    · rw [head] at answered
      exact (List.mem_cons.mp answered).resolve_left nofun
    · refine List.filter_eq_nil_iff.mpr fun f hf hfj => ?_
      refine List.filter_eq_nil_iff.mp gone f (List.mem_filter.mpr ⟨hf, decide_eq_true fun hslot => ?_⟩) hfj
      rw [slot_inj slots mem hf hslot] at hfj
      exact hj (of_decide_eq_true hfj).symm
  refine congrArg (fun answers => { s with
    hlp := s.trackerSends p
    wdc := releaseWindow s.wdc e
    trk :=
      { s.trk with
        entries := s.trk.entries.filter fun f => decide (f.slot ≠ e.slot)
        gate := s.trk.gate.afterDeparture (s.trk.entries.filter fun f => decide (f.slot ≠ e.slot))
        answers := rest ++ answers } }) ?_
  refine if_congr ?_ rfl rfl
  refine and_congr_right fun _ => ⟨fun h => (entriesOf_without_nil_iff slots mem).mp h.1, fun only => ⟨?_, noDetach⟩⟩
  exact (entriesOf_without_nil_iff slots mem).mpr only

theorem exec_answerHanded_refusal {r : Response} {rest : List Answer} (may : s.mayHand .trk = true)
    (head : s.trk.answers = .refusal r :: rest) : exec .answerHanded s = .next (s.handAnswer r) := by
  change execAnswerHanded s = _
  rw [execAnswerHanded, if_pos may, head]

theorem exec_answerHanded_detached {i : Initiator} {d : DetachRecord} {rest : List Answer} (may : s.mayHand .trk = true)
    (head : s.trk.answers = .detached i :: rest) (running : s.trk.detaches[i] = some d) :
    exec .answerHanded s =
      .next
        { s.handAnswer ⟨i, d.tag, .detached, 0, .dropped d.dropped⟩ with
          trk := { (s.handAnswer ⟨i, d.tag, .detached, 0, .dropped d.dropped⟩).trk with
            detaches := s.trk.detaches.set i none } } := by
  change execAnswerHanded s = _
  rw [execAnswerHanded, if_pos may, head]
  dsimp only
  rw [running]
  rfl

theorem exec_answerHanded_entry {e : Entry} {o : EntryOutcome} {rest : List Answer} (slots : DistinctSlots s)
    (may : s.mayHand .trk = true) (head : s.trk.answers = .entry e.slot :: rest) (mem : e ∈ s.trk.entries)
    (done : e.state = .done o) :
    exec .answerHanded s = .next (((s.handAnswer (e.response o)).depart e).joinReady).arbitrate := by
  change execAnswerHanded s = _
  rw [execAnswerHanded, if_pos may, head]
  dsimp only
  rw [find_slot slots mem]
  dsimp only
  rw [done]

end

/-- Settles O17. -/
theorem answersAreHanded : Obligations.AnswersAreHanded := by
  intro s rest tracker law room place
  obtain ⟨-, -, slots, -⟩ := tracker
  refine ⟨fun r head => ?refusal, fun i d head running => ?detached, ?entry⟩
  case refusal =>
    have may := mayHand_trk (by rw [head]; exact List.cons_ne_nil _ _) room place
    rw [exec_answerHanded_refusal may head, handAnswer_eq head]
  case detached =>
    have may := mayHand_trk (by rw [head]; exact List.cons_ne_nil _ _) room place
    rw [exec_answerHanded_detached may head running, handAnswer_eq head]
  case entry =>
    rintro _ e o head mem rfl done
    have may := mayHand_trk (by rw [head]; exact List.cons_ne_nil _ _) room place
    refine ⟨_, e.response o, exec_answerHanded_entry slots may head mem done, ?_⟩
    rw [joinReady_handed slots law head mem done]
    refine ⟨rfl, afterDeparture_eq _ _, fun x hx => ⟨?_, ?_, fun w hw => ?_⟩, fun hflush => ⟨?_, ?_⟩,
      fun f hflush => ⟨?_, ?_⟩⟩
    · rw [Entry.response, hx]
    · change (releaseWindow s.wdc e)[x.window].count = _
      rw [releaseWindow_get, if_pos (by simp [Entry.refersTo, Entry.transfer, hx])]
      exact (dropReference_spec _).1
    · change (releaseWindow s.wdc e)[w] = _
      rw [releaseWindow_get, if_neg (by simpa [Entry.refersTo, Entry.transfer, hx] using Ne.symm hw)]
    · rw [Entry.response, hflush]
    · simp [releaseWindow, Entry.transfer, hflush]
    · rw [Entry.response, hflush]
    · simp [releaseWindow, Entry.transfer, hflush]

end Sys2Proof.Machine

/-! SEGMENT_END_REPORT (R54, R55, R57, R60 to R64, R106). -/

namespace Sys2Proof.Machine

section
variable {s : State}

theorem answersEntry_eq (as : List Answer) (slot : Slot) : answersEntry as slot = decide (Answer.entry slot ∈ as) :=
  List.contains_eq_mem ..

theorem AnswersComplete.readyAnswers_nil (complete : AnswersComplete s) : s.readyAnswers = [] := by
  refine List.map_eq_nil_iff.mpr (List.filter_eq_nil_iff.mpr fun e he ready => ?_)
  simp only [Bool.and_eq_true, Bool.not_eq_true', answersEntry_eq, decide_eq_false_iff_not] at ready
  obtain ⟨⟨done, unheld⟩, unanswered⟩ := ready
  exact unanswered (complete.entries e he done unheld)

theorem readyDetaches_nil
    (complete : ∀ i : Initiator, s.trk.detaches[i].isSome = true → s.trk.entriesOf i = [] → Answer.detached i ∈ s.trk.answers) :
    s.readyDetaches = [] := by
  refine List.map_eq_nil_iff.mpr (List.filter_eq_nil_iff.mpr fun i _ ready => ?_)
  simp only [Bool.and_eq_true, Bool.not_eq_true', ← Bool.not_eq_true, List.contains_iff_mem, List.isEmpty_iff] at ready
  exact ready.2 (complete i ready.1.1 ready.1.2)

theorem AnswersComplete.joinReady_self (complete : AnswersComplete s) : s.joinReady = s := by
  rw [joinReady_eq, complete.readyAnswers_nil, readyDetaches_nil complete.detaches, List.append_nil, List.append_nil]

/-- The state with the bus IDLE. -/
def State.withBusIdle (s : State) : State := { s with pbe := { s.pbe with bus := .idle } }

theorem exec_segmentEndReport_of_entry {c : SegmentContext} {rep : SegmentReport} {e : Entry} (slots : DistinctSlots s)
    (bus : s.pbe.bus = .segment c) (report : c.report = some rep) (mem : e ∈ s.trk.entries) (slot : e.slot = rep.slot) :
    exec .segmentEndReport s = .next ((s.withBusIdle.endSegmentOf rep e).joinReady).arbitrate := by
  change execSegmentEndReport s = _
  rw [execSegmentEndReport, bus]
  dsimp only
  rw [report]
  dsimp only
  rw [← slot, find_slot slots mem]
  rfl

/-! ## An entry that stays -/

/-- The entry at the end of its segment: progress and data by the report, the state `st`. -/
def Entry.reported (e : Entry) (x : Transfer) (rep : SegmentReport) (st : EntryState) : Entry :=
  { e with body := .transfer (x.progressed rep.bytes rep.values), state := st }

theorem endSegmentOf_stays {rep : SegmentReport} {e : Entry} {x : Transfer} {st : EntryState}
    (served : e.state = .inSegment false) (body : e.body = .transfer x)
    (after : stateAfterSegment (x.progressed rep.bytes rep.values) rep.timedOut = st)
    (stays : x.kind = .posted → st = .waiting) :
    s.endSegmentOf rep e =
      { s with trk := { s.trk with entries := changeEntry s.trk.entries e.slot fun _ => e.reported x rep st } } := by
  have transfer : e.transfer = some x := by rw [Entry.transfer, body]
  unfold State.endSegmentOf
  simp only [served, transfer]
  unfold State.takeReport
  dsimp only
  rw [after]
  split
  · next o posted => exact absurd (stays posted) nofun
  · rfl

/-- The answers stay complete where the entry at the end of its segment waits again. -/
theorem complete_of_waits {t : State} {e e' : Entry} (slots : DistinctSlots s) (complete : AnswersComplete s)
    (mem : e ∈ s.trk.entries) (same : e'.identity = e.identity) (waiting : e'.isDone = false)
    (owes : e.owesAnswer = true → e'.owesAnswer = true)
    (entries : t.trk.entries = changeEntry s.trk.entries e.slot fun _ => e') (answers : t.trk.answers = s.trk.answers)
    (detaches : t.trk.detaches = s.trk.detaches) : AnswersComplete t := by
  refine complete.of_map entries answers detaches (fun f hf => ?_) (fun f hf done => ?_) fun f hf howes => ?_
  · split
    · next hslot => rw [same, slot_inj slots mem hf hslot]
    · rfl
  · split at done
    · rw [waiting] at done; cases done
    · exact done
  · split
    · next hslot => exact owes (slot_inj slots mem hf hslot ▸ howes)
    · exact howes

end

/-- The entries that a test picks begin with one that no older entry passes. -/
theorem filter_head {es : List Entry} {e : Entry} {p : Entry → Bool} (slots : (es.map Entry.slot).Nodup) (mem : e ∈ es)
    (older : ∀ f ∈ olderThan es e.slot, p f = false) (passes : p e = true) : ∃ younger, es.filter p = e :: younger := by
  induction es with
  | nil => cases mem
  | cons f es ih =>
    obtain ⟨fresh, slots⟩ := List.nodup_cons.mp slots
    obtain rfl | mem := List.mem_cons.mp mem
    · exact ⟨_, List.filter_cons_of_pos passes⟩
    · have other : f.slot ≠ e.slot := fun h => fresh (h ▸ List.mem_map_of_mem mem)
      have split : olderThan (f :: es) e.slot = f :: olderThan es e.slot :=
        List.takeWhile_cons_of_pos (decide_eq_true other)
      rw [split] at older
      rw [List.filter_cons_of_neg (Bool.eq_false_iff.mp (older f List.mem_cons_self))]
      exact ih slots mem fun g hg => older g (List.mem_cons_of_mem _ hg)

/-- The answer of an entry that ends DONE is the first of those that join, where no older entry of its initiator and target
is in the tracker: the older entries are as they were. -/
theorem readyAnswers_head {s t : State} {e e' : Entry} (slots : DistinctSlots s) (complete : AnswersComplete s)
    (mem : e ∈ s.trk.entries) (unanswered : Answer.entry e.slot ∉ s.trk.answers) (same : e'.identity = e.identity)
    (done : e'.isDone = true) (first : s.trk.heldBack e = false)
    (entries : t.trk.entries = changeEntry s.trk.entries e.slot fun _ => e') (answers : t.trk.answers = s.trk.answers) :
    ∃ later, t.readyAnswers = .entry e.slot :: later := by
  obtain ⟨slot, -, initiator, -, -, -, -, target, -⟩ := identity_eq same
  have kept : ∀ f ∈ s.trk.entries, (if f.slot = e.slot then e' else f).slot = f.slot := by
    intro f _
    split
    · next hslot => rw [slot, hslot]
    · rfl
  have older {k : Slot} (h : ∀ f ∈ olderThan s.trk.entries k, f.slot ≠ e.slot) :
      olderThan t.trk.entries k = olderThan s.trk.entries k := by
    rw [entries, changeEntry, olderThan_map kept]
    exact (List.map_congr_left fun f hf => if_neg (h f hf)).trans (List.map_id' _)
  have otherSlot : ∀ f ∈ olderThan s.trk.entries e.slot, f.slot ≠ e.slot := fun f hf =>
    of_decide_eq_true (List.mem_takeWhile_imp (p := fun f : Entry => decide (f.slot ≠ e.slot)) hf)
  have distinct : DistinctSlots t := by
    rw [DistinctSlots, entries, changeEntry, List.map_map]
    exact (List.map_congr_left kept).symm ▸ slots
  have mem' : e' ∈ t.trk.entries := entries ▸ List.mem_map.mpr ⟨e, mem, if_pos rfl⟩
  have unheld : t.trk.answerHeld e' = false := by
    have before := answerHeld_false_iff.mp (answerHeld_of_first first)
    refine answerHeld_false_iff.mpr fun f hf hi ht => before f ?_ (hi.trans initiator) (ht.trans target)
    rwa [slot, older otherSlot] at hf
  have oldReady : ∀ f ∈ olderThan t.trk.entries e'.slot,
      (f.isDone && !t.trk.answerHeld f && !answersEntry t.trk.answers f.slot) = false := by
    intro f hf
    rw [slot, older otherSlot] at hf
    have held : t.trk.answerHeld f = s.trk.answerHeld f := by
      rw [Tracker.answerHeld, older fun g hg => otherSlot g (olderThan_trans hf hg)]
      rfl
    by_contra ready
    simp only [Bool.not_eq_false, Bool.and_eq_true, Bool.not_eq_true', answersEntry_eq, decide_eq_false_iff_not, held,
      answers] at ready
    obtain ⟨⟨fdone, funheld⟩, funanswered⟩ := ready
    exact funanswered (complete.entries f (older_mem hf) fdone funheld)
  obtain ⟨younger, picked⟩ := filter_head distinct mem' oldReady (by simp [done, unheld, answersEntry_eq, slot, answers, unanswered])
  exact ⟨_, by rw [State.readyAnswers, picked, List.map_cons, slot]⟩

theorem isDone_of_state {e : Entry} {o : EntryOutcome} (h : e.state = .done o) : e.isDone = true := by
  rw [Entry.isDone, h]

theorem entriesOf_nil_of_map {s t : State} {g : Entry → Entry} (entries : t.trk.entries = s.trk.entries.map g)
    (same : ∀ e ∈ s.trk.entries, (g e).identity = e.identity) (i : Initiator) :
    t.trk.entriesOf i = [] ↔ s.trk.entriesOf i = [] := by
  simp only [Tracker.entriesOf, entries, List.filter_eq_nil_iff, List.forall_mem_map]
  refine forall₂_congr fun e he => ?_
  obtain ⟨-, -, initiator, -⟩ := identity_eq (same e he)
  rw [initiator]

theorem unanswered_of_not_done {s : State} (sound : AnswersSound s) (slots : DistinctSlots s) {e : Entry}
    (mem : e ∈ s.trk.entries) (undone : e.isDone = false) : Answer.entry e.slot ∉ s.trk.answers := by
  intro answered
  obtain ⟨f, hf, hslot, done, -⟩ := sound.named _ answered
  rw [slot_inj slots mem hf hslot, undone] at done
  cases done

/-- Settles O15. -/
theorem segmentEndAdvancesEntry : Obligations.SegmentEndAdvancesEntry := by
  intro s c rep e x tracker law bus report mem slot served body unposted
  obtain ⟨-, -, slots, -⟩ := tracker
  obtain ⟨sound, -, complete⟩ := (answerLaw_iff s).mp law
  have undone := not_done_of_inSegment served
  set y := x.progressed rep.bytes rep.values
  set st := stateAfterSegment y rep.timedOut with hst
  set v : State := { s.withBusIdle with
    trk := { s.trk with entries := changeEntry s.trk.entries e.slot fun _ => e.reported x rep st } }
  have stays : s.withBusIdle.endSegmentOf rep e = v := endSegmentOf_stays served body rfl fun h => absurd h unposted
  have same : (e.reported x rep st).identity = e.identity := identity_progressed e body _ _ _
  have answers : v.readyAnswers =
      (v.trk.entries.filter fun f => f.isDone && !v.trk.answerHeld f && !decide (Answer.entry f.slot ∈ s.trk.answers)).map
        fun f => .entry f.slot := by
    simp only [State.readyAnswers, answersEntry_eq]
    rfl
  have noDetach : v.readyDetaches = [] := by
    refine readyDetaches_nil fun i detaching gone => complete.detaches i detaching ?_
    refine (entriesOf_nil_of_map (t := v) rfl (fun f hf => ?_) i).mp gone
    split
    · next hslot => rw [same, slot_inj slots mem hf hslot]
    · rfl
  refine ⟨y, st, _, _, rfl, fun timedOut => ?_, fun going more => ?_, fun going reached => ?_, ?_, answers, fun waiting => ?_,
    fun ended first => ?_, ?_⟩
  · rw [hst, stateAfterSegment, if_pos timedOut]
  · rw [hst, stateAfterSegment, going, if_neg Bool.false_ne_true, if_pos more]
  · rw [hst, stateAfterSegment, going, if_neg Bool.false_ne_true, if_neg (Nat.not_lt.mpr reached)]
  · rw [← slot]
    rfl
  · have reportedWaiting : (e.reported x rep st).state = .waiting := waiting
    refine AnswersComplete.readyAnswers_nil (complete_of_waits (t := v) slots complete mem same
      (not_done_of_waiting reportedWaiting) (fun _ => ?_) rfl rfl rfl)
    exact (owesAnswer_iff _).mpr ⟨.inl reportedWaiting, _, rfl, unposted⟩
  · rw [← slot]
    refine readyAnswers_head (t := v) slots complete mem (unanswered_of_not_done sound slots mem undone) same ?_ first rfl rfl
    obtain h | ⟨o, h⟩ := stateAfterSegment_cases y rep.timedOut
    · exact absurd h ended
    · exact isDone_of_state (e := e.reported x rep st) h
  · rw [exec_segmentEndReport_of_entry slots bus report mem slot, stays, joinReady_eq, noDetach, List.append_nil]
    rfl

end Sys2Proof.Machine

/-! SEGMENT_END_REPORT for an entry that leaves (R57, R60 to R64). -/

namespace Sys2Proof.Machine

section
variable {s : State}

/-- What an entry's leaving changes, the FLUSH entries `due` being DONE with the posted-fault record `report`, and a fault
being recorded where it `failed`. -/
def State.left (s : State) (e : Entry) (due : List Entry) (report : Option FaultRecord) (failed : Prop) [Decidable failed] :
    State :=
  { s with
    wdc := releaseWindow s.wdc e
    trk :=
      { s.trk with
        entries := (s.trk.entries.filter fun f => decide (f.slot ≠ e.slot)).map (Entry.flushDone due report)
        gate := s.trk.gate.afterDeparture (s.trk.entries.filter fun f => decide (f.slot ≠ e.slot))
        faults := s.trk.faults.set e.initiator (if due = [] then report else none) }
    handed :=
      { s.handed with
        events := s.handed.events ++ if failed then [.postedFault e.initiator] else []
        withdrawals :=
          s.handed.withdrawals ++
            if due ≠ [] ∧ report.isSome = true then
              [⟨e.initiator, s.handed.events.count (.postedFault e.initiator) + if failed then 1 else 0⟩]
            else [] } }

theorem left_congr {e : Entry} {due : List Entry} {report : Option FaultRecord} {failed failed' : Prop} [Decidable failed]
    [Decidable failed'] (h : failed ↔ failed') : s.left e due report failed = s.left e due report failed' := by
  unfold State.left
  rw [if_congr h rfl rfl, if_congr h rfl rfl]

theorem mem_flushesBehind {t : Tracker} {e f : Entry} :
    f ∈ t.flushesBehind e ↔
      f ∈ t.entries ∧ f.isFlush = true ∧ f.state = .waiting ∧ f.initiator = e.initiator ∧
        ∀ h ∈ olderThan t.entries f.slot, h.initiator = e.initiator → h.isPosted = true → h.slot = e.slot := by
  simp only [Tracker.flushesBehind, List.mem_filter, Bool.and_eq_true, decide_eq_true_eq, List.all_eq_true,
    Bool.not_eq_true', ← Bool.not_eq_true, and_assoc]
  refine and_congr_right fun _ => and_congr_right fun _ => and_congr_right fun _ => and_congr_right fun _ =>
    forall₂_congr fun h _ => ?_
  tauto

/-- No FLUSH waits for an entry that is not POSTED. -/
theorem flushesBehind_unposted (waits : FlushesWait s) (slots : DistinctSlots s) {e : Entry} (mem : e ∈ s.trk.entries)
    (unposted : e.isPosted = false) : s.trk.flushesBehind e = [] := by
  refine List.eq_nil_iff_forall_not_mem.mpr fun f hf => ?_
  obtain ⟨hfs, flush, waiting, initiator, only⟩ := mem_flushesBehind.mp hf
  obtain ⟨g, hg, hgi, posted⟩ := waits f hfs flush waiting
  rw [slot_inj slots mem (older_mem hg) (only g hg (hgi.trans initiator) posted), unposted] at posted
  cases posted

theorem removeDropped_eq (waits : FlushesWait s) (slots : DistinctSlots s) {e : Entry} (mem : e ∈ s.trk.entries)
    (transfer : e.isFlush = false) :
    s.removeDropped e = s.left e (s.trk.flushesBehind e) s.trk.faults[e.initiator] False := by
  unfold State.removeDropped
  split
  · rw [depart_judge_eq slots mem rfl transfer]
    simp [State.left]
  · next unposted =>
    rw [flushesBehind_unposted waits slots mem (Bool.eq_false_iff.mpr unposted)]
    simp [State.left, State.depart, funext (Entry.flushDone_nil _)]

theorem endSegmentOf_dropped (waits : FlushesWait s) (slots : DistinctSlots s) {rep : SegmentReport} {e : Entry}
    (mem : e ∈ s.trk.entries) (transfer : e.isFlush = false) (dropped : e.state = .inSegment true) :
    s.endSegmentOf rep e = s.left e (s.trk.flushesBehind e) s.trk.faults[e.initiator] False := by
  unfold State.endSegmentOf
  simp only [dropped]
  exact removeDropped_eq waits slots mem transfer

theorem releaseWindow_reported {rep : SegmentReport} {e : Entry} {x : Transfer} (body : e.body = .transfer x)
    (st : EntryState) (ws : Vector Window 32) : releaseWindow ws (e.reported x rep st) = releaseWindow ws e := by
  simp only [releaseWindow, Entry.transfer, Entry.reported, body]
  rfl

/-- A POSTED entry at its end (R57, R58). -/
theorem finishPosted_reported (slots : DistinctSlots s) {rep : SegmentReport} {e : Entry} {x : Transfer}
    (mem : e ∈ s.trk.entries) (body : e.body = .transfer x) {o : EntryOutcome} {report : Option FaultRecord}
    (hreport : report =
      if o = .ok then s.trk.faults[e.initiator]
      else some (faultsRecorded s.trk.faults[e.initiator] (outcomeStatus o) x.address (x.progress + rep.bytes) 1)) :
    s.finishPosted (e.reported x rep (.done o)) (x.progressed rep.bytes rep.values) o =
      s.left e (s.trk.flushesBehind e) report (o ≠ .ok) := by
  refine (finishPosted_eq slots mem (by rfl) (isFlush_of_body body) _ o (due := s.trk.flushesBehind e)
    (report := report) (by rfl) (by exact hreport)).trans ?_
  rw [releaseWindow_reported body, State.left]
  cases o <;> rfl

theorem endSegmentOf_posted (slots : DistinctSlots s) {rep : SegmentReport} {e : Entry} {x : Transfer}
    (mem : e ∈ s.trk.entries) (served : e.state = .inSegment false) (body : e.body = .transfer x)
    (posted : x.kind = .posted) (ends : rep.timedOut = true ∨ x.length ≤ x.progress + rep.bytes)
    {report : Option FaultRecord}
    (hreport : report =
      if rep.timedOut = true then
        some (faultsRecorded s.trk.faults[e.initiator] .timeout x.address (x.progress + rep.bytes) 1)
      else s.trk.faults[e.initiator]) :
    s.endSegmentOf rep e = s.left e (s.trk.flushesBehind e) report (rep.timedOut = true) := by
  have transfer : e.transfer = some x := by rw [Entry.transfer, body]
  unfold State.endSegmentOf
  simp only [served, transfer]
  cases timedOut : rep.timedOut with
  | true =>
    have after : stateAfterSegment (x.progressed rep.bytes rep.values) true = .done .timeout := if_pos rfl
    simp only [State.takeReport, timedOut, after, posted]
    rw [timedOut] at hreport
    exact (finishPosted_reported slots mem body (o := .timeout) (rep := rep) hreport).trans (by simp [State.left])
  | false =>
    have reached := ends.resolve_left (by rw [timedOut]; exact Bool.false_ne_true)
    have after : stateAfterSegment (x.progressed rep.bytes rep.values) false = .done .ok :=
      (if_neg Bool.false_ne_true).trans (if_neg (Nat.not_lt.mpr reached))
    simp only [State.takeReport, timedOut, after, posted]
    rw [timedOut] at hreport
    exact (finishPosted_reported slots mem body (o := .ok) (rep := rep) hreport).trans (by simp [State.left])

/-! ## The answers that join -/

/-- What `flushDone` makes of an entry that is none of `due`, and of one that is. -/
theorem flushDone_of_not_mem {due : List Entry} {report : Option FaultRecord} {f : Entry} (h : f ∉ due) :
    Entry.flushDone due report f = f := if_neg h

theorem flushDone_isDone {due : List Entry} {report : Option FaultRecord} {f : Entry} (h : f ∈ due) :
    (Entry.flushDone due report f).isDone = true := by
  rw [Entry.flushDone, if_pos h]
  rfl

theorem flushDone_slot {due : List Entry} {report : Option FaultRecord} (f : Entry) :
    (Entry.flushDone due report f).slot = f.slot := by
  unfold Entry.flushDone
  split <;> rfl

theorem flushDone_identity_of_flushes {due : List Entry} {report : Option FaultRecord}
    (flushes : ∀ f ∈ due, f.isFlush = true) (f : Entry) : (Entry.flushDone due report f).identity = f.identity := by
  unfold Entry.flushDone
  split
  · next h => exact identity_flush f (flushes f h) _ _
  · rfl

end

section
variable {s t : State} {e : Entry} {report : Option FaultRecord} {failed : Prop} [Decidable failed]

/-- The answers that join behind a departure are those of the FLUSH entries that waited for it alone. -/
theorem left_readyAnswers (law : AnswerLaw s) (slots : DistinctSlots s) (mem : e ∈ s.trk.entries)
    (transfer : e.isFlush = false) (owesNone : e.owesAnswer = false) :
    (s.left e (s.trk.flushesBehind e) report failed).readyAnswers =
      (s.trk.flushesBehind e).map fun f => .entry f.slot := by
  obtain ⟨sound, -, complete⟩ := (answerLaw_iff s).mp law
  set due := s.trk.flushesBehind e with hdue
  set t := s.left e due report failed with ht
  have flushes : ∀ f ∈ due, f.isFlush = true := fun f hf => (mem_flushesBehind.mp hf).2.1
  have same := flushDone_identity_of_flushes (report := report) flushes
  have leaves : ∀ f ∈ due, f.slot ≠ e.slot := fun f hf hslot => by
    obtain ⟨hfs, flush, -⟩ := mem_flushesBehind.mp hf
    rw [slot_inj slots mem hfs hslot, transfer] at flush
    cases flush
  have unheldBefore {f : Entry} (hf : f ∈ s.trk.entries) (keep : f.slot ≠ e.slot) (unheld : t.trk.answerHeld f = false) :
      s.trk.answerHeld f = false := by
    refine answerHeld_false_iff.mpr fun h hh hi htarget => ?_
    by_cases hhe : h = e
    · rw [hhe]; exact owesNone
    · have older : Entry.flushDone due report h ∈ olderThan t.trk.entries f.slot := by
        refine (mem_olderThan_map fun g _ => flushDone_slot g).mpr ⟨h, ?_, rfl⟩
        rw [olderThan_filter fun g hg hslot => by rw [slot_inj slots hf hg hslot]; exact decide_eq_true keep]
        exact List.mem_filter.mpr ⟨hh, decide_eq_true fun hslot => hhe (slot_inj slots mem (older_mem hh) hslot)⟩
      obtain ⟨-, -, initiator, -, -, -, -, target, -⟩ := identity_eq (same h)
      have owes := answerHeld_false_iff.mp unheld _ older (initiator.trans hi) (target.trans htarget)
      by_cases hd : h ∈ due
      · rw [Bool.eq_false_iff]
        intro howes
        obtain ⟨-, x, hx, -⟩ := (owesAnswer_iff h).mp howes
        have flush := flushes h hd
        rw [isFlush_of_body hx] at flush
        cases flush
      · rwa [flushDone_of_not_mem hd] at owes
  have picks : (t.trk.entries.filter fun f =>
      f.isDone && !t.trk.answerHeld f && !answersEntry t.trk.answers f.slot) = due.map (Entry.flushDone due report) := by
    change ((s.trk.entries.filter fun f => decide (f.slot ≠ e.slot)).map (Entry.flushDone due report)).filter _ = _
    rw [List.filter_map, List.filter_filter]
    refine congrArg _ ((List.filter_congr fun f hf => ?_).trans (hdue.trans rfl).symm)
    have inDue : f ∈ due ↔ _ := List.mem_filter.trans (and_iff_right hf)
    rw [Bool.eq_iff_iff, ← inDue]
    simp only [Function.comp_apply, Bool.and_eq_true, Bool.not_eq_true', answersEntry_eq, decide_eq_true_eq,
      decide_eq_false_iff_not, flushDone_slot]
    constructor
    · rintro ⟨⟨⟨done, unheld⟩, unanswered⟩, keep⟩
      by_contra hd
      rw [flushDone_of_not_mem hd] at done unheld
      exact unanswered (complete.entries f hf done (unheldBefore hf keep unheld))
    · intro hd
      obtain ⟨-, flush, waiting, -⟩ := mem_flushesBehind.mp hd
      obtain ⟨-, -, -, -, -, isFlush, -⟩ := identity_eq (same f)
      exact ⟨⟨⟨flushDone_isDone hd, answerHeld_flush (isFlush.trans flush)⟩,
        unanswered_of_not_done sound slots hf (not_done_of_waiting waiting)⟩, leaves f hd⟩
  rw [State.readyAnswers, picks, List.map_map]
  exact List.map_congr_left fun f _ => congrArg Answer.entry (flushDone_slot f)

/-- The answer of a detach joins where the last entry of its initiator leaves (R64). -/
theorem left_readyDetaches (law : AnswerLaw s) (slots : DistinctSlots s) (mem : e ∈ s.trk.entries) :
    (s.left e (s.trk.flushesBehind e) report failed).readyDetaches =
      if s.trk.detaches[e.initiator].isSome ∧ s.trk.entriesOf e.initiator = [e] then [.detached e.initiator] else [] := by
  obtain ⟨sound, -, complete⟩ := (answerLaw_iff s).mp law
  set t := s.left e (s.trk.flushesBehind e) report failed
  have gone (j : Initiator) : t.trk.entriesOf j = [] ↔
      ((s.trk.entries.filter fun f => decide (f.slot ≠ e.slot)).filter fun f => decide (f.initiator = j)) = [] :=
    entriesOf_nil_of_map
      (s := { s with trk := { s.trk with entries := s.trk.entries.filter fun f => decide (f.slot ≠ e.slot) } }) (t := t) rfl
      (fun f _ => flushDone_identity_of_flushes (fun f hf => (mem_flushesBehind.mp hf).2.1) f) j
  have ready (j : Initiator) :
      (t.trk.detaches[j].isSome && (t.trk.entriesOf j).isEmpty && !t.trk.answers.contains (.detached j)) = true ↔
        j = e.initiator ∧ s.trk.detaches[e.initiator].isSome ∧ s.trk.entriesOf e.initiator = [e] := by
    simp only [Bool.and_eq_true, Bool.not_eq_true', ← Bool.not_eq_true, List.contains_iff_mem, List.isEmpty_iff, gone]
    by_cases hj : j = e.initiator
    · subst hj
      rw [entriesOf_without_nil_iff slots mem]
      refine ⟨fun ⟨⟨detaching, only⟩, _⟩ => ⟨rfl, detaching, only⟩,
        fun ⟨_, detaching, only⟩ => ⟨⟨detaching, only⟩, fun answered => ?_⟩⟩
      obtain ⟨-, empty⟩ := sound.detaches _ answered
      rw [empty] at only
      cases only
    · refine ⟨fun ⟨⟨detaching, empty⟩, unanswered⟩ => absurd (complete.detaches j detaching ?_) unanswered,
        fun h => absurd h.1 hj⟩
      refine List.filter_eq_nil_iff.mpr fun f hf hfj => ?_
      refine List.filter_eq_nil_iff.mp empty f (List.mem_filter.mpr ⟨hf, decide_eq_true fun hslot => ?_⟩) hfj
      rw [slot_inj slots mem hf hslot] at hfj
      exact hj (of_decide_eq_true hfj).symm
  rw [State.readyDetaches]
  split
  · next last =>
    refine (congrArg (List.map Answer.detached) ((List.filter_congr fun j _ => ?_).trans (filter_initiator e.initiator))).trans rfl
    rw [Bool.eq_iff_iff, ready j, decide_eq_true_eq]
    exact and_iff_left last
  · next others =>
    refine List.map_eq_nil_iff.mpr (List.filter_eq_nil_iff.mpr fun j _ h => others ((ready j).mp h).2)

theorem left_joinReady (law : AnswerLaw s) (slots : DistinctSlots s) (mem : e ∈ s.trk.entries)
    (transfer : e.isFlush = false) (owesNone : e.owesAnswer = false) :
    (s.left e (s.trk.flushesBehind e) report failed).joinReady =
      { s.left e (s.trk.flushesBehind e) report failed with
        trk :=
          { (s.left e (s.trk.flushesBehind e) report failed).trk with
            answers :=
              s.trk.answers ++ (s.trk.flushesBehind e).map (fun f => .entry f.slot) ++
                if s.trk.detaches[e.initiator].isSome ∧ s.trk.entriesOf e.initiator = [e] then [.detached e.initiator]
                else [] } } := by
  rw [joinReady_eq, left_readyAnswers law slots mem transfer owesNone, left_readyDetaches law slots mem]
  rfl

end

/-- The entries without one are none where it was the only one. -/
theorem entries_without_nil_iff {s : State} (slots : DistinctSlots s) {e : Entry} (mem : e ∈ s.trk.entries) :
    (s.trk.entries.filter fun f => decide (f.slot ≠ e.slot)) = [] ↔ s.trk.entries = [e] := by
  constructor
  · intro gone
    refine List.perm_singleton.mp ((List.perm_ext_iff_of_nodup (List.Nodup.of_map _ slots) (List.nodup_singleton e)).mpr
      fun f => ⟨fun hf => List.mem_singleton.mpr ?_, fun hf => List.mem_singleton.mp hf ▸ mem⟩)
    exact slot_inj slots mem hf (by simpa using List.filter_eq_nil_iff.mp gone f hf)
  · intro only
    simp [only]

theorem releaseWindow_of_body {e : Entry} {x : Transfer} (body : e.body = .transfer x) (ws : Vector Window 32) :
    releaseWindow ws e = ws.set x.window (ws[x.window].losing 1) := by
  simp only [releaseWindow, Entry.transfer, body, Window.losing_one]

/-- Settles O16. -/
theorem segmentEndRemovesEntry : Obligations.SegmentEndRemovesEntry := by
  rintro s c rep e x _ report tracker law bus hrep mem slot body rfl hreport
  obtain ⟨-, -, slots, -⟩ := tracker
  obtain ⟨sound, waits, complete⟩ := (answerLaw_iff s).mp law
  have flush := isFlush_of_body body
  refine ⟨fun served posted going more => ?_, fun ends => ?_⟩
  · have after : stateAfterSegment (x.progressed rep.bytes rep.values) rep.timedOut = .waiting := by
      rw [going]
      exact (if_neg Bool.false_ne_true).trans (if_pos more)
    have progressed : x.progressed rep.bytes rep.values = { x with progress := x.progress + rep.bytes } := by
      rw [Transfer.progressed, if_neg (by rw [posted]; decide)]
    have waits : AnswersComplete ({ s.withBusIdle with
        trk := { s.trk with entries := changeEntry s.trk.entries e.slot fun _ => e.reported x rep .waiting } } : State) := by
      refine complete_of_waits slots complete mem (identity_progressed e body _ _ _) (by rfl) (fun owes => ?_) rfl rfl rfl
      obtain ⟨-, y, hy, unposted⟩ := (owesAnswer_iff e).mp owes
      rw [body] at hy
      cases hy
      exact absurd posted unposted
    rw [exec_segmentEndReport_of_entry slots bus hrep mem slot, endSegmentOf_stays served body after fun _ => rfl]
    refine congrArg (fun t => Host.Outcome.next (State.arbitrate t)) (waits.joinReady_self.trans ?_)
    rw [Entry.reported, progressed, slot]
    rfl
  · have owesNone : e.owesAnswer = false := by
      rw [Bool.eq_false_iff]
      intro owes
      obtain ⟨state, y, hy, unposted⟩ := (owesAnswer_iff e).mp owes
      rw [body] at hy
      cases hy
      obtain dropped | ⟨-, posted, -⟩ := ends
      · rw [dropped] at state
        obtain h | h := state <;> cases h
      · exact unposted posted
    have left : s.withBusIdle.endSegmentOf rep e =
        s.withBusIdle.left e (s.trk.flushesBehind e) report (e.state = .inSegment false ∧ rep.timedOut = true) := by
      obtain dropped | ⟨served, posted, ends⟩ := ends
      · rw [dropped, if_neg (by simp)] at hreport
        rw [endSegmentOf_dropped (s := s.withBusIdle) waits slots mem flush dropped, hreport]
        exact left_congr (by simp [dropped])
      · simp only [served, true_and] at hreport
        rw [endSegmentOf_posted (s := s.withBusIdle) slots mem served body posted ends (report := report) hreport]
        exact left_congr (by simp [served])
    refine ⟨s.trk.gate.afterDeparture (s.trk.entries.filter fun f => decide (f.slot ≠ e.slot)), ?_, ?_⟩
    · rw [exec_segmentEndReport_of_entry slots bus hrep mem slot, left]
      refine congrArg (fun t => Host.Outcome.next (State.arbitrate t))
        ((left_joinReady (s := s.withBusIdle) (law.of_trk rfl rfl rfl) slots mem flush owesNone).trans ?_)
      rw [← slot, ← releaseWindow_of_body body]
      rfl
    · rw [afterDeparture_eq]
      exact if_congr (and_congr_right fun _ => entries_without_nil_iff slots mem) rfl rfl

end Sys2Proof.Machine

/-! The arbiter, the byte cycle, the recovery timers, lending, and the health of targets (chapters 2 and 5). -/

namespace Sys2Proof.Machine

/-! ## Outcomes and ages (R30 to R33) -/

/-- The oldest outcome of a target is taken from behind those of others. -/
theorem takeOutcome_eq {t : TargetId} {before rest : List (TargetId × Bool)} (h : ∀ o ∈ before, o.1 ≠ t) (ok : Bool) :
    takeOutcome t (before ++ (t, ok) :: rest) = some (ok, before ++ rest) := by
  induction before with
  | nil => exact if_pos rfl
  | cons o before ih =>
    rw [List.cons_append, takeOutcome, if_neg (h o List.mem_cons_self), ih fun p hp => h p (List.mem_cons_of_mem _ hp)]
    rfl

section
variable {s : State} {t : TargetId} {before rest : List (TargetId × Bool)} (others : ∀ o ∈ before, o.1 ≠ t)
include others

theorem exec_cycleCompletion (taken : s.handed.outcomes = before ++ (t, true) :: rest) :
    exec (.cycleCompletion t) s = .next (s.withOutcomeTaken t s.tgt[t].completed (before ++ rest)).arbitrate := by
  change execCycleCompletion t s = _
  rw [execCycleCompletion, taken, takeOutcome_eq others]

theorem exec_cycleTimeout_kept (taken : s.handed.outcomes = before ++ (t, false) :: rest)
    (kept : ¬(s.tgt[t].timedOut.state = .offline ∧ s.tgt[t].state ≠ .offline)) :
    exec (.cycleTimeout t) s = .next (s.withOutcomeTaken t s.tgt[t].timedOut (before ++ rest)).arbitrate := by
  change execCycleTimeout t s = _
  rw [execCycleTimeout, taken, takeOutcome_eq others]
  exact if_neg kept

theorem exec_cycleTimeout_offline (taken : s.handed.outcomes = before ++ (t, false) :: rest)
    (passes : s.tgt[t].timedOut.state = .offline ∧ s.tgt[t].state ≠ .offline) :
    exec (.cycleTimeout t) s =
      .next ((s.withOutcomeTaken t s.tgt[t].timedOut (before ++ rest)).announceOffline t).arbitrate := by
  change execCycleTimeout t s = _
  rw [execCycleTimeout, taken, takeOutcome_eq others]
  exact if_pos passes

end

theorem completed_of_present {r : TargetRecord} (h : r.state ≠ .absent) :
    r.completed = { r with
      consecutive := 0, age := 0, state := if r.state = .suspect then .online else r.state } := by
  unfold TargetRecord.completed
  cases hr : r.state with
  | absent => exact absurd hr h
  | online | offline | suspect => simp

theorem timedOut_of_live {r : TargetRecord} (live : r.state = .online ∨ r.state = .suspect) (small : r.consecutive < 15) :
    r.timedOut = { r with
      state := if r.threshold ≤ r.consecutive + 1 then .offline else .suspect
      consecutive := r.consecutive + 1
      errors := if r.errors < 255 then r.errors + 1 else r.errors } := by
  have count : min 15 (r.consecutive + 1) = r.consecutive + 1 := by omega
  unfold TargetRecord.timedOut TargetRecord.stateAfterTimeout
  obtain h | h := live
  all_goals
    rw [h, if_neg (by decide), count]
    rfl

theorem aged_eq (r : TargetRecord) : r.aged = { r with age := if r.age ≤ 253 then r.age + 1 else r.age } := by
  unfold TargetRecord.aged
  split <;> rfl

/-- Settles O18. -/
theorem outcomesMoveHealth : Obligations.OutcomesMoveHealth := by
  intro s t before rest others
  refine ⟨fun taken present => ?_, fun taken live small below => ?_, fun taken live small reached => ?_,
    fun ok taken absent => ?_⟩
  · rw [exec_cycleCompletion others taken, completed_of_present present]
    rfl
  · have moved := timedOut_of_live live small
    rw [if_neg (Nat.not_le.mpr below)] at moved
    rw [exec_cycleTimeout_kept others taken (by rw [moved]; exact fun h => nomatch h.1), moved]
    rfl
  · have moved := timedOut_of_live live small
    rw [if_pos reached] at moved
    have online : s.tgt[t].state ≠ .offline := by
      obtain h | h := live <;> rw [h] <;> decide
    rw [exec_cycleTimeout_offline others taken ⟨by rw [moved], online⟩, moved]
    rfl
  · have unchanged : s.withOutcomeTaken t s.tgt[t] (before ++ rest) =
        { s with handed := { s.handed with outcomes := before ++ rest } } := by
      rw [State.withOutcomeTaken, table_set_self _ _ rfl]
    cases ok with
    | true =>
      have completed : s.tgt[t].completed = s.tgt[t] := by rw [TargetRecord.completed, absent]
      change exec (.cycleCompletion t) s = _
      rw [exec_cycleCompletion others taken, completed, unchanged]
    | false =>
      have timedOut : s.tgt[t].timedOut = s.tgt[t] := if_pos absent
      change exec (.cycleTimeout t) s = _
      rw [exec_cycleTimeout_kept others taken (by rw [timedOut, absent]; exact fun h => nomatch h.1), timedOut, unchanged]

/-- Settles O19. -/
theorem ageTickRaisesAges : Obligations.AgeTickRaisesAges := by
  intro s running
  refine ⟨_, if_neg running, rfl, fun k => ?_⟩
  exact (tabulate_get _ k).trans (aged_eq _)

/-! ## The arbiter (R93 to R95, R98) -/

section
variable {s : State}

theorem arbitrate_blocked (h : s.power.boot ≠ .running ∨ s.pbe.bus ≠ .idle) : s.arbitrate = s :=
  if_neg fun hc => h.elim (fun hb => hb hc.1) fun hb => hb hc.2

theorem arbitrate_grants (running : s.power.boot = .running) (idle : s.pbe.bus = .idle) (extreq : s.pins.extreq = true) :
    s.arbitrate = s.grantBus :=
  (if_pos ⟨running, idle⟩).trans (if_pos extreq)

theorem arbitrate_chooses (running : s.power.boot = .running) (idle : s.pbe.bus = .idle) (extreq : s.pins.extreq = false)
    {e : Entry} (chosen : s.chosen = some e) : s.arbitrate = s.beginSegment e := by
  rw [State.arbitrate, if_pos ⟨running, idle⟩, extreq, chosen]
  rfl

theorem arbitrate_finds_none (extreq : s.pins.extreq = false) (none : s.chosen = none) : s.arbitrate = s := by
  rw [State.arbitrate, extreq, none]
  exact ite_self s

/-- What the setup of a cycle drives (R98). -/
theorem beginCycle_eq {record : TargetRecord} {data : List Byte} {c : SegmentContext} {spec : CycleSpec}
    (h : c.cycles[c.next]? = some spec) :
    beginCycle record data c =
      { c with
        run := some
          ⟨spec, record.strobeWidth, record.readyTimeout,
            if spec.write then some (cycleValue data c.merged spec.use) else none, .setup⟩ } := by
  rw [beginCycle, h]

theorem beginCycle_first {record : TargetRecord} {data : List Byte} {c : SegmentContext} (next : c.next = 0)
    (idle : c.run = none) :
    (beginCycle record data c).run =
      c.cycles.head?.map fun spec =>
        ⟨spec, record.strobeWidth, record.readyTimeout,
          if spec.write then some (cycleValue data c.merged spec.use) else none, .setup⟩ := by
  cases h : c.cycles[c.next]? with
  | none =>
    rw [beginCycle, h, List.head?_eq_getElem?, ← next, h]
    exact idle
  | some spec => rw [beginCycle_eq h, List.head?_eq_getElem?, ← next, h]; rfl

end

/-- Settles O23. -/
theorem arbiterDecides : Obligations.ArbiterDecides := by
  intro s
  refine ⟨eligible_iff s, arbitrate_blocked, fun running idle extreq => arbitrate_grants running idle extreq,
    fun extreq none => arbitrate_finds_none extreq ((chosen_none_iff s).mpr none), ?_⟩
  intro e x tracker running idle extreq mem eligible body turn oldest
  obtain ⟨-, -, slots, -⟩ := tracker
  have transfer : e.transfer = some x := by rw [Entry.transfer, body]
  set c0 := contextOf e x s.pbe.segmentLimit
  set record := s.tgt[x.snapshot.target]
  have frame := beginCycle_frame record x.data c0
  refine ⟨beginCycle record x.data c0, ?_, ?_⟩
  · rw [arbitrate_chooses running idle extreq (chosen_eq slots mem eligible turn oldest), State.beginSegment, transfer]
    rfl
  · have run := beginCycle_first (record := record) (data := x.data) (c := c0) rfl rfl
    rw [frame] at run ⊢
    exact ⟨rfl, rfl, rfl, rfl, rfl, rfl, rfl, rfl, rfl, rfl, rfl, rfl, rfl, rfl, rfl, run⟩

/-! ## The byte cycle (R98 to R101) -/

section
variable {s : State} {c : SegmentContext} {r : CycleRun}

/-- The value that a cycle drives is that of R98. -/
theorem drives_cycleValue (s : State) (slot : Slot) (merged : List (Nat × Byte)) (spec : CycleSpec) :
    s.Drives slot merged spec (if spec.write then some (cycleValue (s.trk.dataAt slot) merged spec.use) else none) where
  read h := by rw [h]; rfl
  request p e x write use slots mem hslot body := by
    subst hslot
    have data : s.trk.dataAt e.slot = x.data := by
      rw [Tracker.dataAt, find_slot slots mem]
      simp only [Entry.transfer, body]
    rw [write, use, data]
    rfl
  merge a b write use found := by
    rw [write, use]
    simp [cycleValue, found]

theorem exec_prdySampledHigh (bus : s.pbe.bus = .segment c) (run : c.run = some r) (clock : Nat) (data : Byte) :
    exec (.prdySampledHigh clock data) s =
      match r.sampleHigh clock data with
      | some q => .next (s.withContext (c.withRun (some q)))
      | none => .next s := by
  change execPrdySampledHigh clock data s = _
  rw [execPrdySampledHigh, bus]
  cases sampled : r.sampleHigh clock data <;> simp only [run, Option.bind_some, sampled]

theorem sampleHigh_strobe {k : Nat} (phase : r.phase = .strobe k) (clock : Nat) (data : Byte) :
    r.sampleHigh clock data =
      if k ≤ clock ∧ r.strobeWidth ≤ clock ∧ clock ≤ 40 * r.readyTimeout then
        some { r with phase := .hold (.completed (if r.spec.write then none else some data)) }
      else none := by
  rw [CycleRun.sampleHigh, phase]

theorem exec_byteCycleEnd {result : CycleResult} (bus : s.pbe.bus = .segment c) (run : c.run = some r)
    (hold : r.phase = .hold result) : exec .byteCycleEnd s = .next (s.endCycle c r result) := by
  have ended : r.result = some result := by rw [CycleRun.result, hold]
  change execByteCycleEnd s = _
  rw [execByteCycleEnd, bus]
  dsimp only
  rw [run]
  dsimp only
  rw [ended]

end

/-- Settles O24. -/
theorem strobeEnds : Obligations.StrobeEnds := by
  intro s c r k clock data bus run phase
  have sampled := sampleHigh_strobe phase clock data
  refine ⟨fun started wide inTime => ?_, fun early => ?_, fun late => ?_, ?_⟩
  · rw [exec_prdySampledHigh bus run, sampled, if_pos ⟨started, wide, inTime⟩]
    rfl
  · rw [exec_prdySampledHigh bus run, sampled, if_neg fun h => absurd h.2.1 (Nat.not_le.mpr early)]
  · rw [exec_prdySampledHigh bus run, sampled, if_neg fun h => absurd h.2.2 (Nat.not_le.mpr late)]
  · change execReadyTimeout s = _
    rw [execReadyTimeout, bus]
    dsimp only
    rw [run, Option.bind_some, CycleRun.timeOut, phase]
    rfl

/-- The context after a completed cycle, field by field. -/
theorem advance_eq (c : SegmentContext) (spec : CycleSpec) (taken : Option Byte) :
    c.advance spec taken =
      { c with
        next := c.next + 1
        run := none
        held :=
          match taken, spec.use with
          | some b, .request p => c.held ++ [(p, b)]
          | _, _ => c.held
        merged :=
          match spec.unitEnd, taken, spec.use with
          | some _, _, _ => []
          | none, some b, .merge a => c.merged ++ [(a, b)]
          | none, _, _ => c.merged
        unitsDone := if spec.unitEnd.isSome then c.unitsDone + 1 else c.unitsDone
        bytesDone := c.bytesDone + spec.unitEnd.getD 0 } := by
  unfold SegmentContext.advance
  cases spec.unitEnd with
  | some bytes => rfl
  | none => cases taken <;> cases spec.use <;> rfl

section
variable {c : SegmentContext} {record : TargetRecord} {data : List Byte}

theorem proceed_reports (h : c.timedOut = true ∨ c.cycles.length ≤ c.next) :
    c.proceed record data = { c with report := some c.endReport } := if_pos h

theorem proceed_begins (going : c.timedOut = false) {spec : CycleSpec} (next : c.cycles[c.next]? = some spec)
    (recovery : record.recovery = 0) : c.proceed record data = beginCycle record data c := by
  have more : c.next < c.cycles.length := (List.getElem?_eq_some_iff.mp next).1
  exact (if_neg fun h => h.elim (by rw [going]; exact Bool.false_ne_true) (Nat.not_le.mpr more)).trans (if_pos recovery)

theorem proceed_waits (going : c.timedOut = false) (more : c.next < c.cycles.length) (recovery : record.recovery ≠ 0) :
    c.proceed record data = c :=
  (if_neg fun h => h.elim (by rw [going]; exact Bool.false_ne_true) (Nat.not_le.mpr more)).trans (if_neg recovery)

end

/-- Settles O25. -/
theorem byteCycleEnds : Obligations.ByteCycleEnds := by
  intro s c r result values bus run hold going hvalues
  refine ⟨(c.endCycle r result).proceed s.tgt[c.target] (s.trk.dataAt c.slot), exec_byteCycleEnd bus run hold, ?_, ?_⟩
  · rintro rfl
    rw [proceed_reports (.inl rfl)]
    simp only [SegmentContext.endCycle, SegmentContext.endReport, hvalues]
    rfl
  · rintro v c1 rfl hc1
    have advanced : c.endCycle r (.completed v) = c1 := (advance_eq c r.spec v).trans hc1.symm
    have next : c1.next = c.next + 1 := by rw [hc1]
    have cycles : c1.cycles = c.cycles := by rw [hc1]
    have still : c1.timedOut = false := by rw [hc1]; exact going
    have kept : c1.slot = c.slot ∧ c1.write = c.write ∧ c1.start = c.start := by rw [hc1]; exact ⟨rfl, rfl, rfl⟩
    obtain ⟨slot, write, start⟩ := kept
    rw [advanced]
    refine ⟨fun last => ?_, fun spec hspec recovery => ?_, fun more recovery => ?_⟩
    · rw [proceed_reports (.inr (by rw [cycles, next]; exact last))]
      simp only [SegmentContext.endReport, hvalues, slot, write, start, still]
    · have hspec : c1.cycles[c1.next]? = some spec := by rw [cycles, next]; exact hspec
      exact ⟨_, drives_cycleValue s c.slot c1.merged spec, (proceed_begins still hspec recovery).trans (beginCycle_eq hspec)⟩
    · exact proceed_waits still (by rw [cycles, next]; exact more) recovery

/-! ## Recovery timers, lending and EXTREQ (R92, R103 to R112) -/

section
variable {s : State} {t : TargetId}

/-- The state with a recovery timer expired. -/
def State.recovered (s : State) (t : TargetId) : State := { s with pbe := { s.pbe with recovery := s.pbe.recovery.set t 0 } }

theorem exec_recoveryTimerExpiry (running : s.pbe.recovery[t] ≠ 0) :
    exec (.recoveryTimerExpiry t) s =
      match s.pbe.bus with
      | .segment c =>
        if c.waitsFor t then
          .next ((s.recovered t).withContext (beginCycle s.tgt[t] (s.trk.dataAt c.slot) c))
        else .next (s.recovered t)
      | .idle => .next (s.recovered t).arbitrate
      | .lent => .next (s.recovered t) := by
  change execRecoveryTimerExpiry t s = _
  rw [execRecoveryTimerExpiry, if_neg running]
  cases s.pbe.bus <;> rfl

theorem waitsFor_iff (c : SegmentContext) (t : TargetId) :
    c.waitsFor t = true ↔ c.target = t ∧ c.run = none ∧ c.report = none := by
  simp only [SegmentContext.waitsFor, Bool.and_eq_true, decide_eq_true_eq, Option.isNone_iff_eq_none, and_assoc]

end

/-- Settles O26. -/
theorem recoveryTimerExpires : Obligations.RecoveryTimerExpires := by
  intro s t running
  have step := exec_recoveryTimerExpiry running
  refine ⟨fun idle => ?_, fun lent => ?_, fun c spec bus target run report next => ?_, fun c bus other => ?_⟩
  · rw [step, idle]; rfl
  · rw [step, lent]; rfl
  · have waits : c.waitsFor t = true := (waitsFor_iff c t).mpr ⟨target, run, report⟩
    refine ⟨⟨spec, s.tgt[t].strobeWidth, s.tgt[t].readyTimeout,
      if spec.write then some (cycleValue (s.trk.dataAt c.slot) c.merged spec.use) else none, .setup⟩, ?_, rfl, rfl, rfl, rfl,
      drives_cycleValue s c.slot c.merged spec⟩
    rw [step, bus]
    dsimp only
    rw [if_pos waits, beginCycle_eq next]
    rfl
  · have still : ¬c.waitsFor t = true := fun h => by
      obtain ⟨target, run, report⟩ := (waitsFor_iff c t).mp h
      obtain h | h | h := other
      · exact h target
      · exact h run
      · exact h report
    rw [step, bus]
    exact if_neg still

/-- Settles O4. -/
theorem evaluationsAtStartUpAndExtreq : Obligations.EvaluationsAtStartUpAndExtreq := by
  intro s n samples again
  refine ⟨fun boot => ?_, fun enough low => ?_, fun few => ⟨?_, ?_⟩⟩
  · change execTableInitializationComplete s = _
    rw [execTableInitializationComplete, boot]
  · exact if_pos ⟨enough, low⟩
  · exact if_neg fun h => absurd h.1 (Nat.not_le.mpr few)
  · exact if_neg fun h => absurd h.1 (Nat.not_le.mpr few)

/-- Settles O28. -/
theorem lendingOverruns : Obligations.LendingOverruns := by
  intro s lent small
  have byte : s.pbe.lendLimit < 256 := by omega
  have due := overrunDue_iff (p := s.pbe) rfl byte
  refine ⟨fun n mark limit timer reached => ?_, fun n timer short => ?_, fun none => ?_⟩
  · exact if_pos (due.mpr ⟨lent, mark, limit, n, timer, reached⟩)
  · refine if_neg fun h => ?_
    obtain ⟨-, -, -, m, hm, reached⟩ := due.mp h
    rw [timer] at hm
    cases hm
    omega
  · refine if_neg fun h => ?_
    obtain ⟨-, mark, limit, -⟩ := due.mp h
    obtain set | zero := none
    · rw [set] at mark; cases mark
    · exact limit zero

/-- Settles O27. -/
theorem busReturnsFromLending : Obligations.BusReturnsFromLending := by
  intro s samples enough high
  have taken : Config.samplesToTake ≤ samples.withdrawn ∧ s.pins.extreq = true := ⟨enough, high⟩
  refine ⟨fun lent => ?_, fun busy => ?_⟩
  · refine ⟨((s.withExtreq false).returnBus).withExtreq (decide (2 ≤ samples.again)), ?_, rfl,
      fun t => tabulate_get _ t, rfl, fun again running => ?_⟩
    · change execExtreqWithdrawn samples s = _
      rw [execExtreqWithdrawn, if_pos taken]
      dsimp only
      rw [lent]
    · rw [arbitrate_grants (s := ((s.withExtreq false).returnBus).withExtreq (decide (2 ≤ samples.again))) running rfl
        (decide_eq_true again)]
      rfl
  · change execExtreqWithdrawn samples s = _
    rw [execExtreqWithdrawn, if_pos taken]
    cases bus : s.pbe.bus with
    | lent => exact absurd bus busy
    | idle => rfl
    | segment c => rfl

end Sys2Proof.Machine

/-! The byte cycles of a unit (R3, R70 to R75), and the segments of a transfer (R69, R77 to R80). -/

namespace Sys2Proof.Machine

/-! ## The byte cycles of a unit -/

section
variable {x : Transfer}

theorem unit_of_mem {u : Nat} (h : (x.snapshot.unit, u) ∈ [(UnitSize.one, 1), (.two, 2), (.four, 4)]) : x.unit = u := by
  simp only [List.mem_cons, Prod.mk.injEq, List.not_mem_nil, or_false] at h
  obtain ⟨h, rfl⟩ | ⟨h, rfl⟩ | ⟨h, rfl⟩ := h
  all_goals
    rw [Transfer.unit, h]
    rfl

theorem unitAddresses_ascending (h : x.snapshot.lane = .ascending) (k : Nat) :
    x.unitAddresses k = (List.range x.unit).map fun j => k * x.unit + j := by
  rw [Transfer.unitAddresses, h]
  exact List.range'_eq_map_range

theorem unitAddresses_descending (h : x.snapshot.lane = .descending) (k : Nat) :
    x.unitAddresses k = (List.range x.unit).map fun j => k * x.unit + (x.unit - 1 - j) := by
  rw [Transfer.unitAddresses, h]
  refine List.reverse_range'.trans (List.map_congr_left fun j hj => ?_)
  have := List.mem_range.mp hj
  omega

theorem requests_eq (x : Transfer) (a : Nat) :
    x.requests a = decide (x.address.toNat ≤ a ∧ a < x.address.toNat + x.length) := (Bool.decide_and _ _).symm

/-- The target address of a byte, by mode (R3, R70). -/
theorem targetAddress_toNat {p : Profile} {target : Bool → Nat → Nat}
    (h : ∀ isWrite a,
      (p.mode = .linear → target isWrite a = (p.targetBase.toNat + (a - p.base.toNat)) % 65536) ∧
      (p.mode = .port → target isWrite a = p.readPort.toNat) ∧
      (p.mode = .splitPort → target isWrite a = if isWrite then p.writePort.toNat else p.readPort.toNat))
    (isWrite : Bool) (a : Nat) : (p.targetAddress isWrite a).toNat = target isWrite a := by
  obtain ⟨linear, port, splitPort⟩ := h isWrite a
  unfold Profile.targetAddress
  cases hm : p.mode with
  | linear => rw [linear hm]; simp [BitVec.toNat_add]
  | port => rw [port hm]
  | splitPort => rw [splitPort hm]; cases isWrite <;> rfl

theorem unitAddresses_ne_nil (k : Nat) : x.unitAddresses k ≠ [] := by
  have positive : x.unit ≠ 0 := by
    unfold Transfer.unit UnitSize.bytes
    cases x.snapshot.unit <;> decide
  unfold Transfer.unitAddresses
  cases x.snapshot.lane <;> simpa using positive

theorem markUnitEnd_kept (n : Nat) :
    ∀ l : List CycleSpec,
      (markUnitEnd n l).map (fun c => (c.write, c.addr.toNat, c.use)) = l.map fun c => (c.write, c.addr.toNat, c.use)
  | [] => rfl
  | [c] => rfl
  | c :: d :: l => by
    rw [markUnitEnd, List.map_cons, markUnitEnd_kept n (d :: l)]
    rfl

/-- The mark stands at the last cycle. -/
theorem markUnitEnd_marks (n : Nat) :
    ∀ l : List CycleSpec, l ≠ [] → (∀ c ∈ l, c.unitEnd = none) →
      (markUnitEnd n l).map (fun c => c.unitEnd) = List.replicate ((markUnitEnd n l).length - 1) none ++ [some n]
  | [], h, _ => absurd rfl h
  | [c], _, _ => rfl
  | c :: d :: l, _, unmarked => by
    have later := markUnitEnd_marks n (d :: l) (List.cons_ne_nil _ _) fun e he => unmarked e (List.mem_cons_of_mem _ he)
    have length : 1 ≤ (markUnitEnd n (d :: l)).length := by cases l <;> simp [markUnitEnd]
    rw [markUnitEnd, List.map_cons, later, unmarked c List.mem_cons_self, List.length_cons, Nat.add_sub_cancel,
      ← List.cons_append, ← List.replicate_succ, Nat.sub_add_cancel length]

/-- The cycles of a unit before its last one is marked. -/
def Transfer.unmarkedCycles (x : Transfer) (k : Nat) : List CycleSpec :=
  if x.kind = .read then x.readCycles k else x.mergeReads k ++ x.writeCycles k

theorem unitCycles_eq (x : Transfer) (k : Nat) :
    x.unitCycles k = markUnitEnd (x.requestedBytes k) (x.unmarkedCycles k) := by
  unfold Transfer.unitCycles Transfer.unmarkedCycles
  cases x.kind <;> rfl

theorem unmarkedCycles_ne_nil (x : Transfer) (k : Nat) : x.unmarkedCycles k ≠ [] := by
  unfold Transfer.unmarkedCycles
  split
  · simpa [Transfer.readCycles] using unitAddresses_ne_nil k
  · simp [Transfer.writeCycles, unitAddresses_ne_nil k]

theorem unmarkedCycles_unmarked (x : Transfer) (k : Nat) : ∀ c ∈ x.unmarkedCycles k, c.unitEnd = none := by
  intro c hc
  unfold Transfer.unmarkedCycles at hc
  split at hc
  · obtain ⟨a, -, rfl⟩ := List.mem_map.mp hc
    rfl
  · obtain hc | hc := List.mem_append.mp hc
    all_goals
      obtain ⟨a, -, rfl⟩ := List.mem_map.mp hc
      rfl

end

/-- Settles O21. -/
theorem unitRunsItsCycles : Obligations.UnitRunsItsCycles := by
  intro x k u addresses target use hunit ascending descending htarget huse
  obtain rfl := unit_of_mem hunit
  have haddresses : x.unitAddresses k = addresses := by
    cases lane : x.snapshot.lane with
    | ascending => rw [unitAddresses_ascending lane, ascending lane]
    | descending => rw [unitAddresses_descending lane, descending lane]
  have addr := targetAddress_toNat htarget
  have requested (other : ByteUse) (a : Nat) :
      (if x.requests a then ByteUse.request (a - x.first) else other) = use other a := by
    rw [huse, requests_eq]
    simp only [decide_eq_true_eq]
    rfl
  refine ⟨fun read => ?_, fun write => ?_, ?_⟩
  · rw [unitCycles_eq, markUnitEnd_kept, Transfer.unmarkedCycles, if_pos read, Transfer.readCycles, haddresses, List.map_map]
    exact List.map_congr_left fun a _ => by
      simp only [Function.comp_apply, Transfer.cycle, addr, requested]
  · have merged : (addresses.filter fun a => !x.requests a) =
        addresses.filter fun a => decide (a < x.address.toNat ∨ x.address.toNat + x.length ≤ a) := by
      refine List.filter_congr fun a _ => ?_
      rw [requests_eq, ← decide_not]
      exact decide_eq_decide.mpr (by omega)
    rw [unitCycles_eq, markUnitEnd_kept, Transfer.unmarkedCycles, if_neg write, Transfer.mergeReads, Transfer.writeCycles,
      haddresses, List.map_append, List.map_map, List.map_map, merged]
    refine congrArg₂ _ (List.map_congr_left fun a _ => ?_) (List.map_congr_left fun a _ => ?_)
    · simp only [Function.comp_apply, Transfer.cycle, addr]
    · simp only [Function.comp_apply, Transfer.cycle, addr, requested]
  · rw [unitCycles_eq, markUnitEnd_marks _ _ (unmarkedCycles_ne_nil x k) (unmarkedCycles_unmarked x k),
      Transfer.requestedBytes, haddresses]
    simp only [funext (requests_eq x)]

/-! ## The segments of a transfer -/

section
variable {x : Transfer}

theorem unit_pos (x : Transfer) : 1 ≤ x.unit := by
  unfold Transfer.unit UnitSize.bytes
  cases x.snapshot.unit <;> decide

/-- How many of `n` addresses from `a` on are requested. -/
theorem requests_range' (x : Transfer) (a : Nat) :
    ∀ n : Nat, ((List.range' a n).filter x.requests).length = min (a + n) (x.first + x.length) - max a x.first
  | 0 => by
    rw [List.range'_zero, List.filter_nil, List.length_nil]
    omega
  | n + 1 => by
    have first : x.address.toNat = x.first := rfl
    rw [List.range'_1_concat, List.filter_append, List.length_append, requests_range' x a n, List.filter_singleton,
      requests_eq, first]
    by_cases h : x.first ≤ a + n ∧ a + n < x.first + x.length
    · rw [decide_eq_true h, cond_true, List.length_singleton]
      omega
    · rw [decide_eq_false h, cond_false, List.length_nil]
      omega

theorem requestedBytes_eq (x : Transfer) (k : Nat) :
    x.requestedBytes k = ((List.range' (k * x.unit) x.unit).filter x.requests).length := by
  unfold Transfer.requestedBytes Transfer.unitAddresses
  cases x.snapshot.lane with
  | ascending => rfl
  | descending => simp only [List.filter_reverse, List.length_reverse]

/-- The requested bytes of `m` units in a row. -/
theorem sum_requestedBytes (x : Transfer) (k : Nat) :
    ∀ m : Nat,
      ((List.range' k m).map x.requestedBytes).sum = ((List.range' (k * x.unit) (m * x.unit)).filter x.requests).length
  | 0 => by simp
  | m + 1 => by
    rw [List.range'_1_concat, List.map_append, List.sum_append, sum_requestedBytes x k m, List.map_singleton,
      List.sum_singleton, requestedBytes_eq, Nat.add_mul, Nat.succ_mul, ← List.range'_append_1, List.filter_append,
      List.length_append]

theorem takeWhile_prefix_of_cons {α : Type} {p : α → Bool} {a : α} {l : List α} (h : p a = true) :
    ∃ later, a :: l = (a :: l).takeWhile p ++ later ∧ (a :: l).takeWhile p ≠ [] :=
  ⟨_, (List.takeWhile_append_dropWhile ..).symm, by rw [List.takeWhile_cons_of_pos h]; exact List.cons_ne_nil _ _⟩

/-- A segment's units are the next ones, and it has at least one. -/
theorem segmentUnits_initial (x : Transfer) (limit : Nat) (unfinished : x.progress < x.length) :
    ∃ later, x.unitsLeft = x.segmentUnits limit ++ later ∧ x.segmentUnits limit ≠ [] := by
  obtain ⟨younger, left⟩ := unitsLeft_eq_cons unfinished
  have toCut (m : Nat) : ∃ later, x.unitsLeft = x.unitsToCut m ++ later ∧ x.unitsToCut m ≠ [] := by
    unfold Transfer.unitsToCut
    split
    · rw [left]
      exact ⟨younger, rfl, List.cons_ne_nil _ _⟩
    · next k ks h =>
      rw [← h]
      exact ⟨_, (List.takeWhile_append_dropWhile ..).symm, by rw [h]; exact List.cons_ne_nil _ _⟩
  have inBlock (ab : Nat) : ∃ later, x.unitsLeft = x.unitsInBlock ab ++ later ∧ x.unitsInBlock ab ≠ [] := by
    unfold Transfer.unitsInBlock
    rw [left]
    exact takeWhile_prefix_of_cons (decide_eq_true rfl)
  by_cases hab : x.snapshot.ab = .none
  · rw [segmentUnits_of_ab_none hab]
    exact toCut limit
  · by_cases hmode : x.snapshot.mode = .linear
    · rw [segmentUnits_of_linear hab hmode]
      exact inBlock _
    · rw [segmentUnits_of_port hab hmode]
      exact toCut _

/-- The progress after `m` units from the one at the progress on: at the end of the last one, or at the end of the
transfer. -/
theorem progress_after_units (unfinished : x.progress < x.length)
    (aligned : x.progress = 0 ∨ (x.first + x.progress) % x.unit = 0) {m : Nat} (some : 1 ≤ m) :
    x.first + (x.progress + ((List.range' ((x.first + x.progress) / x.unit) m).map x.requestedBytes).sum) =
      min (((x.first + x.progress) / x.unit + m) * x.unit) (x.first + x.length) := by
  set k := (x.first + x.progress) / x.unit with hk
  have unit := unit_pos x
  have position := Nat.div_add_mod (x.first + x.progress) x.unit
  have below := Nat.mod_lt (x.first + x.progress) unit
  rw [← hk, Nat.mul_comm] at position
  have more : 1 * x.unit ≤ m * x.unit := Nat.mul_le_mul_right _ some
  have start : max (k * x.unit) x.first = x.first + x.progress := by omega
  rw [sum_requestedBytes, requests_range', start, Nat.add_mul]
  omega

end

/-- Settles O22. -/
theorem segmentsCoverTransfer : Obligations.SegmentsCoverTransfer := by
  intro x limit _ unfinished aligned
  obtain ⟨later, left, nonempty⟩ := segmentUnits_initial x limit unfinished
  obtain ⟨m, hm, units, hlater⟩ := List.range'_eq_append_iff.mp left
  rw [Nat.mul_one] at hlater
  have positive : 1 ≤ m := by
    refine Nat.one_le_iff_ne_zero.mpr fun h => nonempty ?_
    rw [units, h]
    rfl
  have after := progress_after_units unfinished aligned positive
  rw [← units] at after
  set k := (x.first + x.progress) / x.unit
  set p := x.progress + ((x.segmentUnits limit).map x.requestedBytes).sum with hp
  have unit := unit_pos x
  have last : x.last + 1 = x.first + x.length := by
    unfold Transfer.last Transfer.first
    omega
  have lastUnit : x.last < (x.last / x.unit + 1) * x.unit := Nat.lt_mul_of_div_lt (Nat.lt_succ_self (x.last / x.unit)) unit
  refine ⟨_, later, rfl, left, nonempty, by omega, fun done => ?_, fun more => ?_⟩
  · have all : k + m = x.last / x.unit + 1 := by
      have := List.range'_eq_nil_iff.mp (hlater.symm.trans done)
      omega
    rw [all] at after
    omega
  · have rest : k + m ≤ x.last / x.unit := by
      have : x.last / x.unit + 1 - k - m ≠ 0 := fun h => more (by rw [hlater, h]; rfl)
      omega
    have inside : (k + m) * x.unit ≤ x.last :=
      (Nat.mul_le_mul_right _ rest).trans (Nat.div_mul_le_self _ _)
    have position : x.first + p = (k + m) * x.unit := by omega
    refine ⟨by rw [position]; exact Nat.mul_mod_left _ _, ?_⟩
    have unitAt : (x.first + p) / x.unit = k + m := by rw [position]; exact Nat.mul_div_cancel _ unit
    change List.range' ((x.first + p) / x.unit) (x.last / x.unit + 1 - (x.first + p) / x.unit) = later
    rw [unitAt, hlater, Nat.sub_sub]

end Sys2Proof.Machine

/-! Writes to management space (R124, R147, R148, R153, R154), and what takes the mailbox from its owner (R158, R159). -/

namespace Sys2Proof.Machine

section
variable {s : State} {r : Request} {rest : List Request}

/-! ## SUBMIT (R154) -/

theorem headFor_submit (head : HeadForManagement s r rest) (write : r.IsManagementWrite 0x044 4) :
    s.headFor .submit = some r :=
  (accepted_write .submit head write (by decide) (by decide) rfl rfl).2

theorem exec_submit_not_owner (head : s.headFor .submit = some r) (owner : s.mgb.mailbox.owner ≠ some r.initiator) :
    exec .submit s = .next (s.answerAccess (r.refusedWith .notOwner)) := by
  change execSubmit s = _
  rw [execSubmit, head]
  cases hm : s.mgb.mailbox with
  | free => rfl
  | claimed i | result i | busy i _ =>
    have hi : i ≠ r.initiator := by simpa only [hm, Mailbox.owner, ne_eq, Option.some.injEq] using owner
    simp only [hi, ne_eq, not_false_eq_true, if_true, if_false]

theorem exec_submit_owner_busy {mark : Bool} (head : s.headFor .submit = some r)
    (owned : s.mgb.mailbox = .busy r.initiator mark ∨ s.mgb.mailbox = .result r.initiator) :
    exec .submit s = .next (s.answerAccess (r.refusedWith .mbxState)) := by
  change execSubmit s = _
  rw [execSubmit, head]
  obtain hm | hm := owned <;> simp only [hm, if_true]

theorem exec_submit_claimed (head : s.headFor .submit = some r) (claimed : s.mgb.mailbox = .claimed r.initiator) :
    exec .submit s =
      if leNat r.payload < 4 ∨ 512 < leNat r.payload then .next (s.answerAccess (r.refusedWith .format))
      else
        .next
          { s.answerWith { s.mgb with mailbox := .busy r.initiator false, leaseTimer := none, resultBuffer := [] } r.writeOk with
            cfx := some (Executor.started (leNat r.payload)) } := by
  change execSubmit s = _
  rw [execSubmit, head]
  simp only [claimed, ne_eq, not_true_eq_false, if_false]

end

/-- Settles O36. -/
theorem submitIsDecided : Obligations.SubmitIsDecided := by
  intro s r rest head write
  have hhead := headFor_submit head write
  have ⟨_, _, length, _⟩ := write
  refine ⟨fun other => ?_, fun mark owned => ?_, fun claimed bad => ?_, fun claimed low high => ?_⟩
  · rw [exec_submit_not_owner hhead other, answerAccess_eq head.1, refusedWith_eq_answer]
  · rw [exec_submit_owner_busy hhead owned, answerAccess_eq head.1, refusedWith_eq_answer]
  · rw [exec_submit_claimed hhead claimed, if_pos bad, answerAccess_eq head.1, refusedWith_eq_answer]
  · rw [exec_submit_claimed hhead claimed, if_neg (by omega), answerWith_eq head.1, writeOk_eq_answer length]
    rfl

/-! ## The mailbox taken back (R158, R159) -/

section
variable {s : State}

theorem exec_mgbLinkReset (reset : s.handed.mgbResets ≠ 0) :
    exec .mgbLinkReset s =
      .next { s with mgb := s.mgb.released, handed := { s.handed with mgbResets := s.handed.mgbResets - 1 } } :=
  if_neg reset

theorem exec_mgbDetach {i : Initiator} {rest : List Initiator} (first : s.handed.mgbDetaches = i :: rest) :
    exec (.mgbDetach i) s =
      .next
        { s with
          mgb := if s.mgb.mailbox.owner = some i then s.mgb.released else s.mgb
          handed := { s.handed with mgbDetaches := rest } } := by
  change execMgbDetach i s = _
  rw [execMgbDetach, first, if_pos List.mem_cons_self, List.erase_cons_head]

theorem owner_of_leased {m : Mailbox} {i : Initiator} (h : m = .claimed i ∨ m = .result i) : m.owner = some i := by
  obtain rfl | rfl := h <;> rfl

theorem released_of_leased {m : Management} {i : Initiator} (h : m.mailbox = .claimed i ∨ m.mailbox = .result i) :
    m.released = { m with mailbox := .free, leaseTimer := none } := by
  unfold Management.released
  obtain h | h := h
  all_goals
    rw [h]
    rfl

theorem released_of_busy {m : Management} {i : Initiator} {mark : Bool} (h : m.mailbox = .busy i mark) :
    m.released = { m with mailbox := .busy i true } := by
  rw [Management.released, h]

theorem exec_leaseExpiry {i : Initiator} (leased : s.mgb.mailbox = .claimed i ∨ s.mgb.mailbox = .result i)
    (running : s.mgb.leaseTimer ≠ none) :
    exec .leaseExpiry s =
      .next { s with mgb := { s.mgb.freed with lostLast := some i, lostCount := saturate255 s.mgb.lostCount } } := by
  change execLeaseExpiry s = _
  rw [execLeaseExpiry, if_neg running]
  obtain h | h := leased <;> rw [h]

end

/-- Settles O40. -/
theorem mailboxIsTakenBack : Obligations.MailboxIsTakenBack := by
  intro s i
  refine ⟨fun leased => ⟨fun n timer => ?_, fun reset => ?_, fun rest first => ?_⟩,
    fun mark busy => ⟨fun reset => ?_, fun rest first => ?_⟩, fun j rest other first => ?_⟩
  · rw [exec_leaseExpiry leased (by rw [timer]; exact Option.some_ne_none n)]
    rfl
  · rw [exec_mgbLinkReset reset, released_of_leased leased]
  · rw [exec_mgbDetach first, if_pos (owner_of_leased leased), released_of_leased leased]
  · rw [exec_mgbLinkReset reset, released_of_busy busy]
  · rw [exec_mgbDetach first, if_pos (by rw [busy]; rfl), released_of_busy busy]
  · rw [exec_mgbDetach first, if_neg other]

/-- Settles O43. -/
theorem shadowIsFormed : Obligations.ShadowIsFormed := by
  intro s x executing staging unfinished unformed
  change execShadowFormation s = _
  rw [execShadowFormation, executing]
  exact if_pos ⟨staging, unfinished, unformed⟩

/-! ## The form of an access (R147, R148) -/

section
variable {s : State} {r : Request} {rest : List Request}

theorem placeAt_none_iff (o : Nat) : placeAt o = none ↔ ¬MappedOffset o := by
  unfold placeAt
  split_ifs <;> simp [MappedOffset] <;> omega

/-- Where each location lies (the table of R147). -/
theorem placeAt_range {o : Nat} {place : Place} (h : placeAt o = some place) :
    match place with
    | .statusRegion => o < 0x040
    | .claim => 0x040 ≤ o ∧ o < 0x044
    | .submit => 0x044 ≤ o ∧ o < 0x048
    | .release => 0x048 ≤ o ∧ o < 0x04C
    | .mailboxState => 0x04C ≤ o ∧ o < 0x050
    | .noticeAck => 0x050 ≤ o ∧ o < 0x054
    | .requestBuffer => 0x100 ≤ o ∧ o < 0x300
    | .resultBuffer => 0x300 ≤ o ∧ o < 0x500 := by
  unfold placeAt at h
  split_ifs at h <;> cases h <;> simp only <;> omega

theorem placeAt_requestBuffer {o : Nat} (low : 0x100 ≤ o) (high : o < 0x300) : placeAt o = some .requestBuffer := by
  unfold placeAt
  iterate 7 rw [if_neg (by omega)]
  rw [if_pos high]

theorem placeAt_resultBuffer {o : Nat} (low : 0x300 ≤ o) (high : o < 0x500) : placeAt o = some .resultBuffer := by
  unfold placeAt
  iterate 8 rw [if_neg (by omega)]
  rw [if_pos high]

theorem acceptedForm_write {o n : Nat} {place : Place} (h : placeAt o = some place)
    (accepted : acceptedForm place false o n = true) : WriteAccepted o n := by
  have range := placeAt_range h
  cases place <;> simp [acceptedForm] at accepted range ⊢ <;> omega

theorem acceptedForm_read {o n : Nat} {place : Place} (h : placeAt o = some place)
    (accepted : acceptedForm place true o n = true) : ReadAccepted o n := by
  have range := placeAt_range h
  cases place <;> simp [acceptedForm] at accepted range ⊢ <;> omega

theorem accessForm_miss {o : Nat} (offset : r.offset = o) (unmapped : ¬MappedOffset o) : accessForm r = .miss := by
  rw [accessForm, offset, (placeAt_none_iff o).mpr unmapped]

/-- An access of a mapped offset whose form is not accepted is of a wrong form. -/
theorem accessForm_format {o : Nat} (offset : r.offset = o) (mapped : MappedOffset o)
    (refused : r.fieldsAgree = false ∨
      ∀ place, placeAt o = some place → acceptedForm place (decide (r.kind = .read)) o r.length = false) :
    accessForm r = .format := by
  obtain ⟨place, hplace⟩ := Option.ne_none_iff_exists'.mp fun h => (placeAt_none_iff o).mp h mapped
  rw [accessForm, offset, hplace, consistent_eq_fieldsAgree]
  dsimp only
  obtain disagree | wrong := refused
  · rw [disagree]; rfl
  · rw [wrong place hplace, if_neg Bool.false_ne_true, ite_self]

theorem HeadForManagement.headFor {c : HeadClass} (h : HeadForManagement s r rest) (management : c.isTracker = false)
    (hc : headClass r = c) : s.headFor c = some r :=
  headFor_eq h.1 hc ((canTake_management management).mpr h.2)

/-- A WRITE that no location accepts is refused by its form (R148). -/
theorem exec_managementWrite {st : Status} (head : HeadForManagement s r rest) (write : r.kind = .write)
    (management : r.inManagement = true) (form : accessForm r = .miss ∧ st = .miss ∨ accessForm r = .format ∧ st = .format) :
    exec .managementWrite s = .next (s.managementAnswered rest (r.answer st 0 .nothing)) := by
  change execManagementWrite s = _
  obtain ⟨form, rfl⟩ | ⟨form, rfl⟩ := form
  all_goals
    rw [execManagementWrite, head.headFor (c := .managementWrite) rfl (by rw [headClass, write, management, form]; rfl)]
    dsimp only
    rw [form]
    exact congrArg _ (answerAccess_eq head.1 _)

/-! ## The request buffer (R153) -/

theorem headFor_requestBufferWrite {o n : Nat} (head : HeadForManagement s r rest)
    (write : r.IsManagementWrite (0x100 + o) n) (low : 1 ≤ n) (high : n ≤ 64) (inside : o + n ≤ 512) :
    s.headFor .requestBufferWrite = some r := by
  exact (accepted_write .requestBuffer head write low high (placeAt_requestBuffer (by omega) (by omega))
    (decide_eq_true (by omega))).2

theorem exec_requestBufferWrite_owner (head : s.headFor .requestBufferWrite = some r)
    (claimed : s.mgb.mailbox = .claimed r.initiator) :
    exec .requestBufferWrite s =
      .next
        (s.answerWith { s.mgb with requestBuffer := writeBytes s.mgb.requestBuffer (r.offset - 0x100) r.payload }
          r.writeOk) := by
  change execRequestBufferWrite s = _
  rw [execRequestBufferWrite, head]
  simp only [claimed, if_true]

theorem exec_requestBufferWrite_not_owner (head : s.headFor .requestBufferWrite = some r)
    (owner : s.mgb.mailbox.owner ≠ some r.initiator) :
    exec .requestBufferWrite s = .next (s.answerAccess (r.refusedWith .notOwner)) := by
  change execRequestBufferWrite s = _
  rw [execRequestBufferWrite, head]
  cases hm : s.mgb.mailbox with
  | free => rfl
  | claimed i | result i | busy i _ =>
    have hi : i ≠ r.initiator := by simpa only [hm, Mailbox.owner, ne_eq, Option.some.injEq] using owner
    simp only [hi, if_false]

theorem exec_requestBufferWrite_busy {mark : Bool} (head : s.headFor .requestBufferWrite = some r)
    (owned : s.mgb.mailbox = .busy r.initiator mark ∨ s.mgb.mailbox = .result r.initiator) :
    exec .requestBufferWrite s = .next (s.answerAccess (r.refusedWith .mbxState)) := by
  change execRequestBufferWrite s = _
  rw [execRequestBufferWrite, head]
  obtain hm | hm := owned <;> simp only [hm, if_true]

theorem exec_managementPostedWrite (head : HeadForManagement s r rest) (posted : r.kind = .posted)
    (management : r.inManagement = true) :
    exec .managementPostedWrite s =
      .next
        { s with
          hlp := { s.hlp with receive := rest }
          trk :=
            { s.trk with
              faults := s.trk.faults.set r.initiator (some (takeFault s.trk.faults[r.initiator] .format r.address 0)) }
          handed := { s.handed with events := s.handed.events ++ [.postedFault r.initiator] } } := by
  change execManagementPostedWrite s = _
  rw [execManagementPostedWrite,
    head.headFor (c := .managementPostedWrite) rfl (by rw [headClass, posted, management]; rfl), popHead_eq head.1]
  rfl

end

/-- Settles O38. -/
theorem managementWrites : Obligations.ManagementWrites := by
  refine ⟨fun s r rest o n buffers head write low high inside => ?buffer, fun s r rest head management => ?forms⟩
  case buffer =>
    have hhead := headFor_requestBufferWrite head write low high inside
    have ⟨_, address, length, payload⟩ := write
    obtain ⟨offset, -⟩ := offset_eq address
    refine ⟨fun claimed => ⟨_, exec_requestBufferWrite_owner hhead claimed, ?_, fun a => ?_⟩, fun other => ?_,
      fun mark owned => ?_⟩
    · rw [answerWith_eq head.1, writeOk_eq_answer length]
    · change readByte (writeBytes s.mgb.requestBuffer (r.offset - 0x100) r.payload) a = _
      rw [offset, Nat.add_sub_cancel_left, readByte_writeBytes (by rw [payload]; exact inside) buffers.1, payload]
    · rw [exec_requestBufferWrite_not_owner hhead other, answerAccess_eq head.1, refusedWith_eq_answer]
    · rw [exec_requestBufferWrite_busy hhead owned, answerAccess_eq head.1, refusedWith_eq_answer]
  case forms =>
    obtain ⟨p, hp⟩ := Nat.exists_eq_add_of_le management
    obtain ⟨offset, inside⟩ := offset_eq hp
    have wrong : r.kind = .write → MappedOffset p → (r.fieldsAgree = false ∨ ¬WriteAccepted p r.length) →
        exec .managementWrite s = .next (s.managementAnswered rest (r.answer .format 0 .nothing)) := by
      intro write mapped refused
      refine exec_managementWrite head write inside (.inr ⟨accessForm_format offset mapped ?_, rfl⟩)
      refine refused.imp_right fun h place hplace => ?_
      rw [write]
      exact Bool.eq_false_iff.mpr fun accepted => h (acceptedForm_write hplace accepted)
    refine ⟨fun posted => ⟨takeFault s.trk.faults[r.initiator] .format r.address 0, ?_, fun none => ?_, fun g some => ?_⟩,
      fun write unmapped => ?_, fun write elsewhere => wrong write (by omega) ?_, fun o write address mapped refused => ?_⟩
    · exact exec_managementPostedWrite head posted inside
    · rw [none]; rfl
    · rw [some]; rfl
    · exact exec_managementWrite head write inside (.inl ⟨accessForm_miss offset (by omega), rfl⟩)
    · by_cases agree : r.fieldsAgree = true
      · simp only [Request.fieldsAgree, write, decide_eq_true_eq] at agree
        right
        omega
      · exact .inl (Bool.eq_false_iff.mpr agree)
    · obtain rfl : o = p := by omega
      exact wrong write mapped refused

end Sys2Proof.Machine

/-! MANAGEMENT_READ (R148, R149, R151, R153, R186): the status region, the mailbox state and the two buffers. -/

namespace Sys2Proof.Machine

/-! ## The status region (R149, R186) -/

section
variable (s : State)

/-- The first 18 bytes of the status region; behind them stand the reserved bytes and the checksum. -/
def State.statusHead (s : State) : List Byte :=
  [1, BitVec.ofNat 8 s.flagsByte, BitVec.ofNat 8 (gateCode s.trk.gate), BitVec.ofNat 8 (mailboxCode s.mgb.mailbox),
    BitVec.ofNat 8 (initiatorCode s.mgb.mailbox.owner), BitVec.ofNat 8 (initiatorCode s.mgb.lostLast),
    BitVec.ofNat 8 s.mgb.lostCount, BitVec.ofNat 8 s.hlp.dropped, BitVec.ofNat 8 s.mgb.commitCount,
    BitVec.ofNat 8 (s.mgb.commitCount / 256)] ++
    (List.finRange 4).map (fun k => BitVec.ofNat 8 (s.targetStatesByte k)) ++
    (List.finRange 4).map fun i => BitVec.ofNat 8 (s.trk.entriesOf i).length

theorem statusRegion_eq : s.statusRegion = s.statusHead ++ (List.replicate 45 0 ++ [checksum s.statusFields]) := by
  rw [← List.append_assoc]
  rfl

theorem statusHead_length : s.statusHead.length = 18 := rfl

theorem statusRegion_length : s.statusRegion.length = 64 := rfl

/-- The bytes of the status region from 00h to 09h. -/
theorem statusRegion_fields :
    s.statusRegion[(0 : Nat)]? = some 1 ∧ s.statusRegion[(1 : Nat)]? = some (BitVec.ofNat 8 s.flagsByte) ∧
      s.statusRegion[(2 : Nat)]? = some (BitVec.ofNat 8 (gateCode s.trk.gate)) ∧
      s.statusRegion[(3 : Nat)]? = some (BitVec.ofNat 8 (mailboxCode s.mgb.mailbox)) ∧
      s.statusRegion[(4 : Nat)]? = some (BitVec.ofNat 8 (initiatorCode s.mgb.mailbox.owner)) ∧
      s.statusRegion[(5 : Nat)]? = some (BitVec.ofNat 8 (initiatorCode s.mgb.lostLast)) ∧
      s.statusRegion[(6 : Nat)]? = some (BitVec.ofNat 8 s.mgb.lostCount) ∧
      s.statusRegion[(7 : Nat)]? = some (BitVec.ofNat 8 s.hlp.dropped) ∧
      s.statusRegion[(8 : Nat)]? = some (BitVec.ofNat 8 s.mgb.commitCount) ∧
      s.statusRegion[(9 : Nat)]? = some (BitVec.ofNat 8 (s.mgb.commitCount / 256)) := by
  refine ⟨rfl, rfl, rfl, rfl, rfl, rfl, rfl, rfl, rfl, rfl⟩

theorem statusRegion_reserved {k : Nat} (low : 18 ≤ k) (high : k < 63) : s.statusRegion[k]? = some 0 := by
  have inReserved : k - 18 < (List.replicate 45 (0 : Byte)).length := by rw [List.length_replicate]; omega
  rw [statusRegion_eq, List.getElem?_append_right low, statusHead_length, List.getElem?_append_left inReserved,
    List.getElem?_replicate, if_pos (by omega)]

theorem targetsHealthy_iff :
    s.targetsHealthy = true ↔ ∀ t : TargetId, s.tgt[t].state ≠ .suspect ∧ s.tgt[t].state ≠ .offline := by
  simp only [State.targetsHealthy, List.all_eq_true, List.mem_finRange, true_implies]
  refine forall_congr' fun t => ?_
  cases s.tgt[t].state <;> simp [TargetState.unhealthy]

theorem flagsByte_eq :
    BitVec.ofNat 8 s.flagsByte =
      (if s.mgb.configLoaded then 1 else 0) +
        (if ∀ t : TargetId, s.tgt[t].state ≠ .suspect ∧ s.tgt[t].state ≠ .offline then 2 else 0) +
        (if s.pbe.bus = .lent then 4 else 0) + (if s.pbe.lendOverrun then 8 else 0) := by
  rw [if_congr (targetsHealthy_iff s).symm rfl rfl, if_congr (decide_eq_true_iff (p := s.pbe.bus = .lent)).symm rfl rfl]
  unfold State.flagsByte State.busLent
  cases s.mgb.configLoaded <;> cases s.targetsHealthy <;> cases decide (s.pbe.bus = .lent) <;>
    cases s.pbe.lendOverrun <;> rfl

theorem targetStateCode_lt (st : TargetState) : targetStateCode st < 4 := by
  cases st <;> decide

/-- Four codes of two bits in a byte: each is found at its place. -/
theorem twoBits_of_byte {c : Fin 4 → Nat} (small : ∀ j, c j < 4) (j : Fin 4) :
    (BitVec.ofNat 8 ((List.finRange 4).foldl (fun acc j => acc + c j * 4 ^ j.val) 0)).toNat / 4 ^ j.val % 4 = c j := by
  have h0 := small 0
  have h1 := small 1
  have h2 := small 2
  have h3 := small 3
  have spelled : (List.finRange 4).foldl (fun acc j => acc + c j * 4 ^ j.val) 0 = c 0 + c 1 * 4 + c 2 * 16 + c 3 * 64 := by
    change 0 + c 0 * 1 + c 1 * 4 + c 2 * 16 + c 3 * 64 = _
    omega
  rw [spelled, BitVec.toNat_ofNat, Nat.mod_eq_of_lt (a := c 0 + c 1 * 4 + c 2 * 16 + c 3 * 64) (by omega)]
  match j with
  | 0 => change _ / 1 % 4 = _; omega
  | 1 => change _ / 4 % 4 = _; omega
  | 2 => change _ / 16 % 4 = _; omega
  | 3 => change _ / 64 % 4 = _; omega

theorem statusRegion_target (t : TargetId) :
    ∃ b, s.statusRegion[10 + t.val / 4]? = some b ∧ b.toNat / 4 ^ (t.val % 4) % 4 = targetStateCode s.tgt[t].state := by
  have quarter : t.val / 4 < 4 := by omega
  refine ⟨BitVec.ofNat 8 (s.targetStatesByte ⟨t.val / 4, quarter⟩), ?_, ?_⟩
  · match ht : (⟨t.val / 4, quarter⟩ : Fin 4) with
    | 0 | 1 | 2 | 3 => 
      have := congrArg Fin.val ht
      dsimp only at this
      rw [this]
      rfl
  · have found := twoBits_of_byte
      (c := fun j : Fin 4 => targetStateCode s.tgt[(⟨4 * (t.val / 4) + j.val, by omega⟩ : Fin 16)].state)
      (fun j => targetStateCode_lt _) ⟨t.val % 4, by omega⟩
    have same : (⟨4 * (t.val / 4) + t.val % 4, by omega⟩ : Fin 16) = t := Fin.ext (Nat.div_add_mod _ _)
    exact found.trans (congrArg (fun k : TargetId => targetStateCode s.tgt[k].state) same)

theorem statusRegion_entries (i : Initiator) :
    s.statusRegion[14 + i.val]? = some (BitVec.ofNat 8 (s.trk.entriesOf i).length) := by
  match i with
  | 0 | 1 | 2 | 3 => rfl

end

/-- The value of a MAILBOX STATE read (R151). -/
theorem mailboxValue_of_mem {m : Mailbox} {i : Initiator} {state owner mark : Byte}
    (h : (m, state, owner, mark) ∈
      [(Mailbox.free, (0 : Byte), (0xFF : Byte), (0 : Byte)), (.claimed i, 1, BitVec.ofNat 8 i.val, 0),
        (.busy i false, 2, BitVec.ofNat 8 i.val, 0), (.busy i true, 2, BitVec.ofNat 8 i.val, 1),
        (.result i, 3, BitVec.ofNat 8 i.val, 0)]) : mailboxValue m = [state, owner, mark, 0] := by
  simp only [List.mem_cons, Prod.mk.injEq, List.not_mem_nil, or_false] at h
  obtain ⟨rfl, rfl, rfl, rfl⟩ | ⟨rfl, rfl, rfl, rfl⟩ | ⟨rfl, rfl, rfl, rfl⟩ | ⟨rfl, rfl, rfl, rfl⟩ | ⟨rfl, rfl, rfl, rfl⟩ := h
  all_goals rfl

/-! ## Reads -/

section
variable {s : State} {r : Request} {rest : List Request}

/-- A READ of management space is answered from the state, unless it is a CLAIM (R148). -/
theorem exec_managementRead {answer : Response} (head : HeadForManagement s r rest) (read : r.kind = .read)
    (management : r.inManagement = true) (other : accessForm r ≠ .accepted .claim) (answered : s.readAnswer r = answer) :
    exec .managementRead s = .next (s.managementAnswered rest answer) := by
  have hc : headClass r = .managementRead := by
    rw [headClass, read]
    dsimp only
    rw [if_pos management]
    unfold managementReadClass
    split
    · next h => exact absurd h other
    · rfl
  change execManagementRead s = _
  rw [execManagementRead, head.headFor (c := .managementRead) rfl hc]
  dsimp only
  rw [answered, answerAccess_eq head.1]

theorem exec_managementRead_accepted {o n : Nat} {place : Place} {answer : Response} (head : HeadForManagement s r rest)
    (read : r.IsManagementRead o n) (low : 1 ≤ n) (high : n ≤ 64) (hplace : placeAt o = some place)
    (form : acceptedForm place true o n = true) (other : place ≠ .claim)
    (answered : accessForm r = .accepted place → r.offset = o → s.readAnswer r = answer) :
    exec .managementRead s = .next (s.managementAnswered rest answer) := by
  have ⟨kind, address, _, _⟩ := read
  obtain ⟨offset, management⟩ := offset_eq address
  obtain ⟨accepted, -⟩ := accepted_read place head read low high hplace form
  refine exec_managementRead head kind management ?_ (answered accepted offset)
  rw [accepted]
  exact fun h => other (AccessForm.accepted.inj h)

theorem resultBufferAnswer_not_owner {m : Management} {r : Request} (other : m.mailbox.owner ≠ some r.initiator) :
    resultBufferAnswer m r = r.refusedWith .notOwner := by
  rw [resultBufferAnswer]
  cases hm : m.mailbox with
  | free => rfl
  | claimed i | result i | busy i _ =>
    have hi : i ≠ r.initiator := by simpa only [hm, Mailbox.owner, ne_eq, Option.some.injEq] using other
    simp only [hi, if_false]

theorem placeAt_statusRegion {o : Nat} (h : o < 0x040) : placeAt o = some .statusRegion := if_pos h

end

/-- Settles O39. -/
theorem managementSpaceIsRead : Obligations.ManagementSpaceIsRead := by
  intro s r rest o n head
  obtain ⟨version, flags, gate, mailbox, owner, lastLost, lostCount, dropped, commitLow, commitHigh⟩ := statusRegion_fields s
  refine ⟨fun read low high inside => ?status,
    ⟨statusRegion_length s, withChecksum_sum _, version, flags.trans (congrArg some (flagsByte_eq s)),
      fun code hcode => gate.trans ?gate, fun i state owner' hm => ⟨mailbox.trans ?mailbox, owner.trans ?owner⟩,
      fun none => lastLost.trans ?notLost, fun i lost => lastLost.trans ?lost, lostCount, dropped, commitLow, commitHigh,
      fun t code hcode => ?target, statusRegion_entries s, fun k => statusRegion_reserved s⟩,
    fun i state owner mark hm read => ?mailboxState, fun read low high inside owner => ?requestBuffer,
    fun read low high inside result => ?resultBuffer, fun mark read low high inside owned => ?resultEarly,
    fun read low high inside side other => ?notOwner, fun read address unmapped => ?miss,
    fun read address mapped refused => ?format⟩
  case status =>
    have ⟨_, _, length, _⟩ := read
    refine exec_managementRead_accepted head read low high (placeAt_statusRegion (by omega)) (decide_eq_true inside)
      (by decide) fun form offset => ?_
    rw [State.readAnswer, form]
    dsimp only
    rw [offset, readOk_eq_answer length, length]
  case gate =>
    simp only [List.mem_cons, Prod.mk.injEq, List.not_mem_nil, or_false] at hcode
    obtain ⟨h, rfl⟩ | ⟨h, rfl⟩ | ⟨h, rfl⟩ := hcode <;> rw [h] <;> rfl
  case mailbox | owner =>
    simp only [List.mem_cons, Prod.mk.injEq, List.not_mem_nil, or_false] at hm
    obtain ⟨h, rfl, rfl⟩ | ⟨h, rfl, rfl⟩ | ⟨h, rfl, rfl⟩ | ⟨h, rfl, rfl⟩ | ⟨h, rfl, rfl⟩ := hm <;> rw [h] <;> rfl
  case notLost =>
    rw [none]
    rfl
  case lost =>
    rw [lost]
    rfl
  case target =>
    obtain ⟨b, hb, hcode'⟩ := statusRegion_target s t
    refine ⟨b, hb, hcode'.trans ?_⟩
    simp only [List.mem_cons, Prod.mk.injEq, List.not_mem_nil, or_false] at hcode
    obtain ⟨h, rfl⟩ | ⟨h, rfl⟩ | ⟨h, rfl⟩ | ⟨h, rfl⟩ := hcode <;> rw [h] <;> rfl
  case mailboxState =>
    have ⟨_, _, length, _⟩ := read
    refine exec_managementRead_accepted head read (by decide) (by decide) (place := .mailboxState) rfl rfl (by decide)
      fun form _ => ?_
    rw [State.readAnswer, form]
    dsimp only
    rw [readOk_eq_answer length, mailboxValue_of_mem hm]
  case requestBuffer =>
    have ⟨_, _, length, _⟩ := read
    refine exec_managementRead_accepted head read low high (placeAt_requestBuffer (by omega) (by omega))
      (decide_eq_true (by omega)) (by decide) fun form offset => ?_
    rw [State.readAnswer, form]
    dsimp only
    rw [requestBufferAnswer, if_pos owner, offset, readOk_eq_answer length, length, Nat.add_sub_cancel_left]
  case resultBuffer =>
    have ⟨_, _, length, _⟩ := read
    refine exec_managementRead_accepted head read low high (placeAt_resultBuffer (by omega) (by omega))
      (decide_eq_true (by omega)) (by decide) fun form offset => ?_
    rw [State.readAnswer, form]
    dsimp only
    rw [resultBufferAnswer, result]
    dsimp only
    rw [if_pos rfl, offset, readOk_eq_answer length, length, Nat.add_sub_cancel_left]
  case resultEarly =>
    refine exec_managementRead_accepted head read low high (placeAt_resultBuffer (by omega) (by omega))
      (decide_eq_true (by omega)) (by decide) fun form _ => ?_
    rw [State.readAnswer, form]
    dsimp only
    obtain h | h := owned <;> simp only [resultBufferAnswer, h, if_true, refusedWith_eq_answer]
  case notOwner =>
    obtain below | above := side
    · refine exec_managementRead_accepted head read low high (placeAt_requestBuffer (by omega) (by omega))
        (decide_eq_true (by omega)) (by decide) fun form _ => ?_
      rw [State.readAnswer, form]
      dsimp only
      rw [requestBufferAnswer, if_neg other, refusedWith_eq_answer]
    · refine exec_managementRead_accepted head read low high (placeAt_resultBuffer (by omega) (by omega))
        (decide_eq_true (by omega)) (by decide) fun form _ => ?_
      rw [State.readAnswer, form]
      dsimp only
      rw [resultBufferAnswer_not_owner other, refusedWith_eq_answer]
  case miss =>
    obtain ⟨offset, management⟩ := offset_eq address
    have form := accessForm_miss offset unmapped
    refine exec_managementRead head read management (by rw [form]; nofun) ?_
    rw [State.readAnswer, form]
    rfl
  case format =>
    obtain ⟨offset, management⟩ := offset_eq address
    have form : accessForm r = .format := by
      refine accessForm_format offset mapped (refused.imp_right fun h place hplace => ?_)
      rw [read]
      exact Bool.eq_false_iff.mpr fun accepted => h (acceptedForm_read hplace accepted)
    refine exec_managementRead head read management (by rw [form]; nofun) ?_
    rw [State.readAnswer, form]
    rfl

end Sys2Proof.Machine

/-! The queue of commands, power-on reset, the link and the outputs (O1, O3, O5, O7, O60). -/

namespace Sys2Proof.Machine

/-- Settles O1. -/
theorem stepTakesFrontCommand : Obligations.StepTakesFrontCommand := by
  intro c rest s pending
  rw [step, pending]

section
variable {s : State}

/-! ## Power-on reset -/

theorem outcomeMark_powerOn (boot : Boot) (pins : Pins) (pending : List Instr) (t : TargetId) :
    (State.powerOn boot pins pending).outcomeMark t = false := rfl

theorem powerOn_atPowerOn (boot : Boot) (pins : Pins) (pending : List Instr) :
    AtPowerOn (.powerOn boot pins pending) where
  windows _ := Vector.getElem_replicate ..
  targets _ := Vector.getElem_replicate ..
  tracker := ⟨rfl, rfl, rfl, fun _ => ⟨Vector.getElem_replicate .., Vector.getElem_replicate ..⟩⟩
  bus := ⟨rfl, rfl, rfl, rfl, rfl, rfl, rfl, fun t => ⟨Vector.getElem_replicate .., outcomeMark_powerOn boot pins pending t⟩⟩
  link := ⟨rfl, rfl, rfl, rfl, rfl⟩
  relay :=
    ⟨rfl, rfl, fun _ => Vector.getElem_replicate .., fun _ =>
      ⟨Vector.getElem_replicate .., fun _ => by simp [Relay.pair, State.powerOn, Relay.powerOn]⟩⟩
  management := ⟨rfl, rfl, rfl, rfl, fun _ => ⟨rfl, rfl⟩, rfl, rfl, rfl, rfl, rfl⟩
  executor := rfl
  handed := rfl

theorem powerOn_sound (boot : Boot) (pins : Pins) (pending : List Instr) : Sound (.powerOn boot pins pending) where
  windows := by simp [WindowLaw, State.powerOn, Window.profile, Window.reserved]
  tracker := by simp [TrackerLaw, State.powerOn, Tracker.powerOn, Tracker.entriesOf]
  counts := by simp [CountLaw, State.powerOn, Tracker.powerOn, Window.count, Window.countAgrees]
  answers := by simp [AnswerLaw, State.powerOn, Tracker.powerOn]
  bus := by simp [BusLaw, State.powerOn, Tracker.powerOn, BusEngine.powerOn, BusState.served, BusState.reported]
  mailbox := by simp [MailboxLaw, State.powerOn, Management.powerOn, Mailbox.isBusy, Mailbox.leased]
  notices := powerOn_noticeLaw
  queues := powerOn_queueLaw
  buffers := powerOn_bufferLaw
  ranges := by
    have ⟨segment, lend, lease, mask⟩ := powerOn_limits (boot := boot) (pins := pins) (pending := pending)
    have ⟨lost, commits, dropped⟩ := powerOn_countsLaw (boot := boot) (pins := pins) (pending := pending)
    exact ⟨powerOn_targets, powerOn_recovery, segment, lend, lease, mask, lost, commits, dropped, powerOn_faults, nofun⟩

theorem exec_porstAsserted (ns : Nat) :
    exec (.porstAsserted ns) s = .next (if 1000 ≤ ns then .powerOn .held s.pins s.pending else s) := by
  change execPorstAsserted ns s = _
  rw [execPorstAsserted]
  exact (apply_ite Host.Outcome.next (1000 ≤ ns) _ _).symm

theorem exec_porstReleased (held : s.power.boot = .held) :
    exec .porstReleased s = .next (.powerOn (.initializing 2000) s.pins s.pending) := if_pos held

end

/-- Settles O3. -/
theorem powerOnReset : Obligations.PowerOnReset := by
  refine ⟨powerOn_atPowerOn .., rfl, powerOn_sound .., fun s ns => ⟨fun long => ?_, fun short => ?_, fun held => ?_⟩⟩
  · exact ⟨_, (exec_porstAsserted ns).trans (congrArg _ (if_pos long)), powerOn_atPowerOn .., rfl, rfl, rfl⟩
  · exact (exec_porstAsserted ns).trans (congrArg _ (if_neg (by omega)))
  · exact ⟨_, exec_porstReleased held, powerOn_atPowerOn .., rfl, rfl, rfl⟩

/-! ## The link -/

section
variable {s : State}

theorem leaveTransmit_contended_iff {left : List OutPacket} {places : Nat} (full : places = Config.transmitPlaces) :
    (s.leaveTransmit left).hlp.contended = true ↔
      (s.hlp.contended = true ∨ (places ≤ s.hlp.transmit.length ∧ left.length < places)) ∧ s.PacketWaits := by
  rw [State.leaveTransmit_hlp_contended, ← placeWinner_isSome, full]
  simp only [Bool.and_eq_true, Bool.or_eq_true, decide_eq_true_eq]

theorem exec_trainingComplete (training : s.hlp.link = .training) :
    exec .trainingComplete s =
      if s.handed.irlNews = [] then
        .next { s with hlp := { s.hlp with link := .up }, irl := { s.irl with linkUp := true } }
      else
        .next { s with hlp := { s.hlp with link := .up }, handed := { s.handed with irlNews := s.handed.irlNews ++ [.up] } } :=
  if_pos training

end

/-- Settles O5. -/
theorem linkStatePassages : Obligations.LinkStatePassages := by
  intro s
  refine ⟨fun n down quiet => ?quietTimeEnd, fun training none => ?complete, fun training some => ?behind,
    fun training => if_pos training, fun up => ?lost⟩
  case quietTimeEnd => exact if_pos ⟨down, by rw [quiet]; rfl⟩
  case complete => rw [exec_trainingComplete training, if_pos none]
  case behind => rw [exec_trainingComplete training, if_neg some]
  case lost =>
    refine ⟨_, if_pos up, rfl, (leaveTransmit_contended_iff (places := 4) rfl).trans (and_congr_right fun _ => Iff.rfl)⟩

/-! ## Handing and sending -/

section
variable {s : State}

theorem placeWinner_mgb (ready : s.mgb.answers ≠ []) (noTrk : s.hlp.pointer = .trk → s.trk.answers = [])
    (noIrl : s.hlp.pointer = .irl → s.ready .irl = false ∧ s.trk.answers = []) : s.placeWinner = some .mgb := by
  have mgb : s.ready .mgb = true := by simpa [State.ready] using ready
  have trk (h : s.trk.answers = []) : s.ready .trk = false := by simp [State.ready, h]
  unfold State.placeWinner
  cases hp : s.hlp.pointer with
  | trk => simp [OutBlock.next, trk (noTrk hp), mgb]
  | mgb => simp [mgb]
  | irl =>
    obtain ⟨irl, answers⟩ := noIrl hp
    simp [OutBlock.next, irl, trk answers, mgb]

theorem exec_mgbAnswerHanded {a : Response} {rest : List Response} (answers : s.mgb.answers = a :: rest)
    (room : s.hlp.transmit.length < 4) (place : s.hlp.contended = true → s.placeWinner = some .mgb) :
    exec .mgbAnswerHanded s =
      .next { s with hlp := s.hlp.hand .mgb (.response a), mgb := { s.mgb with answers := rest } } := by
  change execMgbAnswerHanded s = _
  have ready : s.ready .mgb = true := by simp [State.ready, answers]
  rw [execMgbAnswerHanded, if_pos ((mayHand_iff .mgb).mpr ⟨room, ready, place⟩), answers]

end

/-- Settles O7. -/
theorem packetsAreHandedAndSent : Obligations.PacketsAreHandedAndSent := by
  intro s a as p ps
  refine ⟨fun answers room free => ?free, fun answers room contended noTrk noIrl => ?contended, fun up transmit => ?sent⟩
  case free =>
    rw [exec_mgbAnswerHanded answers room (by simp [free])]
    simp [LinkPort.hand, free]
  case contended =>
    rw [exec_mgbAnswerHanded answers room fun _ => placeWinner_mgb (by simp [answers]) noTrk noIrl]
    simp [LinkPort.hand, contended, OutBlock.next]
  case sent =>
    have sends : exec .packetTransmissionEnd s = .next (s.leaveTransmit s.hlp.transmit.tail) :=
      if_pos ⟨up, by simp [transmit]⟩
    rw [transmit, List.tail_cons] at sends
    exact ⟨_, sends, rfl, leaveTransmit_contended_iff rfl⟩

/-! ## The outputs -/

/-- The codes of section 10.1. -/
def statusCodes : List (Status × Byte) :=
  [(.ok, 0x00), (.retry, 0x01), (.format, 0x02), (.tagBusy, 0x03), (.miss, 0x04), (.span, 0x05), (.denied, 0x06),
    (.align, 0x07), (.offline, 0x08), (.timeout, 0x09), (.postedFault, 0x0A), (.detached, 0x0B), (.notOwner, 0x0C),
    (.mbxState, 0x0D), (.notOutstanding, 0x0E)]

theorem statusCode_of_mem_statusCodes : ∀ x ∈ statusCodes, BitVec.ofNat 8 (statusCode x.1) = x.2 := by decide

theorem packetBytes_response (r : Response) :
    packetBytes (.response r) =
      [BitVec.ofNat 8 (0x80 + 16 * r.initiator.val), BitVec.ofNat 8 r.tag.val, BitVec.ofNat 8 (statusCode r.status),
        BitVec.ofNat 8 r.done] ++ carriedBytes r.carried := by
  rw [packetBytes, Nat.mul_comm r.initiator.val]

theorem packetBytes_notice (n : Notice) :
    packetBytes (.notice n) =
      [BitVec.ofNat 8 (0xC0 + 16 * n.initiator.val), BitVec.ofNat 8 n.source.val, n.vector,
        BitVec.ofNat 8 n.priority.val] := by
  rw [packetBytes, Nat.mul_comm n.initiator.val]

/-- Settles O60. -/
theorem deviceDrivesItsOutputs : Obligations.DeviceDrivesItsOutputs := by
  refine ⟨fun s => ⟨fun h => ?quiet, fun lent => ?lent, fun c r strobe segment run strobing => ?cycle,
    fun down => ?noPacket, fun p ps up transmit => ?packet⟩, fun r code faultCode f codes hcodes hr hf => ?response,
    packetBytes_notice⟩
  case quiet =>
    obtain h | ⟨c, h, run⟩ := h
    · simp only [State.busPins, h, quietPins]
    · simp only [State.busPins, h, run, quietPins]
  case lent => simp only [State.busPins, lent]
  case cycle =>
    have asserted : r.strobing = strobe := by
      rw [Bool.eq_iff_iff, strobing, CycleRun.strobing]
      cases r.phase <;> simp
    cases driven : r.driven <;> simp only [State.busPins, segment, run, asserted, driven, Option.map_none, Option.map_some,
      Option.getD_none, Option.getD_some]
  case noPacket =>
    cases h : s.hlp.link with
    | up => exact absurd h down
    | training | down => simp only [State.linkOut, h]
  case packet => simp only [State.linkOut, up, transmit, List.head?_cons, Option.map_some]
  case response =>
    subst hcodes
    have status : BitVec.ofNat 8 (statusCode r.status) = code := statusCode_of_mem_statusCodes _ hr
    have fault : BitVec.ofNat 8 (statusCode f.status) = faultCode := statusCode_of_mem_statusCodes _ hf
    refine ⟨fun h => ?_, fun data h => ?_, fun n h => ?_, fun h => ?_⟩ <;> rw [packetBytes_response, h, status]
    · rfl
    · rfl
    · rfl
    · rw [carriedBytes, ← fault]
      simp [leBytes, Nat.div_div_eq_div_mul]

end Sys2Proof.Machine

/-! The passage of one bus clock with no command waiting (O2). -/

namespace Sys2Proof.Machine

section
variable {s : State}

theorem dueIf_decide (p : Prop) [Decidable p] (c : Instr) : dueIf (decide p) c = if p then [c] else [] := by
  simp [dueIf]

theorem dueIf_any_endsNow (timer : Option Nat) (c : Instr) :
    dueIf (timer.any endsNow) c = match timer with | some n => if n ≤ 1 then [c] else [] | none => [] := by
  cases timer with
  | none => rfl
  | some n => exact dueIf_decide (n ≤ 1) c

theorem clockTick_held (held : s.power.boot = .held) : s.clockTick = s := by
  simp only [State.clockTick, held]

theorem clockTick_counts (on : s.power.boot ≠ .held) : s.clockTick = { s.counted with pending := s.dueCommands } := by
  cases h : s.power.boot with
  | held => exact absurd h on
  | initializing _ | running => simp only [State.clockTick, h]

theorem msEnds_eq (p : Power) : p.msEnds = !decide (p.msClock < 39999) := by
  rw [Power.msEnds, ← decide_not]
  exact decide_eq_decide.mpr (by rw [show Config.clocksPerMillisecond = 40000 from rfl]; omega)

theorem bus_clocked_segment {c : SegmentContext} (segment : s.pbe.bus = .segment c) :
    s.pbe.bus.clocked = .segment { c with run := c.run.map CycleRun.clocked } := by
  rw [segment]; rfl

theorem due_segment (c : SegmentContext) : (BusState.segment c).due = (c.run.map CycleRun.due).getD [] := by
  cases run : c.run <;> simp only [BusState.due, run, Option.map_none, Option.map_some, Option.getD_none, Option.getD_some]

theorem CycleRun.clocked_eq (r : CycleRun) :
    r.clocked =
      { r with
        phase :=
          match r.phase with
          | .setup => .strobe 0
          | .strobe k => .strobe (min (k + 1) (40 * r.readyTimeout))
          | .hold result => .hold result } := by
  obtain ⟨_, _, _, _, phase⟩ := r
  cases phase <;> rfl

theorem clocked_recovery (k : TargetId) : s.pbe.clocked.recovery[k] = countDown s.pbe.recovery[k] :=
  tabulate_get _ k

theorem overrunDue_clocked {n : Nat} (timer : s.pbe.lendTimer = some n) :
    s.pbe.clocked.overrunDue =
      decide (s.pbe.bus = .lent ∧ s.pbe.overrunMark = false ∧ s.pbe.lendLimit ≠ 0 ∧
        s.pbe.lendLimit ≤ min ((n + 1) / 40) 255) := by
  have micro : s.pbe.clocked.lendMicroseconds = min ((n + 1) / 40) 255 := by
    simp only [BusEngine.lendMicroseconds, BusEngine.clocked, timer, Option.map_some, lendClocked,
      show Config.clocksPerMicrosecond = 40 from rfl]
    omega
  have lent : s.pbe.clocked.bus = .lent ↔ s.pbe.bus = .lent := by
    show s.pbe.bus.clocked = .lent ↔ _
    cases s.pbe.bus <;> simp [BusState.clocked]
  rw [BusEngine.overrunDue, micro, Bool.eq_iff_iff]
  simp only [Bool.and_eq_true, decide_eq_true_eq, lent, Bool.not_eq_true', and_assoc]
  rfl

theorem overrunDue_clocked_none (timer : s.pbe.lendTimer = none) : s.pbe.clocked.overrunDue = false := by
  have micro : s.pbe.clocked.lendMicroseconds = 0 := by
    simp only [BusEngine.lendMicroseconds, BusEngine.clocked, timer, Option.map_none]
  rw [BusEngine.overrunDue, micro]
  simp

end

/-- Settles O2. -/
theorem emptyQueueStepIsOneBusClock : Obligations.EmptyQueueStepIsOneBusClock := by
  intro s down down_eq pending
  have ticks : step s = .next s.clockTick := by rw [step, pending]
  obtain rfl : down = countDown := funext down_eq
  refine ⟨fun held => by rw [ticks, clockTick_held held], fun on => ⟨s.power.boot.counted, s.pbe.bus.clocked,
    s.pbe.clocked.recovery, fun running => by rw [running]; rfl, fun n counting => by rw [counting]; rfl,
    fun idle => by rw [idle]; rfl, fun lent => by rw [lent]; rfl, fun c segment none => ?_, fun c r segment run => ?_,
    clocked_recovery, ?_⟩⟩
  · obtain ⟨⟩ := c
    subst none
    exact bus_clocked_segment segment
  · rw [bus_clocked_segment segment, run, Option.map_some]
    exact congrArg (fun q => BusState.segment { c with run := some q }) (CycleRun.clocked_eq r)
  · rw [ticks, clockTick_counts on]
    refine congrArg₂ (fun (clock : Nat) (due : List Instr) => Host.Outcome.next { s.counted with
      power := ⟨s.power.boot.counted, clock⟩, pending := due }) ?clock
      (congrArg₂ (· ++ ·) (congrArg₂ (· ++ ·) (congrArg₂ (· ++ ·) (congrArg₂ (· ++ ·) (congrArg₂ (· ++ ·)
        (congrArg₂ (· ++ ·) ?boot ?quiet) ?tick) rfl) ?cycle) ?lending) ?lease)
    case clock =>
      rw [msEnds_eq]
      by_cases counting : s.power.msClock < 39999 <;> simp [counting]
    case boot =>
      cases s.power.boot with
      | initializing n => exact dueIf_decide (n ≤ 1) _
      | running | held => rfl
    case quiet => exact dueIf_any_endsNow s.hlp.quiet _
    case tick =>
      rw [msEnds_eq]
      by_cases counting : s.power.msClock < 39999 <;> simp [counting, dueIf]
    case cycle =>
      cases s.pbe.bus with
      | idle | lent => rfl
      | segment c =>
        rw [due_segment]
        dsimp only
        cases c.run with
        | none => rfl
        | some r =>
          obtain ⟨_, _, timeout, _, phase⟩ := r
          cases phase with
          | strobe k => exact dueIf_decide _ _
          | setup | hold _ => rfl
    case lending =>
      cases timer : s.pbe.lendTimer with
      | none => rw [overrunDue_clocked_none timer]; rfl
      | some n => rw [overrunDue_clocked timer, dueIf_decide]
    case lease => exact dueIf_any_endsNow s.mgb.leaseTimer _

end Sys2Proof.Machine

/-! OFFLINE_ANNOUNCEMENT: the entries reached fail one by one (O14). -/

namespace Sys2Proof.Machine

/-! ## The failing of one entry -/

/-- The entries `l` are to be failed one by one: different ones, in the tracker, WAITING, and of transfers. -/
structure Awaits (s : State) (l : List Entry) : Prop where
  distinct : (l.map Entry.slot).Nodup
  slots : DistinctSlots s
  await : AwaitTransfer s l

/-- An entry after its failing, where it does not leave. -/
def Entry.offline (e : Entry) : Entry := { e with state := .done .offline }

/-- An entry after the failing of `l`. -/
def Entry.failedIn (l : List Entry) (e : Entry) : Entry := if e ∈ l then e.offline else e

/-- The posted-fault record after the failing of a POSTED entry (R57, R58). -/
def Entry.faultAfter (record : Option FaultRecord) (e : Entry) : Option FaultRecord :=
  match e.body with
  | .transfer x => some (faultsRecorded record .offline x.address x.progress 1)
  | .flush _ => record

/-- The POSTED entries of `l` that an initiator has. -/
abbrev postedOf (l : List Entry) (i : Initiator) : List Entry :=
  (l.filter Entry.isPosted).filter fun e => decide (e.initiator = i)

section
variable {s t : State} {e : Entry} {l : List Entry}

theorem Awaits.head (h : Awaits s (e :: l)) : e ∈ s.trk.entries ∧ e.state = .waiting ∧ ∃ x, e.body = .transfer x := by
  obtain ⟨mem, waiting, transfer⟩ := h.await e List.mem_cons_self
  obtain ⟨x, hx⟩ := Option.isSome_iff_exists.mp transfer
  exact ⟨mem, waiting, x, Thins.transfer_body hx⟩

theorem Awaits.mem (h : Awaits s (e :: l)) : e ∈ s.trk.entries := h.head.1

theorem Awaits.isFlush (h : Awaits s (e :: l)) : e.isFlush = false := by
  obtain ⟨-, -, x, body⟩ := h.head
  exact isFlush_of_body body

theorem Awaits.tail (h : Awaits s (e :: l)) : Awaits (s.failOffline e) l := by
  obtain ⟨fresh, distinct⟩ := List.nodup_cons.mp h.distinct
  refine ⟨distinct, (Thins.failOffline h.slots h.mem).slots h.slots, fun f hf => ?_⟩
  obtain ⟨mem, waiting, transfer⟩ := h.await f (List.mem_cons_of_mem _ hf)
  exact ⟨failOffline_keeps h.slots h.mem mem (fun same => fresh (same ▸ List.mem_map_of_mem hf)) transfer, waiting, transfer⟩

/-- Without its first entry, none of the others is the first or has its slot. -/
theorem Awaits.fresh (h : Awaits s (e :: l)) : e ∉ l := fun hl =>
  (List.nodup_cons.mp h.distinct).1 (List.mem_map_of_mem hl)

theorem failOffline_posted (h : Awaits s (e :: l)) (posted : e.isPosted = true) :
    s.failOffline e = s.left e (s.trk.flushesBehind e) (e.faultAfter s.trk.faults[e.initiator]) True := by
  obtain ⟨mem, -, x, body⟩ := h.head
  have kind : x.kind = .posted := by simpa only [Entry.isPosted, body, decide_eq_true_eq] using posted
  have transfer : e.transfer = some x := by rw [Entry.transfer, body]
  have fault : e.faultAfter s.trk.faults[e.initiator] =
      some (faultsRecorded s.trk.faults[e.initiator] .offline x.address x.progress 1) := by rw [Entry.faultAfter, body]
  unfold State.failOffline
  simp only [transfer, kind]
  rw [fault]
  exact finishPosted_eq h.slots mem rfl h.isFlush x .offline rfl (by rfl)

theorem failOffline_unposted (h : Awaits s (e :: l)) (unposted : e.isPosted = false) :
    s.failOffline e = { s with trk := { s.trk with entries := s.trk.entries.map (Entry.failedIn [e]) } } := by
  obtain ⟨mem, -, x, body⟩ := h.head
  have kind : x.kind ≠ .posted := by simpa only [Entry.isPosted, body, decide_eq_false_iff_not] using unposted
  have transfer : e.transfer = some x := by rw [Entry.transfer, body]
  have changed : changeEntry s.trk.entries e.slot (fun f => { f with state := .done .offline }) =
      s.trk.entries.map (Entry.failedIn [e]) := by
    refine List.map_congr_left fun f hf => ?_
    exact if_congr (Iff.trans ⟨slot_inj h.slots mem hf, fun same => same ▸ rfl⟩ List.mem_singleton.symm) rfl rfl
  unfold State.failOffline
  simp only [transfer]
  cases hk : x.kind with
  | posted => exact absurd hk kind
  | read | write => simp only [changed]

/-! ## What the failing of several entries does as a whole -/

/-- Only the windows, the tracker but its answers, detaches and next serial number, the events and the FLUSH withdrawals
move. -/
def FailsOnly (s t : State) : Prop :=
  t = { s with
        wdc := t.wdc
        trk := { t.trk with answers := s.trk.answers, detaches := s.trk.detaches, nextSerial := s.trk.nextSerial }
        handed := { s.handed with events := t.handed.events, withdrawals := t.handed.withdrawals } }

theorem FailsOnly.trans {u : State} (h : FailsOnly s t) (h' : FailsOnly t u) : FailsOnly s u := by
  unfold FailsOnly at *
  exact h'.trans (by rw [h])

theorem failOffline_only (h : Awaits s (e :: l)) : FailsOnly s (s.failOffline e) := by
  cases posted : e.isPosted with
  | true => rw [failOffline_posted h posted]; rfl
  | false => rw [failOffline_unposted h posted]; rfl

theorem failOffline_fold_only : ∀ {l : List Entry} {s : State}, Awaits s l → FailsOnly s (l.foldl State.failOffline s)
  | [], _, _ => rfl
  | _ :: _, _, h => (failOffline_only h).trans (failOffline_fold_only h.tail)

theorem failOffline_events (h : Awaits s (e :: l)) :
    (s.failOffline e).handed.events =
      s.handed.events ++ ([e].filter Entry.isPosted).map fun e => .postedFault e.initiator := by
  cases posted : e.isPosted with
  | true => rw [failOffline_posted h posted]; simp [State.left, posted]
  | false => rw [failOffline_unposted h posted]; simp [posted]

theorem failOffline_fold_events : ∀ {l : List Entry} {s : State}, Awaits s l →
    (l.foldl State.failOffline s).handed.events =
      s.handed.events ++ (l.filter Entry.isPosted).map fun e => .postedFault e.initiator
  | [], _, _ => by simp
  | e :: l, _, h => by
    rw [List.foldl_cons, failOffline_fold_events h.tail, failOffline_events h, List.append_assoc, ← List.map_append,
      ← List.filter_append, List.singleton_append]

theorem failOffline_window (h : Awaits s (e :: l)) (w : WindowIx) :
    (s.failOffline e).wdc[w] = s.wdc[w].losing (([e].filter Entry.isPosted).filter fun e => e.refersTo w).length := by
  cases posted : e.isPosted with
  | true =>
    rw [failOffline_posted h posted]
    change (releaseWindow s.wdc e)[w] = _
    rw [releaseWindow_get]
    cases refers : e.refersTo w <;> simp [posted, refers, Window.losing_one]
  | false => rw [failOffline_unposted h posted]; simp [posted]

theorem failOffline_fold_window (w : WindowIx) : ∀ {l : List Entry} {s : State}, Awaits s l →
    (l.foldl State.failOffline s).wdc[w] =
      s.wdc[w].losing ((l.filter Entry.isPosted).filter fun e => e.refersTo w).length
  | [], _, _ => by simp
  | e :: l, _, h => by
    rw [List.foldl_cons, failOffline_fold_window w h.tail, failOffline_window h, Window.losing_losing, ← List.length_append,
      ← List.filter_append, ← List.filter_append, List.singleton_append]

/-! ## The entries -/

/-- The entries but FLUSH entries. -/
abbrev State.transfers (s : State) : List Entry := s.trk.entries.filter fun e => !e.isFlush

theorem flushDone_keeps_isFlush {due : List Entry} {report : Option FaultRecord}
    (flushes : ∀ f ∈ due, f.isFlush = true) (f : Entry) : (Entry.flushDone due report f).isFlush = f.isFlush := by
  obtain ⟨-, -, -, -, -, flush, -⟩ := identity_eq (flushDone_identity_of_flushes (report := report) flushes f)
  exact flush

theorem failedIn_isFlush (l : List Entry) (f : Entry) : (f.failedIn l).isFlush = f.isFlush := by
  unfold Entry.failedIn
  split <;> rfl

theorem filter_map_of_kept {es : List Entry} {p : Entry → Bool} {g : Entry → Entry} (kept : ∀ f, p (g f) = p f) :
    (es.map g).filter p = (es.filter p).map g := by
  rw [List.filter_map]
  exact congrArg _ (List.filter_congr fun f _ => kept f)

theorem failOffline_transfers (h : Awaits s (e :: l)) :
    (s.failOffline e).transfers =
      (s.transfers.filter fun f => !decide (f ∈ [e].filter Entry.isPosted)).map (Entry.failedIn [e]) := by
  cases posted : e.isPosted with
  | true =>
    have flushes : ∀ f ∈ s.trk.flushesBehind e, f.isFlush = true := fun _ => flushesBehind_isFlush
    rw [failOffline_posted h posted]
    change ((s.trk.entries.filter fun f => decide (f.slot ≠ e.slot)).map _).filter _ = _
    rw [filter_map_of_kept fun f => congrArg Bool.not (flushDone_keeps_isFlush flushes f), List.filter_comm,
      List.filter_congr (p := fun f : Entry => decide (f.slot ≠ e.slot)) (q := fun f => !decide (f ∈ [e].filter Entry.isPosted))]
    · refine List.map_congr_left fun f hf => ?_
      obtain ⟨hf, others⟩ := List.mem_filter.mp hf
      have transfer : f.isFlush = false := by simpa using (List.mem_filter.mp hf).2
      rw [flushDone_of_transfer transfer flushes, Entry.failedIn, if_neg (by simpa [posted] using others)]
    · intro f hf
      have mem := (List.mem_filter.mp hf).1
      simp only [List.filter_singleton, posted, cond_true, List.mem_singleton, ← decide_not, decide_eq_decide]
      exact not_congr ⟨slot_inj h.slots h.mem mem, fun same => same ▸ rfl⟩
  | false =>
    rw [failOffline_unposted h posted]
    change (s.trk.entries.map _).filter _ = _
    rw [filter_map_of_kept fun f => congrArg Bool.not (failedIn_isFlush [e] f)]
    simp [posted]

theorem failedIn_mem_iff (h : Awaits s (e :: l)) (f : Entry) : f.failedIn [e] ∈ l ↔ f ∈ l := by
  by_cases hf : f = e
  · subst hf
    rw [Entry.failedIn, if_pos (List.mem_singleton_self f)]
    refine iff_of_false (fun hl => ?_) h.fresh
    obtain ⟨-, waiting, -⟩ := h.await _ (List.mem_cons_of_mem _ hl)
    cases waiting
  · rw [Entry.failedIn, if_neg (by simpa using hf)]

theorem failedIn_failedIn (h : Awaits s (e :: l)) (f : Entry) : (f.failedIn [e]).failedIn l = f.failedIn (e :: l) := by
  have unfolded : (f.failedIn [e]).failedIn l = if f ∈ l then (f.failedIn [e]).offline else f.failedIn [e] :=
    if_congr (failedIn_mem_iff h f) rfl rfl
  rw [unfolded]
  by_cases hf : f = e
  · subst hf
    simp [Entry.failedIn, h.fresh]
  · simp [Entry.failedIn, hf]

theorem failedIn_isPosted (l : List Entry) (f : Entry) : (f.failedIn l).isPosted = f.isPosted := by
  unfold Entry.failedIn
  split <;> rfl

theorem failOffline_fold_transfers : ∀ {l : List Entry} {s : State}, Awaits s l →
    (l.foldl State.failOffline s).transfers =
      (s.transfers.filter fun f => !decide (f ∈ l.filter Entry.isPosted)).map (Entry.failedIn l)
  | [], s, _ => by
    have same : Entry.failedIn [] = id := funext fun f => if_neg List.not_mem_nil
    rw [same]
    simp
  | e :: l, s, h => by
    rw [List.foldl_cons, failOffline_fold_transfers h.tail, failOffline_transfers h, List.filter_map, List.filter_filter,
      List.map_map]
    have keeps (f : Entry) : (!decide (f.failedIn [e] ∈ l.filter Entry.isPosted) && !decide (f ∈ [e].filter Entry.isPosted)) =
        !decide (f ∈ (e :: l).filter Entry.isPosted) := by
      have mem : f.failedIn [e] ∈ l.filter Entry.isPosted ↔ f ∈ l.filter Entry.isPosted := by
        rw [List.mem_filter, List.mem_filter, failedIn_mem_iff h, failedIn_isPosted]
      rw [← List.singleton_append (l := l), List.filter_append, Bool.eq_iff_iff]
      simp only [Bool.and_eq_true, Bool.not_eq_true', decide_eq_false_iff_not, List.mem_append, mem]
      tauto
    exact congrArg₂ (fun p g => (s.transfers.filter p).map g) (funext keeps) (funext (failedIn_failedIn h))

/-! ## The gate -/

theorem failOffline_gate (h : Awaits s (e :: l)) :
    (s.failOffline e).trk.gate =
      if s.trk.gate = .quiescing ∧ (s.failOffline e).trk.entries = [] then .quiesced else s.trk.gate := by
  cases posted : e.isPosted with
  | true =>
    rw [failOffline_posted h posted]
    refine (afterDeparture_eq ..).trans (if_congr (and_congr_right fun _ => ?_) rfl rfl)
    exact List.map_eq_nil_iff.symm
  | false =>
    rw [failOffline_unposted h posted]
    exact (if_neg fun gone => List.ne_nil_of_mem h.mem (List.map_eq_nil_iff.mp gone.2)).symm

theorem failOffline_fold_gate : ∀ {l : List Entry} {s : State}, Awaits s l →
    (l.foldl State.failOffline s).trk.gate =
      if s.trk.gate = .quiescing ∧ (l.foldl State.failOffline s).trk.entries = [] ∧ s.trk.entries ≠ [] then .quiesced
      else s.trk.gate
  | [], s, _ => (if_neg fun gone => gone.2.2 gone.2.1).symm
  | e :: l, s, h => by
    have some : s.trk.entries ≠ [] := List.ne_nil_of_mem h.mem
    have first := failOffline_gate h
    by_cases gone : (s.failOffline e).trk.entries = []
    · have last : l = [] := List.eq_nil_iff_forall_not_mem.mpr fun f hf => by
        obtain ⟨mem, -⟩ := h.tail.await f hf
        rw [gone] at mem
        cases mem
      subst last
      simpa [gone, some] using first
    · rw [if_neg fun h => gone h.2] at first
      rw [List.foldl_cons, failOffline_fold_gate h.tail, first]
      simp only [gone, some, ne_eq, not_false_eq_true]

end

end Sys2Proof.Machine

namespace Sys2Proof.Machine

/-! ## What the failing does to the FLUSH entries and the posted-fault record of an initiator -/

/-- An entry that the judging of an initiator's FLUSH entries looks at (R60). -/
def Entry.judgedFor (i : Initiator) (e : Entry) : Bool := decide (e.initiator = i) && (e.isFlush || e.isPosted)

/-- An initiator's FLUSH entries, in age order. -/
abbrev State.flushesOf (s : State) (i : Initiator) : List Entry := (s.trk.entriesOf i).filter Entry.isFlush

/-- The withdrawals told for an initiator. -/
abbrev State.withdrawalsOf (s : State) (i : Initiator) : List Clearing :=
  s.handed.withdrawals.filter fun c => decide (c.initiator = i)

/-- An initiator's posted-fault record, the entries its FLUSH entries are judged by, its withdrawals and its events of source
8 are the same. -/
structure SameFor (i : Initiator) (s t : State) : Prop where
  faults : t.trk.faults[i] = s.trk.faults[i]
  judged : t.trk.entries.filter (Entry.judgedFor i) = s.trk.entries.filter (Entry.judgedFor i)
  withdrawals : t.withdrawalsOf i = s.withdrawalsOf i
  events : t.handed.events.count (.postedFault i) = s.handed.events.count (.postedFault i)

section
variable {s t : State} {i : Initiator} {e : Entry} {l : List Entry}

theorem SameFor.trans {u : State} (h : SameFor i s t) (h' : SameFor i t u) : SameFor i s u :=
  ⟨h'.faults.trans h.faults, h'.judged.trans h.judged, h'.withdrawals.trans h.withdrawals, h'.events.trans h.events⟩

theorem flushesOf_eq (s : State) (i : Initiator) :
    s.flushesOf i = (s.trk.entries.filter (Entry.judgedFor i)).filter Entry.isFlush := by
  rw [State.flushesOf, Tracker.entriesOf, List.filter_filter, List.filter_filter]
  refine List.filter_congr fun f _ => ?_
  cases hf : f.isFlush <;> simp [Entry.judgedFor, hf]

theorem isPosted_eq_usedTag (f : Entry) : f.isPosted = f.usedTag.isNone := by
  cases posted : f.isPosted <;> simp [Entry.usedTag, posted]

theorem judgedFor_of_identity {f g : Entry} (same : g.identity = f.identity) (i : Initiator) :
    g.judgedFor i = f.judgedFor i := by
  obtain ⟨-, -, initiator, -, -, flush, tag, -⟩ := identity_eq same
  rw [Entry.judgedFor, initiator, flush, isPosted_eq_usedTag, tag, ← isPosted_eq_usedTag, Entry.judgedFor]

theorem judgedFor_initiator {f : Entry} (judged : f.judgedFor i = true) : f.initiator = i := by
  simp only [Entry.judgedFor, Bool.and_eq_true, decide_eq_true_eq] at judged
  exact judged.1

theorem failedIn_identity (l : List Entry) (f : Entry) : (f.failedIn l).identity = f.identity := by
  unfold Entry.failedIn
  split <;> rfl

theorem flushDone_initiator {due : List Entry} {report : Option FaultRecord} (flushes : ∀ f ∈ due, f.isFlush = true)
    (f : Entry) : (Entry.flushDone due report f).initiator = f.initiator := by
  obtain ⟨-, -, initiator, -⟩ := identity_eq (flushDone_identity_of_flushes (report := report) flushes f)
  exact initiator

theorem postedOf_cons (e : Entry) (l : List Entry) (i : Initiator) :
    postedOf (e :: l) i = if e.isPosted = true ∧ e.initiator = i then e :: postedOf l i else postedOf l i := by
  cases posted : e.isPosted <;> by_cases initiator : e.initiator = i <;> simp [posted, initiator]

theorem SameFor.flushes (h : SameFor i s t) : t.flushesOf i = s.flushesOf i := by
  rw [flushesOf_eq, flushesOf_eq, h.judged]

/-- The FLUSH entries that wait for an entry alone are told by the judged entries of its initiator. -/
theorem flushesBehind_judged (slots : DistinctSlots s) (e : Entry) :
    s.trk.flushesBehind e =
      (⟨s.trk.entries.filter (Entry.judgedFor e.initiator), s.trk.gate, s.trk.faults, s.trk.answers, s.trk.detaches,
        s.trk.nextSerial⟩ : Tracker).flushesBehind e := by
  unfold Tracker.flushesBehind
  rw [List.filter_filter]
  refine List.filter_congr fun f hf => ?_
  by_cases judged : f.isFlush = true ∧ f.initiator = e.initiator
  · obtain ⟨flush, initiator⟩ := judged
    have kept : f.judgedFor e.initiator = true := by simp [Entry.judgedFor, flush, initiator]
    rw [olderThan_filter fun g hg same => by rw [slot_inj slots hf hg same]; exact kept, List.all_filter, kept, Bool.and_true]
    refine congrArg _ (congrArg _ (funext fun h => ?_))
    cases posted : h.isPosted <;> by_cases hi : h.initiator = e.initiator <;> simp [Entry.judgedFor, posted, hi]
  · rw [not_and_or, Bool.not_eq_true] at judged
    obtain flush | initiator := judged
    · simp [flush]
    · simp [initiator]

theorem SameFor.flushesBehind (h : SameFor e.initiator s t) (slots : DistinctSlots s) (slots' : DistinctSlots t) :
    t.trk.flushesBehind e = s.trk.flushesBehind e := by
  rw [flushesBehind_judged slots, flushesBehind_judged slots', h.judged]
  rfl

/-- The failing of an entry that is not a POSTED one of the initiator changes nothing for the initiator. -/
theorem SameFor.failOffline (h : Awaits s (e :: l)) (other : ¬(e.isPosted = true ∧ e.initiator = i)) :
    SameFor i s (s.failOffline e) := by
  cases posted : e.isPosted with
  | true =>
    have differs : e.initiator ≠ i := fun same => other ⟨posted, same⟩
    rw [failOffline_posted h posted]
    refine ⟨table_set_other _ _ differs, ?_, ?_, ?_⟩
    · change ((s.trk.entries.filter fun f => decide (f.slot ≠ e.slot)).map _).filter _ = _
      rw [filter_map_of_kept fun f => judgedFor_of_identity (flushDone_identity_of_flushes (fun _ => flushesBehind_isFlush) f) i,
        List.filter_comm, List.filter_eq_self.mpr]
      · refine (List.map_congr_left fun f hf => ?_).trans (List.map_id _)
        refine flushDone_of_not_mem fun due => differs ?_
        obtain ⟨-, -, -, initiator, -⟩ := mem_flushesBehind.mp due
        exact initiator.symm.trans (judgedFor_initiator (List.mem_filter.mp hf).2)
      · intro f hf
        obtain ⟨mem, judged⟩ := List.mem_filter.mp hf
        refine decide_eq_true fun same => differs ?_
        rw [← slot_inj h.slots h.mem mem same]
        exact judgedFor_initiator judged
    · change List.filter _ (_ ++ _) = _
      rw [List.filter_append]
      split <;> simp [differs]
    · change List.count _ (_ ++ _) = _
      simp [differs]
  | false =>
    rw [failOffline_unposted h posted]
    refine ⟨rfl, ?_, rfl, rfl⟩
    change (s.trk.entries.map _).filter _ = _
    rw [filter_map_of_kept fun f => judgedFor_of_identity (failedIn_identity [e] f) i]
    refine (List.map_congr_left fun f hf => if_neg fun same => ?_).trans (List.map_id _)
    obtain rfl := List.mem_singleton.mp same
    simpa [Entry.judgedFor, h.isFlush, posted] using (List.mem_filter.mp hf).2

theorem SameFor.failOffline_fold : ∀ {l : List Entry} {s : State}, Awaits s l → postedOf l i = [] →
    SameFor i s (l.foldl State.failOffline s)
  | [], _, _, _ => ⟨rfl, rfl, rfl, rfl⟩
  | e :: l, _, h, unposted => by
    rw [postedOf_cons] at unposted
    split_ifs at unposted with mine
    exact (SameFor.failOffline h mine).trans (SameFor.failOffline_fold h.tail unposted)

/-- The failing of a POSTED entry, for its initiator (R57, R58, R60, R61). -/
theorem failOffline_for (h : Awaits s (e :: l)) (posted : e.isPosted = true) (initiator : e.initiator = i)
    {report : Option FaultRecord} {due : List Entry} (hreport : report = e.faultAfter s.trk.faults[i])
    (hdue : due = s.trk.flushesBehind e) :
    (s.failOffline e).trk.faults[i] = (if due = [] then report else none) ∧
      (s.failOffline e).flushesOf i = (s.flushesOf i).map (Entry.flushDone due report) ∧
      (s.failOffline e).withdrawalsOf i =
        s.withdrawalsOf i ++
          if due = [] then [] else [⟨i, s.handed.events.count (.postedFault i) + 1⟩] := by
  subst initiator
  rw [failOffline_posted h posted, ← hdue, ← hreport]
  have flushes : ∀ f ∈ due, f.isFlush = true := fun f hf => flushesBehind_isFlush (hdue ▸ hf)
  refine ⟨table_set_same .., ?_, ?_⟩
  · change (((s.trk.entries.filter fun f => decide (f.slot ≠ e.slot)).map _).filter _).filter _ = _
    rw [filter_map_of_kept fun f => congrArg (fun j => decide (j = e.initiator)) (flushDone_initiator flushes f),
      filter_map_of_kept (flushDone_keeps_isFlush flushes)]
    refine congrArg _ ?_
    suffices kept : (s.flushesOf e.initiator).filter (fun f => decide (f.slot ≠ e.slot)) = s.flushesOf e.initiator by
      refine Eq.trans ?_ kept
      simp only [Tracker.entriesOf, List.filter_filter]
      exact List.filter_congr fun f _ => by ac_rfl
    refine List.filter_eq_self.mpr fun f hf => decide_eq_true fun same => ?_
    obtain ⟨mem, flush⟩ := List.mem_filter.mp hf
    replace mem := (List.mem_filter.mp mem).1
    rw [slot_inj h.slots h.mem mem same, h.isFlush] at flush
    cases flush
  · obtain ⟨-, -, x, body⟩ := h.head
    have some : report.isSome = true := by rw [hreport, Entry.faultAfter, body]; rfl
    change List.filter _ (_ ++ _) = _
    rw [List.filter_append]
    by_cases none : due = [] <;> simp [none, some]

/-- Where an initiator has one POSTED entry to be failed (R60, R61). -/
theorem failOffline_fold_one : ∀ {l : List Entry} {s : State}, Awaits s l → postedOf l i = [e] →
    ∀ (report : Option FaultRecord) (due : List Entry), report = e.faultAfter s.trk.faults[i] → due = s.trk.flushesBehind e →
    (l.foldl State.failOffline s).trk.faults[i] = (if due = [] then report else none) ∧
      (l.foldl State.failOffline s).flushesOf i = (s.flushesOf i).map (Entry.flushDone due report) ∧
      (l.foldl State.failOffline s).withdrawalsOf i =
        s.withdrawalsOf i ++
          if due = [] then [] else [⟨i, s.handed.events.count (.postedFault i) + 1⟩]
  | [], _, _, one, _, _, _, _ => by cases one
  | a :: l, s, h, one, report, due, hreport, hdue => by
    rw [postedOf_cons] at one
    split_ifs at one with mine
    · obtain ⟨posted, initiator⟩ := mine
      obtain ⟨rfl, none⟩ := List.cons.inj one
      have same := SameFor.failOffline_fold h.tail none
      rw [List.foldl_cons, same.faults, same.flushes, same.withdrawals]
      exact failOffline_for h posted initiator hreport hdue
    · have same := SameFor.failOffline h mine
      have initiator : e.initiator = i := by
        have mem : e ∈ postedOf l i := by rw [one]; exact List.mem_singleton_self e
        exact of_decide_eq_true (List.mem_filter.mp mem).2
      have rest := failOffline_fold_one h.tail one _ _ (hreport.trans (by rw [same.faults]))
        (hdue.trans ((initiator ▸ same).flushesBehind h.slots h.tail.slots).symm)
      rwa [same.flushes, same.withdrawals, same.events] at rest

/-- Where no FLUSH entry of an initiator waits, its posted-fault record takes the faults one by one (R58). -/
theorem failOffline_fold_unwaited : ∀ {l : List Entry} {s : State}, Awaits s l →
    (∀ f ∈ s.flushesOf i, f.state ≠ .waiting) →
    (l.foldl State.failOffline s).trk.faults[i] = (postedOf l i).foldl Entry.faultAfter s.trk.faults[i] ∧
      (l.foldl State.failOffline s).flushesOf i = s.flushesOf i ∧
      (l.foldl State.failOffline s).withdrawalsOf i = s.withdrawalsOf i
  | [], _, _, _ => ⟨rfl, rfl, rfl⟩
  | e :: l, s, h, unwaited => by
    rw [List.foldl_cons, postedOf_cons]
    split_ifs with mine
    · obtain ⟨posted, initiator⟩ := mine
      have none : s.trk.flushesBehind e = [] := List.eq_nil_iff_forall_not_mem.mpr fun f hf => by
        obtain ⟨mem, flush, waiting, hi, -⟩ := mem_flushesBehind.mp hf
        exact unwaited f (List.mem_filter.mpr ⟨List.mem_filter.mpr ⟨mem, decide_eq_true (hi.trans initiator)⟩, flush⟩) waiting
      obtain ⟨faults, flushes, withdrawals⟩ := failOffline_for h posted initiator rfl none.symm
      rw [if_pos rfl] at faults
      rw [funext (Entry.flushDone_nil _), List.map_id'] at flushes
      rw [if_pos rfl, List.append_nil] at withdrawals
      obtain ⟨faults', flushes', withdrawals'⟩ := failOffline_fold_unwaited h.tail (by rwa [flushes])
      exact ⟨faults'.trans (by rw [faults, List.foldl_cons]), flushes'.trans flushes, withdrawals'.trans withdrawals⟩
    · have same := SameFor.failOffline h mine
      obtain ⟨faults', flushes', withdrawals'⟩ := failOffline_fold_unwaited h.tail (by rwa [same.flushes])
      exact ⟨faults'.trans (by rw [same.faults]), flushes'.trans same.flushes, withdrawals'.trans same.withdrawals⟩

theorem body_of_transfer {f : Entry} (transfer : f.isFlush = false) : ∃ x, f.body = .transfer x := by
  cases body : f.body with
  | transfer x => exact ⟨x, rfl⟩
  | flush r => simp [Entry.isFlush, body] at transfer

theorem foldl_faultAfter : ∀ {es : List Entry} {e : Entry} {x : Transfer} (record : Option FaultRecord), e.body = .transfer x →
    (∀ f ∈ es, f.isFlush = false) →
    (e :: es).foldl Entry.faultAfter record = some (faultsRecorded record .offline x.address x.progress (es.length + 1))
  | [], e, x, record, body, _ => by
    rw [List.foldl_cons, Entry.faultAfter, body]
    rfl
  | f :: fs, e, x, record, body, transfers => by
    obtain ⟨y, bodyF⟩ := body_of_transfer (transfers f List.mem_cons_self)
    rw [List.foldl_cons, foldl_faultAfter _ bodyF fun g hg => transfers g (List.mem_cons_of_mem _ hg), Entry.faultAfter, body]
    exact congrArg _ (faultsRecorded_succ ..)

/-! ## The announcement -/

/-- The model's own way of failing the entries reached, with the answers that join behind it. -/
theorem exec_offlineAnnouncement {k : TargetId} {n : Nat} {rest : List Announcement}
    (first : s.handed.announcements = ⟨k, n⟩ :: rest) :
    exec (.offlineAnnouncement k) s =
      .next
        (((s.trk.entries.filter (Announcement.reaches ⟨k, n⟩)).foldl State.failOffline
          { s with handed := { s.handed with announcements := rest } }).joinReady).arbitrate := by
  change execOfflineAnnouncement k s = _
  have taken : takeAnnouncement k s.handed.announcements = some (⟨k, n⟩, rest) := by
    rw [first]
    exact if_pos rfl
  rw [execOfflineAnnouncement, taken]

end

theorem joinReady_failsOnly {s t : State} (only : FailsOnly s t) :
    t.joinReady =
      { s with
        wdc := t.wdc
        trk :=
          { t.trk with
            answers := t.joinReady.trk.answers, detaches := s.trk.detaches, nextSerial := s.trk.nextSerial }
        handed := { s.handed with events := t.handed.events, withdrawals := t.handed.withdrawals } } := by
  rw [joinReady_eq]
  generalize t.trk.answers ++ t.readyAnswers ++ t.readyDetaches = joined
  exact congrArg (fun u : State => { u with trk := { u.trk with answers := joined } }) only

/-- The answers that join, told by the list before (R56, R64, R127). -/
theorem joined_answers {s t : State} (law : AnswerLaw s) (answers : t.trk.answers = s.trk.answers)
    (detaches : t.trk.detaches = s.trk.detaches) :
    t.joinReady.trk.answers =
      s.trk.answers ++
        ((t.trk.entries.filter fun e =>
          e.isDone && !t.trk.answerHeld e && !decide (Answer.entry e.slot ∈ s.trk.answers)).map fun e => .entry e.slot) ++
        (((List.finRange 4).filter fun i =>
          s.trk.detaches[i].isSome && decide (t.trk.entriesOf i = []) && !decide (s.trk.entriesOf i = [])).map
          Answer.detached) := by
  obtain ⟨sound, -, complete⟩ := (answerLaw_iff s).mp law
  rw [joinReady_eq, State.readyAnswers, State.readyDetaches]
  simp only [answers, detaches, answersEntry_eq]
  refine congrArg _ (congrArg _ (List.filter_congr fun i _ => ?_))
  rw [Bool.eq_iff_iff]
  simp only [Bool.and_eq_true, List.isEmpty_iff, decide_eq_true_eq, Bool.not_eq_true',
    ← Bool.not_eq_true, List.contains_iff_mem]
  refine and_congr_right fun ⟨detaching, _⟩ => not_congr ⟨fun h => (sound.detaches i h).2, complete.detaches i detaching⟩

/-- Settles O14: the entries fail one by one, and each initiator's FLUSH entries and record see its own POSTED entries
alone. -/
theorem offlineAnnouncementFails : Obligations.OfflineAnnouncementFails := by
  refine ⟨fun t e => ?held, ?fails⟩
  case held =>
    simp only [answerHeld_iff, owesAnswer_iff]
  case fails =>
    intro s k n rest reached posted tracker law first hreached hposted
    obtain ⟨-, -, slots, -⟩ := tracker
    set s1 : State := { s with handed := { s.handed with announcements := rest } } with hs1
    obtain ⟨distinct, await⟩ := reached_await slots ⟨k, n⟩
    obtain rfl : reached = s.trk.entries.filter (Announcement.reaches ⟨k, n⟩) := hreached
    subst hposted
    set reached := s.trk.entries.filter (Announcement.reaches ⟨k, n⟩) with hreached
    have h : Awaits s1 reached := ⟨distinct, slots, await⟩
    set t := reached.foldl State.failOffline s1 with ht
    have only : FailsOnly s1 t := failOffline_fold_only h
    have answers : t.trk.answers = s.trk.answers := congrArg (fun u => u.trk.answers) only
    have detaches : t.trk.detaches = s.trk.detaches := congrArg (fun u => u.trk.detaches) only
    have joined : t.joinReady = { t with trk := { t.trk with answers := t.joinReady.trk.answers } } := by
      rw [joinReady_eq]
    refine ⟨t.joinReady, exec_offlineAnnouncement first, ?transfers, ?events, fun w => ?window, ?gate,
      ?answers, fun i none => ?untouched, fun i e es x mine body unwaited => ?unwaited,
      fun i e x report due one body hreport hdue => ?one, ?only⟩
    case transfers =>
      rw [joined]
      exact (failOffline_fold_transfers h).trans
        (congrArg (List.map _) (List.filter_filter.trans (List.filter_congr fun _ _ => Bool.and_comm ..)))
    case events => rw [joined]; exact failOffline_fold_events h
    case window => rw [joined]; exact failOffline_fold_window w h
    case gate => rw [joined]; exact failOffline_fold_gate h
    case answers =>
      exact joined_answers law answers detaches
    case untouched =>
      have same := SameFor.failOffline_fold h none
      rw [joined]
      exact ⟨same.faults, same.flushes, same.withdrawals⟩
    case unwaited =>
      obtain ⟨faults, flushes, withdrawals⟩ := failOffline_fold_unwaited h (i := i) fun f hf => by
        obtain ⟨mem, flush⟩ := List.mem_filter.mp hf
        obtain ⟨mem, initiator⟩ := List.mem_filter.mp mem
        exact unwaited f mem (of_decide_eq_true initiator) flush
      have transfers : ∀ f ∈ es, f.isFlush = false := fun f hf => by
        have mem : f ∈ (reached.filter Entry.isPosted).filter fun f => decide (f.initiator = i) := by
          rw [mine]
          exact List.mem_cons_of_mem _ hf
        obtain ⟨-, -, transfer⟩ := await f (List.mem_filter.mp (List.mem_filter.mp mem).1).1
        exact isFlush_of_transfer transfer
      rw [joined]
      exact ⟨faults.trans ((congrArg _ mine).trans (foldl_faultAfter _ body transfers)), flushes, withdrawals⟩
    case one =>
      rw [joined]
      exact failOffline_fold_one h one report due (hreport.trans (by rw [Entry.faultAfter, body])) hdue
    case only => exact joinReady_failsOnly only

end Sys2Proof.Machine
